-- ==== Sys2Proof/Word.lean ====
section
/-! DEFINITION. The words and numbers the JH812's spec names: bytes, race times, frame numbers, counters, port and
slot numbers (00_scope.md, Conventions). No behaviour stands here: comparison and rounding are in Machine/Time.lean. -/

namespace Sys2Proof

/-- One byte on a link. -/
abbrev Byte := BitVec 8

/-- A value of the race clock in µs, modulo 2^32 (R2). -/
abbrev RaceTime := BitVec 32

/-- A cabinet's count of its own video frames, modulo 65536 (R3). -/
abbrev FrameNum := BitVec 16

/-- A 16-bit counter (R189). -/
abbrev Counter := BitVec 16

/-- A cabinet link, LP0 to LP7. -/
abbrev PortNo := Fin 8

/-- A car slot, 0 to 11. -/
abbrev Slot := Fin 12

end Sys2Proof
end

