-- ==== Sys2Proof/Config.lean ====
section
/-! DEFINITION. What the spec leaves open, as constants with no body: nothing in Lean can evaluate them. Each is
applied to State's counter `free`, which every use advances (notes/assumptions/3.md, 4.md). -/

namespace Sys2Proof

/-- FREE VALUE. The table and index bytes of the REPLY to a WRITE_ENTRIES whose payload lacks them: R196 says the
reply always carries its data and does not say what stands for a byte that was never sent. -/
opaque Config.unstatedByte : Nat → Byte

/-- FREE VALUE. Which of several events that are due at one race time is taken next: the spec says "taken in either
order" (R17, R26, R84, R105, R125, R138, R149, R170, R190). -/
opaque Config.eventChoice : Nat → Nat

end Sys2Proof
end

