-- ==== Sys2Proof/Machine/Types.lean ====
section
/-! DEFINITION. The records and enumerations the spec gives the hub's blocks, as plain data. State gathers them
(Machine/State.lean); their reset values are in Machine/Defaults.lean. -/

namespace Sys2Proof.Machine

/-! ### Enumerations (codes: R191, R198) -/

/-- Port state (08, "The Port State Machine"). -/
inductive PortPhase where
  | off | down | train | phase | rate | active | quiet | fault
  deriving DecidableEq, Repr

/-- Race state (R112). -/
inductive RaceState where
  | idle | grid | countdown | running | holdPending | hold | resumePending | finishing | closed
  deriving DecidableEq, Repr

/-- Car state (R27). -/
inductive CarState where
  | free | assigned | live | coasting | parked | lost | finished | retired
  deriving DecidableEq, Repr

/-- The sixteen event kinds, in the order of R139. -/
inductive EventKind where
  | light | green | jumpStart | lapFixed | leadChange | lastLap | finishFixed | contactBegin | contactEnd
  | carCoasting | carLost | carFound | holdBegin | resumeBegin | raceClosed | portFault
  deriving DecidableEq, Repr

/-- Reason of an entry into FAULT (R139). -/
inductive FaultReason where
  | train | phase | rate
  deriving DecidableEq, Repr

/-- Status of a REPLY, and reason of a QUIET_REFUSED (R191). -/
inductive Status where
  | ok | privilege | state | range | index | busy | unknown | tooSoon
  deriving DecidableEq, Repr

/-- Link rate in Mbit/s (R150). -/
inductive LinkRate where
  | r10 | r20
  deriving DecidableEq, Repr

/-- Pacing source of a port (R67). -/
inductive Pacing where
  | cabinet | clock | command
  deriving DecidableEq, Repr

/-- View mode of a port (R67). -/
inductive ViewMode where
  | fixedList | raceOrder | nearestFirst
  deriving DecidableEq, Repr

/-- Action of a route (R141). -/
inductive RouteAction where
  | cue | notify | autoHold
  deriving DecidableEq, Repr

/-- Target set of a CUE route (R141, R143). -/
inductive TargetSet where
  | all | involved | mask
  deriving DecidableEq, Repr

/-- Cause of a DIRECTOR_MOVED (R172). -/
inductive MoveCause where
  | takeUp | handOver | move
  deriving DecidableEq, Repr

/-- Group of a classification entry (R108). -/
inductive ClassGroup where
  | finished | running | out
  deriving DecidableEq, Repr

/-! ### The Car Table (R27) -/

/-- An accepted sample as stored (R27, R46). -/
structure Sample where
  time : RaceTime
  s : Nat
  lap : Nat
  d : Int
  v : Nat
  w : Int
  a : Int
  offTrack : Bool
  spun : Bool
  deriving DecidableEq, Repr

/-- A Car Record (R27). -/
structure CarRecord where
  enabled : Bool
  owner : PortNo
  seat : Fin 2
  number : Nat
  state : CarState
  last : Option Sample
  prev : Option Sample
  gridS : Option Nat
  jump : Bool
  unplaced : Bool
  finishPlacing : Option Nat
  coastTimer : Option RaceTime
  loseTimer : Option RaceTime
  deriving DecidableEq, Repr

/-! ### Frames the hub sends (R195) -/

/-- An event for the Cue Router (R139): `fault` stands in place of slots for PORT_FAULT. -/
structure Event where
  kind : EventKind
  time : RaceTime
  slots : List Slot
  fault : Option (PortNo × FaultReason)
  deriving DecidableEq, Repr

/-- A cue waiting in a Cue Queue (R143). -/
structure Cue where
  code : Byte
  slots : List Slot
  time : RaceTime
  deriving DecidableEq, Repr

/-- The four notices (R188). -/
inductive Notice where
  | event (e : Event)
  | holdIncomplete (tH : RaceTime) (unacked : List PortNo)
  | directorMoved (former : Option PortNo) (cause : MoveCause)
  | quietRefused (reason : Status)
  deriving DecidableEq, Repr

/-- An entry of a VIEW frame (R79). -/
structure ViewEntry where
  slot : Slot
  number : Nat
  s : Nat
  lap : Nat
  d : Int
  v : Nat
  offTrack : Bool
  spun : Bool
  coasting : Bool
  parked : Bool
  finished : Bool
  held : Bool
  stopped : Bool
  jump : Bool
  deriving DecidableEq, Repr

/-- What a hub frame carries, by kind (R195). -/
inductive FrameBody where
  | train (index : Fin 4) (bytes : List Byte)
  | probe (index : Nat)
  | view (target : FrameNum) (setIndex setSize : Nat) (entries : List ViewEntry)
  | cue (code : Byte) (target : FrameNum) (slots : List Slot) (late : Bool)
  | placing (lap placing : Nat) (slot : Slot) (time : RaceTime) (multi late jump : Bool)
  | holdCall (frame : FrameNum)
  | resumeCall (frame : FrameNum)
  | reply (code : Byte) (status : Status) (data : List Byte)
  | notice (n : Notice)
  deriving DecidableEq, Repr

/-- A hub frame: the header's port byte and DIRECTOR bit as they stood when it was formed, and its body (R191). -/
structure HubFrame where
  portByte : Byte
  director : Bool
  body : FrameBody
  deriving DecidableEq, Repr

/-- The frame on the wire, its send stamp (R4) and the rate it is sent at (R150). -/
structure WireFrame where
  frame : HubFrame
  sent : RaceTime
  rate : LinkRate
  deriving DecidableEq, Repr

/-- A view set in flight (R66): the VIEW frames not yet taken by the arbiter, in index order. -/
structure ViewSet where
  target : FrameNum
  size : Nat
  unsent : List HubFrame
  deriving DecidableEq, Repr

/-! ### Timing (R5) -/

/-- An open rate window (R5, R19). -/
structure RateWindow where
  startFrame : FrameNum
  startArrival : RaceTime
  lastCounted : FrameNum
  deriving DecidableEq, Repr

/-- An open phase sweep (R10, R11): probes queued so far, the send times τ of the probes sent in order, and the answer
filed under each index. -/
structure Sweep where
  number : Nat
  queued : Nat
  sent : List RaceTime
  answers : Vector (Option FrameNum) 64
  deriving DecidableEq, Repr

/-- A Port Timing Record (R5). -/
structure TimingRecord where
  valid : Bool
  delta : Nat
  anchorTime : RaceTime
  anchorFrame : FrameNum
  period : Nat
  pNom : Nat
  tolPpm : Nat
  winFrames : Nat
  lag : Option Int
  window : Option RateWindow
  residual : Option Int
  echoValues : List Nat
  sweep : Option Sweep
  deriving DecidableEq, Repr

/-! ### Link Ports -/

/-- A Port Table entry (R179, R198). -/
structure PortEntry where
  enabled : Bool
  linkRate : LinkRate
  linkTimeout : Nat
  pNom : Nat
  tolPpm : Nat
  winFrames : Nat
  slewMax : Nat
  phaseTol : Nat
  pacing : Pacing
  pacePeriod : Nat
  leadFrames : Nat
  viewMode : ViewMode
  includeOwn : Bool
  deriving DecidableEq, Repr

/-- The seventeen port counters, in the order of R189. -/
structure PortCounters where
  framesRx : Counter
  framing : Counter
  crcError : Counter
  outOfState : Counter
  accepted : Counter
  noSlot : Counter
  retired : Counter
  held : Counter
  outOfWindow : Counter
  stale : Counter
  badPosition : Counter
  badLap : Counter
  lapRegress : Counter
  lapJump : Counter
  clamped : Counter
  viewAbandoned : Counter
  cueDrop : Counter
  deriving DecidableEq, Repr

/-- A TRAIN frame of a round: pattern index and bytes of the round's own copy (R157). -/
structure TrainFrame where
  index : Fin 4
  bytes : List Byte
  deriving DecidableEq, Repr

/-- What a port in TRAIN is doing (R157, R158). In a round, `todo` are the TRAIN frames whose good echo is still
needed; its head is the frame queued or awaited, and `sent` its send stamp once it has been sent. -/
inductive Training where
  | none
  | pause (deadline : RaceTime)
  | round (todo : List TrainFrame) (sent : Option RaceTime)
  deriving DecidableEq, Repr

/-- A port: Link Port, Port Table entry, View Order List, Port Timing Record, Transmit Arbiter, view and cue state. -/
structure Port where
  phase : PortPhase
  faultReason : Option FaultReason
  entry : PortEntry
  viewOrder : List Slot
  lineRate : LinkRate
  gateSample : Bool
  gateCar : Bool
  linkBase : Option RaceTime
  nextInvite : Option RaceTime
  failedRounds : Nat
  training : Training
  timing : TimingRecord
  wire : Option WireFrame
  class1 : List HubFrame
  calls : List HubFrame
  cues : List Cue
  placings : List HubFrame
  outbox : List HubFrame
  viewSet : Option ViewSet
  paceTimer : Option RaceTime
  counters : PortCounters
  deriving DecidableEq, Repr

/-- A training pattern (R163). -/
structure Pattern where
  enabled : Bool
  bytes : List Byte
  deriving DecidableEq, Repr

/-! ### Race, line, cues, management -/

/-- The Race Parameter Record (R110). -/
structure RaceParams where
  lapLength : Nat
  laps : Nat
  lightCount : Nat
  lightStep : Nat
  jumpSpeed : Nat
  jumpDist : Nat
  hF : Nat
  hB : Nat
  dMax : Nat
  coastAfter : Nat
  loseAfter : Nat
  settle : Nat
  proxLong : Nat
  proxLat : Nat
  hyst : Nat
  holdLead : Nat
  holdTimeout : Nat
  grace : Nat
  deriving DecidableEq, Repr

/-- An entry of the ack set (R112). -/
structure AckEntry where
  port : PortNo
  frame : FrameNum
  acked : Bool
  deriving DecidableEq, Repr

/-- The Race Controller's record (R112). -/
structure RaceRecord where
  state : RaceState
  tGreen : Option RaceTime
  finishSeen : Bool
  remembered : Option RaceState
  tH : Option RaceTime
  tR : Option RaceTime
  acks : List AckEntry
  grace : Option RaceTime
  deriving DecidableEq, Repr

/-- State and placing of a Crossing Record (R86): a placing is present only when FIXED. -/
inductive CrossingStatus where
  | provisional
  | fixed (placing : Nat)
  deriving DecidableEq, Repr

/-- A Crossing Record (R86). -/
structure Crossing where
  slot : Slot
  lap : Nat
  time : RaceTime
  rankS : Nat
  status : CrossingStatus
  multi : Bool
  late : Bool
  jump : Bool
  deriving DecidableEq, Repr

/-- A Lap Table record (R88). -/
structure LapRecord where
  count : Nat
  time : Option RaceTime
  leader : Option Slot
  deadline : Option RaceTime
  deriving DecidableEq, Repr

/-- A classification entry (R108). -/
structure ClassEntry where
  position : Nat
  slot : Slot
  number : Nat
  group : ClassGroup
  state : CarState
  lap : Nat
  finishPlacing : Option Nat
  finishTime : Option RaceTime
  unplaced : Bool
  jump : Bool
  deriving DecidableEq, Repr

/-- An Event Route Table entry (R141); filter `none` is ANY. -/
structure Route where
  valid : Bool
  kind : EventKind
  filter : Option Slot
  action : RouteAction
  code : Byte
  target : TargetSet
  mask : Byte
  lead : Nat
  deriving DecidableEq, Repr

/-- A command in the Command Queue (R171, R197): the whole payload, command code first, and the frame's tag. -/
structure Command where
  sender : PortNo
  tag : Byte
  payload : List Byte
  deriving DecidableEq, Repr

/-- The Management Unit's record (R171). `resetPending` holds, while a RESET_HUB is pending, the race time 10,000 µs
after it was taken (R187). -/
structure MgmtRecord where
  director : Option PortNo
  queue : List Command
  resetPending : Option RaceTime
  cmdBusy : Counter
  deriving DecidableEq, Repr

end Sys2Proof.Machine
end

