-- ==== Sys2Proof/Machine/Defaults.lean ====
section
/-! DEFINITION. The values a hub reset gives every table and record (R187 and the table "Tables after a hub reset"). -/

namespace Sys2Proof.Machine

/-- Eight values, one for each port. -/
def perPort {α : Type} (f : PortNo → α) : Vector α 8 := #v[f 0, f 1, f 2, f 3, f 4, f 5, f 6, f 7]

/-- Twelve values, one for each slot. -/
def perSlot {α : Type} (f : Slot → α) : Vector α 12 :=
  #v[f 0, f 1, f 2, f 3, f 4, f 5, f 6, f 7, f 8, f 9, f 10, f 11]

/-- A cleared Port Timing Record (R6). -/
def clearedTiming : TimingRecord :=
  { valid := false, delta := 0, anchorTime := 0, anchorFrame := 0, period := 0, pNom := 0, tolPpm := 0, winFrames := 0,
    lag := none, window := none, residual := none, echoValues := [], sweep := none }

/-- A Port Table entry after a hub reset (R7, R67, R155). -/
def defaultEntry : PortEntry :=
  { enabled := true, linkRate := .r10, linkTimeout := 50000, pNom := 4266667, tolPpm := 2000, winFrames := 64,
    slewMax := 250, phaseTol := 2000, pacing := .cabinet, pacePeriod := 16667, leadFrames := 2,
    viewMode := .raceOrder, includeOwn := false }

/-- All seventeen counters at zero (R189). -/
def zeroCounters : PortCounters :=
  { framesRx := 0, framing := 0, crcError := 0, outOfState := 0, accepted := 0, noSlot := 0, retired := 0, held := 0,
    outOfWindow := 0, stale := 0, badPosition := 0, badLap := 0, lapRegress := 0, lapJump := 0, clamped := 0,
    viewAbandoned := 0, cueDrop := 0 }

/-- Car Record of slot `i` after a hub reset (R28). -/
def resetCar (i : Slot) : CarRecord :=
  { enabled := false, owner := 0, seat := 0, number := i.val + 1, state := .free, last := none, prev := none,
    gridS := none, jump := false, unplaced := false, finishPlacing := none, coastTimer := none, loseTimer := none }

/-- The Race Parameter Record after a hub reset (R110). -/
def defaultParams : RaceParams :=
  { lapLength := 400000, laps := 3, lightCount := 5, lightStep := 1000000, jumpSpeed := 100, jumpDist := 200,
    hF := 100000, hB := 33000, dMax := 600, coastAfter := 100000, loseAfter := 2000000, settle := 250000,
    proxLong := 400, proxLat := 180, hyst := 100, holdLead := 100000, holdTimeout := 500000, grace := 30000000 }

/-- The Race Controller's record after a hub or race reset (R112). -/
def resetRaceRecord : RaceRecord :=
  { state := .idle, tGreen := none, finishSeen := false, remembered := none, tH := none, tR := none, acks := [],
    grace := none }

/-- A Lap Table record after a hub or race reset (R89). -/
def emptyLap : LapRecord := { count := 0, time := none, leader := none, deadline := none }

/-- The Lap Table after a hub or race reset: laps 1 to 100 (R88, R89). -/
def emptyLapTable : Vector LapRecord 100 := Vector.replicate 100 emptyLap

/-- A valid CUE route for every slot. -/
def cueRoute (kind : EventKind) (code : Byte) (target : TargetSet) (lead : Nat) : Route :=
  { valid := true, kind := kind, filter := none, action := .cue, code := code, target := target, mask := 0, lead := lead }

/-- A valid NOTIFY route for every slot. DESIGN CHOICE (notes/assumptions/5.md): R141 gives the cue fields of the
default NOTIFY routes no value; they are zero here (code 0, ALL, mask 0, lead 0). -/
def notifyRoute (kind : EventKind) : Route :=
  { valid := true, kind := kind, filter := none, action := .notify, code := 0, target := .all, mask := 0, lead := 0 }

/-- An invalid route with every other field zero (R141). -/
def emptyRoute : Route :=
  { valid := false, kind := .light, filter := some 0, action := .cue, code := 0, target := .all, mask := 0, lead := 0 }

/-- The Event Route Table after a hub reset (R141). -/
def defaultRoutes : Vector Route 24 :=
  #v[cueRoute .light 0x01 .all 0, cueRoute .green 0x02 .all 0, cueRoute .finishFixed 0x10 .all 50000,
     cueRoute .contactBegin 0x20 .involved 0, notifyRoute .portFault, notifyRoute .carLost, notifyRoute .jumpStart,
     cueRoute .raceClosed 0x30 .all 100000,
     emptyRoute, emptyRoute, emptyRoute, emptyRoute, emptyRoute, emptyRoute, emptyRoute, emptyRoute,
     emptyRoute, emptyRoute, emptyRoute, emptyRoute, emptyRoute, emptyRoute, emptyRoute, emptyRoute]

/-- The Training Pattern Store after a hub reset (R163). -/
def defaultPatterns : Vector Pattern 4 :=
  #v[{ enabled := true, bytes := [0xA5, 0x5A, 0xA5, 0x5A, 0xA5, 0x5A, 0xA5, 0x5A,
                                  0xA5, 0x5A, 0xA5, 0x5A, 0xA5, 0x5A, 0xA5, 0x5A] },
     { enabled := true, bytes := [0x01, 0x02, 0x04, 0x08, 0x10, 0x20, 0x40, 0x80,
                                  0xFE, 0xFD, 0xFB, 0xF7, 0xEF, 0xDF, 0xBF, 0x7F] },
     { enabled := true, bytes := [0xF0, 0x0F, 0xF0, 0x0F, 0xF0, 0x0F, 0xF0, 0x0F,
                                  0xF0, 0x0F, 0xF0, 0x0F, 0xF0, 0x0F, 0xF0, 0x0F] },
     { enabled := false, bytes := [0xB8, 0x5C, 0x2E, 0x17, 0xB3, 0xE1, 0xC8, 0x64,
                                   0x32, 0x19, 0xB4, 0x5A, 0x2D, 0xAE, 0x57, 0x93] }]

/-- The Management Unit's record after a hub reset (R171). -/
def resetMgmt : MgmtRecord := { director := some 0, queue := [], resetPending := none, cmdBusy := 0 }

/-- The pattern an invitation carries: the lowest-numbered enabled pattern, or pattern 0 when none is (R156). -/
def invitationPattern (ps : Vector Pattern 4) : TrainFrame :=
  if ps[0].enabled then ⟨0, ps[0].bytes⟩
  else if ps[1].enabled then ⟨1, ps[1].bytes⟩
  else if ps[2].enabled then ⟨2, ps[2].bytes⟩
  else if ps[3].enabled then ⟨3, ps[3].bytes⟩
  else ⟨0, ps[0].bytes⟩

/-- The first invitation a port queues after a hub reset (R156, R187); the role is vacant, so its DIRECTOR bit is 0. -/
def firstInvitation (p : PortNo) : HubFrame :=
  { portByte := BitVec.ofNat 8 p.val, director := false,
    body := .train (invitationPattern defaultPatterns).index (invitationPattern defaultPatterns).bytes }

/-- Port `p` after a hub reset (R167, R187), given what its wire held: a frame on the wire completes, and the first
invitation waits behind it; an idle line takes the invitation at once (R168) with send stamp 0. The quiet gate is open, also
where the reset ends a QUIET period: the model's choice between R164 and R167, and R166 (notes/assumptions/31.md). -/
def resetPort (p : PortNo) (wire : Option WireFrame) (lineRate : LinkRate) : Port :=
  { phase := .down, faultReason := none, entry := defaultEntry, viewOrder := [],
    lineRate := if wire.isSome then lineRate else .r10,
    gateSample := true, gateCar := true, linkBase := none, nextInvite := some 10000, failedRounds := 0,
    training := .none, timing := clearedTiming,
    wire := match wire with
      | some w => some w
      | none => some { frame := firstInvitation p, sent := 0, rate := .r10 },
    class1 := if wire.isSome then [firstInvitation p] else [],
    calls := [], cues := [], placings := [], outbox := [], viewSet := none, paceTimer := none,
    counters := zeroCounters }

end Sys2Proof.Machine
end

