-- ==== Sys2Proof/Syntax.lean ====
section
/-! DEFINITION. The commands of the hub: one constructor for each row of spec/opcode_table.json, in the table's order.
A received frame carries its port, the race time of its starting delimiter (R4) and its payload bytes (R192). A row of
the Management Unit (from UNKNOWN_COMMAND on) carries no operand of its own: it takes the command at the head of the
hub's Command Queue (R177), whose sender, tag and parameter bytes a MGMT frame put there (R175, R197). -/

namespace Sys2Proof

/-- One line symbol of a received run (R150): a byte code, or a symbol that is neither a byte code nor the delimiter. -/
inductive LineSymbol where
  | byte (b : Byte)
  | spoiled
  deriving DecidableEq, Repr

/-- The rows of spec/opcode_table.json. -/
inductive Instr where
  /-- RESET_N_LOW (R187). -/
  | resetNLow
  /-- RESET_N_RELEASE (R2). -/
  | resetNRelease
  /-- HUB_RESET_TAKES_EFFECT (R187). -/
  | hubResetTakesEffect
  /-- DAMAGED_FRAME (R151): the run of symbols between two delimiters, as received. -/
  | damagedFrame (p : PortNo) (stamp : RaceTime) (run : List LineSymbol)
  /-- UNKNOWN_KIND_FRAME (R153): a valid frame whose kind code names no cabinet-to-hub kind. -/
  | unknownKindFrame (p : PortNo) (stamp : RaceTime) (kind : Byte) (payload : List Byte)
  /-- TRAIN_ECHO (R158). -/
  | trainEcho (p : PortNo) (stamp : RaceTime) (payload : List Byte)
  /-- PROBE_REPLY (R11). -/
  | probeReply (p : PortNo) (stamp : RaceTime) (payload : List Byte)
  /-- CAR (R41): `count` is the header's seat/flags byte (R191, R193). -/
  | car (p : PortNo) (stamp : RaceTime) (count : Byte) (payload : List Byte)
  /-- HOLD_ACK (R120). -/
  | holdAck (p : PortNo) (stamp : RaceTime) (payload : List Byte)
  /-- QUIET_ASK (R164). -/
  | quietAsk (p : PortNo) (stamp : RaceTime) (payload : List Byte)
  /-- MGMT (R175): `tag` is the header's port byte (R191). -/
  | mgmt (p : PortNo) (stamp : RaceTime) (tag : Byte) (payload : List Byte)
  /-- TRANSMIT_END (R168). -/
  | transmitEnd (p : PortNo)
  /-- LINK_RATE_CHANGE_ON_LINE (R150). -/
  | linkRateChangeOnLine (p : PortNo)
  /-- TRAIN_INVITATION (R156). -/
  | trainInvitation (p : PortNo)
  /-- TRAINING_PAUSE_END (R157). -/
  | trainingPauseEnd (p : PortNo)
  /-- ECHO_WAIT_EXPIRY (R158). -/
  | echoWaitExpiry (p : PortNo)
  /-- PROBE_DUE (R10). -/
  | probeDue (p : PortNo)
  /-- SWEEP_REPLY_WAIT_EXPIRY (R12). -/
  | sweepReplyWaitExpiry (p : PortNo)
  /-- COAST_TIMER_EXPIRY (R32). -/
  | coastTimerExpiry (i : Slot)
  /-- LOSE_TIMER_EXPIRY (R32). -/
  | loseTimerExpiry (i : Slot)
  /-- SETTLE_DEADLINE_EXPIRY (R103): `k` is the lap. -/
  | settleDeadlineExpiry (k : Nat)
  /-- PACE_TIMER_EXPIRY (R70). -/
  | paceTimerExpiry (p : PortNo)
  /-- LINK_LOSS (R161). -/
  | linkLoss (p : PortNo)
  /-- T_GREEN_EXPIRY (R115). -/
  | tGreenExpiry
  /-- T_H_EXPIRY (R119). -/
  | tHExpiry
  /-- HOLD_TIMEOUT (R119). -/
  | holdTimeout
  /-- T_R_EXPIRY (R124). -/
  | tRExpiry
  /-- GRACE_DEADLINE_EXPIRY (R127). -/
  | graceDeadlineExpiry
  /-- UNKNOWN_COMMAND (R177). -/
  | unknownCommand
  /-- READ_STATUS (R184). -/
  | readStatus
  /-- READ_PORT (R184). -/
  | readPort
  /-- CLEAR_COUNTERS (R184). -/
  | clearCounters
  /-- READ_ENTRIES (R180). -/
  | readEntries
  /-- WRITE_CAR_ASSIGNMENT (R29). -/
  | writeCarAssignment
  /-- WRITE_RACE_PARAMETERS (R111). -/
  | writeRaceParameters
  /-- WRITE_PORT_TABLE (R182). -/
  | writePortTable
  /-- WRITE_VIEW_ORDER_LISTS (R68). -/
  | writeViewOrderLists
  /-- WRITE_EVENT_ROUTE_TABLE (R141). -/
  | writeEventRouteTable
  /-- WRITE_TRAINING_PATTERNS (R163). -/
  | writeTrainingPatterns
  /-- WRITE_NO_ACCESS_TABLE (R178): any WRITE_ENTRIES that names none of the six writable tables. -/
  | writeNoAccessTable
  /-- SCAN (R183). -/
  | scan
  /-- PORT_RESET (R167). -/
  | portReset
  /-- PORT_QUIET (R164). -/
  | portQuiet
  /-- PORT_WAKE (R166). -/
  | portWake
  /-- SEND_VIEW (R71). -/
  | sendView
  /-- OPEN_GRID (R113). -/
  | openGrid
  /-- START (R114). -/
  | start
  /-- ABORT_START (R116). -/
  | abortStart
  /-- HOLD (R118). -/
  | hold
  /-- RESUME (R123). -/
  | resume
  /-- CLOSE (R128). -/
  | close
  /-- RESET_RACE (R130). -/
  | resetRace
  /-- RETIRE_CAR (R39). -/
  | retireCar
  /-- MOVE_DIRECTOR (R174). -/
  | moveDirector
  /-- RESET_HUB (R187). -/
  | resetHub
  deriving DecidableEq, Repr

end Sys2Proof
end

