-- ==== Sys2Proof/Machine/State.lean ====
section
/-! DEFINITION. The state of the hub as plain data, the reasons a command can stop, and the state after reset. -/

namespace Sys2Proof.Machine

/-- Why the hub would stop with a fault. No rule of the spec stops the hub: what it refuses or discards has an effect
the spec gives (a counter, a reply status, a notice, or none), so this type has no constructor and nobody raises one.
Safe: no command can end here. -/
inductive Fault
  deriving DecidableEq, Repr

/-- Why a command would have no meaning. -/
inductive Refusal where
  /-- Raised by an arm of exec for a command that has no meaning yet; safe, since no claim speaks of it. -/
  | notModelled (mnemonic : String)
  deriving DecidableEq, Repr

/-- Everything the spec gives the hub, and the queue of the commands that wait. -/
structure State where
  /-- RESET_N is held low (R2, R187). -/
  resetLow : Bool
  /-- The race clock (R2). -/
  clock : RaceTime
  /-- LP0 to LP7: Link Port, Port Table entry, View Order List, Port Timing Record, arbiter, views, cues, counters. -/
  ports : Vector Port 8
  /-- The Car Table (R27). -/
  cars : Vector CarRecord 12
  /-- The Race Parameter Record (R110). -/
  params : RaceParams
  /-- The Race Controller's record (R112). -/
  race : RaceRecord
  /-- The Crossing List (R87). -/
  crossings : List Crossing
  /-- The Lap Table: lap k at index k − 1 (R88). -/
  lapTable : Vector LapRecord 100
  /-- The classification (R108). -/
  classification : List ClassEntry
  /-- Hub counter CROSSING_LOST (R89). -/
  crossingLost : Counter
  /-- The Contact Pair Set, lower slot first (R133). -/
  contacts : List (Slot × Slot)
  /-- The Event Route Table (R141). -/
  routes : Vector Route 24
  /-- The Training Pattern Store (R163). -/
  patterns : Vector Pattern 4
  /-- The Management Unit's record (R171). -/
  mgmt : MgmtRecord
  /-- The MODEL's own field: how many free values have been used (notes/assumptions/3.md). -/
  free : Nat
  /-- The MODEL's own field: the commands that wait, first in, first out. -/
  pending : List Instr
  deriving DecidableEq, Repr

/-- The hub right after a reset, RESET_N released (R187, R2): the race clock at 0, every table at its default, every
port in DOWN with its first invitation on the idle line. -/
def State.reset : State :=
  { resetLow := false, clock := 0, ports := perPort (fun p => resetPort p none .r10), cars := perSlot resetCar,
    params := defaultParams, race := resetRaceRecord, crossings := [], lapTable := emptyLapTable,
    classification := [], crossingLost := 0, contacts := [], routes := defaultRoutes, patterns := defaultPatterns,
    mgmt := resetMgmt, free := 0, pending := [] }

end Sys2Proof.Machine
end

