-- ==== Sys2Proof/Machine/Flags.lean ====
section
/-! DEFINITION. The codes of the enumerated values (R191, R198) and the flag and presence bytes of the frame and entry
layouts (R192, R195, R196, R198). -/

namespace Sys2Proof.Machine

/-- A bit of a flags byte, as a number: `b` at bit `n`. -/
def bit (b : Bool) (n : Nat) : Nat := if b then 2 ^ n else 0

/-- Yes / no as a byte (R198). -/
def boolByte (b : Bool) : Byte := if b then 1 else 0

/-- Port state codes (R191). -/
def PortPhase.code : PortPhase → Byte
  | .off => 0 | .down => 1 | .train => 2 | .phase => 3 | .rate => 4 | .active => 5 | .quiet => 6 | .fault => 7

/-- Race state codes (R191). -/
def RaceState.code : RaceState → Byte
  | .idle => 0 | .grid => 1 | .countdown => 2 | .running => 3 | .holdPending => 4 | .hold => 5
  | .resumePending => 6 | .finishing => 7 | .closed => 8

/-- Car state codes (R191). -/
def CarState.code : CarState → Byte
  | .free => 0 | .assigned => 1 | .live => 2 | .coasting => 3 | .parked => 4 | .lost => 5 | .finished => 6 | .retired => 7

/-- Event kind codes: 0 to 15 in the order of R139 (R191). -/
def EventKind.code : EventKind → Byte
  | .light => 0 | .green => 1 | .jumpStart => 2 | .lapFixed => 3 | .leadChange => 4 | .lastLap => 5
  | .finishFixed => 6 | .contactBegin => 7 | .contactEnd => 8 | .carCoasting => 9 | .carLost => 10 | .carFound => 11
  | .holdBegin => 12 | .resumeBegin => 13 | .raceClosed => 14 | .portFault => 15

/-- The sixteen event kinds in code order. -/
def allEventKinds : List EventKind :=
  [.light, .green, .jumpStart, .lapFixed, .leadChange, .lastLap, .finishFixed, .contactBegin, .contactEnd,
   .carCoasting, .carLost, .carFound, .holdBegin, .resumeBegin, .raceClosed, .portFault]

/-- Fault reason codes (R191). -/
def FaultReason.code : FaultReason → Byte
  | .train => 0 | .phase => 1 | .rate => 2

/-- Reply status codes (R191). -/
def Status.code : Status → Byte
  | .ok => 0 | .privilege => 1 | .state => 2 | .range => 3 | .index => 4 | .busy => 5 | .unknown => 6 | .tooSoon => 7

/-- Link rate as the number of Mbit/s (R192, R198). -/
def LinkRate.code : LinkRate → Byte
  | .r10 => 10 | .r20 => 20

/-- Pacing codes (R198). -/
def Pacing.code : Pacing → Byte
  | .cabinet => 0 | .clock => 1 | .command => 2

/-- View mode codes (R198). -/
def ViewMode.code : ViewMode → Byte
  | .fixedList => 0 | .raceOrder => 1 | .nearestFirst => 2

/-- Route action codes (R198). -/
def RouteAction.code : RouteAction → Byte
  | .cue => 0 | .notify => 1 | .autoHold => 2

/-- Target set codes (R198). -/
def TargetSet.code : TargetSet → Byte
  | .all => 0 | .involved => 1 | .mask => 2

/-- DIRECTOR_MOVED cause codes (R195). -/
def MoveCause.code : MoveCause → Byte
  | .takeUp => 0 | .handOver => 1 | .move => 2

/-- Classification group codes (R198). -/
def ClassGroup.code : ClassGroup → Byte
  | .finished => 0 | .running => 1 | .out => 2

/-- A port number as a byte. -/
def portByte (p : PortNo) : Byte := BitVec.ofNat 8 p.val

/-- A slot number as a byte. -/
def slotByte (i : Slot) : Byte := BitVec.ofNat 8 i.val

/-- A slot byte, 0xFF when absent (R191). -/
def slotMarker : Option Slot → Byte
  | some i => slotByte i
  | none => 0xFF

/-- A port byte, 0xFF when absent or VACANT (R191). -/
def portMarker : Option PortNo → Byte
  | some p => portByte p
  | none => 0xFF

/-- A placing byte, 0 when absent (R191). -/
def placingMarker : Option Nat → Byte
  | some n => BitVec.ofNat 8 n
  | none => 0

/-- All ports, in port order. -/
def allPorts : List PortNo := [0, 1, 2, 3, 4, 5, 6, 7]

/-- All slots, in slot order. -/
def allSlots : List Slot := [0, 1, 2, 3, 4, 5, 6, 7, 8, 9, 10, 11]

/-- A port mask: bit n for port n (R141, R195). -/
def portMask (ps : List PortNo) : Byte :=
  BitVec.ofNat 8 ((allPorts.map fun p => bit (ps.contains p) p.val).sum)

/-- The flags byte of a VIEW entry (R195). -/
def viewFlags (e : ViewEntry) : Byte :=
  BitVec.ofNat 8 (bit e.offTrack 0 + bit e.spun 1 + bit e.coasting 2 + bit e.parked 3 + bit e.finished 4
    + bit e.held 5 + bit e.stopped 6 + bit e.jump 7)

/-- The sample flags byte (R192). -/
def sampleFlags (x : Sample) : Byte := BitVec.ofNat 8 (bit x.offTrack 0 + bit x.spun 1)

/-- The flags byte of a Car Table entry (R198). -/
def carFlags (c : CarRecord) : Byte :=
  BitVec.ofNat 8 (bit c.last.isSome 0 + bit c.prev.isSome 1 + bit c.gridS.isSome 2 + bit c.jump 3 + bit c.unplaced 4)

/-- The flags byte of a Crossing List entry and of a PLACING frame (R195, R198). -/
def crossingFlags (multi late jump : Bool) : Byte := BitVec.ofNat 8 (bit multi 0 + bit late 1 + bit jump 2)

/-- The flags byte of a classification entry: unplaced at bit 0, jump at bit 1. DEDUCED (notes/assumptions/14.md): R198
names the two flags in this order and gives no bit numbers. -/
def classFlags (e : ClassEntry) : Byte := BitVec.ofNat 8 (bit e.unplaced 0 + bit e.jump 1)

/-- The presence byte of the status record of READ_STATUS (R196). -/
def statusPresence (r : RaceRecord) (roleHeld : Bool) : Byte :=
  BitVec.ofNat 8 (bit r.tGreen.isSome 0 + bit r.tH.isSome 1 + bit r.tR.isSome 2 + bit r.grace.isSome 3
    + bit r.finishSeen 4 + bit roleHeld 5)

end Sys2Proof.Machine
end

