-- ==== Sys2Proof/Machine/Formats.lean ====
section
/-! DEFINITION. Byte order, the CRC (R152), the bytes of the hub's frames (R191, R195) and the judging of a received
run of symbols (R151). -/

namespace Sys2Proof.Machine

/-- A value in `n` bytes, the more significant byte first (R191). -/
def beBytes : Nat → Nat → List Byte
  | 0, _ => []
  | n + 1, v => BitVec.ofNat 8 (v >>> (8 * n)) :: beBytes n v

/-- A signed value in `n` bytes, two's complement (R191). -/
def beSigned (n : Nat) (v : Int) : List Byte := beBytes n (BitVec.ofInt (8 * n) v).toNat

/-- A race time in 4 bytes; the bytes of an absent one are 0 (R191). -/
def timeBytes : Option RaceTime → List Byte
  | some t => beBytes 4 t.toNat
  | none => beBytes 4 0

/-- A signed 4-byte value, 0x80000000 when absent (R191). -/
def signedMarker : Option Int → List Byte
  | some v => beSigned 4 v
  | none => beBytes 4 0x80000000

/-- The number a list of bytes holds, the more significant byte first (R191). -/
def beNat (bs : List Byte) : Nat := bs.foldl (fun n b => n * 256 + b.toNat) 0

/-- The signed number two bytes hold, two's complement (R191). -/
def beInt16 (bs : List Byte) : Int := (BitVec.ofNat 16 (beNat bs)).toInt

/-- One step of the CRC register: shift, and combine with the polynomial's low bits (x^14, x^12, x^11, x^8, x^5, x^4,
x^2, 1) when the bit shifted out differs from the bit fed in (R152). -/
def crcBit (r : BitVec 16) (b : Bool) : BitVec 16 :=
  if r.msb != b then (r <<< 1) ^^^ 0x5935#16 else r <<< 1

/-- The CRC register after one byte, most significant bit first (R152). -/
def crcByte (r : BitVec 16) (b : Byte) : BitVec 16 :=
  [7, 6, 5, 4, 3, 2, 1, 0].foldl (fun r i => crcBit r (b.getLsbD i)) r

/-- The CRC of a header and payload: from all ones, not inverted at the end (R152). -/
def crc16 (bs : List Byte) : BitVec 16 := bs.foldl crcByte 0xFFFF#16

/-- The two CRC bytes, the more significant first (R152). -/
def crcBytes (bs : List Byte) : List Byte := beBytes 2 (crc16 bs).toNat

/-- The 11 bytes of a VIEW entry (R195). -/
def viewEntryBytes (e : ViewEntry) : List Byte :=
  [slotByte e.slot, BitVec.ofNat 8 e.number] ++ beBytes 3 e.s ++ [BitVec.ofNat 8 e.lap] ++ beSigned 2 e.d
    ++ beBytes 2 e.v ++ [viewFlags e]

/-- The two bytes of an EVENT notice after its event time (R195). -/
def eventTail (e : Event) : List Byte :=
  match e.fault with
  | some (p, r) => [portByte p, r.code]
  | none => [slotMarker e.slots.head?, slotMarker (e.slots.drop 1).head?]

/-- A NOTICE payload: kind and data (R195). -/
def noticeBytes : Notice → List Byte
  | .event e => [0, e.kind.code] ++ beBytes 4 e.time.toNat ++ eventTail e
  | .holdIncomplete tH unacked => [1] ++ beBytes 4 tH.toNat ++ [portMask unacked]
  | .directorMoved former cause => [2, portMarker former, cause.code]
  | .quietRefused reason => [3, reason.code]

/-- Kind code of a hub frame (R191). -/
def FrameBody.kindCode : FrameBody → Byte
  | .train .. => 0x81
  | .probe _ => 0x82
  | .view .. => 0x83
  | .cue .. => 0x84
  | .placing .. => 0x85
  | .holdCall _ => 0x86
  | .resumeCall _ => 0x87
  | .reply .. => 0x88
  | .notice _ => 0x89

/-- Payload of a hub frame (R195, R196). -/
def FrameBody.payload : FrameBody → List Byte
  | .train index bytes => BitVec.ofNat 8 index.val :: bytes
  | .probe index => [BitVec.ofNat 8 index]
  | .view target setIndex setSize entries =>
    beBytes 2 target.toNat ++ [BitVec.ofNat 8 setIndex, BitVec.ofNat 8 setSize, BitVec.ofNat 8 entries.length]
      ++ entries.flatMap viewEntryBytes
  | .cue code target slots late =>
    [code] ++ beBytes 2 target.toNat ++ [slotMarker slots.head?, slotMarker (slots.drop 1).head?, boolByte late]
  | .placing lap place slot time multi late jump =>
    [BitVec.ofNat 8 lap, BitVec.ofNat 8 place, slotByte slot] ++ beBytes 4 time.toNat ++ [crossingFlags multi late jump]
  | .holdCall f => beBytes 2 f.toNat
  | .resumeCall f => beBytes 2 f.toNat
  | .reply code status data => [code, status.code] ++ data
  | .notice n => noticeBytes n

/-- Header and payload of a hub frame (R191). -/
def HubFrame.headerAndPayload (f : HubFrame) : List Byte :=
  [f.body.kindCode, BitVec.ofNat 8 f.body.payload.length, f.portByte, boolByte f.director] ++ f.body.payload

/-- The bytes of a hub frame on the line: header, payload and CRC (R191, R152). -/
def HubFrame.bytes (f : HubFrame) : List Byte := f.headerAndPayload ++ crcBytes f.headerAndPayload

/-- What the receiver makes of a run of symbols (R151): the header's kind, port byte and seat/flags byte and the payload
of a valid frame, or the step it fails. -/
inductive RunVerdict where
  | framing
  | crcError
  | valid (kind port flags : Byte) (payload : List Byte)
  deriving DecidableEq, Repr

/-- The bytes of a run, when it holds no spoiled symbol. -/
def runBytes : List LineSymbol → Option (List Byte)
  | [] => some []
  | .byte b :: rest => (runBytes rest).map (b :: ·)
  | .spoiled :: _ => none

/-- The framing check, then the CRC check (R151, R152). -/
def judgeRun (run : List LineSymbol) : RunVerdict :=
  match runBytes run with
  | some (kind :: len :: port :: flags :: rest) =>
    if len.toNat ≤ 124 ∧ rest.length = len.toNat + 2 then
      let payload := rest.take len.toNat
      if rest.drop len.toNat = crcBytes ([kind, len, port, flags] ++ payload) then .valid kind port flags payload
      else .crcError
    else .framing
  | _ => .framing

end Sys2Proof.Machine
end

