-- ==== Sys2Proof/Machine/Time.lean ====
section
/-! DEFINITION. Race-time and frame-number comparison (R3), rounding, clamping and gaps (R1), and the sort used by
views and the classification. -/

namespace Sys2Proof.Machine

/-- The stated difference `a − b` of two race times: signed, modulo 2^32 (R3). -/
def timeDiff (a b : RaceTime) : Int := (a - b).toInt

/-- `a` is earlier than `b` (R3). -/
def earlier (a b : RaceTime) : Bool := decide (0 < timeDiff b a)

/-- `a` is later than `b` (R3). -/
def later (a b : RaceTime) : Bool := decide (timeDiff b a < 0)

/-- `a` is at or after `b`, "reached" (R3). -/
def atOrAfter (a b : RaceTime) : Bool := decide (timeDiff b a ≤ 0)

/-- Δf from frame number `g` to frame number `f` (R3). -/
def frameDiff (g f : FrameNum) : Int := (f - g).toInt

/-- A race time moved later by `n` µs, modulo 2^32. -/
def addTime (t : RaceTime) (n : Int) : RaceTime := t + BitVec.ofInt 32 n

/-- `n / d` to the nearest integer, halves away from zero (R1). -/
def roundDiv (n : Int) (d : Nat) : Int :=
  if 0 ≤ n then (2 * n + d) / (2 * d) else -((2 * -n + d) / (2 * d))

/-- The ceiling of `n / d`. -/
def ceilDiv (n : Int) (d : Nat) : Int := -(-n / d)

/-- `x` clamped to the range `lo` to `hi` (R1). -/
def clamp (lo hi x : Int) : Int := if x < lo then lo else if hi < x then hi else x

/-- The gap from `s2` to `s1` on a closed lap of length `L`: (s1 − s2) modulo L, mapped into −L/2 < g ≤ L/2 (R1). -/
def gap (s1 s2 : Int) (L : Nat) : Int :=
  let m := (s1 - s2) % L
  if (L : Int) < 2 * m then m - L else m

/-- The first of two lists of numbers in dictionary order is strictly smaller. -/
def lexLt : List Int → List Int → Bool
  | [], [] => false
  | [], _ :: _ => true
  | _ :: _, [] => false
  | x :: xs, y :: ys => decide (x < y) || (decide (x = y) && lexLt xs ys)

/-- Insert `x` before the first element whose key is larger than its own. -/
def insertByKey {α : Type} (key : α → List Int) (x : α) : List α → List α
  | [] => [x]
  | y :: ys => if lexLt (key x) (key y) then x :: y :: ys else y :: insertByKey key x ys

/-- A list in the order of its keys, smallest first; elements of one key keep their order. -/
def sortByKey {α : Type} (key : α → List Int) (xs : List α) : List α :=
  xs.foldl (fun acc x => insertByKey key x acc) []

/-- A counter after one increment: it saturates at 65535 (R189). -/
def bump (c : Counter) : Counter := if c = 0xFFFF#16 then c else c + 1

end Sys2Proof.Machine
end

