-- ==== Sys2Proof/Machine/Translation.lean ====
section
/-! DEFINITION. Translation between frame numbers and race time (R15, R16). -/

namespace Sys2Proof.Machine

/-- t(f) = A + round(Δf × P / 256), without the window limit (R15, last sentence). -/
def frameMark (r : TimingRecord) (f : FrameNum) : RaceTime :=
  addTime r.anchorTime (roundDiv (frameDiff r.anchorFrame f * r.period) 256)

/-- The forward translation (R15): refused while the record is invalid, and outside the window |Δf| ≤ 1024. -/
def forward (r : TimingRecord) (f : FrameNum) : Option RaceTime :=
  if r.valid && decide ((frameDiff r.anchorFrame f).natAbs ≤ 1024) then some (frameMark r f) else none

/-- The inverse translation (R16): f(T) = f_a + ceiling((T − A) × 256 / P). Its askers ask it of an ACTIVE port, whose
record is valid (R72, R147); while the record is invalid no rule lets it be asked. -/
def inverse (r : TimingRecord) (t : RaceTime) : FrameNum :=
  r.anchorFrame + BitVec.ofInt 16 (ceilDiv (timeDiff t r.anchorTime * 256) r.period)

end Sys2Proof.Machine
end

