-- ==== Sys2Proof/Machine/Ops.lean ====
section
/-! DEFINITION. The named operations over the hub's state: reading and writing ports and cars, the director role, the
forming of frames, the Transmit Arbiter (R168, R169) and the offers to its classes. -/

namespace Sys2Proof.Machine

/-! ### Reading and writing -/

/-- Port `p`. -/
def State.port (s : State) (p : PortNo) : Port := s.ports[p]

/-- Replace port `p`. -/
def State.setPort (s : State) (p : PortNo) (q : Port) : State := { s with ports := s.ports.set p q }

/-- Change port `p`. -/
def State.modPort (s : State) (p : PortNo) (f : Port → Port) : State := s.setPort p (f (s.port p))

/-- The Car Record of slot `i`. -/
def State.car (s : State) (i : Slot) : CarRecord := s.cars[i]

/-- Replace the Car Record of slot `i`. -/
def State.setCar (s : State) (i : Slot) (c : CarRecord) : State := { s with cars := s.cars.set i c }

/-- Change the Car Record of slot `i`. -/
def State.modCar (s : State) (i : Slot) (f : CarRecord → CarRecord) : State := s.setCar i (f (s.car i))

/-- The Port Timing Record of port `p`. -/
def State.timing (s : State) (p : PortNo) : TimingRecord := (s.port p).timing

/-- Port `p` is ACTIVE. -/
def State.isActive (s : State) (p : PortNo) : Bool := decide ((s.port p).phase = .active)

/-- Change one or more counters of port `p`. -/
def State.count (s : State) (p : PortNo) (f : PortCounters → PortCounters) : State :=
  s.modPort p fun q => { q with counters := f q.counters }

/-- The Lap Table record of lap `k`; laps outside 1 to 100 have none and read as empty (R88). -/
def State.lap (s : State) (k : Nat) : LapRecord :=
  if k = 0 then emptyLap else s.lapTable.toList.getD (k - 1) emptyLap

/-- Write the Lap Table record of lap `k`. -/
def State.setLap (s : State) (k : Nat) (r : LapRecord) : State :=
  if k = 0 then s else { s with lapTable := s.lapTable.setIfInBounds (k - 1) r }

/-- Set the race state. -/
def State.setRace (s : State) (r : RaceState) : State := { s with race := { s.race with state := r } }

/-- A free byte, and the state that has used it (notes/assumptions/3.md). -/
def State.freeByte (s : State) : Byte := Config.unstatedByte s.free

/-- One free value has been used. -/
def State.useFree (s : State) : State := { s with free := s.free + 1 }

/-! ### The director role (R172) -/

/-- The port that holds the director role, when the role is held. -/
def State.roleHolder (s : State) : Option PortNo :=
  match s.mgmt.director with
  | some p => if s.isActive p then some p else none
  | none => none

/-- Port `p` holds the director role. -/
def State.holdsRole (s : State) (p : PortNo) : Bool := decide (s.roleHolder = some p)

/-- Every command of port `p` leaves the Command Queue unanswered (R173, R176). -/
def State.discardCommands (s : State) (p : PortNo) : State :=
  { s with mgmt := { s.mgmt with queue := s.mgmt.queue.filter fun c => decide (c.sender ≠ p) } }

/-! ### Race-wide questions -/

/-- The hold suspension of ageing and settling (R34, R104). -/
def State.suspended (s : State) : Bool :=
  match s.race.state with
  | .holdPending => match s.race.tH with
    | some h => later s.clock h
    | none => false
  | .hold | .resumePending => true
  | _ => false

/-- Port `p` owns slot `i`: the slot is enabled for it. -/
def State.owns (s : State) (p : PortNo) (i : Slot) : Bool := (s.car i).enabled && decide ((s.car i).owner = p)

/-- The slots port `p` owns, in slot order. -/
def State.slotsOf (s : State) (p : PortNo) : List Slot := allSlots.filter (s.owns p)

/-- A race deadline that is present has been reached. -/
def State.reached (s : State) (d : Option RaceTime) : Bool :=
  match d with
  | some t => atOrAfter s.clock t
  | none => false

/-- A car timer has expired: the race clock lies later than its deadline (R31, R32). -/
def State.passed (s : State) (d : Option RaceTime) : Bool :=
  match d with
  | some t => later s.clock t
  | none => false

/-! ### Forming frames -/

/-- A frame formed now for port `p` (R191). -/
def State.mkFrame (s : State) (p : PortNo) (body : FrameBody) : HubFrame :=
  { portByte := portByte p, director := s.holdsRole p, body := body }

/-- The CUE frame of a cue the arbiter takes now (R147): LATE when T_c is earlier than now + δ. -/
def State.cueFrame (s : State) (p : PortNo) (c : Cue) : HubFrame :=
  let arrival := addTime s.clock (s.timing p).delta
  let late := earlier c.time arrival
  s.mkFrame p (.cue c.code (inverse (s.timing p) (if late then arrival else c.time)) c.slots late)

/-! ### The Transmit Arbiter (R168) -/

/-- What the send stamp of a frame taken now tells the port: the awaited TRAIN frame of a round has been sent (R157), or
the next probe of the open sweep has (R10). -/
def stampSent (now : RaceTime) (f : HubFrame) (q : Port) : Port :=
  match f.body with
  | .train _ _ =>
    match q.training with
    | .round todo none => { q with training := .round todo (some now) }
    | _ => q
  | .probe _ =>
    match q.timing.sweep with
    | some w => { q with timing := { q.timing with sweep := some { w with sent := w.sent ++ [now] } } }
    | none => q
  | _ => q

/-- The first frame of the highest class that has one waiting, and the port without it (R168, R81, R146). -/
def State.chooseFrame (s : State) (p : PortNo) : Option (HubFrame × Port) :=
  let q := s.port p
  match q.class1 with
  | f :: rest => some (f, { q with class1 := rest })
  | [] =>
  match q.calls with
  | f :: rest => some (f, { q with calls := rest })
  | [] =>
  match q.cues with
  | c :: rest => some (s.cueFrame p c, { q with cues := rest })
  | [] =>
  match q.placings with
  | f :: rest => some (f, { q with placings := rest })
  | [] =>
  match q.outbox with
  | f :: rest => some (f, { q with outbox := rest })
  | [] =>
  match q.viewSet with
  | some v =>
    match v.unsent with
    | f :: rest => some (f, { q with viewSet := if rest.isEmpty then none else some { v with unsent := rest } })
    | [] => none
  | none => none

/-- The arbiter of an idle line takes the next frame; its send stamp is now and its rate the port's (R168, R150). -/
def State.arbiterTake (s : State) (p : PortNo) : State :=
  if (s.port p).wire.isSome then s
  else
    match s.chooseFrame p with
    | some (f, q) =>
      s.setPort p (stampSent s.clock f { q with wire := some { frame := f, sent := s.clock, rate := q.entry.linkRate } })
    | none => s

/-! ### Offers to the classes (R169) -/

/-- `xs` with `x` at the tail; when `cap` already wait, the oldest goes (R169, classes 2 and 4). -/
def pushDropOldest {α : Type} (cap : Nat) (xs : List α) (x : α) : List α := xs.drop (xs.length + 1 - cap) ++ [x]

/-- The port states that admit class 1 (R169). -/
def admitsTraining (ph : PortPhase) : Bool := decide (ph = .down ∨ ph = .train ∨ ph = .phase)

/-- The port states that admit class 5 (R169). -/
def admitsReplies (ph : PortPhase) : Bool := decide (ph = .active ∨ ph = .quiet)

/-- The body is a REPLY. -/
def FrameBody.isReply : FrameBody → Bool
  | .reply .. => true
  | _ => false

/-- The body is a NOTICE. -/
def FrameBody.isNotice : FrameBody → Bool
  | .notice _ => true
  | _ => false

/-- Offer a TRAIN or PROBE frame (class 1). A frame offered to a full class is not queued: R169 states no rule there
(notes/assumptions/9.md). -/
def State.offerTraining (s : State) (p : PortNo) (body : FrameBody) : State :=
  if admitsTraining (s.port p).phase && decide ((s.port p).class1.length < 64) then
    (s.modPort p fun q => { q with class1 := q.class1 ++ [s.mkFrame p body] }).arbiterTake p
  else s

/-- Offer a HOLD_CALL or RESUME_CALL (class 2). -/
def State.offerCall (s : State) (p : PortNo) (body : FrameBody) : State :=
  if s.isActive p then
    (s.modPort p fun q => { q with calls := pushDropOldest 4 q.calls (s.mkFrame p body) }).arbiterTake p
  else s

/-- Offer a cue to a port's Cue Queue (class 3, R146). -/
def State.offerCue (s : State) (p : PortNo) (c : Cue) : State :=
  if s.isActive p then
    if (s.port p).cues.length < 8 then (s.modPort p fun q => { q with cues := q.cues ++ [c] }).arbiterTake p
    else s.count p fun k => { k with cueDrop := bump k.cueDrop }
  else s

/-- Offer a PLACING frame (class 4). -/
def State.offerPlacing (s : State) (p : PortNo) (body : FrameBody) : State :=
  if s.isActive p then
    (s.modPort p fun q => { q with placings := pushDropOldest 128 q.placings (s.mkFrame p body) }).arbiterTake p
  else s

/-- Offer a REPLY with the tag of the command it answers (class 5, R197). -/
def State.offerReply (s : State) (p : PortNo) (tag : Byte) (code : Byte) (status : Status) (data : List Byte) : State :=
  if admitsReplies (s.port p).phase
      && decide (((s.port p).outbox.filter fun f => f.body.isReply).length < 16) then
    (s.modPort p fun q =>
      { q with outbox := q.outbox ++ [{ s.mkFrame p (.reply code status data) with portByte := tag }] }).arbiterTake p
  else s

/-- Offer a NOTICE (class 5). -/
def State.offerNotice (s : State) (p : PortNo) (n : Notice) : State :=
  if admitsReplies (s.port p).phase
      && decide (((s.port p).outbox.filter fun f => f.body.isNotice).length < 16) then
    (s.modPort p fun q => { q with outbox := q.outbox ++ [s.mkFrame p (.notice n)] }).arbiterTake p
  else s

/-- A NOTICE for the director; not formed while the role is vacant (R144, R188). -/
def State.noticeToDirector (s : State) (n : Notice) : State :=
  match s.roleHolder with
  | some p => s.offerNotice p n
  | none => s

/-- Hand a view set's frames to the arbiter: it becomes the set in flight (R81). -/
def State.offerViewSet (s : State) (p : PortNo) (target : FrameNum) (bodies : List FrameBody) : State :=
  (s.modPort p fun q =>
    { q with viewSet := some { target := target, size := bodies.length, unsent := bodies.map (s.mkFrame p) } }).arbiterTake p

/-- The set in flight of port `p` is abandoned: its unsent frames are withdrawn and VIEW_ABANDONED counts the set once
(R82, R83). -/
def State.abandonViewSet (s : State) (p : PortNo) : State :=
  match (s.port p).viewSet with
  | some _ => s.modPort p fun q =>
      { q with viewSet := none, counters := { q.counters with viewAbandoned := bump q.counters.viewAbandoned } }
  | none => s

end Sys2Proof.Machine
end

