-- ==== Sys2Proof/Machine/Events.lean ====
section
/-! DEFINITION. The Cue Router (R139 to R145), the hold an AUTO_HOLD or a HOLD calls (R118), and a change of a car's
state with its pairs and events (R40, R137). -/

namespace Sys2Proof.Machine

/-- HOLD and AUTO_HOLD are taken in RUNNING and in FINISHING (R118). -/
def holdAllowed (r : RaceState) : Bool := decide (r = .running ∨ r = .finishing)

/-- The port gets a HOLD_CALL: it is ACTIVE and owns an enabled slot whose car is LIVE or COASTING (R118). -/
def State.getsHoldCall (s : State) (p : PortNo) : Bool :=
  s.isActive p && (s.slotsOf p).any fun i => decide ((s.car i).state = .live ∨ (s.car i).state = .coasting)

/-- One port of a hold: its HOLD_CALL and its ack set entry (R118). -/
def holdPort (tH : RaceTime) (s : State) (p : PortNo) : State :=
  if s.getsHoldCall p then
    let f := inverse (s.timing p) tH
    let s1 := s.offerCall p (.holdCall f)
    { s1 with race := { s1.race with acks := s1.race.acks ++ [{ port := p, frame := f, acked := false }] } }
  else s

/-- A hold is called (R118): T_h, the remembered state, the calls and the ack set in port order, HOLD_PENDING. -/
def callHold (s : State) : State :=
  let tH := addTime s.clock s.params.holdLead
  let s1 := { s with race := { s.race with tH := some tH, remembered := some s.race.state, acks := [] } }
  (allPorts.foldl (holdPort tH) s1).setRace .holdPending

/-- AUTO_HOLD: as HOLD, without a reply; ignored where HOLD would be refused (R145). -/
def autoHold (s : State) : State := if holdAllowed s.race.state then callHold s else s

/-- A route matches an event (R142). -/
def Route.matches (r : Route) (e : Event) : Bool :=
  r.valid && decide (r.kind = e.kind) && (match r.filter with
    | none => true
    | some i => e.slots.contains i)

/-- The ports of a route's target set (R143). -/
def State.targetPorts (s : State) (r : Route) (e : Event) : List PortNo :=
  match r.target with
  | .all => allPorts
  | .involved => allPorts.filter fun p => e.slots.any fun i => decide ((s.car i).owner = p)
  | .mask => allPorts.filter fun p => r.mask.getLsbD p.val

/-- The action of a matching route (R143 to R145). -/
def routeAct (e : Event) (s : State) (r : Route) : State :=
  match r.action with
  | .cue =>
    let c : Cue := { code := r.code, slots := e.slots, time := addTime e.time r.lead }
    (s.targetPorts r e).foldl (fun s p => s.offerCue p c) s
  | .notify => s.noticeToDirector (.event e)
  | .autoHold => autoHold s

/-- One entry of the scan (R142). -/
def routeOne (e : Event) (s : State) (r : Route) : State := if r.matches e then routeAct e s r else s

/-- An event reaches the Cue Router: entries 0 to 23 in index order (R140, R142). -/
def raise (e : Event) (s : State) : State := s.routes.toList.foldl (routeOne e) s

/-- An event whose time is now (R139). -/
def raiseNow (kind : EventKind) (slots : List Slot) (s : State) : State :=
  raise { kind := kind, time := s.clock, slots := slots, fault := none } s

/-- A fixed cue goes to every port that is ACTIVE (R116, R130, R146). -/
def fixedCue (code : Byte) (s : State) : State :=
  allPorts.foldl (fun s p => s.offerCue p { code := code, slots := [], time := s.clock }) s

/-- The states whose cars hold contact pairs (R133). -/
def inContactState (st : CarState) : Bool := decide (st = .live ∨ st = .coasting)

/-- The pair holds slot `i`. -/
def pairHolds (i : Slot) (c : Slot × Slot) : Bool := decide (c.1 = i ∨ c.2 = i)

/-- The other slot of a pair. -/
def pairOther (i : Slot) (c : Slot × Slot) : Slot := if c.1 = i then c.2 else c.1

/-- The pairs a car loses when its record becomes `new`: all of its pairs when it leaves LIVE or COASTING (R137). -/
def State.lostPairs (s : State) (i : Slot) (new : CarRecord) : List (Slot × Slot) :=
  if inContactState new.state then [] else s.contacts.filter (pairHolds i)

/-- A car's record becomes `new`, and the pairs it may no longer hold leave the Contact Pair Set (R40, R137). -/
def State.putCar (s : State) (i : Slot) (new : CarRecord) : State :=
  { s.setCar i new with
    contacts := if inContactState new.state then s.contacts else s.contacts.filter fun c => !pairHolds i c }

/-- A change of a car's state with its events: the Car Table's own event first, then CONTACT_END for each pair lost, the
changed car's slot first (R40, R137). What the Line Unit and the Race Controller do on the report is `afterChange`. -/
def changeCar (i : Slot) (new : CarRecord) (ev : Option EventKind) (s : State) : State :=
  let gone := s.lostPairs i new
  let s1 := s.putCar i new
  let s2 := match ev with
    | some k => raiseNow k [i] s1
    | none => s1
  gone.foldl (fun s c => raiseNow .contactEnd [i, pairOther i c] s) s2

end Sys2Proof.Machine
end

