-- ==== Sys2Proof/Machine/Line.lean ====
section
/-! DEFINITION. The Line Unit's records: the order of the Crossing List (R87, R94), settle deadlines (R103), finding a
crossing (R90 to R93), fixing one record (R100 to R102, R126), room (R96) and the classification (R107, R108). -/

namespace Sys2Proof.Machine

/-! ### The Crossing List -/

/-- The record is PROVISIONAL. -/
def Crossing.isProvisional (x : Crossing) : Bool := decide (x.status = .provisional)

/-- The tie order of the PROVISIONAL records of one lap (R94). -/
def Crossing.tieBefore (x y : Crossing) : Bool :=
  earlier x.time y.time
    || (decide (x.time = y.time) && (decide (y.rankS < x.rankS) || (decide (x.rankS = y.rankS) && decide (x.slot < y.slot))))

/-- `x` stands before `y` in the Crossing List (R87). -/
def Crossing.before (x y : Crossing) : Bool :=
  decide (x.lap < y.lap) || (decide (x.lap = y.lap) && (match x.status, y.status with
    | .fixed m, .fixed n => decide (m < n)
    | .fixed _, .provisional => true
    | .provisional, .fixed _ => false
    | .provisional, .provisional => x.tieBefore y))

/-- `x` inserted where the order puts it (R87). -/
def insertCrossing (x : Crossing) : List Crossing → List Crossing
  | [] => [x]
  | y :: ys => if x.before y then x :: y :: ys else y :: insertCrossing x ys

/-- The first PROVISIONAL record of lap `k`. -/
def State.firstProvisional (s : State) (k : Nat) : Option Crossing :=
  s.crossings.find? fun x => decide (x.lap = k) && x.isProvisional

/-- The laps of the race: 1 to laps + 1 (R88). -/
def State.raceLaps (s : State) : List Nat := List.range' 1 (s.params.laps + 1)

/-- The settle deadline of lap `k` is set anew from its first PROVISIONAL record, or idled (R103). -/
def State.setDeadline (s : State) (k : Nat) : State :=
  s.setLap k { s.lap k with deadline := (s.firstProvisional k).map fun x => addTime x.time s.params.settle }

/-- The settle deadline of every lap is set anew (R103). -/
def State.setAllDeadlines (s : State) : State := s.raceLaps.foldl (fun s k => s.setDeadline k) s

/-! ### Fixing one record -/

/-- The Lap Table record after a fixing (R100); a late fixing leaves the fixed time (R97). -/
def LapRecord.afterFix (r : LapRecord) (x : Crossing) (late : Bool) : LapRecord :=
  { r with count := r.count + 1, time := if late then r.time else some x.time,
           leader := if r.count = 0 then some x.slot else r.leader }

/-- The Crossing List after a fixing: a late record is placed where the order puts it (R97), another becomes FIXED in
place (R100). -/
def fixInList (x fixed : Crossing) (late : Bool) (xs : List Crossing) : List Crossing :=
  if late then insertCrossing fixed xs
  else xs.map fun y => if y = x then fixed else y

/-- A PLACING frame to every ACTIVE port (R101). -/
def sendPlacing (x : Crossing) (place : Nat) (s : State) : State :=
  allPorts.foldl (fun s p => s.offerPlacing p (.placing x.lap place x.slot x.time x.multi x.late x.jump)) s

/-- The slots of the LEAD_CHANGE a placing 1 of lap `k` raises, if it raises one (R102). -/
def leadChange (s : State) (k : Nat) (i : Slot) : Option (List Slot) :=
  match (s.lap (k - 1)).leader with
  | none => some [i]
  | some f => if f = i then none else some [i, f]

/-- Raise LEAD_CHANGE where `leadChange` asks for it. -/
def raiseLeadChange (k : Nat) (i : Slot) (s : State) : State :=
  match leadChange s k i with
  | some slots => raiseNow .leadChange slots s
  | none => s

/-- The Race Controller's action on the first-finish report (R126). The closing tests it asks for are made once the
evaluation has ended (R127). -/
def firstFinish (s : State) : State :=
  let r := { s.race with finishSeen := true }
  match r.state with
  | .running => { s with race := { r with state := .finishing, grace := some (addTime s.clock s.params.grace) } }
  | .holdPending | .hold | .resumePending =>
    let base := match r.tH with
      | some h => if earlier h s.clock then h else s.clock
      | none => s.clock
    { s with race := { r with remembered := some .finishing, grace := some (addTime base s.params.grace) } }
  | _ => { s with race := r }

/-- A car becomes FINISHED on a fixed finish crossing (R38). -/
def CarRecord.finished (c : CarRecord) (place : Nat) : CarRecord :=
  { c with state := .finished, finishPlacing := some place, coastTimer := none, loseTimer := none }

/-- The events of a finish (R102, item 4): the car is finished, FINISH_FIXED, the first-finish report. -/
def fixFinish (i : Slot) (place : Nat) (s : State) : State :=
  let s1 := if (s.car i).enabled then changeCar i ((s.car i).finished place) none s else s
  let s2 := raiseNow .finishFixed [i] s1
  if place = 1 ∧ s2.race.state ≠ .closed then firstFinish s2 else s2

/-- The events of one fixing, in the order of R102. -/
def fixEvents (x : Crossing) (place : Nat) (s : State) : State :=
  let s1 := raiseNow .lapFixed [x.slot] s
  let s2 := if place = 1 then raiseLeadChange x.lap x.slot s1 else s1
  let s3 := if place = 1 ∧ x.lap = s2.params.laps then raiseNow .lastLap [x.slot] s2 else s2
  if x.lap = s3.params.laps + 1 then fixFinish x.slot place s3 else s3

/-- Record `x` becomes FIXED (R100 to R102); `late` for a fixing under the late rule (R97). -/
def fixRecord (x : Crossing) (late : Bool) (s : State) : State :=
  let r := s.lap x.lap
  let place := r.count + 1
  let fixed := { x with status := .fixed place, late := late || x.late }
  let s1 := s.setLap x.lap (r.afterFix x late)
  let s2 := { s1 with crossings := fixInList x fixed late s1.crossings }
  fixEvents fixed place (sendPlacing fixed place (s2.setDeadline x.lap))

/-! ### Finding and entering crossings -/

/-- Crossing `j` of a sample that reveals `k` of them (R91, R92, R93). Its time alone decides whether it is moved to T_green
with JUMP, in COUNTDOWN too: the model's choice (notes/assumptions/27.md). The time the record then holds is T_green, also when
the crossing is found late (R97): the model's choice (notes/assumptions/28.md). -/
def crossingAt (i : Slot) (L : Nat) (tGreen : Option RaceTime) (prev x : Sample) (k j : Nat) : Crossing :=
  let covered : Nat := ((k * L + x.s : Int) - prev.s).toNat
  let t := addTime prev.time (roundDiv (timeDiff x.time prev.time * ((j * L : Int) - prev.s)) covered)
  let early := match tGreen with
    | some g => earlier t g
    | none => false
  { slot := i, lap := prev.lap + j, time := if early then tGreen.getD t else t, rankS := x.s, status := .provisional,
    multi := decide (1 < k), late := false, jump := early }

/-- The crossings a pair of samples reveals, those above lap laps + 1 passed over (R91, R92). -/
def foundCrossings (s : State) (i : Slot) (prev x : Sample) : List Crossing :=
  let k := x.lap - prev.lap
  ((List.range' 1 k).map (crossingAt i s.params.lapLength s.race.tGreen prev x k)).filter fun c =>
    decide (c.lap ≤ s.params.laps + 1)

/-- The highest lap of any car's last sample (R96). -/
def State.leaderLap (s : State) : Nat :=
  allSlots.foldl (fun m i => match (s.car i).last with
    | some x => max m x.lap
    | none => m) 0

/-- The record may be removed to make room (R96). -/
def removable (leaderLap laps : Nat) (x : Crossing) : Bool :=
  !x.isProvisional && decide (x.lap + 1 < leaderLap) && decide (x.lap < laps + 1)

/-- The list without its first element that satisfies `p`, when it has one. -/
def removeFirst {α : Type} (p : α → Bool) : List α → Option (List α)
  | [] => none
  | x :: xs => if p x then some xs else (removeFirst p xs).map (x :: ·)

/-- Room for one more record: capacity removal when 128 are held (R95, R96); `none` when no record may go. -/
def State.makeRoom (s : State) : Option (List Crossing) :=
  if s.crossings.length < 128 then some s.crossings else removeFirst (removable s.leaderLap s.params.laps) s.crossings

/-- The late test (R95). -/
def isLate (r : LapRecord) (x : Crossing) : Bool :=
  match r.time with
  | some t => earlier x.time t
  | none => false

/-- A found crossing is entered in the list: room, the late test, insertion (R95). -/
def enterCrossing (s : State) (x : Crossing) : State :=
  match s.makeRoom with
  | none => { s.modCar x.slot fun c => { c with unplaced := true } with crossingLost := bump s.crossingLost }
  | some xs =>
    let s1 := { s with crossings := xs }
    if isLate (s1.lap x.lap) x then fixRecord x true s1
    else { s1 with crossings := insertCrossing x s1.crossings }.setDeadline x.lap

/-- The Line Unit looks for crossings in a sample handed to it and enters them (R90, R92). -/
def enterCrossings (i : Slot) (prev : Option Sample) (x : Sample) (s : State) : State :=
  if (s.car i).state = .finished then s
  else match prev with
    | none => if x.lap = 0 then s else s.modCar i fun c => { c with unplaced := true }
    | some q =>
      if x.lap ≤ q.lap then s
      else if q.s < s.params.lapLength then (foundCrossings s i q x).foldl enterCrossing s
      else s.modCar i fun c => { c with unplaced := true }

/-! ### The conditions of fixing -/

/-- The settle condition (R98, R104). -/
def State.settled (s : State) (x : Crossing) : Bool :=
  !s.suspended && atOrAfter s.clock (addTime x.time s.params.settle)

/-- Car `i` does not hold back the proof for record `x` (R98). -/
def passedBy (x : Crossing) (i : Slot) (c : CarRecord) : Bool :=
  decide (i = x.slot) || !decide (c.state = .live ∨ c.state = .coasting ∨ c.state = .parked)
    || (match c.last with
      | some y => decide (x.lap ≤ y.lap) || later y.time x.time
      | none => true)

/-- The proof condition (R98). -/
def State.proven (s : State) (x : Crossing) : Bool := allSlots.all fun i => passedBy x i (s.car i)

/-- Fix the PROVISIONAL records of lap `k` from the first on, while one meets a condition (R98, R99). `fuel` bounds the
number of fixings; a lap holds fewer records than the list is long. -/
def fixLap (k : Nat) : Nat → State → State
  | 0, s => s
  | fuel + 1, s =>
    match s.firstProvisional k with
    | some x => if s.settled x || s.proven x then fixLap k fuel (fixRecord x false s) else s
    | none => s

/-- One pass over the laps of the race (R99). -/
def fixPass (s : State) : State := s.raceLaps.foldl (fun s k => fixLap k s.crossings.length s) s

/-- Fix every PROVISIONAL record in list order, testing neither condition (R106). -/
def fixAll : Nat → State → State
  | 0, s => s
  | fuel + 1, s =>
    match s.crossings.find? Crossing.isProvisional with
    | some x => fixAll fuel (fixRecord x false s)
    | none => s

/-! ### The classification -/

/-- Group of a car (R107). -/
def classGroup : CarState → ClassGroup
  | .finished => .finished
  | .retired => .out
  | .lost => .out
  | _ => .running

/-- The lap of a car: that of its last sample, or 0 (R27). -/
def CarRecord.lap (c : CarRecord) : Nat := match c.last with
  | some x => x.lap
  | none => 0

/-- The order of the classification (R107). -/
def classKey (c : CarRecord) (i : Slot) : List Int :=
  match classGroup c.state with
  | .finished => [0, (c.finishPlacing.getD 0 : Nat), i.val]
  | g =>
    [g.code.toNat, -(c.lap : Int), if c.last.isSome then 0 else 1, if c.unplaced then 1 else 0,
     match c.last with
       | some x => -(x.s : Int)
       | none => 0,
     i.val]

/-- The classification entry of slot `i` at position `n` (R108). -/
def classEntry (s : State) (n : Nat) (i : Slot) : ClassEntry :=
  let c := s.car i
  let done := decide (classGroup c.state = .finished)
  { position := n, slot := i, number := c.number, group := classGroup c.state, state := c.state, lap := c.lap,
    finishPlacing := if done then c.finishPlacing else none,
    finishTime := if done then
        (s.crossings.find? fun x => decide (x.slot = i ∧ x.lap = s.params.laps + 1)).map fun x => x.time
      else none,
    unplaced := c.unplaced, jump := c.jump }

/-- Number the slots of the classification from position `n` on. -/
def classEntries (s : State) : Nat → List Slot → List ClassEntry
  | _, [] => []
  | n, i :: is => classEntry s n i :: classEntries s (n + 1) is

/-- The classification (R107). -/
def classify (s : State) : List ClassEntry :=
  classEntries s 1 (sortByKey (fun i => classKey (s.car i) i) (allSlots.filter fun i => (s.car i).enabled))

end Sys2Proof.Machine
end

