-- ==== Sys2Proof/Machine/Race.lean ====
section
/-! DEFINITION. Work shared by the race's commands and timers: ageing (R32, R33), the close (R127, R128), the fixing
evaluation with the tests it leads to (R99, R127), entering HOLD (R119) and the resume shift (R34, R104). -/

namespace Sys2Proof.Machine

/-! ### Ageing -/

/-- Deadline of the coast timer for a sample time (R31). The timer expires when the race clock lies later than it. -/
def State.coastDeadline (s : State) (x : Sample) : RaceTime := addTime x.time s.params.coastAfter

/-- Deadline of the lose timer for a sample time (R32). -/
def State.loseDeadline (s : State) (x : Sample) : RaceTime := addTime x.time s.params.loseAfter

/-- The record of a car that becomes COASTING (R32, R35, R37). -/
def State.coasting (s : State) (c : CarRecord) : CarRecord :=
  { c with state := .coasting, coastTimer := none, loseTimer := c.last.map s.loseDeadline }

/-- The record of a car that becomes LOST (R32). -/
def CarRecord.lost (c : CarRecord) : CarRecord := { c with state := .lost, coastTimer := none, loseTimer := none }

/-- An age evaluation without its report to the Line Unit and the Race Controller (R32). -/
def ageStep (i : Slot) (s : State) : State :=
  let c := s.car i
  match c.last with
  | none => s
  | some x =>
    let age := timeDiff s.clock x.time
    match c.state with
    | .live =>
      if (s.params.loseAfter : Int) < age then changeCar i c.lost (some .carLost) s
      else if (s.params.coastAfter : Int) < age then changeCar i (s.coasting c) (some .carCoasting) s
      else s.setCar i { c with coastTimer := some (s.coastDeadline x) }
    | .coasting =>
      if (s.params.loseAfter : Int) < age then changeCar i c.lost (some .carLost) s
      else s.setCar i { c with loseTimer := some (s.loseDeadline x) }
    | _ => s

/-! ### The close -/

/-- The close steps (R128). -/
def closeSteps (s : State) : State :=
  let fromHold := decide (s.race.state = .hold)
  let s1 := { s with race := { s.race with
    state := .closed, grace := none,
    tH := if fromHold then none else s.race.tH,
    remembered := if fromHold then none else s.race.remembered } }
  let s2 := if fromHold then allSlots.foldl (fun s i => ageStep i s) s1 else s1
  let s3 := (fixAll s2.crossings.length s2).setAllDeadlines
  raiseNow .raceClosed [] { s3 with classification := classify s3 }

/-- No enabled car stands outside FINISHED, RETIRED and LOST (R127). -/
def State.fieldDone (s : State) : Bool :=
  allSlots.all fun i =>
    let c := s.car i
    !c.enabled || decide (c.state = .finished ∨ c.state = .retired ∨ c.state = .lost)

/-- The field test, made in FINISHING (R127). -/
def fieldTest (s : State) : State :=
  if s.race.state = .finishing ∧ s.fieldDone = true then closeSteps s else s

/-- The closing tests made on entry into FINISHING: the grace deadline and the field test (R115, R124, R126, R127). -/
def closingTests (s : State) : State :=
  if s.race.state = .finishing ∧ (s.reached s.race.grace || s.fieldDone) = true then closeSteps s else s

/-! ### The fixing evaluation -/

/-- Finish crossings fixed so far. -/
def State.finishes (s : State) : Nat := (s.lap (s.params.laps + 1)).count

/-- Passes of a fixing evaluation: a pass that finishes a car leads to a further one (R99). At most twelve cars finish. -/
def fixPasses : Nat → State → State
  | 0, s => s
  | fuel + 1, s =>
    let s1 := fixPass s
    if s1.finishes = s.finishes then s1 else fixPasses fuel s1

/-- The states in which a fixing evaluation can find a PROVISIONAL record (R99). -/
def fixingState (r : RaceState) : Bool := decide (r ≠ .idle ∧ r ≠ .grid ∧ r ≠ .closed)

/-- A fixing evaluation, and then the tests its fixings cause (R99, R126, R127). -/
def evaluate (s : State) : State :=
  if fixingState s.race.state then
    let s1 := fixPasses 13 s
    if s.race.state ≠ .finishing ∧ s1.race.state = .finishing then closingTests s1
    else if s1.finishes ≠ s.finishes then fieldTest s1
    else s1
  else s

/-- What the Line Unit and the Race Controller do on the report of a car state change (R40). The placings it fixes follow the
order in which the change and a sample of that car are taken: the model's choice where R105 says that they are the same in
either order (notes/assumptions/30.md). -/
def afterChange (s : State) : State := fieldTest (evaluate s)

/-- The Line Unit's work on a sample handed to it (R90 to R99). The evaluation also serves the state change the sample
made, which has been reported before (notes/assumptions/7.md). -/
def lineSample (i : Slot) (prev : Option Sample) (x : Sample) (s : State) : State :=
  let s1 := enterCrossings i prev x s
  let s2 := evaluate s1
  if s1.finishes = s.finishes then s2 else fieldTest s2

/-- An age evaluation of one car and the report of its change (R33, R40). -/
def ageEval (i : Slot) (s : State) : State :=
  let s1 := ageStep i s
  if (s1.car i).state = (s.car i).state then s1 else afterChange s1

/-- An age evaluation of every LIVE and COASTING car (R33); one of any other car does nothing. -/
def ageAll (s : State) : State := allSlots.foldl (fun s i => ageEval i s) s

/-! ### Holds -/

/-- The race enters HOLD (R119). -/
def enterHold (s : State) : State :=
  raiseNow .holdBegin [] { s with race := { s.race with state := .hold, acks := [] } }

/-- Every entry of the ack set is acked. -/
def State.allAcked (s : State) : Bool := s.race.acks.all fun a => a.acked

/-- The test of complete acknowledgement (R119). -/
def ackTest (s : State) : State :=
  if s.race.state = .holdPending ∧ (s.reached s.race.tH && s.allAcked) = true then enterHold s else s

/-- A stored sample moved later (R34). -/
def Sample.shift (x : Sample) (d : Int) : Sample := { x with time := addTime x.time d }

/-- A car's samples moved later (R34). -/
def CarRecord.shift (c : CarRecord) (d : Int) : CarRecord :=
  { c with last := c.last.map (·.shift d), prev := c.prev.map (·.shift d) }

/-- The fixed time of a lap moved later (R104). -/
def LapRecord.shift (r : LapRecord) (d : Int) : LapRecord := { r with time := r.time.map (addTime · d) }

/-- The resume shift: sample times, crossing times, fixed times and the grace deadline (R34, R104, R124). -/
def resumeShift (d : Int) (s : State) : State :=
  { s with
    cars := perSlot fun i => (s.car i).shift d
    crossings := s.crossings.map fun x => { x with time := addTime x.time d }
    lapTable := ⟨⟨s.lapTable.toList.map (·.shift d)⟩, by simp⟩
    race := { s.race with grace := s.race.grace.map (addTime · d) } }

/-- The hold ends at T_r: the remembered state returns and the hold's fields become absent (R124, step 4). -/
def leaveResume (s : State) : State :=
  { s with race := { s.race with state := s.race.remembered.getD .running, tH := none, tR := none, remembered := none } }

end Sys2Proof.Machine
end

