-- ==== Sys2Proof/Machine/Links.lean ====
section
/-! DEFINITION. The port state machine (R153 to R167): leaving and entering ACTIVE, training rounds, phase sweeps, FAULT,
QUIET and the port reset, with the director role they pass on (R172, R173). -/

namespace Sys2Proof.Machine

/-! ### Cars and their port -/

/-- A car of a port that leaves ACTIVE: LIVE becomes COASTING (R35), or LIVE and COASTING become PARKED for QUIET
(R36). -/
def leaveCar (quiet : Bool) (s : State) (i : Slot) : State :=
  let c := s.car i
  if quiet then
    if inContactState c.state then
      afterChange (changeCar i { c with state := .parked, coastTimer := none, loseTimer := none } none s)
    else s
  else if c.state = .live then afterChange (changeCar i (s.coasting c) (some .carCoasting) s)
  else s

/-- A PARKED car becomes COASTING, and its age is evaluated unless ageing is suspended (R37). -/
def unparkCar (s : State) (i : Slot) : State :=
  let c := s.car i
  if c.state = .parked then
    let s1 := afterChange (changeCar i (s.coasting c) (some .carCoasting) s)
    if s1.suspended then s1 else ageEval i s1
  else s

/-- The PARKED cars of a port that enters ACTIVE, DOWN, FAULT or OFF (R37), each changed and its age evaluated before the
next, in slot order: the model's choice (notes/assumptions/7.md). -/
def unparkCars (p : PortNo) (s : State) : State := (s.slotsOf p).foldl unparkCar s

/-! ### The director role -/

/-- The port that held the role has left ACTIVE: the role passes to the lowest ACTIVE port, or falls vacant, and the old
director's commands are discarded (R173). -/
def handOver (p : PortNo) (s : State) : State :=
  let next := allPorts.find? s.isActive
  let s1 := ({ s with mgmt := { s.mgmt with director := next } }).discardCommands p
  match next with
  | some n => s1.offerNotice n (.directorMoved (some p) .handOver)
  | none => s1

/-- A port that entered ACTIVE while the role was vacant takes it (R172). -/
def takeUp (p : PortNo) (s : State) : State :=
  ({ s with mgmt := { s.mgmt with director := some p } }).offerNotice p (.directorMoved none .takeUp)

/-! ### Leaving ACTIVE -/

/-- A port's entry in the ack set is removed, and the test of R119 made (R121). -/
def removeAck (p : PortNo) (s : State) : State :=
  if s.race.acks.any fun a => decide (a.port = p) then
    ackTest { s with race := { s.race with acks := s.race.acks.filter fun a => decide (a.port ≠ p) } }
  else s

/-- What the port itself loses when it leaves ACTIVE for `new` (R25, R83, R148, R162). -/
def Port.departed (q : Port) (new : PortPhase) : Port :=
  { q with phase := new, calls := [], cues := [], placings := [],
           outbox := if new = .quiet then q.outbox else [], paceTimer := none,
           timing := { q.timing with window := none } }

/-- An ACTIVE port leaves ACTIVE for `new`, with the reactions of R162. -/
def leaveActive (p : PortNo) (new : PortPhase) (s : State) : State :=
  let held := s.holdsRole p
  let s1 := (s.abandonViewSet p).modPort p (·.departed new)
  let s2 := if held then handOver p s1 else if new = .quiet then s1 else s1.discardCommands p
  removeAck p ((s2.slotsOf p).foldl (leaveCar (decide (new = .quiet))) s2)

/-- The port state becomes `new`; from ACTIVE with the reactions of R162. -/
def changePhase (p : PortNo) (new : PortPhase) (s : State) : State :=
  if s.isActive p then leaveActive p new s else s.modPort p fun q => { q with phase := new }

/-! ### FAULT -/

/-- Entry into FAULT (R6, R160). -/
def enterFault (p : PortNo) (reason : FaultReason) (s : State) : State :=
  let s1 := (changePhase p .fault s).modPort p fun q =>
    { q with faultReason := some reason, class1 := [], training := .none,
             timing := { q.timing with valid := false, window := none, sweep := none } }
  raise { kind := .portFault, time := s1.clock, slots := [], fault := some (p, reason) } (unparkCars p s1)

/-! ### PHASE and RATE -/

/-- The probe spacing (R10). -/
def probeStep (r : TimingRecord) : Nat := (roundDiv r.pNom 16384).toNat

/-- The index of probe `k` of sweep `n` (R10). -/
def probeIndex (n k : Nat) : Nat := 64 * (n - 1) + k

/-- Sweep `n` opens and queues its first PROBE (R10, R13). -/
def startSweep (p : PortNo) (n : Nat) (s : State) : State :=
  (s.modPort p fun q => { q with timing := { q.timing with
      sweep := some { number := n, queued := 1, sent := [], answers := Vector.replicate 64 none } } }).offerTraining p
    (.probe (probeIndex n 0))

/-- Entry into PHASE (R10, R159). -/
def enterPhase (p : PortNo) (s : State) : State :=
  startSweep p 1 ((changePhase p .phase s).modPort p fun q => { q with training := .none })

/-- The next PROBE of the open sweep is queued (R10). -/
def queueProbe (p : PortNo) (w : Sweep) (s : State) : State :=
  (s.modPort p fun q => { q with timing := { q.timing with sweep := some { w with queued := w.queued + 1 } } }).offerTraining p
    (.probe (probeIndex w.number w.queued))

/-- The answers from index `k` on, after answers all equal to `n0`: the index of a valid +1 change (R12). -/
def changeFrom (n0 : FrameNum) : Nat → List (Option FrameNum) → Option Nat
  | _, [] => none
  | _, none :: _ => none
  | k, some n :: rest =>
    if n = n0 then changeFrom n0 (k + 1) rest else if n = n0 + 1 ∧ 2 ≤ k then some k else none

/-- The index k of R12 that makes a sweep succeed. -/
def sweepChange (w : Sweep) : Option Nat :=
  match w.answers.toList with
  | some n0 :: rest => changeFrom n0 1 rest
  | _ => none

/-- The record after a successful sweep with change at index `k` (R12). -/
def TimingRecord.levelled (r : TimingRecord) (w : Sweep) (k : Nat) : TimingRecord :=
  { r with valid := true, anchorFrame := (w.answers.toList.getD k none).getD 0,
           anchorTime := addTime (w.sent.getD (k - 1) 0) (r.delta + probeStep r / 2 : Nat),
           period := r.pNom, lag := none, residual := none, window := none, sweep := none }

/-- The open sweep is decided (R12, R13). -/
def decideSweep (p : PortNo) (w : Sweep) (s : State) : State :=
  match sweepChange w with
  | some k => s.modPort p fun q => { q with phase := .rate, timing := q.timing.levelled w k }
  | none =>
    if w.number < 3 then startSweep p (w.number + 1) s else enterFault p .phase s

/-- A PROBE_REPLY is filed under its index, or discarded (R11). -/
def fileAnswer (p : PortNo) (index : Nat) (n : FrameNum) (s : State) : State :=
  match (s.timing p).sweep with
  | none => s
  | some w =>
    let k := index - 64 * (w.number - 1)
    if 64 * (w.number - 1) ≤ index ∧ k < 64 ∧ k < w.sent.length ∧ w.answers.toList.getD k none = none then
      let w1 := { w with answers := w.answers.setIfInBounds k (some n) }
      let s1 := s.modPort p fun q => { q with timing := { q.timing with sweep := some w1 } }
      if w1.answers.toList.all Option.isSome then decideSweep p w1 s1 else s1
    else s

/-! ### ACTIVE -/

/-- Entry into ACTIVE (R159, R162, R172, R37, R70). A vacant director role is taken before the PARKED cars change, so that
their notices go to the new director: the model's choice (notes/assumptions/7.md). -/
def enterActive (p : PortNo) (s : State) : State :=
  let vacant := s.roleHolder.isNone
  let s1 := s.modPort p fun q =>
    { q with phase := .active,
             paceTimer := if q.entry.pacing = .clock then some (addTime s.clock q.entry.pacePeriod) else none }
  unparkCars p (if vacant then takeUp p s1 else s1)

/-! ### TRAIN -/

/-- The record at an entry into TRAIN (R6). -/
def trainTiming (e : PortEntry) : TimingRecord :=
  { clearedTiming with pNom := e.pNom, tolPpm := e.tolPpm, winFrames := e.winFrames }

/-- The port at an entry into TRAIN at race time `now` (R156, R157, R161, R166). -/
def Port.toTrain (q : Port) (now : RaceTime) : Port :=
  { q with phase := .train, timing := trainTiming q.entry, failedRounds := 0, linkBase := some now,
           training := .pause (addTime now 5000), nextInvite := none, class1 := [], outbox := [],
           gateSample := q.gateSample && decide (q.phase ≠ .quiet), gateCar := q.gateCar && decide (q.phase ≠ .quiet) }

/-- Entry into TRAIN from DOWN or QUIET (R156, R157, R166); a port leaving QUIET loses its commands (R176). -/
def enterTrain (p : PortNo) (s : State) : State :=
  let s1 := if (s.port p).phase = .quiet then s.discardCommands p else s
  s1.modPort p (·.toTrain s.clock)

/-- The TRAIN frames of a round: four of each enabled pattern, or of pattern 0 when none is (R157). -/
def roundFrames (ps : Vector Pattern 4) : List TrainFrame :=
  let one (i : Fin 4) : List TrainFrame := List.replicate 4 ⟨i, ps[i].bytes⟩
  let on := ([0, 1, 2, 3] : List (Fin 4)).filter fun i => ps[i].enabled
  if on.isEmpty then one 0 else on.flatMap one

/-- The frames of a round still to be echoed: the first is queued (R157). -/
def sendTrain (p : PortNo) (todo : List TrainFrame) (s : State) : State :=
  let s1 := s.modPort p fun q => { q with training := .round todo none }
  match todo with
  | f :: _ => s1.offerTraining p (.train f.index f.bytes)
  | [] => s1

/-- A training round begins with a copy of the pattern store (R157, R163). -/
def startRound (p : PortNo) (s : State) : State :=
  sendTrain p (roundFrames s.patterns) (s.modPort p fun q => { q with timing := { q.timing with echoValues := [] } })

/-- A training round fails (R158). -/
def failRound (p : PortNo) (s : State) : State :=
  let n := (s.port p).failedRounds + 1
  let s1 := s.modPort p fun q =>
    { q with failedRounds := n, training := .pause (addTime s.clock 5000),
             timing := { q.timing with echoValues := [] } }
  if 8 ≤ n then enterFault p .train s1 else s1

/-- An echo value (R8). -/
def echoValue (stamp sent : RaceTime) (turnaround : Nat) : Nat :=
  (clamp 0 131071 (timeDiff stamp sent - turnaround)).toNat

/-- δ from the echo values of a successful round (R9). -/
def linkDelay (values : List Nat) : Nat := values.sum / (2 * values.length)

/-- A good echo: its value is gathered; the next frame is queued, or the round succeeds (R8, R9, R157, R158). -/
def goodEcho (p : PortNo) (value : Nat) (rest : List TrainFrame) (s : State) : State :=
  let values := (s.timing p).echoValues ++ [value]
  if rest.isEmpty then
    enterPhase p (s.modPort p fun q =>
      { q with timing := { q.timing with delta := linkDelay values, echoValues := [] } })
  else
    sendTrain p rest (s.modPort p fun q => { q with timing := { q.timing with echoValues := values } })

/-- A TRAIN_ECHO taken in TRAIN (R158). -/
def roundEcho (p : PortNo) (stamp : RaceTime) (index : Nat) (bytes : List Byte) (turnaround : Nat) (s : State) : State :=
  match (s.port p).training with
  | .round (f :: rest) (some sent) =>
    if index = f.index.val ∧ bytes = f.bytes then goodEcho p (echoValue stamp sent turnaround) rest s
    else failRound p s
  | _ => s

/-! ### DOWN and the port reset -/

/-- An invitation is queued, and the next one is due 10,000 µs later (R156). -/
def invite (p : PortNo) (s : State) : State :=
  let f := invitationPattern s.patterns
  (s.modPort p fun q => { q with nextInvite := some (addTime s.clock 10000) }).offerTraining p (.train f.index f.bytes)

/-- A port stripped of everything it was doing, its record cleared (R156, R167, steps 1 to 3 and 5). -/
def Port.cleared (q : Port) (new : PortPhase) : Port :=
  { q with phase := new, faultReason := none, linkBase := none, nextInvite := none, training := .none,
           timing := clearedTiming, class1 := [], calls := [], cues := [], placings := [], outbox := [],
           viewSet := none, paceTimer := none,
           gateSample := q.gateSample && decide (q.phase ≠ .quiet), gateCar := q.gateCar && decide (q.phase ≠ .quiet) }

/-- The last steps of an entry into DOWN or OFF: PARKED cars become COASTING, and DOWN sends its first invitation
(R37, R156, R167). -/
def settleDown (p : PortNo) (s : State) : State :=
  let s1 := unparkCars p s
  if (s1.port p).phase = .down then invite p s1 else s1

/-- A port reset (R167, R176). -/
def portReset (p : PortNo) (s : State) : State :=
  let q := s.port p
  let new := if q.entry.enabled then PortPhase.down else .off
  if q.phase = .active then settleDown p ((leaveActive p new s).modPort p (·.cleared new))
  else
    let s1 := if q.phase = .quiet then s.discardCommands p else s
    settleDown p (s1.modPort p (·.cleared new))

/-- A port that is enabled moves from OFF to DOWN (R155, R156). -/
def enablePort (p : PortNo) (s : State) : State := settleDown p (s.modPort p (·.cleared .down))

/-! ### QUIET -/

/-- The quiet gate of a port is open (R164): ownership is read now. -/
def State.gateOpen (s : State) (p : PortNo) : Bool :=
  if (s.slotsOf p).isEmpty then (s.port p).gateCar else (s.port p).gateSample

/-- The race states in which a port with a LIVE or COASTING car may not go QUIET (R164). -/
def racing (r : RaceState) : Bool := decide (r = .countdown ∨ r = .running ∨ r = .finishing)

/-- The tests of R164 that a QUIET_ASK and a PORT_QUIET share: `none` when both pass. -/
def State.quietRefusal (s : State) (p : PortNo) : Option Status :=
  if racing s.race.state && (s.slotsOf p).any fun i => inContactState (s.car i).state then some .state
  else if s.gateOpen p then none
  else some .tooSoon

/-- A stored link rate reaches an idle line at once (R150). -/
def State.followRate (s : State) (p : PortNo) : State :=
  s.modPort p fun q => if q.wire.isNone then { q with lineRate := q.entry.linkRate } else q

/-- Entry into QUIET, storing the rate a QUIET_ASK asks (R165). -/
def enterQuiet (p : PortNo) (rate : Option LinkRate) (s : State) : State :=
  let s1 := s.modPort p fun q => { q with entry := { q.entry with linkRate := rate.getD q.entry.linkRate } }
  let s2 := (leaveActive p .quiet s1).modPort p fun q => { q with linkBase := none }
  s2.followRate p

/-! ### Requests of the Timing Unit (R26) -/

/-- What a rate window asks of the Link Port. -/
inductive TimingRequest where
  | none
  | active
  | reLevel
  | rateFault
  deriving DecidableEq, Repr

/-- The Link Port takes a request while the port is still in the state named, `named` (R26). -/
def takeRequest (p : PortNo) (named : PortPhase) (req : TimingRequest) (s : State) : State :=
  if (s.port p).phase = named then
    match req with
    | .none => s
    | .active => enterActive p s
    | .reLevel => enterPhase p s
    | .rateFault => enterFault p .rate s
  else s

end Sys2Proof.Machine
end

