-- ==== Sys2Proof/Machine/Timing.lean ====
section
/-! DEFINITION. Arrival lag and rate windows: what one CAR frame does to a Port Timing Record (R18 to R25). -/

namespace Sys2Proof.Machine

/-- What the timing of a CAR frame comes to: the record, the request, and whether OUT_OF_WINDOW counts the frame. -/
structure TimingOutcome where
  record : TimingRecord
  request : TimingRequest
  missed : Bool
  deriving DecidableEq, Repr

/-- The measured period (R20). -/
def measuredPeriod (w : RateWindow) (f : FrameNum) (stamp : RaceTime) : Int :=
  roundDiv (timeDiff stamp w.startArrival * 256) (frameDiff w.startFrame f).toNat

/-- The band of a record (R20). -/
def periodBand (r : TimingRecord) : Nat := r.pNom * r.tolPpm / 1000000

/-- The window is in band (R20). -/
def inBand (r : TimingRecord) (pMeas : Int) : Bool := decide ((pMeas - r.pNom).natAbs ≤ periodBand r)

/-- The record with its window closed (R20, R25). -/
def TimingRecord.closed (r : TimingRecord) : TimingRecord := { r with window := none }

/-- The record after the steps 1 and 2 that end an in-band window (R21, R22): the anchor moves under the old period. -/
def TimingRecord.moved (r : TimingRecord) (f : FrameNum) (pMeas : Int) : TimingRecord :=
  { r.closed with anchorTime := frameMark r f, anchorFrame := f, period := pMeas.toNat }

/-- The slew of a residual (R22). -/
def slewOf (slewMax : Nat) (res : Int) : Int := clamp (-slewMax) slewMax (res.tdiv 2)

/-- A window ends in RATE (R21). -/
def firstWindowEnd (r : TimingRecord) (f : FrameNum) (pMeas : Int) : TimingOutcome :=
  if inBand r pMeas then { record := r.moved f pMeas, request := .active, missed := false }
  else { record := r.closed, request := .rateFault, missed := false }

/-- A window ends in ACTIVE (R22, R23, R24). -/
def trackingWindowEnd (e : PortEntry) (r : TimingRecord) (f : FrameNum) (stamp : RaceTime) (pMeas : Int) : TimingOutcome :=
  if inBand r pMeas then
    let m := r.moved f pMeas
    let res := timeDiff stamp m.anchorTime - r.lag.getD 0
    let m1 := { m with residual := some res }
    if res.natAbs ≤ e.phaseTol then
      { record := { m1 with anchorTime := addTime m.anchorTime (slewOf e.slewMax res) }, request := .none, missed := false }
    else { record := m1, request := .reLevel, missed := false }
  else { record := r.closed, request := .rateFault, missed := false }

/-- A CAR frame taken with an open window (R19). -/
def countFrame (active : Bool) (e : PortEntry) (r : TimingRecord) (w : RateWindow) (f : FrameNum) (stamp : RaceTime) :
    TimingOutcome :=
  let d := frameDiff w.lastCounted f
  if d < -(r.winFrames : Int) then
    { record := r.closed, request := if active then .reLevel else .rateFault, missed := false }
  else if d ≤ 0 then { record := r, request := .none, missed := false }
  else if (r.winFrames : Int) ≤ frameDiff w.startFrame f then
    if active then trackingWindowEnd e r f stamp (measuredPeriod w f stamp)
    else firstWindowEnd r f (measuredPeriod w f stamp)
  else { record := { r with window := some { w with lastCounted := f } }, request := .none, missed := false }

/-- A CAR frame taken with a known lag: it opens a window or counts toward the open one (R19). -/
def feedWindow (active : Bool) (e : PortEntry) (r : TimingRecord) (f : FrameNum) (stamp : RaceTime) : TimingOutcome :=
  match r.window with
  | none => { record := { r with window := some { startFrame := f, startArrival := stamp, lastCounted := f } },
              request := .none, missed := false }
  | some w => countFrame active e r w f stamp

/-- A CAR frame from a port in RATE or ACTIVE (R18, R19). -/
def timeFrame (active : Bool) (e : PortEntry) (r : TimingRecord) (f : FrameNum) (stamp : RaceTime) : TimingOutcome :=
  match r.lag with
  | some _ => feedWindow active e r f stamp
  | none =>
    match forward r f with
    | some t => feedWindow active e { r with lag := some (timeDiff stamp t) } f stamp
    | none => { record := r, request := .none, missed := true }

end Sys2Proof.Machine
end

