-- ==== Sys2Proof/Machine/Projection.lean ====
section
/-! DEFINITION. The Projection Engine: six stages of integer arithmetic (R49 to R65). -/

namespace Sys2Proof.Machine

/-- The result of a projection (R50). -/
structure Projected where
  s : Nat
  lap : Nat
  d : Int
  v : Nat
  held : Bool
  stopped : Bool
  deriving DecidableEq, Repr

/-- The hold substitution (R52): in HOLD_PENDING, HOLD and RESUME_PENDING a target later than T_h is replaced by T_h. -/
def holdTarget (r : RaceRecord) (t : RaceTime) : RaceTime :=
  match r.state, r.tH with
  | .holdPending, some h => if later t h then h else t
  | .hold, some h => if later t h then h else t
  | .resumePending, some h => if later t h then h else t
  | _, _ => t

/-- Stage 1, second step (R53): the interval clamped to −H_b … +H_f. -/
def effectiveInterval (pr : RaceParams) (dt : Int) : Int := clamp (-pr.hB) pr.hF dt

/-- Stage 2 (R54): would the car come to rest before the end of the interval? -/
def comesToRest (v : Nat) (a dt : Int) : Bool := decide (a < 0 ∧ 0 < dt ∧ (v : Int) * 1000000 + a * dt < 0)

/-- The interval as stage 2 leaves it (R54). -/
def stoppedInterval (v : Nat) (a dt : Int) : Int := if comesToRest v a dt then (v : Int) * 1000000 / -a else dt

/-- Stage 3 (R55): the distance covered. -/
def distance (v : Nat) (a dt : Int) : Int := roundDiv (2000000 * v * dt + a * dt ^ 2) 2000000000000

/-- Stage 4 (R56, R57, R58): position and lap on a closed lap of length `L`. -/
def wrapPosition (L : Nat) (lap : Nat) (x : Int) : Nat × Nat :=
  if x < 0 then
    let q := ceilDiv (-x) L
    if (lap : Int) < q then (0, 0) else ((x + q * L).toNat, ((lap : Int) - q).toNat)
  else ((x % L).toNat, min 255 (lap + (x / L).toNat))

/-- Stage 5 (R59): the speed. -/
def projectedSpeed (v : Nat) (a dt : Int) : Nat := (clamp 0 20000 (v + roundDiv (a * dt) 1000000)).toNat

/-- Stage 6 (R60): the lateral offset. -/
def projectedOffset (dMax : Nat) (d w dt : Int) : Int := clamp (-dMax) dMax (d + roundDiv (w * dt) 1000000)

/-- The projection of a last sample to target `t` (R49 to R63). -/
def projectSample (pr : RaceParams) (r : RaceRecord) (x : Sample) (t : RaceTime) : Projected :=
  let dt := timeDiff (holdTarget r t) x.time
  let dt1 := effectiveInterval pr dt
  let dt2 := stoppedInterval x.v x.a dt1
  let pos := wrapPosition pr.lapLength x.lap (x.s + distance x.v x.a dt2)
  { s := pos.1, lap := pos.2, d := projectedOffset pr.dMax x.d x.w dt2, v := projectedSpeed x.v x.a dt2,
    held := decide ((pr.hF : Int) < dt), stopped := comesToRest x.v x.a dt1 }

/-- The result for one car: none when it has no last sample (R64). -/
def projectCar (pr : RaceParams) (r : RaceRecord) (c : CarRecord) (t : RaceTime) : Option Projected :=
  c.last.map fun x => projectSample pr r x t

end Sys2Proof.Machine
end

