-- ==== Sys2Proof/Machine/View.lean ====
section
/-! DEFINITION. The View Assembler (R69 to R85) and the Contact Monitor's evaluation of a sample (R135, R136). -/

namespace Sys2Proof.Machine

/-! ### Choosing and ordering the cars -/

/-- The states whose cars views show (R74). -/
def viewableState (st : CarState) : Bool :=
  decide (st = .live ∨ st = .coasting ∨ st = .parked ∨ st = .finished)

/-- The car of slot `i` is viewable by port `p` (R74). -/
def State.viewable (s : State) (p : PortNo) (i : Slot) : Bool :=
  let q := s.port p
  viewableState (s.car i).state && (!s.owns p i || q.entry.includeOwn)
    && (decide (q.entry.viewMode ≠ .fixedList) || q.viewOrder.contains i)

/-- The car of slot `i` at race time `t` (R64, R75). -/
def State.projected (s : State) (t : RaceTime) (i : Slot) : Option Projected :=
  projectCar s.params s.race (s.car i) t

/-- The projections of some slots, in the order given. -/
def State.projectedSlots (s : State) (t : RaceTime) (is : List Slot) : List (Slot × Projected) :=
  is.filterMap fun i => (s.projected t i).map fun r => (i, r)

/-- The reference car of a port, when it may serve (R75, R78). -/
def State.referenceCar (s : State) (p : PortNo) : Option Slot :=
  allSlots.find? fun i => s.owns p i && decide ((s.car i).seat = 0) && viewableState (s.car i).state

/-- RACE_ORDER: projected lap, then projected s, highest first, then slot (R77). -/
def raceOrderKey (e : Slot × Projected) : List Int := [-(e.2.lap : Int), -(e.2.s : Int), e.1.val]

/-- NEAREST_FIRST: distance from the reference car, then slot (R78). -/
def nearestKey (L : Nat) (ref : Projected) (e : Slot × Projected) : List Int :=
  [(gap e.2.s ref.s L).natAbs, e.1.val]

/-- The viewable cars of a port at target time `t`, in the order of its view mode (R76 to R78). -/
def State.viewList (s : State) (p : PortNo) (t : RaceTime) : List (Slot × Projected) :=
  match (s.port p).entry.viewMode with
  | .fixedList => s.projectedSlots t ((s.port p).viewOrder.filter (s.viewable p))
  | .raceOrder => sortByKey raceOrderKey (s.projectedSlots t (allSlots.filter (s.viewable p)))
  | .nearestFirst =>
    let es := s.projectedSlots t (allSlots.filter (s.viewable p))
    match (s.referenceCar p).bind (s.projected t) with
    | some ref => sortByKey (nearestKey s.params.lapLength ref) es
    | none => sortByKey raceOrderKey es

/-- The entry of one car (R79). -/
def State.viewEntry (s : State) (e : Slot × Projected) : ViewEntry :=
  let c := s.car e.1
  { slot := e.1, number := c.number, s := e.2.s, lap := e.2.lap, d := e.2.d, v := e.2.v,
    offTrack := (c.last.map fun x => x.offTrack).getD false, spun := (c.last.map fun x => x.spun).getD false,
    coasting := decide (c.state = .coasting), parked := decide (c.state = .parked),
    finished := decide (c.state = .finished), held := e.2.held, stopped := e.2.stopped, jump := c.jump }

/-- The VIEW frames of a set (R80). -/
def viewBodies (target : FrameNum) (es : List ViewEntry) : List FrameBody :=
  if es.length ≤ 6 then [.view target 0 1 es]
  else [.view target 0 2 (es.take 6), .view target 1 2 (es.drop 6)]

/-! ### Pace events -/

/-- A pace event with its target frame: the set is built, and the old one abandoned, unless the target lies outside the
translation window (R72, R73, R80 to R82). -/
def buildViewSet (p : PortNo) (target : FrameNum) (s : State) : State :=
  match forward (s.timing p) target with
  | none => s
  | some t => (s.abandonViewSet p).offerViewSet p target (viewBodies target ((s.viewList p t).map s.viewEntry))

/-- A pace event is taken only while the port is ACTIVE (R72). -/
def paceEvent (p : PortNo) (target : FrameNum) (s : State) : State :=
  if s.isActive p then buildViewSet p target s else s

/-- A frame number moved on by the port's lead_frames (R69 to R71). -/
def State.leadFrom (s : State) (p : PortNo) (f : FrameNum) : FrameNum :=
  f + BitVec.ofNat 16 (s.port p).entry.leadFrames

/-- The target frame of a clock-paced or command-paced event (R70, R71). -/
def State.targetNow (s : State) (p : PortNo) : FrameNum := s.leadFrom p (inverse (s.timing p) s.clock)

/-- The acceptance report of a CAR frame (R47, R69). -/
def acceptanceReport (p : PortNo) (f : FrameNum) (accepted : Bool) (s : State) : State :=
  if accepted && decide ((s.port p).entry.pacing = .cabinet) then paceEvent p (s.leadFrom p f) s else s

/-! ### The Contact Monitor -/

/-- A pair with its lower slot first (R133). -/
def mkPair (i j : Slot) : Slot × Slot := if i < j then (i, j) else (j, i)

/-- The order of the Contact Pair Set (R133). -/
def pairKey (c : Slot × Slot) : List Int := [c.1.val, c.2.val]

/-- The pair {c, o} after its test, given the gap and the lateral difference (R136). -/
def contactTest (c o : Slot) (g dd : Int) (s : State) : State :=
  let pr := s.params
  let pair := mkPair c o
  if s.contacts.contains pair then
    if pr.proxLong + pr.hyst < g.natAbs ∨ pr.proxLat + pr.hyst < dd.natAbs then
      raiseNow .contactEnd [c, o] { s with contacts := s.contacts.filter fun q => decide (q ≠ pair) }
    else s
  else if g.natAbs ≤ pr.proxLong ∧ dd.natAbs ≤ pr.proxLat then
    raiseNow .contactBegin [c, o] { s with contacts := insertByKey pairKey pair s.contacts }
  else s

/-- One other car of an evaluation (R135): `s0` is the state in which the sample was stored. -/
def contactOne (s0 : State) (c : Slot) (x : Sample) (s : State) (o : Slot) : State :=
  if o ≠ c ∧ inContactState (s.car o).state = true then
    match s0.projected x.time o with
    | some r => contactTest c o (gap x.s r.s s.params.lapLength) (x.d - r.d) s
    | none => s
  else s

/-- The Contact Monitor's evaluation of a sample that leaves its car LIVE (R47, R135). -/
def contactSample (s0 : State) (c : Slot) (x : Sample) (s : State) : State :=
  if (s.car c).state = .live then allSlots.foldl (contactOne s0 c x) s else s

end Sys2Proof.Machine
end

