-- ==== Sys2Proof/Machine/Cars.lean ====
section
/-! DEFINITION. Sample acceptance (R41 to R48), the jump check (R117), and the work of a CAR frame (R41). -/

namespace Sys2Proof.Machine

/-- A seat sample as received (R192, R194). -/
structure RawSample where
  seat : Nat
  s : Nat
  lap : Nat
  d : Int
  v : Nat
  w : Int
  a : Int
  offTrack : Bool
  spun : Bool
  deriving DecidableEq, Repr

/-- Bytes `off` to `off + n − 1` of a payload. -/
def field (bs : List Byte) (off n : Nat) : List Byte := (bs.drop off).take n

/-- The seat sample that 14 bytes hold (R192). -/
def rawSample (bs : List Byte) : RawSample :=
  { seat := beNat (field bs 0 1), s := beNat (field bs 1 3), lap := beNat (field bs 4 1), d := beInt16 (field bs 5 2),
    v := beNat (field bs 7 2), w := beInt16 (field bs 9 2), a := beInt16 (field bs 11 2),
    offTrack := (BitVec.ofNat 8 (beNat (field bs 13 1))).getLsbD 0,
    spun := (BitVec.ofNat 8 (beNat (field bs 13 1))).getLsbD 1 }

/-- The seat samples of a CAR frame, in ascending order of their seat bytes (R41, R194). -/
def frameSamples (payload : List Byte) : List RawSample :=
  let first := rawSample (field payload 2 14)
  if payload.length < 30 then [first]
  else sortByKey (fun x => [(x.seat : Int)]) [first, rawSample (field payload 16 14)]

/-- The counted reasons a sample is refused for (R48). -/
inductive SampleRefusal where
  | noSlot | retired | held | outOfWindow | stale | badPosition | badLap | lapRegress | lapJump
  deriving DecidableEq, Repr

/-- The counter of a refusal is incremented (R48). -/
def countRefusal (k : PortCounters) : SampleRefusal → PortCounters
  | .noSlot => { k with noSlot := bump k.noSlot }
  | .retired => { k with retired := bump k.retired }
  | .held => { k with held := bump k.held }
  | .outOfWindow => { k with outOfWindow := bump k.outOfWindow }
  | .stale => { k with stale := bump k.stale }
  | .badPosition => { k with badPosition := bump k.badPosition }
  | .badLap => { k with badLap := bump k.badLap }
  | .lapRegress => { k with lapRegress := bump k.lapRegress }
  | .lapJump => { k with lapJump := bump k.lapJump }

/-- The slot of a port's seat (R42). -/
def State.seatSlot (s : State) (p : PortNo) (seat : Nat) : Option Slot :=
  allSlots.find? fun i => s.owns p i && decide ((s.car i).seat.val = seat)

/-- Check 3: the race state refuses a sample whose translation is `t` (R43). -/
def State.holdsBack (s : State) (t : Option RaceTime) : Bool :=
  match s.race.state with
  | .hold => true
  | .resumePending => true
  | .holdPending => match t, s.race.tH with
    | some x, some h => later x h
    | _, _ => false
  | _ => false

/-- Check 7: the lap (R45). -/
def lapRefusal (r : RaceState) (lastLap lap : Nat) : Option SampleRefusal :=
  if r = .idle ∨ r = .grid then if lap = 0 then none else some .badLap
  else if lap < lastLap then some .lapRegress
  else if lastLap + 3 < lap then some .lapJump
  else none

/-- Checks 5 to 7, for a sample with sample time `t` (R44, R45). -/
def State.fieldRefusal (s : State) (c : CarRecord) (t : RaceTime) (x : RawSample) : Option SampleRefusal :=
  if c.last.any fun y => !later t y.time then some .stale
  else if s.params.lapLength ≤ x.s then some .badPosition
  else lapRefusal s.race.state c.lap x.lap

/-- Checks 2 to 7 of one seat sample of port `p`, whose frame number translates to `t` (R42 to R45): the slot and the
sample time, or the reason of refusal. -/
def State.checkSample (s : State) (p : PortNo) (t : Option RaceTime) (x : RawSample) : Except SampleRefusal (Slot × RaceTime) :=
  match s.seatSlot p x.seat with
  | none => .error .noSlot
  | some i =>
    if (s.car i).state = .retired then .error .retired
    else if s.holdsBack t then .error .held
    else match t with
      | none => .error .outOfWindow
      | some u => match s.fieldRefusal (s.car i) u x with
        | some e => .error e
        | none => .ok (i, u)

/-- Check 8: the stored sample, its motion fields clamped (R46). -/
def clampSample (dMax : Nat) (t : RaceTime) (x : RawSample) : Sample :=
  { time := t, s := x.s, lap := x.lap, d := clamp (-dMax) dMax x.d, v := (clamp 0 20000 x.v).toNat,
    w := clamp (-2000) 2000 x.w, a := clamp (-8000) 8000 x.a, offTrack := x.offTrack, spun := x.spun }

/-- Check 8 changed a field (R46). -/
def wasClamped (x : RawSample) (y : Sample) : Bool := decide (y.d ≠ x.d ∨ y.v ≠ x.v ∨ y.w ≠ x.w ∨ y.a ≠ x.a)

/-- The state of a car after an accepted sample (R31). -/
def afterSample : CarState → CarState
  | .assigned => .live
  | .coasting => .live
  | .parked => .live
  | .lost => .live
  | st => st

/-- The Car Record with a new last sample (R31, R47). -/
def State.stored (s : State) (c : CarRecord) (x : Sample) : CarRecord :=
  let st := afterSample c.state
  { c with prev := c.last, last := some x, state := st,
           gridS := if s.race.state = .countdown ∧ c.gridS = none then some x.s else c.gridS,
           coastTimer := if st = .live then some (s.coastDeadline x) else none, loseTimer := none }

/-- The speed test or the creep test passes (R117). -/
def jumped (pr : RaceParams) (c : CarRecord) (x : Sample) : Bool :=
  decide (pr.jumpSpeed < x.v) || (match c.gridS with
    | some g => decide (pr.jumpDist < (gap x.s g pr.lapLength).natAbs)
    | none => false)

/-- The jump check (R117), made whatever the race state, in CLOSED too: the model's choice where R129 says otherwise
(notes/assumptions/29.md). -/
def jumpCheck (i : Slot) (x : Sample) (s : State) : State :=
  match s.race.tGreen with
  | some g =>
    if (earlier x.time g && !(s.car i).jump && jumped s.params (s.car i) x) = true then
      raiseNow .jumpStart [i] (s.modCar i fun c => { c with jump := true })
    else s
  | none => s

/-- The race states in which samples are handed to the Line Unit (R47). -/
def lineState (r : RaceState) : Bool :=
  decide (r = .countdown ∨ r = .running ∨ r = .finishing ∨ r = .holdPending)

/-- An accepted sample is handed on to the Line Unit, the Contact Monitor and the Race Controller (R47); `s0` is the state
in which it was stored. -/
def handOn (s0 : State) (i : Slot) (prev : Option Sample) (x : Sample) (s : State) : State :=
  let s1 := if lineState s.race.state then lineSample i prev x s else s
  jumpCheck i x (contactSample s0 i x s1)

/-- A sample that passed checks 1 to 7 is accepted (R46, R47, R31). -/
def acceptSample (p : PortNo) (i : Slot) (t : RaceTime) (raw : RawSample) (s : State) : State :=
  let x := clampSample s.params.dMax t raw
  let c := s.car i
  let s1 := s.count p fun k =>
    { k with accepted := bump k.accepted, clamped := if wasClamped raw x then bump k.clamped else k.clamped }
  let s2 := s1.setCar i (s.stored c x)
  handOn s2 i c.last x (if c.state = .lost then raiseNow .carFound [i] s2 else s2)

/-- One seat sample of a frame from an ACTIVE port: the state, and whether one of the frame has been accepted. -/
def takeSample (p : PortNo) (t : Option RaceTime) (acc : State × Bool) (x : RawSample) : State × Bool :=
  match acc.1.checkSample p t x with
  | .ok (i, u) => (acceptSample p i u x acc.1, true)
  | .error e => (acc.1.count p fun k => countRefusal k e, acc.2)

/-- The samples of a frame with frame number `f`, and the acceptance report (R41, R47, R164). -/
def takeSamples (p : PortNo) (f : FrameNum) (xs : List RawSample) (s : State) : State :=
  let r := xs.foldl (takeSample p (forward (s.timing p) f)) (s, false)
  let s1 := if r.2 then r.1.modPort p fun q => { q with gateSample := true } else r.1
  acceptanceReport p f r.2 s1

/-- A CAR frame of the right length from a port in RATE or ACTIVE (R18, R41): the samples are handled with the record as
it stood, then the record changes and the request is made. -/
def takeCarFrame (p : PortNo) (stamp : RaceTime) (payload : List Byte) (s : State) : State :=
  let f : FrameNum := BitVec.ofNat 16 (beNat (field payload 0 2))
  let q := s.port p
  let active := decide (q.phase = .active)
  let o := timeFrame active q.entry q.timing f stamp
  let s1 := if o.missed then s.count p fun k => { k with outOfWindow := bump k.outOfWindow } else s
  let s2 := if active then takeSamples p f (frameSamples payload) s1 else s1
  takeRequest p q.phase o.request (s2.modPort p fun q => { q with timing := o.record })

end Sys2Proof.Machine
end

