-- ==== Sys2Proof/Machine/Frames.lean ====
section
/-! DEFINITION. Received frames: the judging of a run (R151), the offer to the port state (R153, R193) and what each kind
does there; the meanings of the rows DAMAGED_FRAME to MGMT. -/

namespace Sys2Proof.Machine

/-! ### What every valid frame does -/

/-- A valid frame: FRAMES_RX, the link loss timer restarted from its stamp while it runs (R151, R161). -/
def countValid (p : PortNo) (stamp : RaceTime) (s : State) : State :=
  s.modPort p fun q =>
    { q with linkBase := q.linkBase.map fun _ => stamp,
             counters := { q.counters with framesRx := bump q.counters.framesRx } }

/-- A frame its port state does not take, or takes with a length that does not fit (R153, R193). -/
def outOfState (p : PortNo) (s : State) : State := s.count p fun k => { k with outOfState := bump k.outOfState }

/-! ### The kinds -/

/-- TRAIN_ECHO (R153, R156, R158, R166, R192, R193). -/
def receiveTrainEcho (p : PortNo) (stamp : RaceTime) (payload : List Byte) (s : State) : State :=
  let s1 := countValid p stamp s
  let fits := decide (payload.length = 19)
  match (s1.port p).phase with
  | .down => if fits then enterTrain p s1 else outOfState p s1
  | .quiet => if fits then enterTrain p s1 else outOfState p s1
  | .train =>
    if fits then
      roundEcho p stamp (beNat (field payload 0 1)) (field payload 1 16) (beNat (field payload 17 2)) s1
    else outOfState p s1
  | _ => outOfState p s1

/-- PROBE_REPLY (R11, R153, R192, R193). -/
def receiveProbeReply (p : PortNo) (stamp : RaceTime) (payload : List Byte) (s : State) : State :=
  let s1 := countValid p stamp s
  let fits := decide (payload.length = 3)
  match (s1.port p).phase with
  | .phase =>
    if fits then fileAnswer p (beNat (field payload 0 1)) (BitVec.ofNat 16 (beNat (field payload 1 2))) s1
    else outOfState p s1
  | .rate => if fits then s1 else outOfState p s1
  | .active => if fits then s1 else outOfState p s1
  | _ => outOfState p s1

/-- The length and the count byte of a CAR frame fit (R193). -/
def carFits (count : Byte) (payload : List Byte) : Bool :=
  decide ((payload.length = 16 ∧ count = 1) ∨ (payload.length = 30 ∧ count = 2))

/-- CAR (R41, R153, R164, R193): every valid one opens the quiet gate of a port that owns no slot. -/
def receiveCar (p : PortNo) (stamp : RaceTime) (count : Byte) (payload : List Byte) (s : State) : State :=
  let s1 := (countValid p stamp s).modPort p fun q => { q with gateCar := true }
  match (s1.port p).phase with
  | .rate => if carFits count payload then takeCarFrame p stamp payload s1 else outOfState p s1
  | .active => if carFits count payload then takeCarFrame p stamp payload s1 else outOfState p s1
  | _ => outOfState p s1

/-- An ack set entry after a HOLD_ACK of port `p` for frame `f` (R120). -/
def AckEntry.after (a : AckEntry) (p : PortNo) (f : FrameNum) : AckEntry :=
  if a.port = p ∧ a.frame = f then { a with acked := true } else a

/-- The HOLD_ACK marks an entry acked (R120). -/
def State.marksAck (s : State) (p : PortNo) (f : FrameNum) : Bool :=
  s.race.acks.any fun a => decide (a.port = p ∧ a.frame = f) && !a.acked

/-- A HOLD_ACK reaches the Race Controller (R119, R120). -/
def takeHoldAck (p : PortNo) (f : FrameNum) (s : State) : State :=
  if (decide (s.race.state = .holdPending) && s.marksAck p f) = true then
    ackTest { s with race := { s.race with acks := s.race.acks.map (·.after p f) } }
  else s

/-- HOLD_ACK (R120, R153, R193). -/
def receiveHoldAck (p : PortNo) (stamp : RaceTime) (payload : List Byte) (s : State) : State :=
  let s1 := countValid p stamp s
  if (s1.port p).phase = .active ∧ payload.length = 2 then takeHoldAck p (BitVec.ofNat 16 (beNat payload)) s1
  else outOfState p s1

/-- The link rate a number of Mbit/s names (R192, R198). -/
def rateOf (n : Nat) : Option LinkRate := if n = 10 then some .r10 else if n = 20 then some .r20 else none

/-- A QUIET_ASK is tested (R164): the rate, then the tests it shares with PORT_QUIET. -/
def takeQuietAsk (p : PortNo) (rate : Nat) (s : State) : State :=
  match rateOf rate with
  | none => s.offerNotice p (.quietRefused .range)
  | some r => match s.quietRefusal p with
    | some e => s.offerNotice p (.quietRefused e)
    | none => enterQuiet p (some r) s

/-- QUIET_ASK (R153, R164, R193): in QUIET it is ignored whatever its length. -/
def receiveQuietAsk (p : PortNo) (stamp : RaceTime) (payload : List Byte) (s : State) : State :=
  let s1 := countValid p stamp s
  match (s1.port p).phase with
  | .active => if payload.length = 1 then takeQuietAsk p (beNat payload) s1 else outOfState p s1
  | .quiet => s1
  | _ => outOfState p s1

/-- Byte `n` of a command, or a free byte when it was never sent (notes/assumptions/3.md). -/
def commandByte (payload : List Byte) (n : Nat) (s : State) : Byte × State :=
  match payload[n]? with
  | some b => (b, s)
  | none => (s.freeByte, s.useFree)

/-- The data of the REPLY to a WRITE_ENTRIES: table, index, number written (R196). -/
def writeData (payload : List Byte) (written : Nat) (s : State) : List Byte × State :=
  let t := commandByte payload 1 s
  let i := commandByte payload 2 t.2
  ([t.1, i.1, BitVec.ofNat 8 written], i.2)

/-- A MGMT frame is offered to the Command Queue (R175). A BUSY reply to WRITE_ENTRIES carries its data (R196). -/
def offerCommand (p : PortNo) (tag : Byte) (payload : List Byte) (s : State) : State :=
  if s.mgmt.queue.length < 4 then
    { s with mgmt := { s.mgmt with queue := s.mgmt.queue ++ [{ sender := p, tag := tag, payload := payload }] } }
  else
    let s1 := { s with mgmt := { s.mgmt with cmdBusy := bump s.mgmt.cmdBusy } }
    let code := payload.headD 0
    if code = 0x11 then
      let d := writeData payload 0 s1
      d.2.offerReply p tag code .busy d.1
    else s1.offerReply p tag code .busy []

/-- MGMT (R153, R175, R192, R193). -/
def receiveMgmt (p : PortNo) (stamp : RaceTime) (tag : Byte) (payload : List Byte) (s : State) : State :=
  let s1 := countValid p stamp s
  let fits := decide (1 ≤ payload.length ∧ payload.length ≤ 124)
  match (s1.port p).phase with
  | .active => if fits then offerCommand p tag payload s1 else outOfState p s1
  | .quiet => if fits then offerCommand p tag payload s1 else outOfState p s1
  | _ => outOfState p s1

/-- A valid frame of a kind code no cabinet sends (R153). -/
def receiveUnknown (p : PortNo) (stamp : RaceTime) (s : State) : State := outOfState p (countValid p stamp s)

/-- A valid frame by its header's kind, port and seat/flags bytes (R153, R191). -/
def receiveFrame (p : PortNo) (stamp : RaceTime) (kind port flags : Byte) (payload : List Byte) (s : State) : State :=
  if kind = 0x01 then receiveTrainEcho p stamp payload s
  else if kind = 0x02 then receiveProbeReply p stamp payload s
  else if kind = 0x03 then receiveCar p stamp flags payload s
  else if kind = 0x04 then receiveHoldAck p stamp payload s
  else if kind = 0x05 then receiveQuietAsk p stamp payload s
  else if kind = 0x06 then receiveMgmt p stamp port payload s
  else receiveUnknown p stamp s

/-! ### Meanings -/

/-- DAMAGED_FRAME (R150, R151): a run without a symbol is idle fill. The model's choices: a run of spoiled symbols alone is
a frame and counts under FRAMING (notes/assumptions/26.md); a run that passes both checks is the valid frame it holds
(notes/assumptions/6.md). -/
def execDamagedFrame (p : PortNo) (stamp : RaceTime) (run : List LineSymbol) (s : State) :
    Host.Outcome State Fault Refusal :=
  .next (if run.isEmpty then s else match judgeRun run with
    | .framing => s.count p fun k => { k with framing := bump k.framing }
    | .crcError => s.count p fun k => { k with crcError := bump k.crcError }
    | .valid kind port flags payload => receiveFrame p stamp kind port flags payload s)

/-- UNKNOWN_KIND_FRAME (R153). With a kind code that a cabinet does send the command is that kind, its header's other
two bytes 0 (notes/assumptions/6.md). -/
def execUnknownKindFrame (p : PortNo) (stamp : RaceTime) (kind : Byte) (payload : List Byte) (s : State) :
    Host.Outcome State Fault Refusal :=
  .next (receiveFrame p stamp kind 0 0 payload s)

/-- TRAIN_ECHO (R158). -/
def execTrainEcho (p : PortNo) (stamp : RaceTime) (payload : List Byte) (s : State) : Host.Outcome State Fault Refusal :=
  .next (receiveTrainEcho p stamp payload s)

/-- PROBE_REPLY (R11). -/
def execProbeReply (p : PortNo) (stamp : RaceTime) (payload : List Byte) (s : State) : Host.Outcome State Fault Refusal :=
  .next (receiveProbeReply p stamp payload s)

/-- CAR (R41). -/
def execCar (p : PortNo) (stamp : RaceTime) (count : Byte) (payload : List Byte) (s : State) :
    Host.Outcome State Fault Refusal :=
  .next (receiveCar p stamp count payload s)

/-- HOLD_ACK (R120). -/
def execHoldAck (p : PortNo) (stamp : RaceTime) (payload : List Byte) (s : State) : Host.Outcome State Fault Refusal :=
  .next (receiveHoldAck p stamp payload s)

/-- QUIET_ASK (R164). -/
def execQuietAsk (p : PortNo) (stamp : RaceTime) (payload : List Byte) (s : State) : Host.Outcome State Fault Refusal :=
  .next (receiveQuietAsk p stamp payload s)

/-- MGMT (R175). -/
def execMgmt (p : PortNo) (stamp : RaceTime) (tag : Byte) (payload : List Byte) (s : State) :
    Host.Outcome State Fault Refusal :=
  .next (receiveMgmt p stamp tag payload s)

end Sys2Proof.Machine
end

