-- ==== Sys2Proof/Machine/Operands.lean ====
section
/-! DEFINITION. The parameters of management commands and the tables they reach (R179, R196, R198 to R200): the bytes of
an entry as read, and the fields of an entry as SCAN compares them. -/

namespace Sys2Proof.Machine

/-- The nine tables (R179, R191). -/
inductive Table where
  | carTable | raceParameters | portTable | viewOrderLists | eventRouteTable | trainingPatterns | crossingList
  | classification | contactPairSet
  deriving DecidableEq, Repr

/-- The table a table code names (R191). -/
def tableOf (n : Nat) : Option Table :=
  if n = 0 then some .carTable else if n = 1 then some .raceParameters else if n = 2 then some .portTable
  else if n = 3 then some .viewOrderLists else if n = 4 then some .eventRouteTable
  else if n = 5 then some .trainingPatterns else if n = 6 then some .crossingList
  else if n = 7 then some .classification else if n = 8 then some .contactPairSet else none

/-- Any sender may read and SCAN the table (R178, R179). -/
def Table.isPublic : Table → Bool
  | .carTable => true
  | .crossingList => true
  | .classification => true
  | _ => false

/-- Read size of an entry (R198). -/
def Table.readSize : Table → Nat
  | .carTable => 44
  | .raceParameters => 4
  | .portTable => 25
  | .viewOrderLists => 13
  | .eventRouteTable => 11
  | .trainingPatterns => 17
  | .crossingList => 12
  | .classification => 12
  | .contactPairSet => 2

/-- Number of fields of an entry (R198). -/
def Table.fieldCount : Table → Nat
  | .carTable => 25
  | .raceParameters => 1
  | .portTable => 13
  | .viewOrderLists => 13
  | .eventRouteTable => 8
  | .trainingPatterns => 17
  | .crossingList => 9
  | .classification => 10
  | .contactPairSet => 2

/-- A port number, 0 to 7 (R177). -/
def portOf (n : Nat) : Option PortNo := if h : n < 8 then some ⟨n, h⟩ else none

/-- A slot number, 0 to 11 (R177). -/
def slotOf (n : Nat) : Option Slot := if h : n < 12 then some ⟨n, h⟩ else none

/-! ### Fields -/

/-- A field as SCAN compares it: absent, or a 32-bit number (R200). -/
abbrev Field := Option (BitVec 32)

/-- An unsigned field. -/
def uField (n : Nat) : Field := some (BitVec.ofNat 32 n)

/-- A signed field, sign-extended to 32 bits. -/
def sField (n : Int) : Field := some (BitVec.ofInt 32 n)

/-- A yes / no field. -/
def bField (b : Bool) : Field := uField b.toNat

/-- A byte field. -/
def byteField (b : Byte) : Field := uField b.toNat

/-- The eight fields of a stored sample (R198); all absent when the sample is. -/
def sampleFields : Option Sample → List Field
  | none => List.replicate 8 none
  | some x =>
    [some x.time, uField x.s, uField x.lap, sField x.d, uField x.v, sField x.w, sField x.a, byteField (sampleFlags x)]

/-- The 17 bytes of a stored sample (R198); zeros when absent (R191). -/
def sampleBytes : Option Sample → List Byte
  | none => List.replicate 17 0
  | some x =>
    beBytes 4 x.time.toNat ++ beBytes 3 x.s ++ beBytes 1 x.lap ++ beSigned 2 x.d ++ beBytes 2 x.v ++ beSigned 2 x.w
      ++ beSigned 2 x.a ++ [sampleFlags x]

/-! ### Car Table -/

/-- A Car Table entry as read (R198). -/
def carBytes (c : CarRecord) : List Byte :=
  [boolByte c.enabled, portByte c.owner, BitVec.ofNat 8 c.seat.val, BitVec.ofNat 8 c.number, c.state.code, carFlags c,
   placingMarker c.finishPlacing] ++ beBytes 3 (c.gridS.getD 0) ++ sampleBytes c.last ++ sampleBytes c.prev

/-- The fields of a Car Table entry (R198, R200). -/
def carFields (c : CarRecord) : List Field :=
  [bField c.enabled, uField c.owner.val, uField c.seat.val, uField c.number, byteField c.state.code, bField c.jump,
   bField c.unplaced, c.finishPlacing.bind uField, c.gridS.bind uField] ++ sampleFields c.last ++ sampleFields c.prev

/-! ### Race Parameters -/

/-- Field `k` of the Race Parameter Record, in the order of R110. -/
def paramValue (pr : RaceParams) (k : Nat) : Nat :=
  [pr.lapLength, pr.laps, pr.lightCount, pr.lightStep, pr.jumpSpeed, pr.jumpDist, pr.hF, pr.hB, pr.dMax, pr.coastAfter,
   pr.loseAfter, pr.settle, pr.proxLong, pr.proxLat, pr.hyst, pr.holdLead, pr.holdTimeout, pr.grace].getD k 0

/-! ### Port Table and View Order Lists -/

/-- A Port Table entry as read (R198). -/
def portEntryBytes (e : PortEntry) : List Byte :=
  [boolByte e.enabled, e.linkRate.code] ++ beBytes 4 e.linkTimeout ++ beBytes 4 e.pNom ++ beBytes 2 e.tolPpm
    ++ beBytes 1 e.winFrames ++ beBytes 2 e.slewMax ++ beBytes 2 e.phaseTol ++ [e.pacing.code] ++ beBytes 4 e.pacePeriod
    ++ beBytes 1 e.leadFrames ++ [e.viewMode.code, boolByte e.includeOwn]

/-- The fields of a Port Table entry (R198). -/
def portEntryFields (e : PortEntry) : List Field :=
  [bField e.enabled, byteField e.linkRate.code, uField e.linkTimeout, uField e.pNom, uField e.tolPpm, uField e.winFrames,
   uField e.slewMax, uField e.phaseTol, byteField e.pacing.code, uField e.pacePeriod, uField e.leadFrames,
   byteField e.viewMode.code, bField e.includeOwn]

/-- A View Order List as read: 0xFF beyond its count (R198, R199). -/
def viewOrderBytes (l : List Slot) : List Byte :=
  BitVec.ofNat 8 l.length :: (l.map slotByte ++ List.replicate 12 0xFF).take 12

/-- The fields of a View Order List: slots beyond its count are absent (R198, R200). -/
def viewOrderFields (l : List Slot) : List Field :=
  uField l.length :: ((l.map fun (i : Slot) => uField i.val) ++ List.replicate 12 none).take 12

/-! ### Event Route Table and Training Patterns -/

/-- The slot filter byte, 0xFF for ANY (R198). -/
def filterByte (r : Route) : Byte := slotMarker r.filter

/-- A route as read (R198). -/
def routeBytes (r : Route) : List Byte :=
  [boolByte r.valid, r.kind.code, filterByte r, r.action.code, r.code, r.target.code, r.mask] ++ beBytes 4 r.lead

/-- The fields of a route (R198). -/
def routeFields (r : Route) : List Field :=
  [bField r.valid, byteField r.kind.code, byteField (filterByte r), byteField r.action.code, byteField r.code,
   byteField r.target.code, byteField r.mask, uField r.lead]

/-- A training pattern as read (R198). -/
def patternBytes (x : Pattern) : List Byte := boolByte x.enabled :: x.bytes

/-- The fields of a training pattern (R198). -/
def patternFields (x : Pattern) : List Field := bField x.enabled :: x.bytes.map byteField

/-! ### Crossing List, Classification, Contact Pair Set -/

/-- State code of a crossing (R198). -/
def crossingCode : CrossingStatus → Byte
  | .provisional => 0
  | .fixed _ => 1

/-- Placing of a crossing (R86). -/
def crossingPlace : CrossingStatus → Option Nat
  | .provisional => none
  | .fixed n => some n

/-- A Crossing Record as read (R198). -/
def crossingBytes (x : Crossing) : List Byte :=
  [slotByte x.slot, BitVec.ofNat 8 x.lap] ++ beBytes 4 x.time.toNat ++ beBytes 3 x.rankS
    ++ [crossingCode x.status, placingMarker (crossingPlace x.status), crossingFlags x.multi x.late x.jump]

/-- The fields of a Crossing Record (R198, R200). -/
def crossingFields (x : Crossing) : List Field :=
  [uField x.slot.val, uField x.lap, some x.time, uField x.rankS, byteField (crossingCode x.status),
   (crossingPlace x.status).bind uField, bField x.multi, bField x.late, bField x.jump]

/-- A classification entry as read (R198). -/
def classBytes (e : ClassEntry) : List Byte :=
  [BitVec.ofNat 8 e.position, slotByte e.slot, BitVec.ofNat 8 e.number, e.group.code, e.state.code, BitVec.ofNat 8 e.lap,
   placingMarker e.finishPlacing] ++ timeBytes e.finishTime ++ [classFlags e]

/-- The fields of a classification entry (R198, R200). -/
def classFields (e : ClassEntry) : List Field :=
  [uField e.position, uField e.slot.val, uField e.number, byteField e.group.code, byteField e.state.code, uField e.lap,
   e.finishPlacing.bind uField, e.finishTime, bField e.unplaced, bField e.jump]

/-- A contact pair as read (R198). -/
def pairBytes (c : Slot × Slot) : List Byte := [slotByte c.1, slotByte c.2]

/-- The fields of a contact pair (R198). -/
def pairFields (c : Slot × Slot) : List Field := [uField c.1.val, uField c.2.val]

/-! ### Tables -/

/-- The entries of a table as READ_ENTRIES returns them, in index order (R179, R198). -/
def State.tableBytes (s : State) : Table → List (List Byte)
  | .carTable => s.cars.toList.map carBytes
  | .raceParameters => (List.range 18).map fun k => beBytes 4 (paramValue s.params k)
  | .portTable => s.ports.toList.map fun q => portEntryBytes q.entry
  | .viewOrderLists => s.ports.toList.map fun q => viewOrderBytes q.viewOrder
  | .eventRouteTable => s.routes.toList.map routeBytes
  | .trainingPatterns => s.patterns.toList.map patternBytes
  | .crossingList => s.crossings.map crossingBytes
  | .classification => s.classification.map classBytes
  | .contactPairSet => s.contacts.map pairBytes

/-- The entries of a table as SCAN examines them, in index order (R183, R200). -/
def State.tableFields (s : State) : Table → List (List Field)
  | .carTable => s.cars.toList.map carFields
  | .raceParameters => (List.range 18).map fun k => [uField (paramValue s.params k)]
  | .portTable => s.ports.toList.map fun q => portEntryFields q.entry
  | .viewOrderLists => s.ports.toList.map fun q => viewOrderFields q.viewOrder
  | .eventRouteTable => s.routes.toList.map routeFields
  | .trainingPatterns => s.patterns.toList.map patternFields
  | .crossingList => s.crossings.map crossingFields
  | .classification => s.classification.map classFields
  | .contactPairSet => s.contacts.map pairFields

/-! ### SCAN (R183) -/

/-- What a SCAN answers. -/
structure ScanResult where
  index : Nat
  remaining : Nat
  matched : Bool
  reason : Byte
  deriving DecidableEq, Repr

/-- The scan from the entry at `index` on: `es` are the entries from there, `budget` how many may still be examined
(R183). Reasons: 0 COUNT, 1 MATCH, 2 BUDGET, 3 END (R196). -/
def scanFrom (fieldNo : Nat) (value : BitVec 32) (whileEqual : Bool) :
    Nat → List (List Field) → Nat → Nat → ScanResult
  | _, _, index, 0 => { index := index, remaining := 0, matched := false, reason := 0 }
  | _, [], index, n + 1 => { index := index, remaining := n + 1, matched := false, reason := 3 }
  | 0, _ :: _, index, n + 1 => { index := index, remaining := n + 1, matched := false, reason := 2 }
  | budget + 1, e :: es, index, n + 1 =>
    let equal := decide ((e.getD fieldNo none) = some value)
    if equal = whileEqual then scanFrom fieldNo value whileEqual budget es (index + 1) n
    else { index := index, remaining := n + 1, matched := equal, reason := 1 }

/-- The bytes of a SCAN reply's data (R196). -/
def scanBytes (r : ScanResult) : List Byte :=
  [BitVec.ofNat 8 r.index] ++ beBytes 2 r.remaining ++ [boolByte r.matched, r.reason]

end Sys2Proof.Machine
end

