-- ==== Sys2Proof/Machine/Tables.lean ====
section
/-! DEFINITION. Writing one entry of a table, with its gate, its ranges and its effects (R181, R182, R199), and the loop
of a WRITE_ENTRIES. -/

namespace Sys2Proof.Machine

/-- Bytes `off` to `off + n − 1` of an entry as an unsigned number. -/
def numAt (bs : List Byte) (off n : Nat) : Nat := beNat (field bs off n)

/-- A yes / no byte: 0 or 1 (R199). -/
def boolOf (n : Nat) : Option Bool := if n = 0 then some false else if n = 1 then some true else none

/-- A number in a closed range. -/
def inRange (lo hi n : Nat) : Bool := decide (lo ≤ n ∧ n ≤ hi)

/-! ### Car Table (R29, R30) -/

/-- The four assignment fields of a write entry, in their ranges (R29). -/
structure Assignment where
  enabled : Bool
  owner : PortNo
  seat : Fin 2
  number : Nat
  deriving DecidableEq, Repr

/-- The assignment a write entry holds; bytes 4 to 6 are ignored (R199). -/
def assignmentOf (bs : List Byte) : Option Assignment :=
  match boolOf (numAt bs 0 1), portOf (numAt bs 1 1) with
  | some e, some o =>
    if h : numAt bs 2 1 < 2 then
      if inRange 1 99 (numAt bs 3 1) then some { enabled := e, owner := o, seat := ⟨numAt bs 2 1, h⟩, number := numAt bs 3 1 }
      else none
    else none
  | _, _ => none

/-- The other enabled slots of the owner port (R29). -/
def State.othersOf (s : State) (i : Slot) (o : PortNo) : List Slot := (s.slotsOf o).filter fun j => decide (j ≠ i)

/-- An entry that leaves the slot enabled clashes with the other enabled slots (R29). -/
def State.clashes (s : State) (i : Slot) (a : Assignment) : Bool :=
  a.enabled && ((s.othersOf i a.owner).any (fun j => decide ((s.car j).seat = a.seat))
    || decide (2 ≤ (s.othersOf i a.owner).length))

/-- A car without samples, grid s, flags and finish placing, its timers idle (R28, R30). -/
def CarRecord.wiped (c : CarRecord) (st : CarState) : CarRecord :=
  { c with state := st, last := none, prev := none, gridS := none, jump := false, unplaced := false,
           finishPlacing := none, coastTimer := none, loseTimer := none }

/-- The Car Record after an accepted assignment write (R30). -/
def CarRecord.assigned (c : CarRecord) (a : Assignment) : CarRecord :=
  let c1 := { c with enabled := a.enabled, owner := a.owner, seat := a.seat, number := a.number }
  if !a.enabled then c1.wiped .free
  else if c.enabled ∧ c.owner = a.owner ∧ c.seat = a.seat then c1
  else c1.wiped .assigned

/-- The race states in which assignments may be written (R29). -/
def settingUp (r : RaceState) : Bool := decide (r = .idle ∨ r = .grid)

/-- An assignment write to slot `i` (R29, R30, R40, R182). -/
def writeCar (i : Slot) (bs : List Byte) (s : State) : State × Status :=
  if settingUp s.race.state then
    match assignmentOf bs with
    | none => (s, .range)
    | some a =>
      if s.clashes i a then (s, .range)
      else (afterChange (changeCar i ((s.car i).assigned a) none s), .ok)
  else (s, .state)

/-! ### Race Parameters (R110, R111) -/

/-- Field `k` may be written in the race state (R110). -/
def paramGate (k : Nat) (r : RaceState) : Bool :=
  if k < 2 then decide (r = .idle)
  else if k = 6 ∨ k = 7 ∨ k = 11 ∨ k = 12 ∨ k = 13 ∨ k = 14 then true
  else settingUp r

/-- The range of field `k`, as the table of R110 gives it. -/
def paramRange (k : Nat) : Nat × Nat :=
  [(10000, 1000000), (1, 99), (3, 5), (200000, 2000000), (0, 20000), (0, 5000), (0, 262143), (0, 65535), (100, 3200),
   (10000, 1000000), (0, 16000000), (0, 2000000), (50, 2000), (50, 1000), (0, 500), (20000, 1000000),
   (100000, 5000000), (0, 120000000)].getD k (1, 0)

/-- The record with field `k` written (R110). -/
def setParam (pr : RaceParams) (k v : Nat) : RaceParams :=
  if k = 0 then { pr with lapLength := v } else if k = 1 then { pr with laps := v }
  else if k = 2 then { pr with lightCount := v } else if k = 3 then { pr with lightStep := v }
  else if k = 4 then { pr with jumpSpeed := v } else if k = 5 then { pr with jumpDist := v }
  else if k = 6 then { pr with hF := v } else if k = 7 then { pr with hB := v }
  else if k = 8 then { pr with dMax := v } else if k = 9 then { pr with coastAfter := v }
  else if k = 10 then { pr with loseAfter := v } else if k = 11 then { pr with settle := v }
  else if k = 12 then { pr with proxLong := v } else if k = 13 then { pr with proxLat := v }
  else if k = 14 then { pr with hyst := v } else if k = 15 then { pr with holdLead := v }
  else if k = 16 then { pr with holdTimeout := v } else if k = 17 then { pr with grace := v } else pr

/-- The lap relation (R111). -/
def lapRelation (pr : RaceParams) : Bool := decide (2 * max pr.jumpDist (pr.proxLong + pr.hyst) < pr.lapLength)

/-- The fields whose writes are tested against the lap relation outside IDLE: jump_dist, prox_long, hyst (R111). -/
def inLapRelation (k : Nat) : Bool := decide (k = 5 ∨ k = 12 ∨ k = 14)

/-- The value passes its range, the relation of lose_after to coast_after, and outside IDLE the lap relation (R111). -/
def paramFits (pr : RaceParams) (r : RaceState) (k v : Nat) : Bool :=
  let new := setParam pr k v
  inRange (paramRange k).1 (paramRange k).2 v
    && (!decide (k = 9 ∨ k = 10) || decide (new.coastAfter ≤ new.loseAfter))
    && (!inLapRelation k || decide (r = .idle) || lapRelation new)

/-- What a write of field `k` leads to: an age evaluation of every car for coast_after and lose_after unless ageing is
suspended (R33), the settle deadlines and a fixing evaluation for settle (R99, R103). -/
def paramEffect (k : Nat) (s : State) : State :=
  if k = 9 ∨ k = 10 then (if s.suspended then s else ageAll s)
  else if k = 11 then evaluate s.setAllDeadlines
  else s

/-- A write of Race Parameter field `k` (R111, R182). -/
def writeParam (k : Nat) (bs : List Byte) (s : State) : State × Status :=
  let v := numAt bs 0 4
  if paramGate k s.race.state then
    if paramFits s.params s.race.state k v then (paramEffect k { s with params := setParam s.params k v }, .ok)
    else (s, .range)
  else (s, .state)

/-! ### Port Table (R182) -/

/-- The Port Table entry that 25 bytes hold, in its ranges (R7, R67, R155, R199). -/
def portEntryOf (bs : List Byte) : Option PortEntry :=
  let pacing : Option Pacing := match numAt bs 17 1 with
    | 0 => some .cabinet
    | 1 => some .clock
    | 2 => some .command
    | _ => none
  let mode : Option ViewMode := match numAt bs 23 1 with
    | 0 => some .fixedList
    | 1 => some .raceOrder
    | 2 => some .nearestFirst
    | _ => none
  let w := numAt bs 12 1
  match boolOf (numAt bs 0 1), rateOf (numAt bs 1 1), pacing, mode, boolOf (numAt bs 24 1) with
  | some e, some r, some pc, some vm, some own =>
    if inRange 10000 1000000 (numAt bs 2 4) && inRange 1280000 10240000 (numAt bs 6 4) && inRange 0 20000 (numAt bs 10 2)
        && decide (w = 16 ∨ w = 32 ∨ w = 64 ∨ w = 128) && inRange 0 2000 (numAt bs 13 2)
        && inRange 100 10000 (numAt bs 15 2) && inRange 5000 100000 (numAt bs 18 4) && inRange 0 8 (numAt bs 22 1) then
      some { enabled := e, linkRate := r, linkTimeout := numAt bs 2 4, pNom := numAt bs 6 4, tolPpm := numAt bs 10 2,
             winFrames := w, slewMax := numAt bs 13 2, phaseTol := numAt bs 15 2, pacing := pc,
             pacePeriod := numAt bs 18 4, leadFrames := numAt bs 22 1, viewMode := vm, includeOwn := own }
    else none
  | _, _, _, _, _ => none

/-- Every field that would change may change in the port's state (R182): enabled and link rate in OFF, DOWN and QUIET;
P_nom, tol_ppm and W in any state but PHASE, RATE and ACTIVE. -/
def portGate (ph : PortPhase) (held bs : List Byte) : Bool :=
  (decide (ph = .off ∨ ph = .down ∨ ph = .quiet) || decide (field bs 0 2 = field held 0 2))
    && (!decide (ph = .phase ∨ ph = .rate ∨ ph = .active) || decide (field bs 6 7 = field held 6 7))

/-- The pace timer after a write of pacing on an ACTIVE port (R70). -/
def paceAfterWrite (q : Port) (new : PortEntry) (now : RaceTime) : Option RaceTime :=
  if new.pacing = q.entry.pacing then q.paceTimer
  else if new.pacing = .clock ∧ q.phase = .active then some (addTime now new.pacePeriod)
  else none

/-- A write that disables or enables a port (R155). -/
def enableEffect (p : PortNo) (was now : Bool) (s : State) : State :=
  if was = now then s else if now then enablePort p s else portReset p s

/-- A write of a Port Table entry (R182): all its changes are made together. -/
def writePort (p : PortNo) (bs : List Byte) (s : State) : State × Status :=
  let q := s.port p
  if portGate q.phase (portEntryBytes q.entry) bs then
    match portEntryOf bs with
    | none => (s, .range)
    | some e =>
      let s1 := s.modPort p fun q => { q with entry := e, paceTimer := paceAfterWrite q e s.clock }
      (enableEffect p q.entry.enabled e.enabled (s1.followRate p), .ok)
  else (s, .state)

/-! ### View Order Lists, Event Route Table, Training Patterns -/

/-- The slots of some bytes, when each names a slot. -/
def slotsOfBytes : List Byte → Option (List Slot)
  | [] => some []
  | b :: bs => match slotOf b.toNat, slotsOfBytes bs with
    | some i, some is => some (i :: is)
    | _, _ => none

/-- The View Order List that 13 bytes hold (R68, R199). -/
def viewOrderOf (bs : List Byte) : Option (List Slot) :=
  let n := numAt bs 0 1
  if n ≤ 12 then
    match slotsOfBytes (field bs 1 n) with
    | some is => if is.Nodup then some is else none
    | none => none
  else none

/-- A write of a View Order List (R68). -/
def writeViewOrder (p : PortNo) (bs : List Byte) (s : State) : State × Status :=
  match viewOrderOf bs with
  | some is => (s.modPort p fun q => { q with viewOrder := is }, .ok)
  | none => (s, .range)

/-- The event kind a code names (R191). -/
def eventKindOf (n : Nat) : Option EventKind := allEventKinds[n]?

/-- The slot filter a byte holds: 0xFF for ANY (R198). -/
def filterOf (n : Nat) : Option (Option Slot) := if n = 255 then some none else (slotOf n).map some

/-- The route that 11 bytes hold, in its ranges (R141, R199). -/
def routeOf (bs : List Byte) : Option Route :=
  let act : Option RouteAction := match numAt bs 3 1 with
    | 0 => some .cue
    | 1 => some .notify
    | 2 => some .autoHold
    | _ => none
  let tgt : Option TargetSet := match numAt bs 5 1 with
    | 0 => some .all
    | 1 => some .involved
    | 2 => some .mask
    | _ => none
  match boolOf (numAt bs 0 1), eventKindOf (numAt bs 1 1), filterOf (numAt bs 2 1), act, tgt with
  | some v, some k, some f, some a, some t =>
    if numAt bs 4 1 ≤ 253 ∧ numAt bs 7 4 ≤ 1000000 then
      some { valid := v, kind := k, filter := f, action := a, code := BitVec.ofNat 8 (numAt bs 4 1), target := t,
             mask := BitVec.ofNat 8 (numAt bs 6 1), lead := numAt bs 7 4 }
    else none
  | _, _, _, _, _ => none

/-- A write of route `n` (R141). -/
def writeRoute (n : Nat) (bs : List Byte) (s : State) : State × Status :=
  match routeOf bs with
  | some r => ({ s with routes := s.routes.setIfInBounds n r }, .ok)
  | none => (s, .range)

/-- A write of training pattern `n` (R163). -/
def writePattern (n : Nat) (bs : List Byte) (s : State) : State × Status :=
  match boolOf (numAt bs 0 1) with
  | some e => ({ s with patterns := s.patterns.setIfInBounds n { enabled := e, bytes := field bs 1 16 } }, .ok)
  | none => (s, .range)

/-! ### WRITE_ENTRIES (R181) -/

/-- One entry addressed by a slot. -/
def onSlot (write : Slot → List Byte → State → State × Status) (n : Nat) (bs : List Byte) (s : State) : State × Status :=
  match slotOf n with
  | some i => write i bs s
  | none => (s, .index)

/-- One entry addressed by a port. -/
def onPort (write : PortNo → List Byte → State → State × Status) (n : Nat) (bs : List Byte) (s : State) : State × Status :=
  match portOf n with
  | some p => write p bs s
  | none => (s, .index)

/-- One entry of a table of `size` entries addressed by number. -/
def onNumber (size : Nat) (write : Nat → List Byte → State → State × Status) (n : Nat) (bs : List Byte) (s : State) :
    State × Status :=
  if n < size then write n bs s else (s, .index)

/-- The entries of a WRITE_ENTRIES in order from index `n`, `k` of them still to come: the state, the status and the
number written (R181). -/
def writeLoop (size : Nat) (write : Nat → List Byte → State → State × Status) :
    Nat → Nat → List Byte → State → State × Status × Nat
  | 0, _, _, s => (s, .ok, 0)
  | k + 1, n, bs, s =>
    let r := write n (bs.take size) s
    if r.2 = .ok then
      let rest := writeLoop size write k (n + 1) (bs.drop size) r.1
      (rest.1, rest.2.1, rest.2.2 + 1)
    else (r.1, r.2, 0)

end Sys2Proof.Machine
end

