-- ==== Sys2Proof/Machine/Commands.lean ====
section
/-! DEFINITION. The Management Unit's commands (R177, R178, R184 to R187): the reading, writing, port and role rows of the
table, from UNKNOWN_COMMAND to SEND_VIEW, MOVE_DIRECTOR and RESET_HUB. The race and car commands are in RaceCommands.lean. -/

namespace Sys2Proof.Machine

/-! ### Taking a command -/

/-- A REPLY to a taken command: its code, its tag (R177, R196, R197). -/
def answer (c : Command) (status : Status) (data : List Byte) (s : State) : State :=
  s.offerReply c.sender c.tag (c.payload.headD 0) status data

/-- The command at the head of the Command Queue, when one may be taken (R177, R187). -/
def State.head (s : State) : Option Command :=
  match s.mgmt.resetPending with
  | some _ => none
  | none => s.mgmt.queue.head?

/-- The queue without its head. -/
def State.dropHead (s : State) : State := { s with mgmt := { s.mgmt with queue := s.mgmt.queue.tail } }

/-- The head command is taken when it satisfies `mine`; a row that is not at the head has no effect
(notes/assumptions/6.md). -/
def onHead (mine : Command → Bool) (act : Command → State → State) (s : State) : State :=
  match s.head with
  | some c => if mine c then act c s.dropHead else s
  | none => s

/-- The command's code is `code` (R196). -/
def codeIs (code : Byte) (c : Command) : Bool := decide (c.payload.head? = some code)

/-- A director's command: PRIVILEGE from any other sender, else the reply its effect asks for (R177, R178). -/
def asDirector (act : State → State × Status) (c : Command) (s : State) : State :=
  if s.holdsRole c.sender then
    let r := act s
    answer c r.2 [] r.1
  else answer c .privilege [] s

/-- A command without parameters (R196, R197). -/
def noParams (c : Command) (act : State → State × Status) (s : State) : State × Status :=
  if c.payload.length = 1 then act s else (s, .range)

/-- A command with one port parameter (R177, R196, R197). -/
def portParam (c : Command) (act : PortNo → State → State × Status) (s : State) : State × Status :=
  if c.payload.length = 2 then
    match portOf (numAt c.payload 1 1) with
    | some p => act p s
    | none => (s, .range)
  else (s, .range)

/-- A command with one slot parameter (R177, R196, R197). -/
def slotParam (c : Command) (act : Slot → State → State × Status) (s : State) : State × Status :=
  if c.payload.length = 2 then
    match slotOf (numAt c.payload 1 1) with
    | some i => act i s
    | none => (s, .range)
  else (s, .range)

/-! ### Unknown codes -/

/-- The codes that name a command (R196). -/
def knownCodes : List Byte :=
  [0x01, 0x02, 0x03, 0x10, 0x11, 0x12, 0x20, 0x21, 0x22, 0x23, 0x30, 0x31, 0x32, 0x33, 0x34, 0x35, 0x36, 0x40, 0x41, 0x42]

/-- The command's code names no command. -/
def codeUnknown (c : Command) : Bool := !knownCodes.contains (c.payload.headD 0)

/-- UNKNOWN_COMMAND (R177). -/
def execUnknownCommand (s : State) : Host.Outcome State Fault Refusal :=
  .next (onHead codeUnknown (fun c => answer c .unknown []) s)

/-! ### Reading and clearing (R184) -/

/-- The ports of the ack set that satisfy `f`, as a mask (R184). -/
def ackMask (s : State) (f : AckEntry → Bool) : Byte := portMask ((s.race.acks.filter f).map fun a => a.port)

/-- The 39 bytes of the status record (R196). -/
def statusRecord (s : State) : List Byte :=
  let r := s.race
  beBytes 4 s.clock.toNat ++ [r.state.code, statusPresence r s.roleHolder.isSome] ++ timeBytes r.tGreen
    ++ [(r.remembered.map RaceState.code).getD 0xFF] ++ timeBytes r.tH ++ timeBytes r.tR
    ++ [ackMask s fun _ => true, ackMask s fun a => a.acked] ++ timeBytes r.grace ++ [portMarker s.mgmt.director]
    ++ (allPorts.map fun p => (s.port p).phase.code) ++ [BitVec.ofNat 8 s.mgmt.queue.length]
    ++ beBytes 2 s.mgmt.cmdBusy.toNat ++ beBytes 2 s.crossingLost.toNat

/-- READ_STATUS (R184). -/
def execReadStatus (s : State) : Host.Outcome State Fault Refusal :=
  .next (onHead (codeIs 0x01) (fun c s =>
    if c.payload.length = 1 then answer c .ok (statusRecord s) s else answer c .range [] s) s)

/-- The seventeen counters in the order of R189. -/
def counterList (k : PortCounters) : List Counter :=
  [k.framesRx, k.framing, k.crcError, k.outOfState, k.accepted, k.noSlot, k.retired, k.held, k.outOfWindow, k.stale,
   k.badPosition, k.badLap, k.lapRegress, k.lapJump, k.clamped, k.viewAbandoned, k.cueDrop]

/-- The fault reason byte: 0xFF outside FAULT (R191). -/
def faultByte (q : Port) : Byte :=
  if q.phase = .fault then (q.faultReason.map FaultReason.code).getD 0xFF else 0xFF

/-- The 59 bytes of the port record (R196). -/
def portRecord (p : PortNo) (s : State) : List Byte :=
  let q := s.port p
  let r := q.timing
  [portByte p, q.phase.code, faultByte q, boolByte (s.gateOpen p), boolByte r.valid] ++ beBytes 2 r.delta
    ++ beBytes 4 r.anchorTime.toNat ++ beBytes 2 r.anchorFrame.toNat ++ beBytes 4 r.period ++ signedMarker r.lag
    ++ signedMarker r.residual ++ (counterList q.counters).flatMap fun n => beBytes 2 n.toNat

/-- The sender may read the port its command names (R178, R197). -/
def mayReadPort (c : Command) (s : State) : Bool :=
  s.holdsRole c.sender || decide (c.payload[1]? = some (portByte c.sender))

/-- READ_PORT (R184). -/
def execReadPort (s : State) : Host.Outcome State Fault Refusal :=
  .next (onHead (codeIs 0x02) (fun c s =>
    if mayReadPort c s then
      if c.payload.length = 2 then
        match portOf (numAt c.payload 1 1) with
        | some p => answer c .ok (portRecord p s) s
        | none => answer c .range [] s
      else answer c .range [] s
    else answer c .privilege [] s) s)

/-- CLEAR_COUNTERS for a port, or for the hub when the parameter is 8 (R184, R189). -/
def clearCounters (n : Nat) (s : State) : State × Status :=
  if n = 8 then ({ s with mgmt := { s.mgmt with cmdBusy := 0 }, crossingLost := 0 }, .ok)
  else match portOf n with
    | some p => (s.modPort p fun q => { q with counters := zeroCounters }, .ok)
    | none => (s, .range)

/-- CLEAR_COUNTERS (R184). -/
def execClearCounters (s : State) : Host.Outcome State Fault Refusal :=
  .next (onHead (codeIs 0x03) (fun c => asDirector (fun s =>
    if c.payload.length = 2 then clearCounters (numAt c.payload 1 1) s else (s, .range)) c) s)

/-- The table a command names (R196). -/
def Command.table (c : Command) : Option Table := (c.payload[1]?).bind fun b => tableOf b.toNat

/-- The sender may read and SCAN the table its command names (R178, R179, R197). -/
def mayRead (c : Command) (s : State) : Bool := s.holdsRole c.sender || c.table.any Table.isPublic

/-- Entries returned by READ_ENTRIES: the count, the table's end and the 119 bytes of room limit them (R180, R198). -/
def readCount (t : Table) (size index count : Nat) : Nat := min count (min (size - index) (119 / t.readSize))

/-- READ_ENTRIES on table `t` (R180). -/
def readTable (c : Command) (t : Table) (s : State) : State :=
  let index := numAt c.payload 2 1
  let entries := s.tableBytes t
  if entries.length ≤ index then answer c .index [] s
  else
    let n := readCount t entries.length index (numAt c.payload 3 1)
    answer c .ok ([c.payload.getD 1 0, BitVec.ofNat 8 index, BitVec.ofNat 8 n]
      ++ ((entries.drop index).take n).flatten) s

/-- READ_ENTRIES (R180). -/
def execReadEntries (s : State) : Host.Outcome State Fault Refusal :=
  .next (onHead (codeIs 0x10) (fun c s =>
    if mayRead c s then
      match c.table with
      | some t => if c.payload.length = 4 then readTable c t s else answer c .range [] s
      | none => answer c .range [] s
    else answer c .privilege [] s) s)

/-- SCAN on table `t` (R183). -/
def scanTable (c : Command) (t : Table) (s : State) : State :=
  let start := numAt c.payload 2 1
  let fieldNo := numAt c.payload 5 1
  let mode := numAt c.payload 10 1
  if fieldNo < t.fieldCount ∧ mode ≤ 1 then
    let r := scanFrom fieldNo (BitVec.ofNat 32 (numAt c.payload 6 4)) (decide (mode = 1)) 32
      ((s.tableFields t).drop start) start (numAt c.payload 3 2)
    answer c .ok (scanBytes r) s
  else answer c .range [] s

/-- SCAN (R183). -/
def execScan (s : State) : Host.Outcome State Fault Refusal :=
  .next (onHead (codeIs 0x12) (fun c s =>
    if mayRead c s then
      match c.table with
      | some t => if c.payload.length = 11 then scanTable c t s else answer c .range [] s
      | none => answer c .range [] s
    else answer c .privilege [] s) s)

/-! ### WRITE_ENTRIES -/

/-- The REPLY to a WRITE_ENTRIES, which always carries its data (R181, R196). -/
def answerWrite (c : Command) (status : Status) (written : Nat) (s : State) : State :=
  let d := writeData c.payload written s
  answer c status d.1 d.2

/-- A WRITE_ENTRIES on a table of write entries of `size` bytes (R178, R181, R197). -/
def writeTable (size : Nat) (write : Nat → List Byte → State → State × Status) (c : Command) (s : State) : State :=
  if s.holdsRole c.sender then
    if 4 ≤ c.payload.length ∧ c.payload.length = 4 + numAt c.payload 3 1 * size then
      let r := writeLoop size write (numAt c.payload 3 1) (numAt c.payload 2 1) (c.payload.drop 4) s
      answerWrite c r.2.1 r.2.2 r.1
    else answerWrite c .range 0 s
  else answerWrite c .privilege 0 s

/-- A WRITE_ENTRIES that names table `t`. -/
def writes (t : Table) (c : Command) : Bool := codeIs 0x11 c && decide (c.table = some t)

/-- WRITE_CAR_ASSIGNMENT (R29). -/
def execWriteCarAssignment (s : State) : Host.Outcome State Fault Refusal :=
  .next (onHead (writes .carTable) (writeTable 7 (onSlot writeCar)) s)

/-- WRITE_RACE_PARAMETERS (R111). -/
def execWriteRaceParameters (s : State) : Host.Outcome State Fault Refusal :=
  .next (onHead (writes .raceParameters) (writeTable 4 (onNumber 18 writeParam)) s)

/-- WRITE_PORT_TABLE (R182). -/
def execWritePortTable (s : State) : Host.Outcome State Fault Refusal :=
  .next (onHead (writes .portTable) (writeTable 25 (onPort writePort)) s)

/-- WRITE_VIEW_ORDER_LISTS (R68). -/
def execWriteViewOrderLists (s : State) : Host.Outcome State Fault Refusal :=
  .next (onHead (writes .viewOrderLists) (writeTable 13 (onPort writeViewOrder)) s)

/-- WRITE_EVENT_ROUTE_TABLE (R141). -/
def execWriteEventRouteTable (s : State) : Host.Outcome State Fault Refusal :=
  .next (onHead (writes .eventRouteTable) (writeTable 11 (onNumber 24 writeRoute)) s)

/-- WRITE_TRAINING_PATTERNS (R163). -/
def execWriteTrainingPatterns (s : State) : Host.Outcome State Fault Refusal :=
  .next (onHead (writes .trainingPatterns) (writeTable 17 (onNumber 4 writePattern)) s)

/-- The tables that may be written (R179). -/
def Table.isWritable : Table → Bool
  | .crossingList => false
  | .classification => false
  | .contactPairSet => false
  | _ => true

/-- A WRITE_ENTRIES that names none of the six writable tables (R178; notes/assumptions/6.md). -/
def writesNowhere (c : Command) : Bool := codeIs 0x11 c && !c.table.any Table.isWritable

/-- WRITE_NO_ACCESS_TABLE (R178): PRIVILEGE from any sender; a table byte that names no table or is missing is RANGE from
the director (R197). -/
def execWriteNoAccessTable (s : State) : Host.Outcome State Fault Refusal :=
  .next (onHead writesNowhere (fun c s =>
    if s.holdsRole c.sender ∧ c.table = none then answerWrite c .range 0 s else answerWrite c .privilege 0 s) s)

/-! ### Port and view commands (R185) -/

/-- PORT_RESET (R167). -/
def execPortReset (s : State) : Host.Outcome State Fault Refusal :=
  .next (onHead (codeIs 0x20) (fun c => asDirector (portParam c fun p s => (portReset p s, .ok)) c) s)

/-- A PORT_QUIET of port `p` (R164, R165). -/
def quietPort (p : PortNo) (s : State) : State × Status :=
  if s.isActive p then
    match s.quietRefusal p with
    | some e => (s, e)
    | none => (enterQuiet p none s, .ok)
  else (s, .state)

/-- PORT_QUIET (R164). -/
def execPortQuiet (s : State) : Host.Outcome State Fault Refusal :=
  .next (onHead (codeIs 0x21) (fun c => asDirector (portParam c quietPort) c) s)

/-- A PORT_WAKE of port `p` (R166). -/
def wakePort (p : PortNo) (s : State) : State × Status :=
  if (s.port p).phase = .quiet then (enterTrain p s, .ok) else (s, .state)

/-- PORT_WAKE (R166). -/
def execPortWake (s : State) : Host.Outcome State Fault Refusal :=
  .next (onHead (codeIs 0x22) (fun c => asDirector (portParam c wakePort) c) s)

/-- A SEND_VIEW for port `p` (R71). -/
def sendView (p : PortNo) (s : State) : State × Status :=
  if s.isActive p then (paceEvent p (s.targetNow p) s, .ok) else (s, .state)

/-- SEND_VIEW (R71). -/
def execSendView (s : State) : Host.Outcome State Fault Refusal :=
  .next (onHead (codeIs 0x23) (fun c => asDirector (portParam c sendView) c) s)

/-! ### The role and the hub reset -/

/-- The role moves from `c`'s port to `p` (R174): the role, the REPLY, the notice, the discard. -/
def moveRole (c : Command) (p : PortNo) (s : State) : State :=
  let s1 := answer c .ok [] { s with mgmt := { s.mgmt with director := some p } }
  (s1.offerNotice p (.directorMoved (some c.sender) .move)).discardCommands c.sender

/-- MOVE_DIRECTOR (R174). -/
def execMoveDirector (s : State) : Host.Outcome State Fault Refusal :=
  .next (onHead (codeIs 0x41) (fun c s =>
    if s.holdsRole c.sender then
      if c.payload.length = 2 then
        match portOf (numAt c.payload 1 1) with
        | none => answer c .range [] s
        | some p =>
          if s.isActive p then if p = c.sender then answer c .ok [] s else moveRole c p s
          else answer c .state [] s
      else answer c .range [] s
    else answer c .privilege [] s) s)

/-- RESET_HUB (R187): the reply is queued and reset pending set, with its latest race time. -/
def execResetHub (s : State) : Host.Outcome State Fault Refusal :=
  .next (onHead (codeIs 0x42) (fun c => asDirector (noParams c fun s =>
    ({ s with mgmt := { s.mgmt with resetPending := some (addTime s.clock 10000) } }, .ok)) c) s)

end Sys2Proof.Machine
end

