-- ==== Sys2Proof/Machine/RaceCommands.lean ====
section
/-! DEFINITION. The race and car commands (R186): OPEN_GRID to RETIRE_CAR. -/

namespace Sys2Proof.Machine

/-! ### Grid and start -/

/-- OPEN_GRID's effect (R113). -/
def openGrid (s : State) : State × Status :=
  if s.race.state = .idle then if lapRelation s.params then (s.setRace .grid, .ok) else (s, .range)
  else (s, .state)

/-- OPEN_GRID (R113). -/
def execOpenGrid (s : State) : Host.Outcome State Fault Refusal :=
  .next (onHead (codeIs 0x30) (fun c => asDirector (noParams c openGrid) c) s)

/-- T_green of a START taken now (R114). -/
def State.greenTime (s : State) : RaceTime := addTime s.clock ((s.params.lightCount + 1) * s.params.lightStep : Nat)

/-- An event of a START (R114). -/
def startEvent (kind : EventKind) (t : RaceTime) (s : State) : State :=
  raise { kind := kind, time := t, slots := [], fault := none } s

/-- The LIGHT events of a START, i = `n` down to 1 (R114). -/
def raiseLights (g : RaceTime) (step : Nat) : Nat → State → State
  | 0, s => s
  | n + 1, s => raiseLights g step n (startEvent .light (addTime g (-((n + 1) * step : Nat))) s)

/-- START's effect (R114). -/
def startRace (s : State) : State × Status :=
  if s.race.state = .grid then
    let g := s.greenTime
    let s1 := raiseLights g s.params.lightStep s.params.lightCount { s with race := { s.race with tGreen := some g } }
    ((startEvent .green g s1).setRace .countdown, .ok)
  else (s, .state)

/-- START (R114). -/
def execStart (s : State) : Host.Outcome State Fault Refusal :=
  .next (onHead (codeIs 0x31) (fun c => asDirector (noParams c startRace) c) s)

/-- A car has been counted over the line (R116). -/
def State.anyOverLine (s : State) : Bool :=
  !s.crossings.isEmpty || allSlots.any fun i => decide (0 < (s.car i).lap)

/-- ABORT_START's effect (R116). -/
def abortStart (s : State) : State × Status :=
  if s.race.state = .countdown ∧ s.anyOverLine = false then
    (fixedCue 0xFE { s with race := { s.race with state := .grid, tGreen := none } }, .ok)
  else (s, .state)

/-- ABORT_START (R116). -/
def execAbortStart (s : State) : Host.Outcome State Fault Refusal :=
  .next (onHead (codeIs 0x32) (fun c => asDirector (noParams c abortStart) c) s)

/-! ### Hold and resume -/

/-- HOLD's effect (R118). -/
def holdRace (s : State) : State × Status := if holdAllowed s.race.state then (callHold s, .ok) else (s, .state)

/-- HOLD (R118). -/
def execHold (s : State) : Host.Outcome State Fault Refusal :=
  .next (onHead (codeIs 0x33) (fun c => asDirector (noParams c holdRace) c) s)

/-- A port's RESUME_CALL: to an ACTIVE port that owns an enabled slot (R123). -/
def resumePort (tR : RaceTime) (s : State) (p : PortNo) : State :=
  if s.isActive p && !(s.slotsOf p).isEmpty then s.offerCall p (.resumeCall (inverse (s.timing p) tR)) else s

/-- RESUME's effect (R123). -/
def resumeRace (s : State) : State × Status :=
  if s.race.state = .hold then
    let tR := addTime s.clock s.params.holdLead
    let s1 := allPorts.foldl (resumePort tR) { s with race := { s.race with tR := some tR } }
    ((raiseNow .resumeBegin [] s1).setRace .resumePending, .ok)
  else (s, .state)

/-- RESUME (R123). -/
def execResume (s : State) : Host.Outcome State Fault Refusal :=
  .next (onHead (codeIs 0x34) (fun c => asDirector (noParams c resumeRace) c) s)

/-! ### Close and reset -/

/-- The race states in which CLOSE is taken (R128). -/
def closeAllowed (r : RaceState) : Bool := decide (r = .running ∨ r = .finishing ∨ r = .hold)

/-- CLOSE's effect (R128). -/
def closeRace (s : State) : State × Status := if closeAllowed s.race.state then (closeSteps s, .ok) else (s, .state)

/-- CLOSE (R128). -/
def execClose (s : State) : Host.Outcome State Fault Refusal :=
  .next (onHead (codeIs 0x35) (fun c => asDirector (noParams c closeRace) c) s)

/-- A Car Record after a race reset (R28). -/
def CarRecord.raceReset (c : CarRecord) : CarRecord := c.wiped (if c.enabled then .assigned else .free)

/-- What a race reset withdraws at a port: waiting calls, the Cue Queue, waiting placings (R89, R130, R148). -/
def Port.raceReset (q : Port) : Port := { q with calls := [], cues := [], placings := [] }

/-- The steps of a race reset (R130). -/
def resetRace (s : State) : State :=
  fixedCue 0xFF { s with
    race := resetRaceRecord
    ports := perPort fun p => (s.port p).raceReset
    cars := perSlot fun i => (s.car i).raceReset
    crossings := []
    lapTable := emptyLapTable
    classification := []
    contacts := [] }

/-- RESET_RACE (R130). -/
def execResetRace (s : State) : Host.Outcome State Fault Refusal :=
  .next (onHead (codeIs 0x36) (fun c => asDirector (noParams c fun s => (resetRace s, .ok)) c) s)

/-- The states RETIRE_CAR is taken in (R39). -/
def retirable (st : CarState) : Bool :=
  decide (st = .assigned ∨ st = .live ∨ st = .coasting ∨ st = .parked ∨ st = .lost)

/-- RETIRE_CAR's effect (R39). -/
def retireCar (i : Slot) (s : State) : State × Status :=
  let c := s.car i
  if retirable c.state then
    (afterChange (changeCar i { c with state := .retired, coastTimer := none, loseTimer := none } none s), .ok)
  else (s, .state)

/-- RETIRE_CAR (R39). -/
def execRetireCar (s : State) : Host.Outcome State Fault Refusal :=
  .next (onHead (codeIs 0x40) (fun c => asDirector (slotParam c retireCar) c) s)

end Sys2Proof.Machine
end

