-- ==== Sys2Proof/Machine/Timers.lean ====
section
/-! DEFINITION. The resets, the line and the timers: the rows RESET_N_LOW to HUB_RESET_TAKES_EFFECT and TRANSMIT_END to
GRACE_DEADLINE_EXPIRY. Each row has its effect when the condition its rule gives holds, and none otherwise
(notes/assumptions/6.md); the same conditions say in Tick.lean which rows are due. -/

namespace Sys2Proof.Machine

/-! ### Hub reset (R187) -/

/-- A frame on the wire as the race clock restarts at 0: its send stamp on the new scale (notes/assumptions/8.md). -/
def rebase (now : RaceTime) (w : WireFrame) : WireFrame := { w with sent := w.sent - now }

/-- The hub after a hub reset: everything at its reset value; a frame on the wire completes. The input level, the queue
of commands and the free-value counter are not the hub's and stay. -/
def hubReset (s : State) : State :=
  { State.reset with
    resetLow := s.resetLow
    ports := perPort fun p => resetPort p ((s.port p).wire.map (rebase s.clock)) (s.port p).lineRate
    free := s.free
    pending := s.pending }

/-- RESET_N_LOW (R187): the hub is reset at once, and the race clock stands at 0 until the release (R2). -/
def execResetNLow (s : State) : Host.Outcome State Fault Refusal := .next { hubReset s with resetLow := true }

/-- RESET_N_RELEASE (R2): the race clock counts from 0. -/
def execResetNRelease (s : State) : Host.Outcome State Fault Refusal :=
  .next (if s.resetLow then { s with resetLow := false, clock := 0 } else s)

/-- The frame is the REPLY OK to a RESET_HUB (R187). -/
def isResetReply (f : HubFrame) : Bool :=
  match f.body with
  | .reply code st _ => decide (code = 0x42 ∧ st = .ok)
  | _ => false

/-- The REPLY OK to a RESET_HUB has still to be sent, or is on the wire (R187). -/
def State.resetReplyWaits (s : State) : Bool :=
  allPorts.any fun p =>
    (s.port p).outbox.any isResetReply || (s.port p).wire.any fun w => isResetReply w.frame

/-- A pending RESET_HUB may take effect (R187). -/
def State.resetDue (s : State) : Bool :=
  match s.mgmt.resetPending with
  | some t => atOrAfter s.clock t || !s.resetReplyWaits
  | none => false

/-- HUB_RESET_TAKES_EFFECT (R187). -/
def execHubResetTakesEffect (s : State) : Host.Outcome State Fault Refusal :=
  .next (if s.resetDue then hubReset s else s)

/-! ### The line -/

/-- TRANSMIT_END (R168): the frame on the wire ends and the arbiter takes the next. -/
def execTransmitEnd (p : PortNo) (s : State) : Host.Outcome State Fault Refusal :=
  .next (if (s.port p).wire.isSome then (s.modPort p fun q => { q with wire := none }).arbiterTake p else s)

/-- The line of a port may change to the rate the Port Table holds: it runs at another one, and no frame sent at another
rate is on the wire (R150). -/
def State.rateDue (s : State) (p : PortNo) : Bool :=
  let q := s.port p
  decide (q.lineRate ≠ q.entry.linkRate) && !(q.wire.any fun w => decide (w.rate ≠ q.entry.linkRate))

/-- LINK_RATE_CHANGE_ON_LINE (R150). -/
def execLinkRateChangeOnLine (p : PortNo) (s : State) : Host.Outcome State Fault Refusal :=
  .next (if s.rateDue p then s.modPort p fun q => { q with lineRate := q.entry.linkRate } else s)

/-! ### Training and sweeps -/

/-- An invitation is due (R156). -/
def State.inviteDue (s : State) (p : PortNo) : Bool :=
  decide ((s.port p).phase = .down) && s.reached (s.port p).nextInvite

/-- TRAIN_INVITATION (R156). -/
def execTrainInvitation (p : PortNo) (s : State) : Host.Outcome State Fault Refusal :=
  .next (if s.inviteDue p then invite p s else s)

/-- The pause of a port in TRAIN has ended (R157). -/
def State.pauseDue (s : State) (p : PortNo) : Bool :=
  decide ((s.port p).phase = .train) && (match (s.port p).training with
    | .pause t => atOrAfter s.clock t
    | _ => false)

/-- TRAINING_PAUSE_END (R157). -/
def execTrainingPauseEnd (p : PortNo) (s : State) : Host.Outcome State Fault Refusal :=
  .next (if s.pauseDue p then startRound p s else s)

/-- The echo wait of the awaited TRAIN frame has passed (R157, R158). -/
def State.echoDue (s : State) (p : PortNo) : Bool :=
  decide ((s.port p).phase = .train) && (match (s.port p).training with
    | .round _ (some sent) => atOrAfter s.clock (addTime sent 5000)
    | _ => false)

/-- ECHO_WAIT_EXPIRY (R158). -/
def execEchoWaitExpiry (p : PortNo) (s : State) : Host.Outcome State Fault Refusal :=
  .next (if s.echoDue p then failRound p s else s)

/-- The sweep of a port in PHASE whose next probe is due (R10). -/
def State.dueProbe (s : State) (p : PortNo) : Option Sweep :=
  if (s.port p).phase = .phase then
    match (s.timing p).sweep with
    | some w => match w.sent.head? with
      | some t0 =>
        if w.queued < 64 ∧ atOrAfter s.clock (addTime t0 (w.queued * probeStep (s.timing p) : Nat)) = true then some w
        else none
      | none => none
    | none => none
  else none

/-- PROBE_DUE (R10). -/
def execProbeDue (p : PortNo) (s : State) : Host.Outcome State Fault Refusal :=
  .next (match s.dueProbe p with
    | some w => queueProbe p w s
    | none => s)

/-- The sweep of a port in PHASE whose reply wait has passed (R12). -/
def State.overdueSweep (s : State) (p : PortNo) : Option Sweep :=
  if (s.port p).phase = .phase then
    match (s.timing p).sweep with
    | some w => match w.sent[63]? with
      | some t63 => if atOrAfter s.clock (addTime t63 20000) then some w else none
      | none => none
    | none => none
  else none

/-- SWEEP_REPLY_WAIT_EXPIRY (R12). -/
def execSweepReplyWaitExpiry (p : PortNo) (s : State) : Host.Outcome State Fault Refusal :=
  .next (match s.overdueSweep p with
    | some w => decideSweep p w s
    | none => s)

/-! ### Cars and laps -/

/-- The coast timer of a car has expired and may be taken (R31, R32, R34). -/
def State.coastDue (s : State) (i : Slot) : Bool := !s.suspended && s.passed (s.car i).coastTimer

/-- COAST_TIMER_EXPIRY (R32). -/
def execCoastTimerExpiry (i : Slot) (s : State) : Host.Outcome State Fault Refusal :=
  .next (if s.coastDue i then ageEval i s else s)

/-- The lose timer of a car has expired and may be taken (R32, R34). -/
def State.loseDue (s : State) (i : Slot) : Bool := !s.suspended && s.passed (s.car i).loseTimer

/-- LOSE_TIMER_EXPIRY (R32). -/
def execLoseTimerExpiry (i : Slot) (s : State) : Host.Outcome State Fault Refusal :=
  .next (if s.loseDue i then ageEval i s else s)

/-- The settle deadline of lap `k` is reached and may be taken (R103, R104). -/
def State.settleDue (s : State) (k : Nat) : Bool := !s.suspended && s.reached (s.lap k).deadline

/-- SETTLE_DEADLINE_EXPIRY (R103). -/
def execSettleDeadlineExpiry (k : Nat) (s : State) : Host.Outcome State Fault Refusal :=
  .next (if s.settleDue k then evaluate s else s)

/-! ### Pacing and link loss -/

/-- The pace timer of an ACTIVE port under CLOCK pacing has reached its deadline (R70). -/
def State.paceDue (s : State) (p : PortNo) : Bool :=
  s.isActive p && decide ((s.port p).entry.pacing = .clock) && s.reached (s.port p).paceTimer

/-- The pace timer re-armed from the deadline it has just reached (R70). -/
def Port.rearmed (q : Port) : Port := { q with paceTimer := q.paceTimer.map (addTime · q.entry.pacePeriod) }

/-- PACE_TIMER_EXPIRY (R70). -/
def execPaceTimerExpiry (p : PortNo) (s : State) : Host.Outcome State Fault Refusal :=
  .next (if s.paceDue p then paceEvent p (s.targetNow p) (s.modPort p Port.rearmed) else s)

/-- The states in which the link loss timer runs (R161). -/
def lossTimerRuns (ph : PortPhase) : Bool :=
  decide (ph = .train ∨ ph = .phase ∨ ph = .rate ∨ ph = .active ∨ ph = .fault)

/-- The link loss timer has reached its deadline (R161). -/
def State.lossDue (s : State) (p : PortNo) : Bool :=
  lossTimerRuns (s.port p).phase
    && s.reached ((s.port p).linkBase.map fun b => addTime b (s.port p).entry.linkTimeout)

/-- LINK_LOSS (R161). -/
def execLinkLoss (p : PortNo) (s : State) : Host.Outcome State Fault Refusal :=
  .next (if s.lossDue p then portReset p s else s)

/-! ### The race's own timers (R112) -/

/-- T_green is reached in COUNTDOWN (R115). -/
def State.greenDue (s : State) : Bool := decide (s.race.state = .countdown) && s.reached s.race.tGreen

/-- COUNTDOWN ends at green (R115). -/
def goGreen (s : State) : State :=
  if s.race.finishSeen then
    closingTests { s with race := { s.race with
      state := .finishing, grace := s.race.tGreen.map (addTime · s.params.grace) } }
  else s.setRace .running

/-- T_GREEN_EXPIRY (R115). -/
def execTGreenExpiry (s : State) : Host.Outcome State Fault Refusal := .next (if s.greenDue then goGreen s else s)

/-- T_h is reached in HOLD_PENDING (R119). -/
def State.holdReached (s : State) : Bool := decide (s.race.state = .holdPending) && s.reached s.race.tH

/-- T_H_EXPIRY (R119): the test of complete acknowledgement. From here on the hold suspension is in force (R34, R104),
which `State.suspended` reads from the race clock. -/
def execTHExpiry (s : State) : Host.Outcome State Fault Refusal := .next (if s.holdReached then ackTest s else s)

/-- T_h + hold_timeout is reached in HOLD_PENDING with an entry not acked (R119). -/
def State.holdOverdue (s : State) : Bool :=
  decide (s.race.state = .holdPending) && s.reached (s.race.tH.map (addTime · s.params.holdTimeout)) && !s.allAcked

/-- The ports that have not acknowledged (R119). -/
def State.unacked (s : State) : List PortNo := (s.race.acks.filter fun a => !a.acked).map fun a => a.port

/-- HOLD_TIMEOUT (R119). -/
def execHoldTimeout (s : State) : Host.Outcome State Fault Refusal :=
  .next (if s.holdOverdue then enterHold (s.noticeToDirector (.holdIncomplete (s.race.tH.getD 0) s.unacked)) else s)

/-- T_r is reached in RESUME_PENDING (R124). -/
def State.resumeDue (s : State) : Bool := decide (s.race.state = .resumePending) && s.reached s.race.tR

/-- Δ_h (R124). -/
def State.holdLength (s : State) : Int := timeDiff (s.race.tR.getD 0) (s.race.tH.getD 0)

/-- The hold ends (R124): the shift, the remembered state, the age evaluations, the settle deadlines and the fixing
evaluation, and in FINISHING the closing tests. -/
def endHold (s : State) : State :=
  let s1 := (leaveResume (resumeShift s.holdLength s)).setAllDeadlines
  closingTests (evaluate (ageAll s1))

/-- T_R_EXPIRY (R124). -/
def execTRExpiry (s : State) : Host.Outcome State Fault Refusal := .next (if s.resumeDue then endHold s else s)

/-- The grace deadline is reached in FINISHING (R127). -/
def State.graceDue (s : State) : Bool := decide (s.race.state = .finishing) && s.reached s.race.grace

/-- GRACE_DEADLINE_EXPIRY (R127). -/
def execGraceDeadlineExpiry (s : State) : Host.Outcome State Fault Refusal :=
  .next (if s.graceDue then closeSteps s else s)

end Sys2Proof.Machine
end

