-- ==== Sys2Proof/Machine/Dispatch.lean ====
section
/-! DEFINITION. The meaning of every command: one arm for each row of the table. -/

namespace Sys2Proof.Machine

/-- The effect of a command on everything but the queue of commands. -/
def exec (i : Instr) (s : State) : Host.Outcome State Fault Refusal :=
  match i with
  | .resetNLow => Sys2Proof.Machine.execResetNLow s
  | .resetNRelease => Sys2Proof.Machine.execResetNRelease s
  | .hubResetTakesEffect => Sys2Proof.Machine.execHubResetTakesEffect s
  | .damagedFrame p stamp run => Sys2Proof.Machine.execDamagedFrame p stamp run s
  | .unknownKindFrame p stamp kind payload => Sys2Proof.Machine.execUnknownKindFrame p stamp kind payload s
  | .trainEcho p stamp payload => Sys2Proof.Machine.execTrainEcho p stamp payload s
  | .probeReply p stamp payload => Sys2Proof.Machine.execProbeReply p stamp payload s
  | .car p stamp count payload => Sys2Proof.Machine.execCar p stamp count payload s
  | .holdAck p stamp payload => Sys2Proof.Machine.execHoldAck p stamp payload s
  | .quietAsk p stamp payload => Sys2Proof.Machine.execQuietAsk p stamp payload s
  | .mgmt p stamp tag payload => Sys2Proof.Machine.execMgmt p stamp tag payload s
  | .transmitEnd p => Sys2Proof.Machine.execTransmitEnd p s
  | .linkRateChangeOnLine p => Sys2Proof.Machine.execLinkRateChangeOnLine p s
  | .trainInvitation p => Sys2Proof.Machine.execTrainInvitation p s
  | .trainingPauseEnd p => Sys2Proof.Machine.execTrainingPauseEnd p s
  | .echoWaitExpiry p => Sys2Proof.Machine.execEchoWaitExpiry p s
  | .probeDue p => Sys2Proof.Machine.execProbeDue p s
  | .sweepReplyWaitExpiry p => Sys2Proof.Machine.execSweepReplyWaitExpiry p s
  | .coastTimerExpiry slot => Sys2Proof.Machine.execCoastTimerExpiry slot s
  | .loseTimerExpiry slot => Sys2Proof.Machine.execLoseTimerExpiry slot s
  | .settleDeadlineExpiry k => Sys2Proof.Machine.execSettleDeadlineExpiry k s
  | .paceTimerExpiry p => Sys2Proof.Machine.execPaceTimerExpiry p s
  | .linkLoss p => Sys2Proof.Machine.execLinkLoss p s
  | .tGreenExpiry => Sys2Proof.Machine.execTGreenExpiry s
  | .tHExpiry => Sys2Proof.Machine.execTHExpiry s
  | .holdTimeout => Sys2Proof.Machine.execHoldTimeout s
  | .tRExpiry => Sys2Proof.Machine.execTRExpiry s
  | .graceDeadlineExpiry => Sys2Proof.Machine.execGraceDeadlineExpiry s
  | .unknownCommand => Sys2Proof.Machine.execUnknownCommand s
  | .readStatus => Sys2Proof.Machine.execReadStatus s
  | .readPort => Sys2Proof.Machine.execReadPort s
  | .clearCounters => Sys2Proof.Machine.execClearCounters s
  | .readEntries => Sys2Proof.Machine.execReadEntries s
  | .writeCarAssignment => Sys2Proof.Machine.execWriteCarAssignment s
  | .writeRaceParameters => Sys2Proof.Machine.execWriteRaceParameters s
  | .writePortTable => Sys2Proof.Machine.execWritePortTable s
  | .writeViewOrderLists => Sys2Proof.Machine.execWriteViewOrderLists s
  | .writeEventRouteTable => Sys2Proof.Machine.execWriteEventRouteTable s
  | .writeTrainingPatterns => Sys2Proof.Machine.execWriteTrainingPatterns s
  | .writeNoAccessTable => Sys2Proof.Machine.execWriteNoAccessTable s
  | .scan => Sys2Proof.Machine.execScan s
  | .portReset => Sys2Proof.Machine.execPortReset s
  | .portQuiet => Sys2Proof.Machine.execPortQuiet s
  | .portWake => Sys2Proof.Machine.execPortWake s
  | .sendView => Sys2Proof.Machine.execSendView s
  | .openGrid => Sys2Proof.Machine.execOpenGrid s
  | .start => Sys2Proof.Machine.execStart s
  | .abortStart => Sys2Proof.Machine.execAbortStart s
  | .hold => Sys2Proof.Machine.execHold s
  | .resume => Sys2Proof.Machine.execResume s
  | .close => Sys2Proof.Machine.execClose s
  | .resetRace => Sys2Proof.Machine.execResetRace s
  | .retireCar => Sys2Proof.Machine.execRetireCar s
  | .moveDirector => Sys2Proof.Machine.execMoveDirector s
  | .resetHub => Sys2Proof.Machine.execResetHub s

end Sys2Proof.Machine
end

