-- ==== Sys2Proof/Machine/Tick.lean ====
section
/-! DEFINITION. What the hub raises by itself when no command waits (notes/assumptions/1.md): the rows whose condition
holds at the present race time, or, when there are none, one more microsecond of the race clock (R2). -/

namespace Sys2Proof.Machine

/-- Whole microseconds a frame occupies on the line with its leading delimiter (R150). -/
def wireTime (w : WireFrame) : Nat :=
  let n := w.frame.bytes.length + 1
  match w.rate with
  | .r10 => n
  | .r20 => (n + 1) / 2

/-- The frame on the wire has ended (R150, R168). -/
def State.wireDue (s : State) (p : PortNo) : Bool :=
  s.reached ((s.port p).wire.map fun w => addTime w.sent (wireTime w : Nat))

/-- A row, when its condition holds. -/
def dueIf (b : Bool) (c : Instr) : List Instr := if b then [c] else []

/-- The rows of one port that are due. -/
def duePort (s : State) (p : PortNo) : List Instr :=
  dueIf (s.wireDue p) (.transmitEnd p) ++ dueIf (s.rateDue p) (.linkRateChangeOnLine p)
    ++ dueIf (s.inviteDue p) (.trainInvitation p) ++ dueIf (s.pauseDue p) (.trainingPauseEnd p)
    ++ dueIf (s.echoDue p) (.echoWaitExpiry p) ++ dueIf (s.dueProbe p).isSome (.probeDue p)
    ++ dueIf (s.overdueSweep p).isSome (.sweepReplyWaitExpiry p) ++ dueIf (s.paceDue p) (.paceTimerExpiry p)
    ++ dueIf (s.lossDue p) (.linkLoss p)

/-- The rows of one car that are due. -/
def dueCar (s : State) (i : Slot) : List Instr :=
  dueIf (s.coastDue i) (.coastTimerExpiry i) ++ dueIf (s.loseDue i) (.loseTimerExpiry i)

/-- The rows of the race that are due. T_H_EXPIRY is raised when its test succeeds. -/
def dueRace (s : State) : List Instr :=
  dueIf s.greenDue .tGreenExpiry ++ dueIf (s.holdReached && s.allAcked) .tHExpiry ++ dueIf s.holdOverdue .holdTimeout
    ++ dueIf s.resumeDue .tRExpiry ++ dueIf s.graceDue .graceDeadlineExpiry

/-- The row of a WRITE_ENTRIES, by the table it names (R179). -/
def writeRow (c : Command) : Instr :=
  match c.table with
  | some .carTable => .writeCarAssignment
  | some .raceParameters => .writeRaceParameters
  | some .portTable => .writePortTable
  | some .viewOrderLists => .writeViewOrderLists
  | some .eventRouteTable => .writeEventRouteTable
  | some .trainingPatterns => .writeTrainingPatterns
  | some .crossingList => .writeNoAccessTable
  | some .classification => .writeNoAccessTable
  | some .contactPairSet => .writeNoAccessTable
  | none => .writeNoAccessTable

/-- The rows of the codes that name a command, but for WRITE_ENTRIES (R196). -/
def codeRows : List (Byte × Instr) :=
  [(0x01, .readStatus), (0x02, .readPort), (0x03, .clearCounters), (0x10, .readEntries), (0x12, .scan),
   (0x20, .portReset), (0x21, .portQuiet), (0x22, .portWake), (0x23, .sendView), (0x30, .openGrid), (0x31, .start),
   (0x32, .abortStart), (0x33, .hold), (0x34, .resume), (0x35, .close), (0x36, .resetRace), (0x40, .retireCar),
   (0x41, .moveDirector), (0x42, .resetHub)]

/-- The row that takes a queued command (R177). -/
def commandRow (c : Command) : Instr :=
  let code := c.payload.headD 0
  if code = 0x11 then writeRow c
  else match codeRows.find? fun r => decide (r.1 = code) with
    | some r => r.2
    | none => .unknownCommand

/-- The row that takes the command at the head of the Command Queue (R177). -/
def dueCommand (s : State) : List Instr :=
  match s.head with
  | some c => [commandRow c]
  | none => []

/-- Everything that is due at the present race time. -/
def dueRows (s : State) : List Instr :=
  allPorts.flatMap (duePort s) ++ allSlots.flatMap (dueCar s)
    ++ s.raceLaps.flatMap (fun k => dueIf (s.settleDue k) (.settleDeadlineExpiry k)) ++ dueRace s ++ dueCommand s
    ++ dueIf s.resetDue .hubResetTakesEffect

/-- What the hub does while no command waits: one of the rows that are due comes next, which of several being a free
value (notes/assumptions/4.md), or the race clock counts one microsecond. While RESET_N is low nothing happens
(notes/assumptions/2.md). -/
def idleStep (s : State) : State :=
  if s.resetLow then s
  else match dueRows s with
    | [] => { s with clock := s.clock + 1 }
    | [c] => { s with pending := [c] }
    | c :: d :: cs =>
      { s.useFree with pending := [(c :: d :: cs).getD (Config.eventChoice s.free % (cs.length + 2)) c] }

end Sys2Proof.Machine
end

