-- ==== Sys2Proof/Decode.lean ====
section
/-! DEFINITION. The decoder over the rows of the table that give bits: there are none. -/

namespace Sys2Proof

/-- The command a word spells by the table's bits. Every row of spec/opcode_table.json has an empty list of fields and no
bits, so no word spells one. -/
def decodeTableWord (_nbits _w : Nat) : Option Instr := none

end Sys2Proof
end

