-- ==== Sys2Proof/Safety.lean ====
section
/-! DEFINITION. What counts as a sound state of the hub, in the terms the statements use: no list beyond its capacity, a
sound Contact Pair Set, and timing records that hold what an ACTIVE port relies on. -/

namespace Sys2Proof.Machine

/-- Waiting frames of a port that are replies. -/
def Port.replies (q : Port) : List HubFrame := q.outbox.filter fun f => f.body.isReply

/-- Waiting frames of a port that are notices. -/
def Port.notices (q : Port) : List HubFrame := q.outbox.filter fun f => f.body.isNotice

/-- No class of a port's arbiter holds more frames than its capacity (R66, R146, R169). -/
def Port.withinCapacity (q : Port) : Prop :=
  q.class1.length ≤ 64 ∧ q.calls.length ≤ 4 ∧ q.cues.length ≤ 8 ∧ q.placings.length ≤ 128 ∧ q.replies.length ≤ 16
    ∧ q.notices.length ≤ 16 ∧ ∀ v, q.viewSet = some v → v.unsent.length ≤ 2

/-- No list of the hub is longer than its capacity (R66, R87, R146, R169, R171). -/
def State.withinCapacity (s : State) : Prop :=
  (∀ p, (s.port p).withinCapacity) ∧ s.mgmt.queue.length ≤ 4 ∧ s.crossings.length ≤ 128

/-- The pair comes before the other in the order of the Contact Pair Set (R133). -/
def pairBefore (a b : Slot × Slot) : Prop := a.1 < b.1 ∨ (a.1 = b.1 ∧ a.2 < b.2)

/-- The Contact Pair Set holds only pairs of two distinct slots, lower first, whose cars are both LIVE or COASTING, in its
order and none twice (R133). -/
def State.contactsOk (s : State) : Prop :=
  (∀ c ∈ s.contacts, c.1 < c.2 ∧ inContactState (s.car c.1).state = true ∧ inContactState (s.car c.2).state = true)
    ∧ s.contacts.Pairwise pairBefore

/-- The timing record of a port in RATE or ACTIVE is valid, and in ACTIVE its period lies in the band (R20, R72). -/
def Port.timingOk (q : Port) : Prop :=
  (q.phase = .rate ∨ q.phase = .active → q.timing.valid = true)
    ∧ (q.phase = .active → ((q.timing.period : Int) - q.timing.pNom).natAbs ≤ periodBand q.timing)

/-- Every port's timing record is sound. -/
def State.timingOk (s : State) : Prop := ∀ p, (s.port p).timingOk

/-- No two enabled slots have the same owner port and the same seat (R29). A seat is 0 or 1, so no port owns more than two
enabled slots. -/
def State.seatsOk (s : State) : Prop :=
  ∀ i j, i ≠ j → (s.car i).enabled = true → (s.car j).enabled = true → (s.car i).owner = (s.car j).owner →
    (s.car i).seat ≠ (s.car j).seat

/-- A sound state: its lists within their capacities, its Contact Pair Set, its seats and its timing records as they
must be. -/
def State.sound (s : State) : Prop := s.withinCapacity ∧ s.contactsOk ∧ s.seatsOk ∧ s.timingOk

/-- A step of the hub ends in a next state. -/
def Completes (o : Host.Outcome State Fault Refusal) : Prop := ∃ t, o = .next t

/-! ### What an operation may change -/

/-- What the arbiter and the offers leave alone in a port, and that they keep the capacities. -/
structure SameLink (q r : Port) : Prop where
  phase : r.phase = q.phase
  faultReason : r.faultReason = q.faultReason
  entry : r.entry = q.entry
  viewOrder : r.viewOrder = q.viewOrder
  lineRate : r.lineRate = q.lineRate
  gateSample : r.gateSample = q.gateSample
  gateCar : r.gateCar = q.gateCar
  linkBase : r.linkBase = q.linkBase
  nextInvite : r.nextInvite = q.nextInvite
  failedRounds : r.failedRounds = q.failedRounds
  paceTimer : r.paceTimer = q.paceTimer
  record : { r.timing with sweep := none } = { q.timing with sweep := none }
  within : q.withinCapacity → r.withinCapacity

/-- `t` differs from `s` in the ports' waiting frames and wires and in the Race Controller's record at most. -/
structure RouteEffect (s t : State) : Prop where
  resetLow : t.resetLow = s.resetLow
  clock : t.clock = s.clock
  cars : t.cars = s.cars
  params : t.params = s.params
  crossings : t.crossings = s.crossings
  lapTable : t.lapTable = s.lapTable
  classification : t.classification = s.classification
  crossingLost : t.crossingLost = s.crossingLost
  contacts : t.contacts = s.contacts
  routes : t.routes = s.routes
  patterns : t.patterns = s.patterns
  mgmt : t.mgmt = s.mgmt
  free : t.free = s.free
  pending : t.pending = s.pending
  link : ∀ p, SameLink (s.port p) (t.port p)

/-- What only an assignment write or an accepted sample changes in a Car Record. -/
structure SameCar (c d : CarRecord) : Prop where
  enabled : d.enabled = c.enabled
  owner : d.owner = c.owner
  seat : d.seat = c.seat
  number : d.number = c.number
  last : d.last = c.last
  prev : d.prev = c.prev
  gridS : d.gridS = c.gridS

/-- The effect of the race's work. -/
structure RaceEffect (s t : State) : Prop where
  resetLow : t.resetLow = s.resetLow
  clock : t.clock = s.clock
  params : t.params = s.params
  routes : t.routes = s.routes
  patterns : t.patterns = s.patterns
  mgmt : t.mgmt = s.mgmt
  free : t.free = s.free
  pending : t.pending = s.pending
  link : ∀ p, SameLink (s.port p) (t.port p)
  cars : ∀ i, SameCar (s.car i) (t.car i)
  crossings : t.crossings.length ≤ max 128 s.crossings.length
  contacts : s.contactsOk → t.contactsOk

/-- What every command that is no reset keeps: the input level, the clock, the waiting commands and the soundness of the
state's lists and timing records. -/
structure StepEffect (s t : State) : Prop where
  resetLow : t.resetLow = s.resetLow
  clock : t.clock = s.clock
  pending : t.pending = s.pending
  within : ∀ p, (s.port p).withinCapacity → (t.port p).withinCapacity
  queue : t.mgmt.queue.length ≤ max 4 s.mgmt.queue.length
  crossings : t.crossings.length ≤ max 128 s.crossings.length
  contacts : s.contactsOk → t.contactsOk
  seats : s.seatsOk → t.seatsOk
  timing : ∀ p, (s.port p).timingOk → (t.port p).timingOk

/-- The effect of the work of port `p`'s link. -/
structure LinkEffect (p : PortNo) (s t : State) : Prop extends StepEffect s t where
  params : t.params = s.params
  routes : t.routes = s.routes
  patterns : t.patterns = s.patterns
  free : t.free = s.free
  resetPending : t.mgmt.resetPending = s.mgmt.resetPending
  cars : ∀ i, SameCar (s.car i) (t.car i)
  others : ∀ r, r ≠ p → SameLink (s.port r) (t.port r)

/-! ### The terms of the statements -/

/-- The director's command `c` with payload `bs` is at the head of the Command Queue and may be taken (R177, R178). -/
abbrev State.asks (s : State) (c : Command) (bs : List Byte) : Prop :=
  s.head = some c ∧ c.payload = bs ∧ s.holdsRole c.sender = true

/-- The row that receives a valid frame, by its header (R153, R191). -/
def frameRow (p : PortNo) (stamp : RaceTime) (kind port flags : Byte) (payload : List Byte) : Instr :=
  if kind = 0x01 then .trainEcho p stamp payload
  else if kind = 0x02 then .probeReply p stamp payload
  else if kind = 0x03 then .car p stamp flags payload
  else if kind = 0x04 then .holdAck p stamp payload
  else if kind = 0x05 then .quietAsk p stamp payload
  else if kind = 0x06 then .mgmt p stamp port payload
  else .unknownKindFrame p stamp kind payload

/-- The table of R153 with the lengths of R192 and R193: a port in state `ph` takes or ignores the frame. -/
def takesFrame (kind flags : Byte) (payload : List Byte) (ph : PortPhase) : Bool :=
  let n := payload.length
  if kind = 0x01 then decide (n = 19 ∧ (ph = .down ∨ ph = .train ∨ ph = .quiet))
  else if kind = 0x02 then decide (n = 3 ∧ (ph = .phase ∨ ph = .rate ∨ ph = .active))
  else if kind = 0x03 then
    decide (((n = 16 ∧ flags = 1) ∨ (n = 30 ∧ flags = 2)) ∧ (ph = .rate ∨ ph = .active))
  else if kind = 0x04 then decide (n = 2 ∧ ph = .active)
  else if kind = 0x05 then decide (ph = .quiet ∨ (n = 1 ∧ ph = .active))
  else if kind = 0x06 then decide (1 ≤ n ∧ n ≤ 124 ∧ (ph = .active ∨ ph = .quiet))
  else false

/-- Every table and record of `t` has its value after a hub reset, taken from `s` (R187, R28, R89, R112, R133, R171). -/
structure AfterHubReset (s t : State) : Prop where
  clock : t.clock = 0
  params : t.params = defaultParams
  race : t.race = resetRaceRecord
  cars : ∀ i, t.car i = resetCar i
  crossings : t.crossings = []
  laps : ∀ k, t.lap k = emptyLap
  classification : t.classification = []
  crossingLost : t.crossingLost = 0
  contacts : t.contacts = []
  routes : t.routes = defaultRoutes
  patterns : t.patterns = defaultPatterns
  mgmt : t.mgmt = resetMgmt
  phase : ∀ p, (t.port p).phase = .down
  entry : ∀ p, (t.port p).entry = defaultEntry
  viewOrder : ∀ p, (t.port p).viewOrder = []
  timing : ∀ p, (t.port p).timing = clearedTiming
  gates : ∀ p, (t.port p).gateSample = true ∧ (t.port p).gateCar = true
  counters : ∀ p, (t.port p).counters = zeroCounters
  waiting : ∀ p, (t.port p).calls = [] ∧ (t.port p).cues = [] ∧ (t.port p).placings = [] ∧ (t.port p).outbox = []
    ∧ (t.port p).viewSet = none
  timers : ∀ p, (t.port p).linkBase = none ∧ (t.port p).paceTimer = none ∧ (t.port p).training = .none
  idleLine : ∀ p, (s.port p).wire = none →
    (t.port p).wire = some { frame := firstInvitation p, sent := 0, rate := .r10 } ∧ (t.port p).class1 = []
  busyLine : ∀ p w, (s.port p).wire = some w →
    (∃ u, (t.port p).wire = some u ∧ u.frame = w.frame ∧ u.rate = w.rate) ∧ (t.port p).class1 = [firstInvitation p]

/-- Port `p` has entered TRAIN from the state `s` (R157, R166). -/
structure Woken (p : PortNo) (s t : State) : Prop where
  phase : (t.port p).phase = .train
  timing : (t.port p).timing = { clearedTiming with
    pNom := (s.port p).entry.pNom, tolPpm := (s.port p).entry.tolPpm, winFrames := (s.port p).entry.winFrames }
  failedRounds : (t.port p).failedRounds = 0
  pause : (t.port p).training = .pause (addTime s.clock 5000)
  linkBase : (t.port p).linkBase = some s.clock
  withdrawn : (t.port p).class1 = [] ∧ (t.port p).outbox = []
  entry : (t.port p).entry = (s.port p).entry
  fromQuiet : (s.port p).phase = .quiet → (t.port p).gateSample = false ∧ (t.port p).gateCar = false
    ∧ t.mgmt.queue = s.mgmt.queue.filter fun c => decide (c.sender ≠ p)
  fromDown : (s.port p).phase = .down → (t.port p).gateSample = (s.port p).gateSample ∧ t.mgmt = s.mgmt
  others : ∀ r, r ≠ p → t.port r = s.port r
  cars : t.cars = s.cars
  race : t.race = s.race

/-- The notices that the valid NOTIFY routes form of some events, in the order of the events (R142, R144). -/
def State.noticesFor (s : State) (es : List Event) : List FrameBody :=
  es.flatMap fun e =>
    (s.routes.toList.filter fun r => r.matches e && decide (r.action = .notify)).map fun _ => .notice (.event e)

/-- The port holds the director role, its line is busy, and it has room for so many more notices (R144, R169). -/
structure Hears (s : State) (d : PortNo) (n : Nat) : Prop where
  role : s.roleHolder = some d
  busy : (s.port d).wire.isSome = true
  room : (s.port d).notices.length + n ≤ 16

/-- A director who hears is sent these notices, in this order, and no other frame of class 5. -/
def Noticed (bodies : List FrameBody) (s t : State) : Prop :=
  ∀ d, Hears s d bodies.length → (t.port d).outbox = (s.port d).outbox ++ bodies.map (s.mkFrame d)

/-- A director who hears is sent these notices, in this order, before any other frame of class 5. -/
def NoticedFirst (bodies : List FrameBody) (s t : State) : Prop :=
  ∀ d, Hears s d bodies.length → (s.port d).outbox ++ bodies.map (s.mkFrame d) <+: (t.port d).outbox

/-- The port that ends up with the director role, where its line has been busy and it ends with fewer than 16 notices waiting,
has been sent these notices, in this order, among the frames of class 5 it has been sent (R144, R169). -/
def NoticedWithin (bodies : List FrameBody) (s t : State) : Prop :=
  ∀ d, t.roleHolder = some d → (s.port d).wire.isSome = true → (t.port d).notices.length < 16 →
    ∃ added, (t.port d).outbox = (s.port d).outbox ++ added ∧ (bodies.map (t.mkFrame d)).Sublist added

/-- Such a port has been sent these notices, in this order, after every other frame of class 5. -/
def NoticedLast (bodies : List FrameBody) (s t : State) : Prop :=
  ∀ d, t.roleHolder = some d → (s.port d).wire.isSome = true → (t.port d).notices.length < 16 →
    ∃ added, (t.port d).outbox = (s.port d).outbox ++ added ++ bodies.map (t.mkFrame d)

/-! ### Cars whose port or age changes -/

/-- The event of a kind about car `i`, raised now (R40, R139). -/
def State.carEvent (s : State) (kind : EventKind) (i : Slot) : Event :=
  { kind := kind, time := s.clock, slots := [i], fault := none }

/-- A finish crossing of car `i` is PROVISIONAL, so that a fixing may finish the car (R38). -/
def State.mayFinish (s : State) (i : Slot) : Prop :=
  ∃ x ∈ s.crossings, x.isProvisional = true ∧ x.slot = i ∧ x.lap = s.params.laps + 1

/-- A car has been FINISHED by a fixing (R38). -/
def FinishedSince (i : Slot) (s t : State) : Prop :=
  s.mayFinish i ∧ (t.car i).state = .finished ∧ (t.car i).coastTimer = none ∧ (t.car i).loseTimer = none

/-- A car has become COASTING, its lose timer set from its last sample (R32, R35, R37). -/
def CoastingSince (i : Slot) (s t : State) : Prop :=
  (t.car i).state = .coasting ∧ (t.car i).coastTimer = none
    ∧ (t.car i).loseTimer = (s.car i).last.map fun x => addTime x.time s.params.loseAfter

/-- The LIVE cars of port `p`, which has left ACTIVE for a state other than QUIET, are COASTING, each with CAR_COASTING and
without an age evaluation; no other car but a PARKED one of the port changes its state. A fixing that a change leads to may
have finished a car (R35, R99). -/
structure LiveCoasted (p : PortNo) (s t : State) : Prop where
  live : ∀ i, s.owns p i = true → (s.car i).state = .live → FinishedSince i s t
    ∨ (CoastingSince i s t ∧ NoticedWithin (s.noticesFor [s.carEvent .carCoasting i]) s t)
  others : ∀ i, (s.owns p i = true → (s.car i).state ≠ .live ∧ (s.car i).state ≠ .parked) →
    FinishedSince i s t ∨ (t.car i).state = (s.car i).state

/-- The PARKED cars of port `p` have become COASTING with CAR_COASTING, and each has had its age evaluated at once unless
ageing is suspended: beyond lose_after it is LOST, with CAR_LOST after CAR_COASTING. No other car changes its state, but that
a fixing a change leads to may have finished a car (R33, R34, R37, R99). R37 names no order: the cars change one after another,
in slot order, after a vacant role is taken (the model's choice, notes/assumptions/7.md). hold_lead in its range keeps a hold
that an AUTO_HOLD route calls meanwhile from suspending ageing at once. -/
structure ParkedReturned (p : PortNo) (s t : State) : Prop where
  parked : s.params.holdLead ≤ 1000000 → ∀ i, s.owns p i = true → (s.car i).state = .parked →
    let old : Prop := s.suspended = false
      ∧ ∃ x, (s.car i).last = some x ∧ (s.params.loseAfter : Int) < timeDiff s.clock x.time
    FinishedSince i s t
    ∨ (¬old ∧ CoastingSince i s t ∧ NoticedWithin (s.noticesFor [s.carEvent .carCoasting i]) s t)
    ∨ (old ∧ (t.car i).state = .lost ∧ (t.car i).coastTimer = none ∧ (t.car i).loseTimer = none
      ∧ NoticedWithin (s.noticesFor [s.carEvent .carCoasting i, s.carEvent .carLost i]) s t)
  others : ∀ i, (s.owns p i = true → (s.car i).state ≠ .parked) →
    FinishedSince i s t ∨ (t.car i).state = (s.car i).state

/-- The state of car `i` after an age evaluation (R32). -/
def State.agedState (s : State) (i : Slot) : CarState :=
  let st := (s.car i).state
  match (s.car i).last with
  | none => st
  | some x =>
    let age := timeDiff s.clock x.time
    if (st = .live ∨ st = .coasting) ∧ (s.params.loseAfter : Int) < age then .lost
    else if st = .live ∧ (s.params.coastAfter : Int) < age then .coasting
    else st

/-- The record of car `i` after an age evaluation: the timers of a state it enters idled or set, and the timer of a state it
keeps set anew (R31, R32). -/
def State.agedCar (s : State) (i : Slot) : CarRecord :=
  let c := s.car i
  match c.last with
  | none => c
  | some x =>
    if c.state ≠ .live ∧ c.state ≠ .coasting then c
    else match s.agedState i with
      | .lost => { c with state := .lost, coastTimer := none, loseTimer := none }
      | .coasting => { c with
          state := .coasting, coastTimer := if c.state = .live then none else c.coastTimer,
          loseTimer := some (addTime x.time s.params.loseAfter) }
      | _ => { c with coastTimer := some (addTime x.time s.params.coastAfter) }

/-- Every LIVE and COASTING car has had an age evaluation and no other car has changed; each change of state has raised its
event, in slot order, an order of the model's choice (R32, R33, notes/assumptions/7.md). -/
structure AllAged (s t : State) : Prop where
  cars : ∀ i, t.car i = s.agedCar i
  told : NoticedWithin (s.noticesFor ((allSlots.filter fun i => decide (s.agedState i ≠ (s.car i).state)).map fun i =>
    s.carEvent (if s.agedState i = .lost then .carLost else .carCoasting) i)) s t

/-! ### Ports that leave a state -/

/-- What becomes of the director role when port `p` leaves ACTIVE: held by `p`, it passes to the lowest other ACTIVE port,
which is told, or falls vacant; held by another port, or vacant, it stays (R172, R173). -/
structure RolePassedOn (p : PortNo) (s t : State) : Prop where
  moved : s.holdsRole p = true →
    t.mgmt.director = allPorts.find? fun r => decide (r ≠ p ∧ (s.port r).phase = .active)
  told : s.holdsRole p = true → ∀ n, t.mgmt.director = some n → (s.port n).wire.isSome = true →
    (s.port n).notices.length < 16 →
    ∃ f ∈ (t.port n).outbox, f.director = true ∧ f.body = .notice (.directorMoved (some p) .handOver)
  kept : s.holdsRole p = false → t.mgmt.director = s.mgmt.director

/-- Port `p` has left ACTIVE since the state `s`: its waiting calls, cues, placings and views are withdrawn, the set in
flight counted, the port's entry gone from the ack set, the pace timer idle and the role passed on (R83, R121, R148, R162,
R173). The removal of the port's entry makes the test of R119: where T_h has been reached and every entry left is acked, the
race enters HOLD and HOLD_BEGIN is raised; otherwise HOLD_PENDING goes on with the entries left (R119, R121). That the role has
been passed on before HOLD_BEGIN is raised is the model's choice (notes/assumptions/7.md). -/
structure LeftActive (p : PortNo) (s t : State) : Prop where
  withdrawn : (t.port p).calls = [] ∧ (t.port p).cues = [] ∧ (t.port p).placings = [] ∧ (t.port p).viewSet = none
  abandoned : (t.port p).counters.viewAbandoned =
    if (s.port p).viewSet.isSome then bump (s.port p).counters.viewAbandoned else (s.port p).counters.viewAbandoned
  paceTimer : (t.port p).paceTimer = none
  acks : ∀ a ∈ t.race.acks, a.port ≠ p
  ackTest : s.race.state = .holdPending →
    let left := s.race.acks.filter fun a => decide (a.port ≠ p)
    let complete : Prop := (∃ a ∈ s.race.acks, a.port = p) ∧ s.reached s.race.tH = true ∧ ∀ a ∈ left, a.acked = true
    t.race.tH = s.race.tH
    ∧ (complete → t.race.state = .hold ∧ t.race.acks = []
      ∧ NoticedWithin (s.noticesFor [{ kind := .holdBegin, time := s.clock, slots := [], fault := none }]) s t)
    ∧ (¬complete → t.race.state = .holdPending ∧ t.race.acks = left)
  role : RolePassedOn p s t

/-- Port `p` has entered QUIET from the state `s`, its line to run at `rate` (R36, R162, R165, R176). A parked car may at once
be FINISHED by a fixing that its change leads to (R99). -/
structure Quieted (p : PortNo) (rate : LinkRate) (s t : State) : Prop where
  phase : (t.port p).phase = .quiet
  rate : (t.port p).entry.linkRate = rate
  linkBase : (t.port p).linkBase = none
  left : LeftActive p s t
  outbox : (t.port p).outbox = (s.port p).outbox
  timing : (t.port p).timing = { (s.port p).timing with window := none }
  queue : t.mgmt.queue =
    if s.holdsRole p then s.mgmt.queue.filter fun c => decide (c.sender ≠ p) else s.mgmt.queue
  parked : ∀ i, s.owns p i = true → inContactState (s.car i).state = true → FinishedSince i s t
    ∨ ((t.car i).state = .parked ∧ (t.car i).coastTimer = none ∧ (t.car i).loseTimer = none)
  others : ∀ i, (s.owns p i = true → inContactState (s.car i).state = false) →
    FinishedSince i s t ∨ (t.car i).state = (s.car i).state
  samples : ∀ i, (t.car i).last = (s.car i).last ∧ (t.car i).prev = (s.car i).prev

/-- Port `p` has undergone a port reset from the state `s` (R35, R37, R161, R162, R167, R176): out of ACTIVE its LIVE cars are
COASTING, out of any other state its PARKED cars have returned, with their events, their timers and their age evaluation. -/
structure PortWasReset (p : PortNo) (s t : State) : Prop where
  phase : (t.port p).phase = if (s.port p).entry.enabled then .down else .off
  timing : { (t.port p).timing with sweep := none } = clearedTiming
  faultReason : (t.port p).faultReason = none
  training : (t.port p).training = .none
  linkBase : (t.port p).linkBase = none
  paceTimer : (t.port p).paceTimer = none
  invitation : (t.port p).nextInvite = if (s.port p).entry.enabled then some (addTime s.clock 10000) else none
  withdrawn : (t.port p).calls = [] ∧ (t.port p).cues = [] ∧ (t.port p).placings = [] ∧ (t.port p).outbox = []
    ∧ (t.port p).viewSet = none
  line : let g := invitationPattern s.patterns
    let x : HubFrame := { portByte := portByte p, director := false, body := .train g.index g.bytes }
    ((s.port p).wire.isSome = true → (t.port p).wire = (s.port p).wire
      ∧ (t.port p).class1 = if (s.port p).entry.enabled then [x] else [])
    ∧ ((s.port p).wire = none → (t.port p).class1 = [] ∧ (t.port p).wire =
      if (s.port p).entry.enabled then some { frame := x, sent := s.clock, rate := (s.port p).entry.linkRate } else none)
  entry : (t.port p).entry = (s.port p).entry
  gates : (s.port p).phase = .quiet → (t.port p).gateSample = false ∧ (t.port p).gateCar = false
  queue : t.mgmt.queue = if (s.port p).phase = .active ∨ (s.port p).phase = .quiet
    then s.mgmt.queue.filter fun c => decide (c.sender ≠ p) else s.mgmt.queue
  fromActive : (s.port p).phase = .active → LeftActive p s t
  fromOther : (s.port p).phase ≠ .active → t.mgmt.director = s.mgmt.director
  unparked : ∀ i, s.owns p i = true → (t.car i).state ≠ .parked
  coasted : (s.port p).phase = .active → LiveCoasted p s t
  returned : (s.port p).phase ≠ .active → ParkedReturned p s t
  cars : ∀ i, SameCar (s.car i) (t.car i)

/-- The first PROBE of a sweep, with index `k`, has been queued at port `p`: it waits at the tail of class 1 of a busy line, and
an idle line has taken it, its send stamp noted (R10, R168). -/
def FirstProbeQueued (p : PortNo) (k : Nat) (s t : State) : Prop :=
  let x := t.mkFrame p (.probe k)
  ((s.port p).wire.isSome = true → (s.port p).class1.length < 64 →
    (t.port p).class1 = (s.port p).class1 ++ [x] ∧ (t.port p).wire = (s.port p).wire
      ∧ ∀ w, (t.timing p).sweep = some w → w.sent = [])
  ∧ ((s.port p).wire = none → (s.port p).class1 = [] →
    (t.port p).class1 = [] ∧ (t.port p).wire = some { frame := x, sent := s.clock, rate := (s.port p).entry.linkRate }
      ∧ ∀ w, (t.timing p).sweep = some w → w.sent = [s.clock])

/-- A TRAIN frame has been queued at port `p`: it waits at the tail of class 1 of a busy line, and an idle line has taken it
(R156, R157, R168). -/
def TrainFrameQueued (p : PortNo) (f : TrainFrame) (s t : State) : Prop :=
  let x := s.mkFrame p (.train f.index f.bytes)
  ((s.port p).wire.isSome = true → (s.port p).class1.length < 64 →
    (t.port p).class1 = (s.port p).class1 ++ [x] ∧ (t.port p).wire = (s.port p).wire)
  ∧ ((s.port p).wire = none → (s.port p).class1 = [] →
    (t.port p).class1 = [] ∧ (t.port p).wire = some { frame := x, sent := s.clock, rate := (s.port p).entry.linkRate })

/-- A command with the code waits at the head of the Command Queue, and no hub reset is pending (R177, R187). -/
def HeadHasCode (s : State) (code : Byte) : Prop :=
  s.mgmt.resetPending = none ∧ ∃ c, s.mgmt.queue.head? = some c ∧ c.payload.head? = some code

/-- A WRITE_ENTRIES waits at the head of the Command Queue, its table byte as `table` asks (R177, R179). -/
def HeadWrites (s : State) (table : Option Byte → Prop) : Prop :=
  s.mgmt.resetPending = none
    ∧ ∃ c, s.mgmt.queue.head? = some c ∧ c.payload.head? = some 0x11 ∧ table (c.payload[1]?)

/-- A deadline that is present has been reached (R3). -/
def Reached (s : State) (d : Option RaceTime) : Prop := ∃ t, d = some t ∧ atOrAfter s.clock t = true

/-- A car timer that is running has expired (R31, R32). -/
def Expired (s : State) (d : Option RaceTime) : Prop := ∃ t, d = some t ∧ later s.clock t = true

/-- The condition under which the hub raises a row by itself, row by row. Frames and the level of RESET_N come from
outside. -/
def RowDue (s : State) : Instr → Prop
  | .resetNLow | .resetNRelease => False
  | .hubResetTakesEffect => ∃ t, s.mgmt.resetPending = some t ∧ (atOrAfter s.clock t = true
      ∨ ∀ p, (∀ f ∈ (s.port p).outbox, isResetReply f = false)
        ∧ ∀ w, (s.port p).wire = some w → isResetReply w.frame = false)
  | .damagedFrame .. | .unknownKindFrame .. | .trainEcho .. | .probeReply .. | .car .. | .holdAck .. | .quietAsk ..
  | .mgmt .. => False
  | .transmitEnd p => ∃ w, (s.port p).wire = some w ∧
      let n := w.frame.bytes.length + 1
      atOrAfter s.clock (addTime w.sent ((if w.rate = .r10 then n else (n + 1) / 2 : Nat))) = true
  | .linkRateChangeOnLine p => (s.port p).lineRate ≠ (s.port p).entry.linkRate
      ∧ ∀ w, (s.port p).wire = some w → w.rate = (s.port p).entry.linkRate
  | .trainInvitation p => (s.port p).phase = .down ∧ Reached s (s.port p).nextInvite
  | .trainingPauseEnd p => (s.port p).phase = .train
      ∧ ∃ d, (s.port p).training = .pause d ∧ atOrAfter s.clock d = true
  | .echoWaitExpiry p => (s.port p).phase = .train
      ∧ ∃ todo sent, (s.port p).training = .round todo (some sent) ∧ atOrAfter s.clock (addTime sent 5000) = true
  | .probeDue p => (s.port p).phase = .phase
      ∧ ∃ w t0, (s.timing p).sweep = some w ∧ w.sent.head? = some t0 ∧ w.queued < 64
        ∧ atOrAfter s.clock (addTime t0 (w.queued * (roundDiv (s.timing p).pNom 16384).toNat : Nat)) = true
  | .sweepReplyWaitExpiry p => (s.port p).phase = .phase
      ∧ ∃ w t63, (s.timing p).sweep = some w ∧ w.sent[63]? = some t63 ∧ atOrAfter s.clock (addTime t63 20000) = true
  | .coastTimerExpiry i => s.suspended = false ∧ Expired s (s.car i).coastTimer
  | .loseTimerExpiry i => s.suspended = false ∧ Expired s (s.car i).loseTimer
  | .settleDeadlineExpiry k => 1 ≤ k ∧ k ≤ s.params.laps + 1 ∧ s.suspended = false ∧ Reached s (s.lap k).deadline
  | .paceTimerExpiry p => (s.port p).phase = .active ∧ (s.port p).entry.pacing = .clock ∧ Reached s (s.port p).paceTimer
  | .linkLoss p => (s.port p).phase ∈ [PortPhase.train, .phase, .rate, .active, .fault]
      ∧ ∃ b, (s.port p).linkBase = some b ∧ atOrAfter s.clock (addTime b (s.port p).entry.linkTimeout) = true
  | .tGreenExpiry => s.race.state = .countdown ∧ Reached s s.race.tGreen
  | .tHExpiry => s.race.state = .holdPending ∧ Reached s s.race.tH ∧ ∀ a ∈ s.race.acks, a.acked = true
  | .holdTimeout => s.race.state = .holdPending
      ∧ Reached s (s.race.tH.map fun h => addTime h s.params.holdTimeout) ∧ ∃ a ∈ s.race.acks, a.acked = false
  | .tRExpiry => s.race.state = .resumePending ∧ Reached s s.race.tR
  | .graceDeadlineExpiry => s.race.state = .finishing ∧ Reached s s.race.grace
  | .unknownCommand => s.mgmt.resetPending = none ∧ ∃ c, s.mgmt.queue.head? = some c
      ∧ ∀ b, c.payload.head? = some b → b ∉ ([0x01, 0x02, 0x03, 0x10, 0x11, 0x12, 0x20, 0x21, 0x22, 0x23, 0x30, 0x31, 0x32,
        0x33, 0x34, 0x35, 0x36, 0x40, 0x41, 0x42] : List Byte)
  | .readStatus => HeadHasCode s 0x01
  | .readPort => HeadHasCode s 0x02
  | .clearCounters => HeadHasCode s 0x03
  | .readEntries => HeadHasCode s 0x10
  | .writeCarAssignment => HeadWrites s (· = some 0)
  | .writeRaceParameters => HeadWrites s (· = some 1)
  | .writePortTable => HeadWrites s (· = some 2)
  | .writeViewOrderLists => HeadWrites s (· = some 3)
  | .writeEventRouteTable => HeadWrites s (· = some 4)
  | .writeTrainingPatterns => HeadWrites s (· = some 5)
  | .writeNoAccessTable => HeadWrites s fun b => ∀ n, b = some n → 6 ≤ n.toNat
  | .scan => HeadHasCode s 0x12
  | .portReset => HeadHasCode s 0x20
  | .portQuiet => HeadHasCode s 0x21
  | .portWake => HeadHasCode s 0x22
  | .sendView => HeadHasCode s 0x23
  | .openGrid => HeadHasCode s 0x30
  | .start => HeadHasCode s 0x31
  | .abortStart => HeadHasCode s 0x32
  | .hold => HeadHasCode s 0x33
  | .resume => HeadHasCode s 0x34
  | .close => HeadHasCode s 0x35
  | .resetRace => HeadHasCode s 0x36
  | .retireCar => HeadHasCode s 0x40
  | .moveDirector => HeadHasCode s 0x41
  | .resetHub => HeadHasCode s 0x42

/-- The VIEW frames of a set with the given entries: one for up to six, else two (R79, R80). -/
def setBodies (target : FrameNum) (es : List ViewEntry) : List FrameBody :=
  if es.length ≤ 6 then [.view target 0 1 es] else [.view target 0 2 (es.take 6), .view target 1 2 (es.drop 6)]

/-- A view set for port `p` with the given target frame, whose mark is `mark`, has been built from the state `s`: it waits on a
busy line, an idle line with nothing waiting takes its first frame, and a set in flight is counted abandoned (R72, R79 to
R82, R168). -/
structure ViewBuilt (p : PortNo) (target : FrameNum) (mark : RaceTime) (s t : State) : Prop where
  set : let fs := (setBodies target ((s.viewList p mark).map s.viewEntry)).map (s.mkFrame p)
    ((s.port p).wire.isSome = true →
      (t.port p).viewSet = some { target := target, size := fs.length, unsent := fs } ∧ (t.port p).wire = (s.port p).wire)
    ∧ ((s.port p).wire = none → (s.port p).class1 = [] → (s.port p).calls = [] → (s.port p).cues = [] →
      (s.port p).placings = [] → (s.port p).outbox = [] → ∃ f rest, fs = f :: rest
        ∧ (t.port p).wire = some { frame := f, sent := s.clock, rate := (s.port p).entry.linkRate }
        ∧ (t.port p).viewSet = if rest = [] then none else some { target := target, size := fs.length, unsent := rest })
  abandoned : (t.port p).counters.viewAbandoned =
    if (s.port p).viewSet.isSome then bump (s.port p).counters.viewAbandoned else (s.port p).counters.viewAbandoned

/-- The race has been closed (R106, R128). -/
structure RaceClosed (t : State) : Prop where
  state : t.race.state = .closed
  grace : t.race.grace = none
  allFixed : ∀ x ∈ t.crossings, x.isProvisional = false
  classification : t.classification = classify t

/-- Port `p` has entered FAULT with a reason from the state `s`: its record is invalid, without window and sweep, and otherwise
as it was but for the echo values of a failed round, nothing of class 1 waits, its cars change as its departure asks (R35,
R37), and PORT_FAULT is raised last, with event time now, the port number and the reason (R6, R160). That it comes last is the
model's choice (notes/assumptions/7.md). -/
structure Faulted (p : PortNo) (why : FaultReason) (s t : State) : Prop where
  phase : (t.port p).phase = .fault
  reason : (t.port p).faultReason = some why
  record : t.timing p =
    { s.timing p with valid := false, window := none, sweep := none, echoValues := (t.timing p).echoValues }
  silent : (t.port p).class1 = []
  raised :
    let fault : Event := { kind := .portFault, time := s.clock, slots := [], fault := some (p, why) }
    (∃ v, t = raise fault v ∧ v.routes = s.routes ∧ (v.port p).phase = .fault) ∧ NoticedLast (s.noticesFor [fault]) s t
  left : (s.port p).phase = .active → LeftActive p s t ∧ LiveCoasted p s t
  returned : (s.port p).phase ≠ .active → ParkedReturned p s t

/-! ### Layouts -/

/-- Bit n of the byte is the n-th of the flags, and every bit beyond them is 0 (R191). -/
def HasFlags (b : Byte) (flags : List Bool) : Prop := ∀ n, b.getLsbD n = flags.getD n false

/-- The codes count the values in the order given, from 0 (R191, R195, R198). -/
def HasCodes {α : Type} (values : List α) (code : α → Byte) : Prop := ∀ x, values[(code x).toNat]? = some x

/-- The four bytes of a race time that may be absent (R191). -/
def timeOrZeros (t : Option RaceTime) : List Byte := beBytes 4 ((t.map BitVec.toNat).getD 0)

/-- The bytes of a stored sample, zeros when it is absent (R191, R198). -/
def SampleRead (x : Option Sample) (bs : List Byte) : Prop :=
  (x = none → bs = List.replicate 17 0) ∧ ∀ y, x = some y → ∃ g, HasFlags g [y.offTrack, y.spun]
    ∧ bs = beBytes 4 y.time.toNat ++ beBytes 3 y.s ++ beBytes 1 y.lap ++ beSigned 2 y.d ++ beBytes 2 y.v ++ beSigned 2 y.w
      ++ beSigned 2 y.a ++ [g]

/-- The read entries of the nine tables, byte by byte (R198, R199). The flag bits of the Crossing List and of the
Classification are the model's reading (DEDUCED, notes/assumptions/14.md). -/
structure EntriesLaidOut (s : State) : Prop where
  cars : (s.tableBytes .carTable).length = 12 ∧ ∀ i : Slot, let c := s.car i
    ∃ g last prev, HasFlags g [c.last.isSome, c.prev.isSome, c.gridS.isSome, c.jump, c.unplaced]
      ∧ SampleRead c.last last ∧ SampleRead c.prev prev
      ∧ (s.tableBytes .carTable)[i.val]? = some
        ([if c.enabled then 1 else 0, BitVec.ofNat 8 c.owner.val, BitVec.ofNat 8 c.seat.val, BitVec.ofNat 8 c.number,
          c.state.code, g, BitVec.ofNat 8 (c.finishPlacing.getD 0)] ++ beBytes 3 (c.gridS.getD 0) ++ last ++ prev)
  params : let r := s.params
    s.tableBytes .raceParameters = [r.lapLength, r.laps, r.lightCount, r.lightStep, r.jumpSpeed, r.jumpDist, r.hF, r.hB,
      r.dMax, r.coastAfter, r.loseAfter, r.settle, r.proxLong, r.proxLat, r.hyst, r.holdLead, r.holdTimeout, r.grace].map
        (beBytes 4)
  ports : (s.tableBytes .portTable).length = 8 ∧ ∀ p : PortNo, let e := (s.port p).entry
    (s.tableBytes .portTable)[p.val]? = some
      ([if e.enabled then 1 else 0, if e.linkRate = .r10 then 10 else 20] ++ beBytes 4 e.linkTimeout ++ beBytes 4 e.pNom
        ++ beBytes 2 e.tolPpm ++ beBytes 1 e.winFrames ++ beBytes 2 e.slewMax ++ beBytes 2 e.phaseTol ++ [e.pacing.code]
        ++ beBytes 4 e.pacePeriod ++ beBytes 1 e.leadFrames ++ [e.viewMode.code, if e.includeOwn then 1 else 0])
  viewOrders : (s.tableBytes .viewOrderLists).length = 8 ∧ ∀ p : PortNo, let l := (s.port p).viewOrder
    l.length ≤ 12 → (s.tableBytes .viewOrderLists)[p.val]? = some
      (BitVec.ofNat 8 l.length :: (l.map fun i => BitVec.ofNat 8 i.val) ++ List.replicate (12 - l.length) 0xFF)
  routes : (s.tableBytes .eventRouteTable).length = 24 ∧ ∀ n : Fin 24, let r := s.routes[n]
    (s.tableBytes .eventRouteTable)[n.val]? = some
      ([if r.valid then 1 else 0, r.kind.code, (r.filter.map fun i => BitVec.ofNat 8 i.val).getD 0xFF, r.action.code,
        r.code, r.target.code, r.mask] ++ beBytes 4 r.lead)
  patterns : (s.tableBytes .trainingPatterns).length = 4 ∧ ∀ n : Fin 4, let x := s.patterns[n]
    (s.tableBytes .trainingPatterns)[n.val]? = some ((if x.enabled then 1 else 0) :: x.bytes)
  crossings : (s.tableBytes .crossingList).length = s.crossings.length ∧ ∀ (n : Nat) (x : Crossing), s.crossings[n]? = some x →
    ∃ g, HasFlags g [x.multi, x.late, x.jump] ∧ (s.tableBytes .crossingList)[n]? = some
      ([BitVec.ofNat 8 x.slot.val, BitVec.ofNat 8 x.lap] ++ beBytes 4 x.time.toNat ++ beBytes 3 x.rankS
        ++ (match x.status with | .provisional => [0, 0] | .fixed m => [1, BitVec.ofNat 8 m]) ++ [g])
  classified : (s.tableBytes .classification).length = s.classification.length ∧ ∀ (n : Nat) (e : ClassEntry),
    s.classification[n]? = some e →
    ∃ g, HasFlags g [e.unplaced, e.jump] ∧ (s.tableBytes .classification)[n]? = some
      ([BitVec.ofNat 8 e.position, BitVec.ofNat 8 e.slot.val, BitVec.ofNat 8 e.number, e.group.code, e.state.code,
        BitVec.ofNat 8 e.lap, BitVec.ofNat 8 (e.finishPlacing.getD 0)] ++ timeOrZeros e.finishTime ++ [g])
  contacts : s.tableBytes .contactPairSet = s.contacts.map fun c => [BitVec.ofNat 8 c.1.val, BitVec.ofNat 8 c.2.val]

/-- The fields of the entries of the nine tables, as SCAN compares them: 32-bit numbers, the signed ones sign-extended, and
`none` where the field is absent (R198, R200). -/
structure FieldsLaidOut (s : State) : Prop where
  cars : let num (n : Nat) : Field := some (BitVec.ofNat 32 n)
    let flag (b : Bool) : Field := if b then some 1 else some 0
    let sample (x : Option Sample) : List Field := match x with
      | none => [none, none, none, none, none, none, none, none]
      | some y => [some y.time, num y.s, num y.lap, some (BitVec.ofInt 32 y.d), num y.v, some (BitVec.ofInt 32 y.w),
          some (BitVec.ofInt 32 y.a), num ((if y.offTrack then 1 else 0) + if y.spun then 2 else 0)]
    s.tableFields .carTable = ([0, 1, 2, 3, 4, 5, 6, 7, 8, 9, 10, 11] : List Slot).map fun i => let c := s.car i
      [flag c.enabled, num c.owner.val, num c.seat.val, num c.number, num c.state.code.toNat, flag c.jump, flag c.unplaced,
        c.finishPlacing.map (BitVec.ofNat 32), c.gridS.map (BitVec.ofNat 32)] ++ sample c.last ++ sample c.prev
  params : let r := s.params
    s.tableFields .raceParameters = [r.lapLength, r.laps, r.lightCount, r.lightStep, r.jumpSpeed, r.jumpDist, r.hF, r.hB,
      r.dMax, r.coastAfter, r.loseAfter, r.settle, r.proxLong, r.proxLat, r.hyst, r.holdLead, r.holdTimeout, r.grace].map
        fun v => [some (BitVec.ofNat 32 v)]
  ports : let num (n : Nat) : Field := some (BitVec.ofNat 32 n)
    s.tableFields .portTable = ([0, 1, 2, 3, 4, 5, 6, 7] : List PortNo).map fun p => let e := (s.port p).entry
      [num (if e.enabled then 1 else 0), num (if e.linkRate = .r10 then 10 else 20), num e.linkTimeout, num e.pNom,
        num e.tolPpm, num e.winFrames, num e.slewMax, num e.phaseTol, num e.pacing.code.toNat, num e.pacePeriod,
        num e.leadFrames, num e.viewMode.code.toNat, num (if e.includeOwn then 1 else 0)]
  viewOrders : (s.tableFields .viewOrderLists).length = 8 ∧ ∀ p : PortNo, let l := (s.port p).viewOrder
    l.length ≤ 12 → (s.tableFields .viewOrderLists)[p.val]? = some
      (some (BitVec.ofNat 32 l.length) :: (l.map fun i => some (BitVec.ofNat 32 i.val))
        ++ List.replicate (12 - l.length) none)
  routes : let num (n : Nat) : Field := some (BitVec.ofNat 32 n)
    s.tableFields .eventRouteTable = s.routes.toList.map fun r =>
      [num (if r.valid then 1 else 0), num r.kind.code.toNat, num ((r.filter.map Fin.val).getD 255), num r.action.code.toNat,
        num r.code.toNat, num r.target.code.toNat, num r.mask.toNat, num r.lead]
  patterns : s.tableFields .trainingPatterns = s.patterns.toList.map fun x =>
    some (if x.enabled then 1 else 0) :: x.bytes.map fun b => some (BitVec.ofNat 32 b.toNat)
  crossings : let num (n : Nat) : Field := some (BitVec.ofNat 32 n)
    let flag (b : Bool) : Field := if b then some 1 else some 0
    s.tableFields .crossingList = s.crossings.map fun x =>
      [num x.slot.val, num x.lap, some x.time, num x.rankS]
        ++ (match x.status with | .provisional => [num 0, none] | .fixed m => [num 1, num m])
        ++ [flag x.multi, flag x.late, flag x.jump]
  classified : let num (n : Nat) : Field := some (BitVec.ofNat 32 n)
    let flag (b : Bool) : Field := if b then some 1 else some 0
    s.tableFields .classification = s.classification.map fun e =>
      [num e.position, num e.slot.val, num e.number, num e.group.code.toNat, num e.state.code.toNat, num e.lap,
        e.finishPlacing.map (BitVec.ofNat 32), e.finishTime, flag e.unplaced, flag e.jump]
  contacts : s.tableFields .contactPairSet
    = s.contacts.map fun c => [some (BitVec.ofNat 32 c.1.val), some (BitVec.ofNat 32 c.2.val)]

/-! ### The close -/

/-- The close steps have taken `s` to `t` (R34, R106, R128): the race's record, each car's state (aged where the race was in
HOLD, FINISHED where its finish crossing is fixed), and RACE_CLOSED raised last. -/
structure CloseTaken (s t : State) : Prop where
  race : t.race = { s.race with
    state := .closed, grace := none,
    tH := if s.race.state = .hold then none else s.race.tH,
    remembered := if s.race.state = .hold then none else s.race.remembered }
  cars : ∀ i, (t.car i).state =
    if (s.car i).enabled = true
        ∧ ∃ x ∈ s.crossings, x.isProvisional = true ∧ x.slot = i ∧ x.lap = s.params.laps + 1 then .finished
    else if s.race.state = .hold then s.agedState i else (s.car i).state
  raised : ∃ v, t = raise { kind := .raceClosed, time := s.clock, slots := [], fault := none } v ∧ v.race = t.race
    ∧ (s.race.state ≠ .hold → (∀ x ∈ s.crossings, x.isProvisional = false) → v.ports = s.ports)

end Sys2Proof.Machine
end

