-- ==== Sys2Proof/WellFormed.lean ====
section
/-! DEFINITION. The commands that can reach the hub: each operand lies in the range its frame or timer gives it. -/

namespace Sys2Proof

/-- A payload fits its one-byte length field (R191). -/
def payloadFits (payload : List Byte) : Bool := decide (payload.length ≤ 124)

/-- A kind code of a frame that a cabinet sends: 0x01 to 0x06 (R191). -/
def isCabinetKind (kind : Byte) : Bool := decide (1 ≤ kind.toNat ∧ kind.toNat ≤ 6)

/-- A well-formed command. A damaged run holds at least one symbol (R150); a frame of unknown kind has a kind code that
names no cabinet-to-hub kind (R153); a payload has at most 124 bytes (R191); a lap is 1 to 100 (R88). -/
def Instr.wellFormed : Instr → Bool
  | .resetNLow => true
  | .resetNRelease => true
  | .hubResetTakesEffect => true
  | .damagedFrame _ _ run => !run.isEmpty
  | .unknownKindFrame _ _ kind payload => !isCabinetKind kind && payloadFits payload
  | .trainEcho _ _ payload => payloadFits payload
  | .probeReply _ _ payload => payloadFits payload
  | .car _ _ _ payload => payloadFits payload
  | .holdAck _ _ payload => payloadFits payload
  | .quietAsk _ _ payload => payloadFits payload
  | .mgmt _ _ _ payload => payloadFits payload
  | .transmitEnd _ => true
  | .linkRateChangeOnLine _ => true
  | .trainInvitation _ => true
  | .trainingPauseEnd _ => true
  | .echoWaitExpiry _ => true
  | .probeDue _ => true
  | .sweepReplyWaitExpiry _ => true
  | .coastTimerExpiry _ => true
  | .loseTimerExpiry _ => true
  | .settleDeadlineExpiry k => decide (1 ≤ k ∧ k ≤ 100)
  | .paceTimerExpiry _ => true
  | .linkLoss _ => true
  | .tGreenExpiry => true
  | .tHExpiry => true
  | .holdTimeout => true
  | .tRExpiry => true
  | .graceDeadlineExpiry => true
  | .unknownCommand => true
  | .readStatus => true
  | .readPort => true
  | .clearCounters => true
  | .readEntries => true
  | .writeCarAssignment => true
  | .writeRaceParameters => true
  | .writePortTable => true
  | .writeViewOrderLists => true
  | .writeEventRouteTable => true
  | .writeTrainingPatterns => true
  | .writeNoAccessTable => true
  | .scan => true
  | .portReset => true
  | .portQuiet => true
  | .portWake => true
  | .sendView => true
  | .openGrid => true
  | .start => true
  | .abortStart => true
  | .hold => true
  | .resume => true
  | .close => true
  | .resetRace => true
  | .retireCar => true
  | .moveDirector => true
  | .resetHub => true

end Sys2Proof
end

