-- ==== Sys2Proof/Certificates/Slice0/Obligations.lean ====
section
/-! DEFINITION. The statements for the provers. Each names the rules of spec/ it rests on. -/

open Sys2Proof Sys2Proof.Machine

/-! ### Arithmetic -/

/-- Rounding to the nearest integer with halves away from zero, clamping, and the gap on a closed lap (R1); race times and
frame numbers are compared through their difference read as a signed number, half the range reading as negative (R3). -/
def Obligations.RoundingAndComparison : Prop :=
  (∀ (n : Int) (d : Nat), 0 < d →
    2 * (n - d * roundDiv n d).natAbs ≤ d
    ∧ (2 * (n - d * roundDiv n d).natAbs = d → n.natAbs < d * (roundDiv n d).natAbs))
  ∧ (∀ lo hi x : Int, lo ≤ hi →
    (x < lo → clamp lo hi x = lo) ∧ (hi < x → clamp lo hi x = hi) ∧ (lo ≤ x → x ≤ hi → clamp lo hi x = x))
  ∧ (∀ (s1 s2 : Int) (L : Nat), 0 < L →
    ((L : Int) ∣ s1 - s2 - gap s1 s2 L) ∧ -(L : Int) < 2 * gap s1 s2 L ∧ 2 * gap s1 s2 L ≤ L)
  ∧ (∀ a b : RaceTime,
    timeDiff b a = (if (b - a).toNat < 2 ^ 31 then ((b - a).toNat : Int) else (b - a).toNat - 2 ^ 32)
    ∧ ((b - a).toNat = 0 ↔ a = b)
    ∧ (earlier a b = true ↔ 1 ≤ (b - a).toNat ∧ (b - a).toNat ≤ 2 ^ 31 - 1)
    ∧ (later a b = true ↔ 2 ^ 31 ≤ (b - a).toNat)
    ∧ (atOrAfter a b = true ↔ a = b ∨ later a b = true))
  ∧ (∀ g f : FrameNum,
    frameDiff g f = (if (f - g).toNat < 2 ^ 15 then ((f - g).toNat : Int) else (f - g).toNat - 2 ^ 16)
    ∧ (g + BitVec.ofInt 16 (frameDiff g f) = f))

/-! ### The step, the resets and the whole machine -/

/-- A step runs the command at the front of the queue on the state with the queue's rest. -/
def Obligations.StepTakesFront : Prop :=
  ∀ (s : State) (c : Instr) (cs : List Instr),
    step { s with pending := c :: cs } = exec c { s with pending := cs }

/-- On an empty queue the hub raises one of the rows that are due, or, when none is, lets one microsecond pass; while RESET_N
is low nothing happens. The model's choice (notes/assumptions/1.md, 2.md, 4.md). The rows that are due are those whose
condition holds, as `RowDue` writes it out for each: the end of the frame on the wire and a rate change of the line (R150),
invitations, pauses and echo waits (R156 to R158), probes and reply waits (R10, R12), car timers (R31, R32), settle deadlines
(R103), pace timers (R70), link loss (R161), the race's timers (R115, R119, R124, R127), a pending hub reset and the command at
the head of the Command Queue (R177, R187); no frame and no change of RESET_N. When a frame ends is the model's choice
(notes/assumptions/8.md), and so is that T_H_EXPIRY is due only with every entry acked (notes/assumptions/1.md) and which row
takes a WRITE_ENTRIES that names no table (notes/assumptions/6.md); that a running link loss deadline follows link_timeout is
its reading (DEDUCED, notes/assumptions/10.md). -/
def Obligations.StepIdles : Prop :=
  ∀ s : State, s.pending = [] →
    (s.resetLow = true → step s = .next s)
    ∧ (s.resetLow = false → dueRows s = [] → step s = .next { s with clock := s.clock + 1 })
    ∧ (s.resetLow = false → dueRows s ≠ [] →
        ∃ c ∈ dueRows s, ∃ t, step s = .next t ∧ t = { s with pending := [c], free := t.free })
    ∧ ∀ c : Instr, c ∈ dueRows s ↔ RowDue s c

/-- What a hub reset leaves (R187, R2, R7, R28, R67, R110, R112, R155, R163, R167, R171, R189). -/
def Obligations.ResetValues : Prop :=
  State.reset.clock = 0 ∧ State.reset.race.state = .idle ∧ State.reset.crossings = [] ∧ State.reset.contacts = []
    ∧ State.reset.mgmt.director = some 0 ∧ State.reset.roleHolder = none ∧ State.reset.mgmt.queue = []
    ∧ (∀ p, (State.reset.port p).phase = .down ∧ (State.reset.port p).entry.enabled = true
        ∧ (State.reset.port p).entry.linkRate = .r10 ∧ (State.reset.port p).entry.linkTimeout = 50000
        ∧ (State.reset.port p).timing.valid = false ∧ State.reset.gateOpen p = true
        ∧ (State.reset.port p).counters = zeroCounters)
    ∧ (∀ i, (State.reset.car i).state = .free ∧ (State.reset.car i).enabled = false
        ∧ (State.reset.car i).number = i.val + 1 ∧ (State.reset.car i).last = none)
    ∧ State.reset.params.lapLength = 400000 ∧ State.reset.params.laps = 3 ∧ State.reset.params.grace = 30000000
    ∧ (State.reset.patterns.toList.map fun x => x.enabled) = [true, true, true, false]
    ∧ (State.reset.routes.toList.map fun r => r.valid) = List.replicate 8 true ++ List.replicate 16 false

/-- The state after reset is sound. -/
def Obligations.ResetIsSound : Prop := State.reset.sound

/-- Every step keeps the hub sound: no list beyond its capacity (R66, R87, R146, R169, R171), the Contact Pair Set as R133
says, no two enabled slots with one owner port and seat (R29), the record of a port in RATE or ACTIVE valid (R72), and in
ACTIVE its period within the band (R20). -/
def Obligations.StepKeepsSound : Prop := ∀ s t : State, s.sound → step s = .next t → t.sound

/-- No command changes the queue of commands, and none but a reset touches the race clock or the reset input (R2). Every
configuration table has one command that writes it, besides the resets that return it to its defaults (R179, R182); a port's
link rate is also stored by a QUIET_ASK frame of that port (R165). -/
def Obligations.ClockAndTablesHaveOneWriter : Prop :=
  ∀ (c : Instr) (s t : State), exec c s = .next t →
    t.pending = s.pending
    ∧ (c ≠ .resetNLow → c ≠ .resetNRelease → c ≠ .hubResetTakesEffect → t.clock = s.clock ∧ t.resetLow = s.resetLow)
    ∧ (c ≠ .resetNLow → c ≠ .hubResetTakesEffect →
    (c ≠ .writeRaceParameters → t.params = s.params)
    ∧ (c ≠ .writeEventRouteTable → t.routes = s.routes)
    ∧ (c ≠ .writeTrainingPatterns → t.patterns = s.patterns)
    ∧ (c ≠ .writeViewOrderLists → ∀ p, (t.port p).viewOrder = (s.port p).viewOrder)
    ∧ (c ≠ .writePortTable → ∀ p,
        { (t.port p).entry with linkRate := (s.port p).entry.linkRate } = (s.port p).entry
        ∧ ((∀ stamp payload, c ≠ .quietAsk p stamp payload) →
          (∀ stamp run port flags payload, c = .damagedFrame p stamp run → judgeRun run ≠ .valid 0x05 port flags payload) →
          (∀ stamp payload, c ≠ .unknownKindFrame p stamp 0x05 payload) → (t.port p).entry = (s.port p).entry))
    ∧ (c ≠ .writeCarAssignment → ∀ i, (t.car i).enabled = (s.car i).enabled ∧ (t.car i).owner = (s.car i).owner
        ∧ (t.car i).seat = (s.car i).seat ∧ (t.car i).number = (s.car i).number))

/-- RESET_N low, RESET_N released, RESET_HUB and its taking effect (R2, R187). The model's choices: a release of an input that
is not low, and a reset that is not pending or not yet due, have no effect (notes/assumptions/6.md); the cue fields of the
default NOTIFY routes and the masks of the default routes are 0 (notes/assumptions/5.md); the first invitations are queued at
the reset itself, RESET_N low or not (notes/assumptions/2.md); the quiet gate of a port that was QUIET is open
(notes/assumptions/31.md). -/
def Obligations.HubResetClearsAll : Prop :=
  ∀ s : State,
    (∃ t, exec .resetNLow s = .next t ∧ AfterHubReset s t ∧ t.resetLow = true)
    ∧ (s.resetLow = true → exec .resetNRelease s = .next { s with resetLow := false, clock := 0 })
    ∧ (s.resetLow = false → exec .resetNRelease s = .next s)
    ∧ (∀ c, s.asks c [0x42] → exec .resetHub s = .next (answer c .ok []
        { s.dropHead with mgmt := { s.dropHead.mgmt with resetPending := some (addTime s.clock 10000) } }))
    ∧ (s.mgmt.resetPending = none → exec .hubResetTakesEffect s = .next s)
    ∧ (∀ d, s.mgmt.resetPending = some d →
        (atOrAfter s.clock d = false ∧ s.resetReplyWaits = true → exec .hubResetTakesEffect s = .next s)
        ∧ (atOrAfter s.clock d = true ∨ s.resetReplyWaits = false →
            ∃ t, exec .hubResetTakesEffect s = .next t ∧ AfterHubReset s t ∧ t.resetLow = s.resetLow))

/-! ### Encoding -/

/-- The receiver takes a run for a valid frame exactly when it is a header whose length byte counts at most 124 payload
bytes, those bytes, and the CRC of both; it finds a CRC error exactly when only the CRC is wrong (R151, R191). The CRC of some
bytes, fed most significant bit first into a register of all ones, is the remainder of their polynomial and the register's by
x^16 + x^14 + x^12 + x^11 + x^8 + x^5 + x^4 + x^2 + 1, its more significant byte first (R152). -/
def Obligations.RunJudged : Prop :=
  (∀ (run : List LineSymbol),
    (∀ kind port flags payload, judgeRun run = .valid kind port flags payload ↔
      payload.length ≤ 124 ∧
        run = ([kind, BitVec.ofNat 8 payload.length, port, flags] ++ payload
          ++ crcBytes ([kind, BitVec.ofNat 8 payload.length, port, flags] ++ payload)).map LineSymbol.byte)
    ∧ (judgeRun run = .crcError ↔
        ∃ kind port flags payload crc, payload.length ≤ 124 ∧ crc.length = 2
          ∧ crc ≠ crcBytes ([kind, BitVec.ofNat 8 payload.length, port, flags] ++ payload)
          ∧ run = ([kind, BitVec.ofNat 8 payload.length, port, flags] ++ payload ++ crc).map LineSymbol.byte))
  ∧ (∀ bs : List Byte, crcBytes bs = [(crc16 bs).extractLsb' 8 8, (crc16 bs).extractLsb' 0 8])
  ∧ ∀ bs : List Byte,
    let poly (bits : List Bool) : Polynomial (ZMod 2) :=
      bits.foldl (fun f b => f * Polynomial.X + if b then 1 else 0) 0
    let bits (b : Byte) : List Bool := [7, 6, 5, 4, 3, 2, 1, 0].map fun i => b.getLsbD i
    let x : Polynomial (ZMod 2) := Polynomial.X
    x ^ 16 + x ^ 14 + x ^ 12 + x ^ 11 + x ^ 8 + x ^ 5 + x ^ 4 + x ^ 2 + 1 ∣
      poly (List.replicate 16 true) * x ^ (8 * bs.length) + poly (bs.flatMap bits) * x ^ 16
        - poly ((crcBytes bs).flatMap bits)

/-- Every frame the hub sends with a payload of at most 124 bytes reads, by the receiver's own checks, as a valid frame with
its kind, port byte, DIRECTOR bit and payload (R151, R152, R191, R195). A field of n bytes holds its value with the more
significant byte first, a signed one in two's complement, and each enumerated value has its code (R191, R195, R198). The kind
code and the payload of each kind of hub frame are written out, with the flags bit by bit (R195), and so is the seat sample
that 14 bytes of a CAR frame hold (R192). -/
def Obligations.HubFramesReadBack : Prop :=
  (∀ f : HubFrame, f.body.payload.length ≤ 124 →
    judgeRun (f.bytes.map LineSymbol.byte)
      = .valid f.body.kindCode f.portByte (if f.director then 1 else 0) f.body.payload)
  ∧ (∀ n v : Nat, (beBytes n v).length = n ∧ ∀ i < n, (beBytes n v)[i]? = some (BitVec.ofNat 8 (v / 256 ^ (n - 1 - i))))
  ∧ (∀ (n : Nat) (v : Int), beSigned n v = beBytes n (v % 2 ^ (8 * n)).toNat)
  ∧ HasCodes [PortPhase.off, .down, .train, .phase, .rate, .active, .quiet, .fault] PortPhase.code
  ∧ HasCodes [RaceState.idle, .grid, .countdown, .running, .holdPending, .hold, .resumePending, .finishing, .closed]
      RaceState.code
  ∧ HasCodes [CarState.free, .assigned, .live, .coasting, .parked, .lost, .finished, .retired] CarState.code
  ∧ HasCodes [EventKind.light, .green, .jumpStart, .lapFixed, .leadChange, .lastLap, .finishFixed, .contactBegin,
      .contactEnd, .carCoasting, .carLost, .carFound, .holdBegin, .resumeBegin, .raceClosed, .portFault] EventKind.code
  ∧ HasCodes [FaultReason.train, .phase, .rate] FaultReason.code
  ∧ HasCodes [Status.ok, .privilege, .state, .range, .index, .busy, .unknown, .tooSoon] Status.code
  ∧ HasCodes [MoveCause.takeUp, .handOver, .move] MoveCause.code
  ∧ HasCodes [Pacing.cabinet, .clock, .command] Pacing.code
  ∧ HasCodes [ViewMode.fixedList, .raceOrder, .nearestFirst] ViewMode.code
  ∧ HasCodes [RouteAction.cue, .notify, .autoHold] RouteAction.code
  ∧ HasCodes [TargetSet.all, .involved, .mask] TargetSet.code
  ∧ HasCodes [ClassGroup.finished, .running, .out] ClassGroup.code
  ∧ (let sends (b : FrameBody) (kind : Byte) (payload : List Byte) : Prop := b.kindCode = kind ∧ b.payload = payload
    let byte (n : Nat) : Byte := BitVec.ofNat 8 n
    let slot (i : Option Slot) : Byte := (i.map fun j => byte j.val).getD 0xFF
    (∀ (n : Fin 4) bytes, sends (.train n bytes) 0x81 (byte n.val :: bytes))
    ∧ (∀ n, sends (.probe n) 0x82 [byte n])
    ∧ (∀ target n size es, sends (.view target n size es) 0x83
        (beBytes 2 target.toNat ++ [byte n, byte size, byte es.length] ++ (es.map viewEntryBytes).flatten))
    ∧ (∀ e : ViewEntry, ∃ g,
        HasFlags g [e.offTrack, e.spun, e.coasting, e.parked, e.finished, e.held, e.stopped, e.jump]
        ∧ viewEntryBytes e = [byte e.slot.val, byte e.number] ++ beBytes 3 e.s ++ [byte e.lap] ++ beSigned 2 e.d
          ++ beBytes 2 e.v ++ [g])
    ∧ (∀ code target slots late, sends (.cue code target slots late) 0x84
        ([code] ++ beBytes 2 target.toNat ++ [slot slots[0]?, slot slots[1]?, if late then 1 else 0]))
    ∧ (∀ lap place i t multi late jump, ∃ g, HasFlags g [multi, late, jump]
        ∧ sends (.placing lap place i t multi late jump) 0x85
          ([byte lap, byte place, byte i.val] ++ beBytes 4 t.toNat ++ [g]))
    ∧ (∀ f, sends (.holdCall f) 0x86 (beBytes 2 f.toNat) ∧ sends (.resumeCall f) 0x87 (beBytes 2 f.toNat))
    ∧ (∀ code st data, sends (.reply code st data) 0x88 ([code, st.code] ++ data))
    ∧ (∀ k t is, sends (.notice (.event { kind := k, time := t, slots := is, fault := none })) 0x89
        ([0, k.code] ++ beBytes 4 t.toNat ++ [slot is[0]?, slot is[1]?]))
    ∧ (∀ k t is (p : PortNo) r, sends (.notice (.event { kind := k, time := t, slots := is, fault := some (p, r) })) 0x89
        ([0, k.code] ++ beBytes 4 t.toNat ++ [byte p.val, r.code]))
    ∧ (∀ t unacked, ∃ g : Byte, (∀ p : PortNo, g.getLsbD p.val = true ↔ p ∈ unacked)
        ∧ sends (.notice (.holdIncomplete t unacked)) 0x89 ([1] ++ beBytes 4 t.toNat ++ [g]))
    ∧ (∀ (former : Option PortNo) cause, sends (.notice (.directorMoved former cause)) 0x89
        [2, (former.map fun p => byte p.val).getD 0xFF, cause.code])
    ∧ ∀ st, sends (.notice (.quietRefused st)) 0x89 [3, st.code])
  ∧ ∀ b0 b1 b2 b3 b4 b5 b6 b7 b8 b9 b10 b11 b12 b13 : Byte,
    rawSample [b0, b1, b2, b3, b4, b5, b6, b7, b8, b9, b10, b11, b12, b13]
      = { seat := b0.toNat, s := (b1 ++ b2 ++ b3).toNat, lap := b4.toNat, d := (b5 ++ b6).toInt, v := (b7 ++ b8).toNat,
          w := (b9 ++ b10).toInt, a := (b11 ++ b12).toInt, offTrack := b13.getLsbD 0, spun := b13.getLsbD 1 }

/-- An entry read from a table may be written back as it is: what a write makes of the bytes a read returns is the entry
itself, with every field at every value in its range (R198, R199). -/
def Obligations.EntriesReadBack : Prop :=
  (∀ e : PortEntry, 10000 ≤ e.linkTimeout → e.linkTimeout ≤ 1000000 → 1280000 ≤ e.pNom → e.pNom ≤ 10240000 →
      e.tolPpm ≤ 20000 → (e.winFrames = 16 ∨ e.winFrames = 32 ∨ e.winFrames = 64 ∨ e.winFrames = 128) →
      e.slewMax ≤ 2000 → 100 ≤ e.phaseTol → e.phaseTol ≤ 10000 → 5000 ≤ e.pacePeriod → e.pacePeriod ≤ 100000 →
      e.leadFrames ≤ 8 → (portEntryBytes e).length = 25 ∧ portEntryOf (portEntryBytes e) = some e)
  ∧ (∀ r : Route, r.code.toNat ≤ 253 → r.lead ≤ 1000000 →
      (routeBytes r).length = 11 ∧ routeOf (routeBytes r) = some r)
  ∧ (∀ l : List Slot, l.Nodup → (viewOrderBytes l).length = 13 ∧ viewOrderOf (viewOrderBytes l) = some l)
  ∧ (∀ c : CarRecord, 1 ≤ c.number → c.number ≤ 99 → (carBytes c).length = 44 ∧
      assignmentOf ((carBytes c).take 7)
        = some { enabled := c.enabled, owner := c.owner, seat := c.seat, number := c.number })
  ∧ (∀ v : Nat, v < 2 ^ 32 → (beBytes 4 v).length = 4 ∧ numAt (beBytes 4 v) 0 4 = v)
  ∧ (∀ (n : Fin 4) (x : Pattern) (s : State), x.bytes.length = 16 → (patternBytes x).length = 17
      ∧ writePattern n (patternBytes x) s = ({ s with patterns := s.patterns.set n x }, .ok))

/-! ### Received frames -/

/-- DAMAGED_FRAME (R150, R151): nothing between two delimiters is no frame; a run that fails the framing check or the CRC
check counts once at its port and does nothing else. The model's choices: a run of spoiled symbols alone is a frame
(notes/assumptions/26.md), and a run that passes both checks is the valid frame it holds (notes/assumptions/6.md). -/
def Obligations.DamagedFrames : Prop :=
  ∀ (p : PortNo) (stamp : RaceTime) (run : List LineSymbol) (s : State),
    (run = [] → exec (.damagedFrame p stamp run) s = .next s)
    ∧ (run ≠ [] → judgeRun run = .framing → exec (.damagedFrame p stamp run) s = .next (s.modPort p fun q =>
        { q with counters := { q.counters with framing := bump q.counters.framing } }))
    ∧ (judgeRun run = .crcError → exec (.damagedFrame p stamp run) s = .next (s.modPort p fun q =>
        { q with counters := { q.counters with crcError := bump q.counters.crcError } }))
    ∧ (∀ kind port flags payload, judgeRun run = .valid kind port flags payload →
        exec (.damagedFrame p stamp run) s = exec (frameRow p stamp kind port flags payload) s)

/-- A valid frame that its port state does not take, by its kind, its length or a CAR frame's count byte, only counts:
FRAMES_RX and OUT_OF_STATE rise, the link loss timer restarts where it runs, and a CAR frame opens the quiet gate of a port
that owns no slot. A QUIET_ASK in QUIET and a PROBE_REPLY in RATE or ACTIVE count no OUT_OF_STATE (R151, R153, R161, R164,
R193). -/
def Obligations.FramesNotTaken : Prop :=
  ∀ (p : PortNo) (stamp : RaceTime) (kind port flags : Byte) (payload : List Byte) (s : State),
    (takesFrame kind flags payload (s.port p).phase = false →
      exec (frameRow p stamp kind port flags payload) s = .next (s.modPort p fun q =>
        { q with linkBase := q.linkBase.map fun _ => stamp, gateCar := q.gateCar || decide (kind = 0x03),
                 counters := { q.counters with
                   framesRx := bump q.counters.framesRx, outOfState := bump q.counters.outOfState } }))
    ∧ ((s.port p).phase = .quiet →
        exec (.quietAsk p stamp payload) s = .next (s.modPort p fun q =>
          { q with linkBase := q.linkBase.map fun _ => stamp,
                   counters := { q.counters with framesRx := bump q.counters.framesRx } }))
    ∧ ((s.port p).phase = .rate ∨ (s.port p).phase = .active → payload.length = 3 →
        exec (.probeReply p stamp payload) s = .next (s.modPort p fun q =>
          { q with linkBase := q.linkBase.map fun _ => stamp,
                   counters := { q.counters with framesRx := bump q.counters.framesRx } }))

/-- A TRAIN_ECHO in DOWN or QUIET, whatever it carries, and a PORT_WAKE of a port in QUIET enter TRAIN (R156, R157, R166,
R176). -/
def Obligations.PortsWake : Prop :=
  ∀ (p : PortNo) (s : State),
    (∀ stamp payload, ((s.port p).phase = .down ∨ (s.port p).phase = .quiet) → payload.length = 19 →
      ∃ t, exec (.trainEcho p stamp payload) s = .next t ∧ Woken p s t
        ∧ (t.port p).counters = { (s.port p).counters with framesRx := bump (s.port p).counters.framesRx })
    ∧ (∀ c, s.asks c [0x22, portByte p] →
        ((s.port p).phase = .quiet →
          ∃ u, exec .portWake s = .next (answer c .ok [] u) ∧ Woken p s.dropHead u
            ∧ (u.port p).counters = (s.port p).counters)
        ∧ ((s.port p).phase ≠ .quiet → exec .portWake s = .next (answer c .state [] s.dropHead)))

/-- A good echo in a training round: its echo value is the round trip less the turnaround, clamped to 0 to 131,071; the
round goes on with the frames left, or with the last one δ is the floor of half the mean and the port enters PHASE, opening
sweep 1 with its first PROBE queued, which an idle line takes at once (R8, R9, R10, R158, R159). -/
def Obligations.GoodEchoAdvancesRound : Prop :=
  ∀ (p : PortNo) (stamp sent : RaceTime) (payload : List Byte) (f : TrainFrame) (rest : List TrainFrame) (s : State),
    (s.port p).phase = .train → (s.port p).training = .round (f :: rest) (some sent) → payload.length = 19 →
    beNat (field payload 0 1) = f.index.val → field payload 1 16 = f.bytes →
    ∃ t, exec (.trainEcho p stamp payload) s = .next t ∧
      let value := (clamp 0 131071 (timeDiff stamp sent - beNat (field payload 17 2))).toNat
      let values := (s.timing p).echoValues ++ [value]
      (rest ≠ [] → (t.port p).phase = .train ∧ (t.timing p).echoValues = values
        ∧ ((s.port p).class1 = [] →
            (t.port p).training = .round rest (if (s.port p).wire.isSome then none else some s.clock))
        ∧ ∀ g more, rest = g :: more → TrainFrameQueued p g s t)
      ∧ (rest = [] → (t.port p).phase = .phase ∧ (t.timing p).echoValues = []
        ∧ (t.timing p).delta = values.sum / (2 * values.length)
        ∧ (t.port p).training = .none ∧ FirstProbeQueued p 0 s t
        ∧ ∃ w, (t.timing p).sweep = some w ∧ w.number = 1 ∧ w.queued = 1 ∧ w.answers = Vector.replicate 64 none)

/-- An echo with other bytes or another index, and an echo wait of 5,000 µs that passes, fail the round: the echo values go,
the failed rounds rise by one, and a pause of 5,000 µs begins, or at the eighth failure the port enters FAULT with reason
TRAIN, its PARKED cars returning before PORT_FAULT is raised, an order of the model's choice (R37, R157, R158, R160,
notes/assumptions/7.md). An echo taken while no frame awaits its echo is discarded: it counts as a valid frame and does
nothing else (R158). Before its time the expiry has no effect, the model's choice (notes/assumptions/6.md). -/
def Obligations.RoundFails : Prop :=
  (∀ (p : PortNo) (stamp : RaceTime) (payload : List Byte) (s : State),
    (s.port p).phase = .train → payload.length = 19 →
    (∀ f rest sent, (s.port p).training ≠ .round (f :: rest) (some sent)) →
    exec (.trainEcho p stamp payload) s = .next (s.modPort p fun q =>
      { q with linkBase := q.linkBase.map fun _ => stamp,
               counters := { q.counters with framesRx := bump q.counters.framesRx } }))
  ∧ ∀ (p : PortNo) (sent : RaceTime) (f : TrainFrame) (rest : List TrainFrame) (s : State),
    (s.port p).phase = .train → (s.port p).training = .round (f :: rest) (some sent) →
    (atOrAfter s.clock (addTime sent 5000) = false → exec (.echoWaitExpiry p) s = .next s)
    ∧ ∀ c : Instr,
      ((∃ stamp payload, c = .trainEcho p stamp payload ∧ payload.length = 19
          ∧ ¬(beNat (field payload 0 1) = f.index.val ∧ field payload 1 16 = f.bytes))
        ∨ (c = .echoWaitExpiry p ∧ atOrAfter s.clock (addTime sent 5000) = true)) →
      ∃ t, exec c s = .next t ∧ (t.port p).failedRounds = (s.port p).failedRounds + 1
        ∧ (t.timing p).echoValues = []
        ∧ ((s.port p).failedRounds + 1 < 8 →
            (t.port p).phase = .train ∧ (t.port p).training = .pause (addTime s.clock 5000))
        ∧ (8 ≤ (s.port p).failedRounds + 1 → Faulted p .train s t)

/-- A PROBE_REPLY in PHASE is filed under its index when it belongs to the open sweep, its probe has been sent and it is the
first for that index; any other is discarded uncounted (R11). The reply that completes the 64 answers decides the sweep at
once: the port is in RATE with the record levelled at the change, or the next sweep opens with its first PROBE queued, or after
sweep 3 the port enters FAULT with reason PHASE and PORT_FAULT (R10, R12, R13, R160), its PARKED cars returning before, an
order of the model's choice (R37, notes/assumptions/7.md). -/
def Obligations.ProbeReplies : Prop :=
  ∀ (p : PortNo) (stamp : RaceTime) (payload : List Byte) (s : State),
    (s.port p).phase = .phase → payload.length = 3 →
    ((s.timing p).sweep = none → exec (.probeReply p stamp payload) s = .next (countValid p stamp s))
    ∧ ∀ w, (s.timing p).sweep = some w → 1 ≤ w.number →
      let index := beNat (field payload 0 1)
      let k := index - 64 * (w.number - 1)
      let n : FrameNum := BitVec.ofNat 16 (beNat (field payload 1 2))
      let filed : Sweep := { w with answers := w.answers.setIfInBounds k (some n) }
      let mine := 64 * (w.number - 1) ≤ index ∧ k < 64 ∧ k < w.sent.length ∧ w.answers.toList[k]? = some none
      (¬mine → exec (.probeReply p stamp payload) s = .next (countValid p stamp s))
      ∧ (mine → (∃ j < 64, j ≠ k ∧ w.answers.toList[j]? = some none) →
          exec (.probeReply p stamp payload) s = .next ((countValid p stamp s).modPort p fun q =>
            { q with timing := { q.timing with sweep := some filed } }))
      ∧ (mine → (∀ j < 64, j ≠ k → w.answers.toList[j]? ≠ some none) →
          (∀ c m τ, sweepChange filed = some c → filed.answers.toList[c]? = some (some m) → w.sent[c - 1]? = some τ →
            exec (.probeReply p stamp payload) s = .next ((countValid p stamp s).modPort p fun q =>
              { q with
                phase := .rate
                timing := { q.timing with
                  valid := true, anchorFrame := m,
                  anchorTime := addTime τ (q.timing.delta + (roundDiv q.timing.pNom 16384).toNat / 2 : Nat),
                  period := q.timing.pNom, lag := none, residual := none, window := none, sweep := none } }))
          ∧ (sweepChange filed ≠ none → ∃ t, exec (.probeReply p stamp payload) s = .next t
            ∧ (t.port p).phase = .rate ∧ (t.timing p).valid = true)
          ∧ (sweepChange filed = none → w.number < 3 → ∃ t v, exec (.probeReply p stamp payload) s = .next t
            ∧ (t.port p).phase = .phase ∧ (t.timing p).sweep = some v ∧ v.number = w.number + 1 ∧ v.queued = 1
            ∧ v.answers = Vector.replicate 64 none ∧ FirstProbeQueued p (64 * w.number) s t)
          ∧ (sweepChange filed = none → 3 ≤ w.number → ∃ t, exec (.probeReply p stamp payload) s = .next t
            ∧ Faulted p .phase s t))

/-- A sweep succeeds with the change at probe k exactly when R12 says so; at the end of the reply wait the record is levelled
there and the port is in RATE, or the next sweep opens with its first PROBE queued, or after sweep 3 the port enters FAULT with
reason PHASE and PORT_FAULT (R10, R12, R13, R159, R160), its PARKED cars returning before, an order of the model's choice (R37,
notes/assumptions/7.md). Before its time the expiry has no effect, the model's choice (notes/assumptions/6.md). -/
def Obligations.SweepDecided : Prop :=
  (∀ (w : Sweep) (k : Nat), sweepChange w = some k ↔
    2 ≤ k ∧ k ≤ 63 ∧ ∃ n0 : FrameNum, (∀ j < k, w.answers.toList[j]? = some (some n0))
      ∧ w.answers.toList[k]? = some (some (n0 + 1)))
  ∧ ∀ (p : PortNo) (w : Sweep) (t63 : RaceTime) (s : State),
    (s.port p).phase = .phase → (s.timing p).sweep = some w → w.sent[63]? = some t63 →
    (atOrAfter s.clock (addTime t63 20000) = false → exec (.sweepReplyWaitExpiry p) s = .next s)
    ∧ (atOrAfter s.clock (addTime t63 20000) = true →
      (∀ k n τ, sweepChange w = some k → w.answers.toList[k]? = some (some n) → w.sent[k - 1]? = some τ →
        exec (.sweepReplyWaitExpiry p) s = .next (s.modPort p fun q =>
          { q with
            phase := .rate
            timing := { q.timing with
              valid := true, anchorFrame := n,
              anchorTime := addTime τ (q.timing.delta + (roundDiv q.timing.pNom 16384).toNat / 2 : Nat),
              period := q.timing.pNom, lag := none, residual := none, window := none, sweep := none } }))
      ∧ (sweepChange w = none → w.number < 3 → ∃ t v, exec (.sweepReplyWaitExpiry p) s = .next t
          ∧ (t.port p).phase = .phase ∧ (t.timing p).sweep = some v ∧ v.number = w.number + 1 ∧ v.queued = 1
          ∧ v.answers = Vector.replicate 64 none ∧ FirstProbeQueued p (64 * w.number) s t)
      ∧ (sweepChange w = none → 3 ≤ w.number → ∃ t, exec (.sweepReplyWaitExpiry p) s = .next t
          ∧ Faulted p .phase s t))

/-- The timers of an untrained link: an invitation every 10,000 µs in DOWN, a round at the end of a pause, and the probes of
a sweep at its spacing. An invitation carries the lowest enabled pattern, a round four frames of each enabled pattern in pattern
order, each with its pattern's bytes, and pattern 0 alone stands for all where none is enabled. A frame waits at the tail of
class 1 of a busy line, and an idle line takes it at once: a TRAIN frame of the round then awaits its echo from now, and a
PROBE's send time is noted in its sweep (R10, R156, R157, R163, R168, R169). -/
def Obligations.TrainingTimers : Prop :=
  (∀ ps : Vector Pattern 4,
    let frame (n : Fin 4) : TrainFrame := ⟨n, ps[n].bytes⟩
    let four (n : Fin 4) : List TrainFrame := if ps[n].enabled then [frame n, frame n, frame n, frame n] else []
    (∀ n : Fin 4, ps[n].enabled = true → (∀ m < n, ps[m].enabled = false) → invitationPattern ps = frame n)
    ∧ ((∀ n : Fin 4, ps[n].enabled = false) → invitationPattern ps = frame 0
      ∧ roundFrames ps = [frame 0, frame 0, frame 0, frame 0])
    ∧ ((∃ n : Fin 4, ps[n].enabled = true) → roundFrames ps = four 0 ++ four 1 ++ four 2 ++ four 3))
  ∧ ∀ (p : PortNo) (s : State) (d : RaceTime),
    ((s.port p).phase = .down → (s.port p).nextInvite = some d → atOrAfter s.clock d = true →
      ∃ t, exec (.trainInvitation p) s = .next t ∧ (t.port p).phase = .down
        ∧ (t.port p).nextInvite = some (addTime s.clock 10000)
        ∧ TrainFrameQueued p (invitationPattern s.patterns) s t)
    ∧ ((s.port p).phase = .train → (s.port p).training = .pause d → atOrAfter s.clock d = true →
      ∃ t, exec (.trainingPauseEnd p) s = .next t ∧ (t.port p).phase = .train ∧ (t.timing p).echoValues = []
        ∧ ((s.port p).class1 = [] → (t.port p).training
            = .round (roundFrames s.patterns) (if (s.port p).wire.isSome then none else some s.clock))
        ∧ ∀ f, (roundFrames s.patterns).head? = some f → TrainFrameQueued p f s t)
    ∧ (∀ w, (s.port p).phase = .phase → (s.timing p).sweep = some w → w.sent.head? = some d → w.queued < 64 →
      atOrAfter s.clock (addTime d (w.queued * (roundDiv (s.timing p).pNom 16384).toNat : Nat)) = true →
      let x := s.mkFrame p (.probe (64 * (w.number - 1) + w.queued))
      ∃ t v, exec (.probeDue p) s = .next t ∧ (t.timing p).sweep = some v ∧ v.queued = w.queued + 1
        ∧ v.number = w.number ∧ v.answers = w.answers
        ∧ ((s.port p).wire.isSome = true → (s.port p).class1.length < 64 →
          (t.port p).class1 = (s.port p).class1 ++ [x] ∧ (t.port p).wire = (s.port p).wire ∧ v.sent = w.sent)
        ∧ ((s.port p).wire = none → (s.port p).class1 = [] →
          (t.port p).class1 = [] ∧ v.sent = w.sent ++ [s.clock]
            ∧ (t.port p).wire = some { frame := x, sent := s.clock, rate := (s.port p).entry.linkRate }))

/-! ### Cars -/

/-- A seat sample passes checks 2 to 7 exactly when its slot is enabled for its port and not RETIRED, the race state allows
it, its frame number translates, its time is later than the car's last sample, its position lies on the lap and its lap is
allowed; the first check in that order that fails names the reason of refusal (R42 to R45). -/
def Obligations.SampleChecks : Prop :=
  ∀ (s : State) (p : PortNo) (t : Option RaceTime) (x : RawSample),
    let setup := s.race.state = .idle ∨ s.race.state = .grid
    let held := s.race.state = .hold ∨ s.race.state = .resumePending
      ∨ (s.race.state = .holdPending ∧ ∃ h u, s.race.tH = some h ∧ t = some u ∧ later u h = true)
    (∀ (i : Slot) (u : RaceTime), s.checkSample p t x = .ok (i, u) ↔
      s.seatSlot p x.seat = some i ∧ (s.car i).state ≠ .retired
      ∧ s.race.state ≠ .hold ∧ s.race.state ≠ .resumePending
      ∧ (s.race.state = .holdPending → ∀ h, s.race.tH = some h → later u h = false)
      ∧ t = some u ∧ (∀ y, (s.car i).last = some y → later u y.time = true) ∧ x.s < s.params.lapLength
      ∧ (s.race.state = .idle ∨ s.race.state = .grid → x.lap = 0)
      ∧ (s.race.state ≠ .idle ∧ s.race.state ≠ .grid → (s.car i).lap ≤ x.lap ∧ x.lap ≤ (s.car i).lap + 3))
    ∧ (∀ i, s.seatSlot p x.seat = some i → s.owns p i = true ∧ (s.car i).seat.val = x.seat)
    ∧ ((∀ i, s.owns p i = true → (s.car i).seat.val ≠ x.seat) → s.checkSample p t x = .error .noSlot)
    ∧ ∀ i, s.seatSlot p x.seat = some i →
      ((s.car i).state = .retired → s.checkSample p t x = .error .retired)
      ∧ ((s.car i).state ≠ .retired → held → s.checkSample p t x = .error .held)
      ∧ ((s.car i).state ≠ .retired → ¬held →
        (t = none → s.checkSample p t x = .error .outOfWindow)
        ∧ ∀ u, t = some u →
          let stale := ∃ y, (s.car i).last = some y ∧ later u y.time = false
          (stale → s.checkSample p t x = .error .stale)
          ∧ (¬stale → s.params.lapLength ≤ x.s → s.checkSample p t x = .error .badPosition)
          ∧ (¬stale → x.s < s.params.lapLength →
            (setup → x.lap ≠ 0 → s.checkSample p t x = .error .badLap)
            ∧ (¬setup → x.lap < (s.car i).lap → s.checkSample p t x = .error .lapRegress)
            ∧ (¬setup → (s.car i).lap + 3 < x.lap → s.checkSample p t x = .error .lapJump)))

/-- An accepted sample of an ACTIVE port is stored with its motion fields clamped, the sample before it becomes the previous
one, no other car's samples move, the quiet gate opens, and in COUNTDOWN it gives a car its grid s (R41, R46, R47, R164). It
makes the car LIVE with its coast timer set, unless its finish is fixed, and raises CAR_FOUND for a LOST car before it is
handed on; ACCEPTED counts it, and CLAMPED where a field was clamped (R31, R46, R48). Before T_green the jump check flags a car
once and raises JUMP_START (R117), in CLOSED too, the model's choice (notes/assumptions/29.md). A frame of two seats has its
samples taken in seat order, the second against what the first has left (R41). A stored sample is handed to the Line Unit in
COUNTDOWN, RUNNING, FINISHING and HOLD_PENDING alone, which enters its crossings and then takes a fixing evaluation, to the
Contact Monitor when its car is LIVE after that, and to the jump check always (R47, R99); that order, and that the evaluation
serves the sample's own change of state too, are the model's choice (notes/assumptions/7.md). The field test follows where
entering the crossings has finished a car (R127). -/
def Obligations.SampleAccepted : Prop :=
  let stores (i : Slot) (u : RaceTime) (x : RawSample) (s t : State) : Prop :=
    (t.car i).last = some
      { time := u, s := x.s, lap := x.lap, d := clamp (-s.params.dMax) s.params.dMax x.d,
        v := min 20000 x.v, w := clamp (-2000) 2000 x.w, a := clamp (-8000) 8000 x.a, offTrack := x.offTrack,
        spun := x.spun }
    ∧ (t.car i).prev = (s.car i).last
    ∧ (∀ j, j ≠ i → SameCar (s.car j) (t.car j))
    ∧ (t.car i).gridS = if s.race.state = .countdown ∧ (s.car i).gridS = none then some x.s else (s.car i).gridS
  (∀ (p : PortNo) (stamp : RaceTime) (payload : List Byte) (i : Slot) (u : RaceTime) (s : State),
    let x := rawSample (field payload 2 14)
    let f : FrameNum := BitVec.ofNat 16 (beNat (field payload 0 2))
    let o := timeFrame true (s.port p).entry (s.timing p) f stamp
    (s.port p).phase = .active → payload.length = 16 → s.checkSample p (forward (s.timing p) f) x = .ok (i, u) →
    ∃ t, exec (.car p stamp 1 payload) s = .next t ∧ stores i u x s t ∧ (t.port p).gateSample = true
      ∧ (o.request = .none → (s.car i).state ∈ [CarState.assigned, .live, .coasting, .parked, .lost] →
        (t.car i).state = .finished
        ∨ ((t.car i).state = .live ∧ (t.car i).coastTimer = some (addTime u s.params.coastAfter)
          ∧ (t.car i).loseTimer = none))
      ∧ (o.request = .none → (s.car i).state = .finished → (t.car i).state = .finished))
  ∧ (∀ (p : PortNo) (stamp : RaceTime) (payload : List Byte) (s : State),
    let first := rawSample (field payload 2 14)
    let second := rawSample (field payload 16 14)
    let x := if second.seat < first.seat then second else first
    let y := if second.seat < first.seat then first else second
    let f : FrameNum := BitVec.ofNat 16 (beNat (field payload 0 2))
    let mark := forward (s.timing p) f
    let heard := s.modPort p fun q =>
      { q with gateCar := true, linkBase := q.linkBase.map fun _ => stamp,
               counters := { q.counters with framesRx := bump q.counters.framesRx } }
    (s.port p).phase = .active → payload.length = 30 →
    (timeFrame true (s.port p).entry (s.timing p) f stamp).missed = false →
    ∃ t, exec (.car p stamp 2 payload) s = .next t
      ∧ (∀ e, s.checkSample p mark x = .error e →
        (∀ e', s.checkSample p mark y = .error e' → ∀ j, SameCar (s.car j) (t.car j))
        ∧ (∀ j u, s.checkSample p mark y = .ok (j, u) → stores j u y s t))
      ∧ (∀ i u, s.checkSample p mark x = .ok (i, u) →
        let v := acceptSample p i u x heard
        stores i u x s v
        ∧ (∀ e', v.checkSample p mark y = .error e' → ∀ j, SameCar (v.car j) (t.car j))
        ∧ (∀ j u', v.checkSample p mark y = .ok (j, u') → stores j u' y v t)))
  ∧ (∀ (p : PortNo) (i : Slot) (u : RaceTime) (x : RawSample) (s : State),
    let c := s.car i
    let y : Sample :=
      { time := u, s := x.s, lap := x.lap, d := clamp (-s.params.dMax) s.params.dMax x.d,
        v := min 20000 x.v, w := clamp (-2000) 2000 x.w, a := clamp (-8000) 8000 x.a, offTrack := x.offTrack,
        spun := x.spun }
    let st := if c.state ∈ [CarState.assigned, .coasting, .parked, .lost] then CarState.live else c.state
    let kept := y.d = x.d ∧ (y.v : Int) = x.v ∧ y.w = x.w ∧ y.a = x.a
    let stored := (s.modPort p fun q => { q with counters := { q.counters with
        accepted := bump q.counters.accepted,
        clamped := if kept then q.counters.clamped else bump q.counters.clamped } }).setCar i
      { c with
        prev := c.last, last := some y, state := st,
        gridS := if s.race.state = .countdown ∧ c.gridS = none then some x.s else c.gridS,
        coastTimer := if st = .live then some (addTime u s.params.coastAfter) else none, loseTimer := none }
    acceptSample p i u x s
      = handOn stored i c.last y (if c.state = .lost then raiseNow .carFound [i] stored else stored))
  ∧ ∀ (i : Slot) (x : Sample) (s : State),
    let jumps := (∃ g, s.race.tGreen = some g ∧ earlier x.time g = true) ∧ (s.car i).jump = false
      ∧ (s.params.jumpSpeed < x.v
        ∨ ∃ g, (s.car i).gridS = some g ∧ s.params.jumpDist < (gap x.s g s.params.lapLength).natAbs)
    (jumps → jumpCheck i x s = raiseNow .jumpStart [i] (s.setCar i { s.car i with jump := true }))
    ∧ (¬jumps → jumpCheck i x s = s)
    ∧ ∀ (stored : State) (prev : Option Sample),
      let entered := enterCrossings i prev x s
      let finished := (s.lap (s.params.laps + 1)).count ≠ (entered.lap (s.params.laps + 1)).count
      let toContacts (u : State) : State := if (u.car i).state = .live then allSlots.foldl (contactOne stored i x) u else u
      (s.race.state ∈ [RaceState.countdown, .running, .finishing, .holdPending] →
        (¬finished → handOn stored i prev x s = jumpCheck i x (toContacts (evaluate entered)))
        ∧ (finished → handOn stored i prev x s = jumpCheck i x (toContacts (fieldTest (evaluate entered)))))
      ∧ (s.race.state ∉ [RaceState.countdown, .running, .finishing, .holdPending] →
        handOn stored i prev x s = jumpCheck i x (toContacts s))

/-- A refused sample of an ACTIVE port only counts under its reason: a frame that asks nothing of the Link Port, with one
sample or with two, changes the port's counters and timing record and nothing else. Each reason has its own counter (R18,
R41, R42, R48). -/
def Obligations.SampleRefused : Prop :=
  (∀ (p : PortNo) (stamp : RaceTime) (payload : List Byte) (e : SampleRefusal) (s : State),
    let f : FrameNum := BitVec.ofNat 16 (beNat (field payload 0 2))
    let o := timeFrame true (s.port p).entry (s.timing p) f stamp
    (s.port p).phase = .active → payload.length = 16 →
    s.checkSample p (forward (s.timing p) f) (rawSample (field payload 2 14)) = .error e →
    o.request = .none → o.missed = false →
    exec (.car p stamp 1 payload) s = .next (s.modPort p fun q =>
      { q with gateCar := true, linkBase := q.linkBase.map fun _ => stamp, timing := o.record,
               counters := countRefusal { q.counters with framesRx := bump q.counters.framesRx } e }))
  ∧ (∀ (p : PortNo) (stamp : RaceTime) (payload : List Byte) (e e' : SampleRefusal) (s : State),
    let f : FrameNum := BitVec.ofNat 16 (beNat (field payload 0 2))
    let o := timeFrame true (s.port p).entry (s.timing p) f stamp
    (s.port p).phase = .active → payload.length = 30 →
    s.checkSample p (forward (s.timing p) f) (rawSample (field payload 2 14)) = .error e →
    s.checkSample p (forward (s.timing p) f) (rawSample (field payload 16 14)) = .error e' →
    o.request = .none → o.missed = false →
    exec (.car p stamp 2 payload) s = .next (s.modPort p fun q =>
      { q with gateCar := true, linkBase := q.linkBase.map fun _ => stamp, timing := o.record,
               counters := countRefusal (countRefusal { q.counters with framesRx := bump q.counters.framesRx } e) e' }))
  ∧ ∀ k : PortCounters,
    countRefusal k .noSlot = { k with noSlot := bump k.noSlot }
    ∧ countRefusal k .retired = { k with retired := bump k.retired }
    ∧ countRefusal k .held = { k with held := bump k.held }
    ∧ countRefusal k .outOfWindow = { k with outOfWindow := bump k.outOfWindow }
    ∧ countRefusal k .stale = { k with stale := bump k.stale }
    ∧ countRefusal k .badPosition = { k with badPosition := bump k.badPosition }
    ∧ countRefusal k .badLap = { k with badLap := bump k.badLap }
    ∧ countRefusal k .lapRegress = { k with lapRegress := bump k.lapRegress }
    ∧ countRefusal k .lapJump = { k with lapJump := bump k.lapJump }

/-- A CAR frame of a port in RATE moves no car: the first one sets the arrival lag and opens the window, or counts
OUT_OF_WINDOW where its frame number does not translate; a duplicate or late one leaves the window, a later one counts, and
one whose count has restarted brings FAULT with reason RATE. The one that ends a window in band makes the port ACTIVE with the
anchor moved and the measured period, out of band it brings FAULT with reason RATE (R18 to R21, R41). On entry into ACTIVE a
vacant director role is taken, the port is told so, and the pace timer starts under CLOCK pacing (R70, R172); its PARKED cars
become COASTING with CAR_COASTING and are aged (R37), as they do before PORT_FAULT on entry into FAULT (R160). The model's
choices (notes/assumptions/7.md): the role is taken before the PARKED cars change, so that the new director hears of them; they
change one after another, in slot order; and they change before PORT_FAULT. The frame may hold one seat or two. That the anchor
move has no limit of 1024 frames is the model's reading (DEDUCED, notes/assumptions/11.md). -/
def Obligations.CarFramesInRate : Prop :=
  ∀ (p : PortNo) (stamp : RaceTime) (count : Byte) (payload : List Byte) (s : State),
    let f : FrameNum := BitVec.ofNat 16 (beNat (field payload 0 2))
    let r := s.timing p
    let heard (q : Port) : Port :=
      { q with gateCar := true, linkBase := q.linkBase.map fun _ => stamp,
               counters := { q.counters with framesRx := bump q.counters.framesRx } }
    let opened : RateWindow := { startFrame := f, startArrival := stamp, lastCounted := f }
    let faulted (t : State) : Prop := Faulted p .rate s t ∧ (∀ i, SameCar (s.car i) (t.car i))
      ∧ (t.port p).timing = { r with valid := false, window := none, sweep := none }
    (s.port p).phase = .rate → (payload.length = 16 ∧ count = 1 ∨ payload.length = 30 ∧ count = 2) →
    (r.lag = none → r.window = none → ∀ m, forward r f = some m →
      exec (.car p stamp count payload) s = .next (s.modPort p fun q =>
        { heard q with timing := { q.timing with lag := some (timeDiff stamp m), window := some opened } }))
    ∧ (r.lag = none → forward r f = none →
      exec (.car p stamp count payload) s = .next (s.modPort p fun q => { heard q with
        counters := { (heard q).counters with outOfWindow := bump q.counters.outOfWindow } }))
    ∧ (∀ l, r.lag = some l → r.window = none →
      exec (.car p stamp count payload) s = .next (s.modPort p fun q =>
        { heard q with timing := { q.timing with window := some opened } }))
    ∧ (∀ l w, r.lag = some l → r.window = some w →
      (frameDiff w.lastCounted f < -(r.winFrames : Int) → ∃ t, exec (.car p stamp count payload) s = .next t ∧ faulted t)
      ∧ (-(r.winFrames : Int) ≤ frameDiff w.lastCounted f → frameDiff w.lastCounted f ≤ 0 →
        exec (.car p stamp count payload) s = .next (s.modPort p heard))
      ∧ (0 < frameDiff w.lastCounted f → frameDiff w.startFrame f < r.winFrames →
        exec (.car p stamp count payload) s = .next (s.modPort p fun q =>
          { heard q with timing := { q.timing with window := some { w with lastCounted := f } } }))
      ∧ (0 < frameDiff w.lastCounted f → (r.winFrames : Int) ≤ frameDiff w.startFrame f →
        let m := roundDiv (timeDiff stamp w.startArrival * 256) (frameDiff w.startFrame f).toNat
        ∃ t, exec (.car p stamp count payload) s = .next t ∧ (∀ i, SameCar (s.car i) (t.car i))
          ∧ ((m - r.pNom).natAbs ≤ r.pNom * r.tolPpm / 1000000 →
              (t.port p).phase = .active
              ∧ { (t.timing p) with sweep := none } = { r with
                  period := m.toNat, anchorFrame := f, anchorTime := frameMark r f, window := none, sweep := none }
              ∧ (t.port p).paceTimer = (if (s.port p).entry.pacing = .clock
                  then some (addTime s.clock (s.port p).entry.pacePeriod) else none)
              ∧ ParkedReturned p s t
              ∧ (∀ d, s.roleHolder = some d → t.mgmt = s.mgmt)
              ∧ (s.roleHolder = none → t.mgmt = { s.mgmt with director := some p }
                ∧ ((s.port p).wire.isSome = true → (s.port p).notices.length < 16 →
                  ∃ x ∈ (t.port p).outbox, x.director = true ∧ x.body = .notice (.directorMoved none .takeUp))))
          ∧ (r.pNom * r.tolPpm / 1000000 < (m - r.pNom).natAbs → faulted t)))

/-- A CAR frame of an ACTIVE port, of one seat or two, opens a window where none is open; a duplicate or late one leaves it, a
later one counts, and one whose count has restarted closes it and sends the port to PHASE (R19). The end of a tracking window in
band moves the anchor to the frame under the old period, takes the measured period, leaves the residual, and slews the anchor by
half of it toward zero within slew_max; a residual beyond phase_tol sends the port to PHASE with the anchor not slewed, an
out-of-band window to FAULT with anchor, period and residual kept (R20, R22, R23, R24). PHASE and FAULT come after the frame's
samples have been taken, with the reactions to a departure from ACTIVE, its LIVE cars COASTING (R26, R35, R41, R162); that the
record is as the window's end leaves it when they begin, that the role is passed on before the cars change, and that PORT_FAULT
(R160) comes last are the model's choice (notes/assumptions/7.md). The mark of
a frame is the anchor time and its distance in frames times the period by 256, rounded; the forward translation gives it for a
valid record and a frame within 1,024 of the anchor, and nothing else (R15). The inverse gives the frame k from the anchor with k
the least whose exact mark is not before the time asked, and the mark it translates to is not before that time either (R16). -/
def Obligations.TrackingWindow : Prop :=
  (∀ (r : TimingRecord) (f : FrameNum),
    frameMark r f = addTime r.anchorTime (roundDiv (frameDiff r.anchorFrame f * r.period) 256)
    ∧ ∀ t, forward r f = some t ↔ r.valid = true ∧ (frameDiff r.anchorFrame f).natAbs ≤ 1024 ∧ t = frameMark r f)
  ∧ (∀ (r : TimingRecord) (t : RaceTime), 0 < r.period → r.period < 2 ^ 32 →
    let d := timeDiff t r.anchorTime
    ∃ k : Int, inverse r t = r.anchorFrame + BitVec.ofInt 16 k ∧ (k - 1) * r.period < d * 256 ∧ d * 256 ≤ k * r.period
      ∧ (-32768 ≤ k → k ≤ 32767 → atOrAfter (frameMark r (inverse r t)) t = true))
  ∧ ∀ (p : PortNo) (stamp : RaceTime) (count : Byte) (payload : List Byte) (l : Int) (s : State),
    let f : FrameNum := BitVec.ofNat 16 (beNat (field payload 0 2))
    let r := s.timing p
    let heard := s.modPort p fun q =>
      { q with gateCar := true, linkBase := q.linkBase.map fun _ => stamp,
               counters := { q.counters with framesRx := bump q.counters.framesRx } }
    let sampled (x : TimingRecord) : State :=
      (takeSamples p f (frameSamples payload) heard).modPort p fun q => { q with timing := x }
    let keeps (x : TimingRecord) : Prop := exec (.car p stamp count payload) s = .next (sampled x)
      ∧ ((sampled x).port p).phase = .active
    let levels (x : TimingRecord) : Prop := ∃ t, exec (.car p stamp count payload) s = .next t ∧ (t.port p).phase = .phase
      ∧ { (t.timing p) with sweep := none } = { x with sweep := none }
      ∧ (∃ v, (t.timing p).sweep = some v ∧ v.number = 1 ∧ v.queued = 1 ∧ v.answers = Vector.replicate 64 none)
      ∧ FirstProbeQueued p 0 (sampled x) t ∧ LeftActive p (sampled x) t ∧ LiveCoasted p (sampled x) t
    (s.port p).phase = .active → (payload.length = 16 ∧ count = 1 ∨ payload.length = 30 ∧ count = 2) → r.lag = some l →
    (r.window = none → keeps { r with window := some { startFrame := f, startArrival := stamp, lastCounted := f } })
    ∧ ∀ w, r.window = some w →
      (frameDiff w.lastCounted f < -(r.winFrames : Int) → levels { r with window := none })
      ∧ (-(r.winFrames : Int) ≤ frameDiff w.lastCounted f → frameDiff w.lastCounted f ≤ 0 → keeps r)
      ∧ (0 < frameDiff w.lastCounted f → frameDiff w.startFrame f < r.winFrames →
        keeps { r with window := some { w with lastCounted := f } })
      ∧ (0 < frameDiff w.lastCounted f → (r.winFrames : Int) ≤ frameDiff w.startFrame f →
        let m := roundDiv (timeDiff stamp w.startArrival * 256) (frameDiff w.startFrame f).toNat
        let res := timeDiff stamp (frameMark r f) - l
        let slew := clamp (-(s.port p).entry.slewMax) (s.port p).entry.slewMax (res.tdiv 2)
        let moved : TimingRecord := { r with
          period := m.toNat, anchorFrame := f, anchorTime := frameMark r f, window := none, residual := some res }
        ((m - r.pNom).natAbs ≤ r.pNom * r.tolPpm / 1000000 →
          (res.natAbs ≤ (s.port p).entry.phaseTol → keeps { moved with anchorTime := addTime (frameMark r f) slew })
          ∧ ((s.port p).entry.phaseTol < res.natAbs → levels moved))
        ∧ (r.pNom * r.tolPpm / 1000000 < (m - r.pNom).natAbs → ∃ t, exec (.car p stamp count payload) s = .next t
          ∧ Faulted p .rate (sampled { r with window := none }) t
          ∧ t.timing p = { r with valid := false, window := none, sweep := none }))

/-- A car timer ages its car: beyond lose_after it is LOST and raises CAR_LOST, between coast_after and lose_after a LIVE car
is COASTING and raises CAR_COASTING, and a car within them keeps its state with its timer set anew. The evaluation that the
change leads to may fix the car's finish; its events come after the car's own (R31, R32, R34, R40, R99). A timer not expired,
or suspended, does nothing, the model's choice (notes/assumptions/6.md). -/
def Obligations.TimersAgeCars : Prop :=
  (∀ (i : Slot) (s : State),
    (s.coastDue i = false → exec (.coastTimerExpiry i) s = .next s)
    ∧ (s.loseDue i = false → exec (.loseTimerExpiry i) s = .next s)
    ∧ (s.coastDue i = true ↔ s.suspended = false ∧ ∃ d, (s.car i).coastTimer = some d ∧ later s.clock d = true)
    ∧ (s.loseDue i = true ↔ s.suspended = false ∧ ∃ d, (s.car i).loseTimer = some d ∧ later s.clock d = true))
  ∧
  ∀ (i : Slot) (x : Sample) (s : State) (c : Instr),
    (s.car i).last = some x →
    (c = .coastTimerExpiry i ∧ s.coastDue i = true ∨ c = .loseTimerExpiry i ∧ s.loseDue i = true) →
    let age := timeDiff s.clock x.time
    ∃ t, exec c s = .next t ∧ (∀ j, SameCar (s.car j) (t.car j))
      ∧ (((s.car i).state = .live ∨ (s.car i).state = .coasting) → (s.params.loseAfter : Int) < age →
          ((t.car i).state = .lost ∨ (t.car i).state = .finished)
          ∧ (t.car i).coastTimer = none ∧ (t.car i).loseTimer = none
          ∧ NoticedFirst (s.noticesFor [{ kind := .carLost, time := s.clock, slots := [i], fault := none }]) s t)
      ∧ ((s.car i).state = .live → age ≤ s.params.loseAfter → (s.params.coastAfter : Int) < age →
          (((t.car i).state = .coasting ∧ (t.car i).loseTimer = some (addTime x.time s.params.loseAfter))
            ∨ (t.car i).state = .finished)
          ∧ NoticedFirst (s.noticesFor [{ kind := .carCoasting, time := s.clock, slots := [i], fault := none }]) s t)
      ∧ ((s.car i).state = .live → age ≤ s.params.loseAfter → age ≤ s.params.coastAfter →
          t = s.setCar i { s.car i with coastTimer := some (addTime x.time s.params.coastAfter) })
      ∧ ((s.car i).state = .coasting → age ≤ s.params.loseAfter →
          t = s.setCar i { s.car i with loseTimer := some (addTime x.time s.params.loseAfter) })

/-- RETIRE_CAR: an ASSIGNED, LIVE, COASTING, PARKED or LOST car is RETIRED with its timers idle and its samples kept, unless
the evaluation its change leads to fixes its finish; a FREE, FINISHED or RETIRED slot is refused with STATE (R39, R40). -/
def Obligations.RetireCarTaken : Prop :=
  ∀ (c : Command) (i : Slot) (s : State), s.asks c [0x40, slotByte i] →
    ((s.car i).state ≠ .free → (s.car i).state ≠ .finished → (s.car i).state ≠ .retired →
      ∃ u, exec .retireCar s = .next (answer c .ok [] u)
        ∧ ((u.car i).state = .retired ∨ (u.car i).state = .finished)
        ∧ (u.car i).coastTimer = none ∧ (u.car i).loseTimer = none ∧ ∀ j, SameCar (s.car j) (u.car j))
    ∧ ((s.car i).state = .free ∨ (s.car i).state = .finished ∨ (s.car i).state = .retired →
      exec .retireCar s = .next (answer c .state [] s.dropHead))

/-- Projection, stages 1 and 2: in HOLD_PENDING, HOLD and RESUME_PENDING a target later than T_h is replaced by T_h, and in
every other race state it is kept; the interval is the signed difference of the target and the last sample, clamped to −H_b to
+H_f, HELD exactly beyond H_f; a braking car that would come to rest within it is STOPPED and its interval is the whole
number of microseconds until then, at least 0 and less than the interval it replaces; the interval that leaves stage 2 serves
the distance, the speed and the offset (R52, R53, R54). -/
def Obligations.ProjectionInterval : Prop :=
  ∀ (pr : RaceParams) (r : RaceRecord) (x : Sample) (t : RaceTime),
    let holding := r.state = .holdPending ∨ r.state = .hold ∨ r.state = .resumePending
    let dt := timeDiff (holdTarget r t) x.time
    let e := effectiveInterval pr dt
    (∀ h, holding → r.tH = some h → holdTarget r t = if later t h then h else t)
    ∧ (¬holding → holdTarget r t = t)
    ∧ ((projectSample pr r x t).held = true ↔ (pr.hF : Int) < dt)
    ∧ (dt < -pr.hB → e = -pr.hB) ∧ (-(pr.hB : Int) ≤ dt → dt ≤ pr.hF → e = dt)
    ∧ ((pr.hF : Int) < dt → e = pr.hF)
    ∧ ((projectSample pr r x t).stopped = true ↔ x.a < 0 ∧ 0 < e ∧ (x.v : Int) * 1000000 + x.a * e < 0)
    ∧ ((projectSample pr r x t).stopped = true → stoppedInterval x.v x.a e = (x.v : Int) * 1000000 / -x.a
        ∧ 0 ≤ stoppedInterval x.v x.a e ∧ stoppedInterval x.v x.a e < e)
    ∧ ((projectSample pr r x t).stopped = false → stoppedInterval x.v x.a e = e)
    ∧ (x.a < 0 → 0 < e → (x.v : Int) * 1000000 + x.a * e = 0 →
        (projectSample pr r x t).stopped = false ∧ (projectSample pr r x t).v = 0)
    ∧ (let e2 := stoppedInterval x.v x.a e
      ((projectSample pr r x t).s, (projectSample pr r x t).lap)
          = wrapPosition pr.lapLength x.lap (x.s + roundDiv (2000000 * x.v * e2 + x.a * e2 ^ 2) 2000000000000)
        ∧ ((projectSample pr r x t).v : Int) = clamp 0 20000 (x.v + roundDiv (x.a * e2) 1000000)
        ∧ (projectSample pr r x t).d = clamp (-pr.dMax) pr.dMax (x.d + roundDiv (x.w * e2) 1000000))

/-- Projection, stages 3 to 6: a position beyond the line carries as many laps as it holds, up to lap 255; one behind it
borrows them, and a car that has none left to borrow stands at 0 on lap 0 (R56, R57, R58). Every result lies within the lap,
its speed in 0 to 20,000 and its offset within d_max; a stopped car has speed 0; an interval of 0 returns the sample itself
(R59, R60, R61, R63). -/
def Obligations.ProjectionResult : Prop :=
  (∀ (L lap : Nat) (x : Int), 0 < L → lap ≤ 255 →
    let y := wrapPosition L lap x
    y.1 < L ∧ y.2 ≤ 255
    ∧ (0 ≤ x → ∃ q : Nat, x = q * L + y.1 ∧ y.2 = min 255 (lap + q))
    ∧ (x < 0 → ∀ q : Int, (q - 1) * L < -x → -x ≤ q * L →
        (q ≤ lap → (y.1 : Int) = x + q * L ∧ (y.2 : Int) = lap - q) ∧ (lap < q → y = (0, 0))))
  ∧ ∀ (pr : RaceParams) (r : RaceRecord) (x : Sample) (t : RaceTime),
    let y := projectSample pr r x t
    let e := stoppedInterval x.v x.a (effectiveInterval pr (timeDiff (holdTarget r t) x.time))
    (0 < pr.lapLength → y.s < pr.lapLength) ∧ y.v ≤ 20000
    ∧ y.d = clamp (-pr.dMax) pr.dMax (x.d + roundDiv (x.w * e) 1000000)
    ∧ -(pr.dMax : Int) ≤ y.d ∧ y.d ≤ pr.dMax
    ∧ (y.stopped = true → -8000 ≤ x.a → y.v = 0)
    ∧ (e = 0 → x.s < pr.lapLength → x.v ≤ 20000 → x.lap ≤ 255 → y.s = x.s ∧ y.lap = x.lap ∧ y.v = x.v
        ∧ y.d = clamp (-pr.dMax) pr.dMax x.d)

/-! ### Links -/

/-- A HOLD_ACK for the frame of its port's entry marks the entry acked in HOLD_PENDING, and the race enters HOLD, raising
HOLD_BEGIN with event time now and no slot, when T_h has been reached and every entry is acked; any other HOLD_ACK is ignored
(R119, R120). -/
def Obligations.HoldAckMarksEntry : Prop :=
  ∀ (p : PortNo) (stamp : RaceTime) (payload : List Byte) (s : State),
    (s.port p).phase = .active → payload.length = 2 →
    let f : FrameNum := BitVec.ofNat 16 (beNat payload)
    let heard := countValid p stamp s
    let mine := ∃ a ∈ s.race.acks, a.port = p ∧ a.frame = f ∧ a.acked = false
    let acks := s.race.acks.map fun a => if a.port = p ∧ a.frame = f then { a with acked := true } else a
    (s.race.state ≠ .holdPending → exec (.holdAck p stamp payload) s = .next heard)
    ∧ (¬mine → exec (.holdAck p stamp payload) s = .next heard)
    ∧ (s.race.state = .holdPending → mine →
        (s.reached s.race.tH = true → (∀ a ∈ acks, a.acked = true) →
          ∃ t, exec (.holdAck p stamp payload) s = .next t ∧ t.race = { s.race with state := .hold, acks := [] }
            ∧ RouteEffect heard t
            ∧ Noticed (s.noticesFor [{ kind := .holdBegin, time := s.clock, slots := [], fault := none }]) s t)
        ∧ (s.reached s.race.tH = false ∨ (∃ a ∈ acks, a.acked = false) →
          exec (.holdAck p stamp payload) s = .next { heard with race := { s.race with acks := acks } }))

/-- QUIET_ASK and PORT_QUIET: refused with STATE unless the port is ACTIVE, RANGE for a rate other than 10 and 20, STATE
while the race runs and the port owns a LIVE or COASTING car, TOO_SOON while the quiet gate is closed; else the port enters
QUIET, its cars parked (R36, R164, R165), its waiting calls, cues, placings and views withdrawn, its entry in the ack set
removed, which may bring the race into HOLD with HOLD_BEGIN (R119), the director role passed on, and where it held the role the
commands it sent discarded (R83, R121, R148, R162, R172, R173). That HOLD_BEGIN goes to the director the role has passed to is
the model's choice (notes/assumptions/7.md). -/
def Obligations.PortsGoQuiet : Prop :=
  ∀ (p : PortNo) (s : State),
    (s.quietRefusal p = some .state ↔
      (s.race.state = .countdown ∨ s.race.state = .running ∨ s.race.state = .finishing)
        ∧ ∃ i, s.owns p i = true ∧ ((s.car i).state = .live ∨ (s.car i).state = .coasting))
    ∧ (s.quietRefusal p = some .tooSoon ↔ s.quietRefusal p ≠ some .state ∧ s.gateOpen p = false)
    ∧ (s.gateOpen p = true ↔ if (∃ i, s.owns p i = true) then (s.port p).gateSample = true
        else (s.port p).gateCar = true)
    ∧ (s.quietRefusal p = none ↔ s.quietRefusal p ≠ some .state ∧ s.gateOpen p = true)
    ∧ (∀ stamp b, (s.port p).phase = .active →
        (b ≠ 10 → b ≠ 20 → exec (.quietAsk p stamp [b]) s
          = .next ((countValid p stamp s).offerNotice p (.quietRefused .range)))
        ∧ (∀ e, b = 10 ∨ b = 20 → s.quietRefusal p = some e → exec (.quietAsk p stamp [b]) s
          = .next ((countValid p stamp s).offerNotice p (.quietRefused e)))
        ∧ (b = 10 ∨ b = 20 → s.quietRefusal p = none →
          ∃ t, exec (.quietAsk p stamp [b]) s = .next t ∧ Quieted p (if b = 10 then .r10 else .r20) s t))
    ∧ (∀ c, s.asks c [0x21, portByte p] →
        ((s.port p).phase ≠ .active → exec .portQuiet s = .next (answer c .state [] s.dropHead))
        ∧ (∀ e, (s.port p).phase = .active → s.quietRefusal p = some e →
          exec .portQuiet s = .next (answer c e [] s.dropHead))
        ∧ ((s.port p).phase = .active → s.quietRefusal p = none →
          ∃ u, exec .portQuiet s = .next (answer c .ok [] u) ∧ Quieted p (s.port p).entry.linkRate s.dropHead u))

/-- A MGMT frame from a port in ACTIVE or QUIET joins the Command Queue at its tail with its sender and tag; when 4 wait it
is answered BUSY at once, counted under CMD_BUSY and not queued (R175, R197). -/
def Obligations.MgmtQueued : Prop :=
  ∀ (p : PortNo) (stamp : RaceTime) (tag : Byte) (payload : List Byte) (s : State),
    ((s.port p).phase = .active ∨ (s.port p).phase = .quiet) → 1 ≤ payload.length → payload.length ≤ 124 →
    (s.mgmt.queue.length < 4 →
      exec (.mgmt p stamp tag payload) s = .next { countValid p stamp s with
        mgmt := { s.mgmt with queue := s.mgmt.queue ++ [{ sender := p, tag := tag, payload := payload }] } })
    ∧ (4 ≤ s.mgmt.queue.length →
      ∃ t, exec (.mgmt p stamp tag payload) s = .next t ∧ t.mgmt.queue = s.mgmt.queue
        ∧ t.mgmt.cmdBusy = bump s.mgmt.cmdBusy
        ∧ (payload.head? ≠ some 0x11 → t = ({ countValid p stamp s with
            mgmt := { s.mgmt with cmdBusy := bump s.mgmt.cmdBusy } }).offerReply p tag (payload.headD 0) .busy []))

/-- When the frame on the wire ends, the arbiter takes the first waiting frame of the highest class, its send stamp now and
its rate the Port Table's; a cue is formed as it is taken, LATE when its time lies before its arrival. A TRAIN frame of a round
begins its echo wait at its send time, and a PROBE's send time is filed in its sweep (R10, R157). With nothing waiting
the line falls idle (R81, R147, R150, R168). A changed link rate reaches the line once no frame of another rate is on it
(R150). The end of a frame on an idle line, and a rate change that may not be made yet, have no effect, the model's choice
(notes/assumptions/6.md). -/
def Obligations.ArbiterTakesHighestClass : Prop :=
  ∀ (p : PortNo) (s : State),
    ((s.port p).wire = none → exec (.transmitEnd p) s = .next s)
    ∧ (∀ w, (s.port p).wire = some w → ∃ t, exec (.transmitEnd p) s = .next t ∧
        let q := s.port p
        let sends (f : HubFrame) : Prop :=
          (t.port p).wire = some { frame := f, sent := s.clock, rate := q.entry.linkRate }
        (∀ f rest, q.class1 = f :: rest → sends f ∧ (t.port p).class1 = rest ∧ (t.port p).calls = q.calls
          ∧ let sent : Port := { q with
              class1 := rest, wire := some { frame := f, sent := s.clock, rate := q.entry.linkRate } }
            (∀ n bs, f.body = .train n bs → t = s.setPort p { sent with
              training := match q.training with
                | .round todo none => .round todo (some s.clock)
                | other => other })
            ∧ (∀ n, f.body = .probe n → t = s.setPort p { sent with timing := { q.timing with
                sweep := q.timing.sweep.map fun w => { w with sent := w.sent ++ [s.clock] } } }))
        ∧ (q.class1 = [] →
          (∀ f rest, q.calls = f :: rest → sends f ∧ (t.port p).calls = rest ∧ (t.port p).cues = q.cues)
          ∧ (q.calls = [] →
            (∀ c rest, q.cues = c :: rest → (t.port p).cues = rest ∧ (t.port p).placings = q.placings ∧
              let arrival := addTime s.clock q.timing.delta
              let late := earlier c.time arrival
              sends (s.mkFrame p (.cue c.code (inverse q.timing (if late then arrival else c.time)) c.slots late)))
            ∧ (q.cues = [] →
              (∀ f rest, q.placings = f :: rest → sends f ∧ (t.port p).placings = rest
                ∧ (t.port p).outbox = q.outbox)
              ∧ (q.placings = [] →
                (∀ f rest, q.outbox = f :: rest → sends f ∧ (t.port p).outbox = rest
                  ∧ (t.port p).viewSet = q.viewSet)
                ∧ (q.outbox = [] →
                  (∀ v f rest, q.viewSet = some v → v.unsent = f :: rest → sends f
                    ∧ (t.port p).viewSet = if rest = [] then none else some { v with unsent := rest })
                  ∧ (q.viewSet = none → t = s.modPort p fun q => { q with wire := none })))))))
    ∧ ((s.port p).lineRate ≠ (s.port p).entry.linkRate →
        (∀ w, (s.port p).wire = some w → w.rate = (s.port p).entry.linkRate) →
        exec (.linkRateChangeOnLine p) s = .next (s.modPort p fun q => { q with lineRate := q.entry.linkRate }))
    ∧ ((s.port p).lineRate = (s.port p).entry.linkRate
        ∨ (∃ w, (s.port p).wire = some w ∧ w.rate ≠ (s.port p).entry.linkRate) →
        exec (.linkRateChangeOnLine p) s = .next s)

/-- PORT_RESET in any port state, and the link loss timer's expiry link_timeout after the last valid frame, reset the port
(R161, R167): its waiting frames are withdrawn, its record cleared, its entry in the ack set removed, the director role passed
on and the commands it sent discarded (R121, R162, R172, R173, R176); out of ACTIVE its LIVE cars are COASTING with
CAR_COASTING (R35), its PARKED cars return with CAR_COASTING and are aged (R37), and in DOWN its first invitation is sent
(R156). That their notices and HOLD_BEGIN go to the director the role has passed to, and that the cars change one after another
in slot order, is the model's choice (notes/assumptions/7.md). The deadline follows link_timeout as it stands (DEDUCED,
notes/assumptions/10.md). Before it, and in
OFF, DOWN and QUIET, the timer does nothing, the model's choice (notes/assumptions/6.md). -/
def Obligations.PortResets : Prop :=
  ∀ (p : PortNo) (s : State),
    (∀ c, s.asks c [0x20, portByte p] →
      ∃ u, exec .portReset s = .next (answer c .ok [] u) ∧ PortWasReset p s.dropHead u)
    ∧ (∀ b, (s.port p).linkBase = some b →
        (s.port p).phase ≠ .off → (s.port p).phase ≠ .down → (s.port p).phase ≠ .quiet →
        atOrAfter s.clock (addTime b (s.port p).entry.linkTimeout) = true →
        ∃ t, exec (.linkLoss p) s = .next t ∧ PortWasReset p s t)
    ∧ ((s.port p).phase = .off ∨ (s.port p).phase = .down ∨ (s.port p).phase = .quiet
        ∨ (∃ b, (s.port p).linkBase = some b ∧ atOrAfter s.clock (addTime b (s.port p).entry.linkTimeout) = false) →
        exec (.linkLoss p) s = .next s)

/-- The pace timer of an ACTIVE port under CLOCK pacing is re-armed from the deadline it reached and builds a view set for the
frame lead_frames after the present one; SEND_VIEW builds one too, under any pacing, and is refused with STATE where the port is
not ACTIVE; under CABINET pacing the report of a CAR frame with an accepted sample builds one for the frame lead_frames after
the frame's own. A CAR frame of an ACTIVE port makes that report once its samples, in seat order, have been taken or refused,
with whether one was accepted; the gate has opened by then, and the timing record changes after it (R41, R47), the model's
choice (notes/assumptions/7.md). A set holds the entries of the port's view list at the target's time, cut by six; its frames
wait on a busy line, an idle one takes the first at once, and the set in flight before it is abandoned. A target without a
translation builds none (R69, R70, R71, R72, R79 to R82). A timer that is not due has no effect, the model's choice
(notes/assumptions/6.md). -/
def Obligations.ViewsBuilt : Prop :=
  ∀ (p : PortNo) (s : State),
    let target := inverse (s.timing p) s.clock + BitVec.ofNat 16 (s.port p).entry.leadFrames
    (∀ d, (s.port p).phase = .active → (s.port p).entry.pacing = .clock → (s.port p).paceTimer = some d →
      atOrAfter s.clock d = true →
      let next := addTime d (s.port p).entry.pacePeriod
      (forward (s.timing p) target = none →
        exec (.paceTimerExpiry p) s = .next (s.modPort p fun q => { q with paceTimer := some next }))
      ∧ (∀ mark, forward (s.timing p) target = some mark → ∃ t, exec (.paceTimerExpiry p) s = .next t
        ∧ (t.port p).paceTimer = some next ∧ ViewBuilt p target mark s t))
    ∧ ((s.port p).phase ≠ .active ∨ (s.port p).entry.pacing ≠ .clock ∨ (s.port p).paceTimer = none
        ∨ (∃ d, (s.port p).paceTimer = some d ∧ atOrAfter s.clock d = false) →
      exec (.paceTimerExpiry p) s = .next s)
    ∧ (∀ c, s.asks c [0x23, portByte p] →
      ((s.port p).phase ≠ .active → exec .sendView s = .next (answer c .state [] s.dropHead))
      ∧ ((s.port p).phase = .active → forward (s.timing p) target = none →
        exec .sendView s = .next (answer c .ok [] s.dropHead))
      ∧ (∀ mark, (s.port p).phase = .active → forward (s.timing p) target = some mark →
        ∃ u, exec .sendView s = .next (answer c .ok [] u) ∧ RouteEffect s.dropHead u
          ∧ ViewBuilt p target mark s.dropHead u))
    ∧ ∀ f : FrameNum,
      let ahead := f + BitVec.ofNat 16 (s.port p).entry.leadFrames
      (∀ mark, (s.port p).phase = .active → (s.port p).entry.pacing = .cabinet →
        forward (s.timing p) ahead = some mark → ViewBuilt p ahead mark s (acceptanceReport p f true s))
      ∧ ((s.port p).entry.pacing ≠ .cabinet ∨ forward (s.timing p) ahead = none → acceptanceReport p f true s = s)
      ∧ acceptanceReport p f false s = s
      ∧ ∀ (stamp : RaceTime) (payload : List Byte),
        let o := timeFrame true (s.port p).entry (s.timing p) f stamp
        let heard := s.modPort p fun q =>
          { q with gateCar := true, linkBase := q.linkBase.map fun _ => stamp,
                   counters := { q.counters with framesRx := bump q.counters.framesRx } }
        let take (a : State × Bool) (x : RawSample) : State × Bool :=
          match a.1.checkSample p (forward (s.timing p) f) x with
          | .ok (i, u) => (acceptSample p i u x a.1, true)
          | .error e => (a.1.modPort p fun q => { q with counters := countRefusal q.counters e }, a.2)
        let report (a : State × Bool) : State :=
          acceptanceReport p f a.2 (if a.2 = true then a.1.modPort p fun q => { q with gateSample := true } else a.1)
        let first := rawSample (field payload 2 14)
        let second := rawSample (field payload 16 14)
        (s.port p).phase = .active → f = BitVec.ofNat 16 (beNat (field payload 0 2)) →
        o.missed = false → o.request = .none →
        (payload.length = 16 → exec (.car p stamp 1 payload) s = .next
          ((report (take (heard, false) first)).modPort p fun q => { q with timing := o.record }))
        ∧ (payload.length = 30 → first.seat ≤ second.seat → exec (.car p stamp 2 payload) s = .next
          ((report (take (take (heard, false) first) second)).modPort p fun q => { q with timing := o.record }))
        ∧ (payload.length = 30 → second.seat < first.seat → exec (.car p stamp 2 payload) s = .next
          ((report (take (take (heard, false) second) first)).modPort p fun q => { q with timing := o.record }))

/-- The entries of a view set are the viewable cars in the order of the port's mode: FIXED_LIST as its View Order List;
RACE_ORDER by projected lap, then projected s, then slot; NEAREST_FIRST by the modular distance from the reference car, then
slot, or RACE_ORDER when there is none (R76 to R78); the reference car is an enabled slot of the port with seat 0 whose car is
in one of the four states, and where there is such a slot one is found (R75). Viewable are the LIVE, COASTING, PARKED and
FINISHED cars, the port's own only with include_own, and in FIXED_LIST only those listed (R74); an entry holds the car's
number, its projection, the sample flags of its last sample, its state flags and its jump flag (R79). -/
def Obligations.ViewOrder : Prop :=
  ∀ (s : State) (p : PortNo) (t : RaceTime),
    let raceOrdered := (s.viewList p t).Pairwise fun a b =>
      b.2.lap < a.2.lap ∨ (a.2.lap = b.2.lap ∧ (b.2.s < a.2.s ∨ (a.2.s = b.2.s ∧ a.1 < b.1)))
    (∀ i, s.viewable p i = true ↔
      (s.car i).state ∈ [CarState.live, .coasting, .parked, .finished]
      ∧ (s.owns p i = true → (s.port p).entry.includeOwn = true)
      ∧ ((s.port p).entry.viewMode = .fixedList → i ∈ (s.port p).viewOrder))
    ∧ (∀ i x, (s.car i).last = some x →
      let y := projectSample s.params s.race x t
      s.projected t i = some y
      ∧ s.viewEntry (i, y) = {
          slot := i, number := (s.car i).number, s := y.s, lap := y.lap, d := y.d, v := y.v,
          offTrack := x.offTrack, spun := x.spun, coasting := decide ((s.car i).state = .coasting),
          parked := decide ((s.car i).state = .parked), finished := decide ((s.car i).state = .finished),
          held := y.held, stopped := y.stopped, jump := (s.car i).jump })
    ∧ (∀ e ∈ s.viewList p t, s.viewable p e.1 = true ∧ s.projected t e.1 = some e.2)
    ∧ (∀ i r, s.viewable p i = true → s.projected t i = some r → (i, r) ∈ s.viewList p t)
    ∧ ((s.port p).entry.viewMode = .fixedList →
        ((s.viewList p t).map fun e => e.1).Sublist (s.port p).viewOrder)
    ∧ ((s.port p).entry.viewMode = .raceOrder → raceOrdered)
    ∧ ((s.port p).entry.viewMode = .nearestFirst →
        ((∀ i, s.owns p i = true → (s.car i).seat = 0 → viewableState (s.car i).state = false) → raceOrdered)
        ∧ ((∃ i, s.owns p i = true ∧ (s.car i).seat = 0 ∧ viewableState (s.car i).state = true) →
          ∃ i, s.referenceCar p = some i)
        ∧ (∀ i, s.referenceCar p = some i →
          s.owns p i = true ∧ (s.car i).seat = 0 ∧ viewableState (s.car i).state = true)
        ∧ ∀ i ref, s.referenceCar p = some i → s.projected t i = some ref →
          (s.viewList p t).Pairwise fun a b =>
            (gap a.2.s ref.s s.params.lapLength).natAbs < (gap b.2.s ref.s s.params.lapLength).natAbs
            ∨ ((gap a.2.s ref.s s.params.lapLength).natAbs = (gap b.2.s ref.s s.params.lapLength).natAbs
              ∧ a.1 < b.1))

/-! ### The Line Unit -/

/-- A crossing found is entered in the list: where 128 are held, the first record that may go makes room, and where none may go
the crossing is lost, counted and its car unplaced; one earlier than its lap's fixed time is fixed at once, any other is
inserted PROVISIONAL where the list's order puts it and the lap's settle deadline set anew (R87, R94 to R97). A record that
becomes FIXED takes the lap's next placing, raises its fixed count, sets its fixed time unless it is late, and with placing 1
its leader; its place in the list does not move unless it is late; the lap's settle deadline is set anew; no other lap changes
(R97, R100, R103). Every ACTIVE port is sent the PLACING frame (R101); the events are LAP_FIXED, LEAD_CHANGE with placing 1
where the lap before had no leader or another one, LAST_LAP with placing 1 on the last lap, and FINISH_FIXED on the finish lap,
which finishes the car, its contact pairs ended before (R38, R102, R137). Where no valid route asks AUTO_HOLD, the first finish
moves RUNNING to FINISHING with its grace deadline, is remembered in COUNTDOWN, and in a hold changes the remembered state with
grace from the earlier of now and T_h; no other fixing changes the race (R126). An early crossing that is late keeps T_green as
its time, the model's choice (notes/assumptions/28.md). -/
def Obligations.RecordFixed : Prop :=
  (∀ (x : Crossing) (late : Bool) (s : State), 1 ≤ x.lap → x.lap ≤ 100 →
    let t := fixRecord x late s
    let r := s.lap x.lap
    let fixed := { x with status := .fixed (r.count + 1), late := late || x.late }
    (t.lap x.lap).count = r.count + 1
    ∧ (t.lap x.lap).time = (if late then r.time else some x.time)
    ∧ (t.lap x.lap).leader = (if r.count = 0 then some x.slot else r.leader)
    ∧ (t.lap x.lap).deadline = (t.firstProvisional x.lap).map (fun y => addTime y.time s.params.settle)
    ∧ (∀ k, k ≠ x.lap → t.lap k = s.lap k)
    ∧ t.crossings = (if late = true then insertCrossing fixed s.crossings
        else s.crossings.map fun y => if y = x then fixed else y))
  ∧ (∀ (x : Crossing) (late : Bool) (s : State), 1 ≤ x.lap → x.lap ≤ 100 →
    let t := fixRecord x late s
    let count := (s.lap x.lap).count
    let c := s.car x.slot
    let finish : Prop := x.lap = s.params.laps + 1
    let now (kind : EventKind) (slots : List Slot) : Event := { kind := kind, time := s.clock, slots := slots, fault := none }
    let lead : List Event := match (s.lap (x.lap - 1)).leader with
      | none => [now .leadChange [x.slot]]
      | some f => if f = x.slot then [] else [now .leadChange [x.slot, f]]
    let parted : List Event := (s.contacts.filter fun y => decide (y.1 = x.slot ∨ y.2 = x.slot)).map fun y =>
      now .contactEnd [x.slot, if y.1 = x.slot then y.2 else y.1]
    (∀ p,
      let placing := s.mkFrame p (.placing x.lap (count + 1) x.slot x.time x.multi (late || x.late) x.jump)
      ((s.port p).phase ≠ .active → t.port p = s.port p)
      ∧ ((s.port p).phase = .active → (s.port p).wire.isSome = true → (s.port p).placings.length < 128 →
        (t.port p).placings = (s.port p).placings ++ [placing])
      ∧ ((s.port p).phase = .active → (s.port p).wire = none → (s.port p).class1 = [] → (s.port p).calls = [] →
        (s.port p).cues = [] → (s.port p).placings = [] →
        (t.port p).wire = some { frame := placing, sent := s.clock, rate := (s.port p).entry.linkRate }))
    ∧ Noticed (s.noticesFor ([now .lapFixed [x.slot]] ++ (if count = 0 then lead else [])
        ++ (if count = 0 ∧ x.lap = s.params.laps then [now .lastLap [x.slot]] else [])
        ++ (if finish ∧ c.enabled = true then parted else [])
        ++ (if finish then [now .finishFixed [x.slot]] else []))) s t
    ∧ (∀ i, t.car i = if i = x.slot ∧ finish ∧ c.enabled = true
        then { c with state := .finished, finishPlacing := some (count + 1), coastTimer := none, loseTimer := none }
        else s.car i)
    ∧ ((∀ y ∈ s.routes.toList, y.valid = true → y.action ≠ .autoHold) →
      let first : Prop := finish ∧ count = 0 ∧ s.race.state ≠ .closed
      (¬first → t.race = s.race)
      ∧ (first → s.race.state = .running → t.race = { s.race with
          finishSeen := true, state := .finishing, grace := some (addTime s.clock s.params.grace) })
      ∧ (first → s.race.state = .countdown → t.race = { s.race with finishSeen := true })
      ∧ ∀ h, first → s.race.state ∈ [RaceState.holdPending, .hold, .resumePending] → s.race.tH = some h →
        t.race = { s.race with
          finishSeen := true, remembered := some .finishing,
          grace := some (addTime (if earlier h s.clock then h else s.clock) s.params.grace) }))
  ∧ (∀ (x : Crossing) (xs : List Crossing), ∃ pre post, xs = pre ++ post ∧ insertCrossing x xs = pre ++ x :: post
      ∧ (∀ y ∈ pre, x.before y = false) ∧ (∀ y, post.head? = some y → x.before y = true))
  ∧ (∀ x y : Crossing, x.before y = true ↔ x.lap < y.lap ∨ (x.lap = y.lap ∧
      ((∃ m n, x.status = .fixed m ∧ y.status = .fixed n ∧ m < n)
      ∨ (x.isProvisional = false ∧ y.isProvisional = true)
      ∨ (x.isProvisional = true ∧ y.isProvisional = true ∧ (earlier x.time y.time = true
        ∨ (x.time = y.time ∧ (y.rankS < x.rankS ∨ (x.rankS = y.rankS ∧ x.slot < y.slot))))))))
  ∧ (∀ s : State, (∀ i y, (s.car i).last = some y → y.lap ≤ s.leaderLap)
      ∧ (s.leaderLap ≠ 0 → ∃ i y, (s.car i).last = some y ∧ y.lap = s.leaderLap))
  ∧ ∀ (x : Crossing) (s : State),
    let mayGo (y : Crossing) : Prop := y.isProvisional = false ∧ y.lap + 1 < s.leaderLap ∧ y.lap < s.params.laps + 1
    let isLate : Prop := ∃ t, (s.lap x.lap).time = some t ∧ earlier x.time t = true
    let room (xs : List Crossing) : Prop := (s.crossings.length < 128 ∧ xs = s.crossings)
      ∨ (128 ≤ s.crossings.length ∧ ∃ pre y post, s.crossings = pre ++ y :: post ∧ mayGo y ∧ (∀ z ∈ pre, ¬mayGo z)
        ∧ xs = pre ++ post)
    (128 ≤ s.crossings.length → (∀ y ∈ s.crossings, ¬mayGo y) → enterCrossing s x
      = { s.setCar x.slot { s.car x.slot with unplaced := true } with crossingLost := bump s.crossingLost })
    ∧ (∀ xs, room xs → isLate → enterCrossing s x = fixRecord x true { s with crossings := xs })
    ∧ (∀ xs, room xs → ¬isLate → ∃ t, t = { s with crossings := insertCrossing x xs } ∧ enterCrossing s x
      = t.setLap x.lap { s.lap x.lap with
          deadline := (t.firstProvisional x.lap).map fun y => addTime y.time s.params.settle })

/-- At a settle deadline, outside a hold's suspension, the lap's first PROVISIONAL record becomes FIXED with a placing where its
time plus settle is reached, or where every other LIVE, COASTING or PARKED car whose last lap is lower has a later last sample;
no FIXED record changes (R98, R99, R100, R103, R104). Only the first PROVISIONAL record of a lap, in list order, is tested: one
that meets neither condition stays and ends the lap's fixings, one that meets one is fixed and the next is tested; where no lap
has one that meets either, nothing changes. A pass takes the laps 1 to laps + 1 in order, and passes follow while they finish a
car; where that takes the race from RUNNING
to FINISHING, the closing tests have been made and have not closed it (R126, R127). The bound on hold_lead is its range (R110).
A deadline not reached, or suspended, has no effect, the model's choice (notes/assumptions/6.md). -/
def Obligations.SettleDeadline : Prop :=
  let settles (s : State) (x : Crossing) : Prop :=
    s.suspended = false ∧ atOrAfter s.clock (addTime x.time s.params.settle) = true
  let proves (s : State) (x : Crossing) : Prop :=
    ∀ i, i ≠ x.slot → (s.car i).state ∈ [CarState.live, .coasting, .parked] →
      ∀ y, (s.car i).last = some y → y.lap < x.lap → later y.time x.time = true
  (∀ (k n : Nat) (s : State) (x : Crossing),
    (s.firstProvisional k = some x ↔ ∃ pre post, s.crossings = pre ++ x :: post ∧ x.lap = k ∧ x.isProvisional = true
      ∧ ∀ y ∈ pre, y.lap = k → y.isProvisional = false)
    ∧ (s.firstProvisional k = none → fixLap k n s = s)
    ∧ (s.firstProvisional k = some x → ¬settles s x → ¬proves s x → fixLap k n s = s)
    ∧ (s.firstProvisional k = some x → settles s x ∨ proves s x →
        fixLap k (n + 1) s = fixLap k n (fixRecord x false s)))
  ∧ (∀ s : State,
    let pass (u : State) : State := (List.range' 1 (u.params.laps + 1)).foldl (fun v k => fixLap k v.crossings.length v) u
    let finishes (u : State) : Nat := (u.lap (u.params.laps + 1)).count
    (s.race.state ∈ [RaceState.idle, .grid, .closed] → evaluate s = s)
    ∧ (s.race.state ∉ [RaceState.idle, .grid, .closed] → ∃ n ≤ 13, let u := pass^[n] s
      (1 ≤ n ∧ (n < 13 → finishes u = finishes (pass^[n - 1] s))
        ∧ ∀ m, m + 1 < n → finishes (pass^[m + 1] s) ≠ finishes (pass^[m] s))
      ∧ evaluate s = if s.race.state ≠ .finishing ∧ u.race.state = .finishing then closingTests u
        else if finishes u = finishes s then u else fieldTest u))
  ∧ ∀ (k : Nat) (s : State),
    (s.suspended = true ∨ (s.lap k).deadline = none → exec (.settleDeadlineExpiry k) s = .next s)
    ∧ (∀ d, (s.lap k).deadline = some d → atOrAfter s.clock d = false → exec (.settleDeadlineExpiry k) s = .next s)
    ∧ (∀ d, (s.lap k).deadline = some d → s.suspended = false → atOrAfter s.clock d = true →
      ∃ t, exec (.settleDeadlineExpiry k) s = .next t ∧ RaceEffect s t
        ∧ (∀ y ∈ s.crossings, y.isProvisional = false → y ∈ t.crossings)
        ∧ (s.race.state = .running → t.race.state = .finishing →
            t.fieldDone = false ∧ ∀ g, t.race.grace = some g → atOrAfter t.clock g = false)
        ∧ ((∀ j x, 1 ≤ j → j ≤ s.params.laps + 1 → s.firstProvisional j = some x → ¬settles s x ∧ ¬proves s x) → t = s)
        ∧ (∀ x, s.firstProvisional k = some x → settles s x ∨ proves s x →
            1 ≤ k → k ≤ s.params.laps + 1 → s.params.holdLead ≤ 1000000 →
            s.race.state ≠ .idle → s.race.state ≠ .grid → s.race.state ≠ .closed →
            x ∉ t.crossings ∧ ∃ n, { x with status := .fixed n } ∈ t.crossings))

/-- The race closes by CLOSE in RUNNING, FINISHING and HOLD and by the grace deadline in FINISHING: every record is FIXED and
the classification formed (R106, R127, R128). From HOLD, T_h and the remembered state are absent and every LIVE and COASTING car
is aged with the whole hold in its age (R34); a car whose finish crossing is fixed is FINISHED; RACE_CLOSED is raised last, with
event time now and no slot (R128). The field test closes a FINISHING race once no enabled car stands outside FINISHED, RETIRED
and LOST, and the closing tests then or at the grace deadline (R127). The deadline does nothing before its time or in another
state, the model's choice (notes/assumptions/6.md). -/
def Obligations.RaceCloses : Prop :=
  ∀ s : State,
    (∀ c, s.asks c [0x35] → (s.race.state = .running ∨ s.race.state = .finishing ∨ s.race.state = .hold) →
      ∃ u, exec .close s = .next (answer c .ok [] u) ∧ RaceClosed u ∧ CloseTaken s u ∧ RaceEffect s.dropHead u)
    ∧ (∀ g, s.race.state = .finishing → s.race.grace = some g →
      (atOrAfter s.clock g = true → ∃ t, exec .graceDeadlineExpiry s = .next t ∧ RaceClosed t ∧ CloseTaken s t
        ∧ RaceEffect s t)
      ∧ (atOrAfter s.clock g = false → exec .graceDeadlineExpiry s = .next s))
    ∧ (s.race.state ≠ .finishing ∨ s.race.grace = none → exec .graceDeadlineExpiry s = .next s)
    ∧ (let out : Prop := ∀ i, (s.car i).enabled = true → (s.car i).state ∈ [CarState.finished, .retired, .lost]
      let reached : Prop := ∃ g, s.race.grace = some g ∧ atOrAfter s.clock g = true
      (s.fieldDone = true ↔ out)
      ∧ (s.race.state = .finishing → out → RaceClosed (fieldTest s) ∧ CloseTaken s (fieldTest s))
      ∧ (s.race.state ≠ .finishing ∨ ¬out → fieldTest s = s)
      ∧ (s.race.state = .finishing → reached ∨ out → RaceClosed (closingTests s) ∧ CloseTaken s (closingTests s))
      ∧ (s.race.state ≠ .finishing ∨ (¬reached ∧ ¬out) → closingTests s = s))

/-- The crossings between two samples lie, in order, at or after the first sample's time and at or before the second's, one
for each lap entered (R91). A crossing earlier than T_green stands at T_green with JUMP, any other keeps its time; all of one
sample share its s, and more than one are MULTI; those into laps up to laps + 1 are recorded, in order (R92, R93). In COUNTDOWN
the test against T_green alone decides, the model's choice (notes/assumptions/27.md), and a late crossing keeps T_green, the
model's choice (notes/assumptions/28.md). A FINISHED car reveals none; a risen lap
without a previous sample, or with one beyond the lap's length, makes its car unplaced (R90, R92). -/
def Obligations.CrossingTimes : Prop :=
  (∀ (i : Slot) (L : Nat) (a b : Sample) (k : Nat), a.s < L → 0 ≤ timeDiff b.time a.time →
    let x (j : Nat) := crossingAt i L none a b k j
    (∀ j, 1 ≤ j → j ≤ k → (x j).lap = a.lap + j ∧ (x j).slot = i
      ∧ 0 ≤ timeDiff (x j).time a.time ∧ timeDiff (x j).time a.time ≤ timeDiff b.time a.time
      ∧ 2 * (timeDiff (x j).time a.time * ((k * L + b.s : Int) - a.s)
          - timeDiff b.time a.time * ((j * L : Int) - a.s)).natAbs ≤ ((k * L + b.s : Int) - a.s).natAbs)
    ∧ (∀ j, 1 ≤ j → j + 1 ≤ k → timeDiff (x j).time a.time ≤ timeDiff (x (j + 1)).time a.time))
  ∧ (∀ (i : Slot) (L : Nat) (green : Option RaceTime) (a b : Sample) (k j : Nat),
    let x := crossingAt i L none a b k j
    let y := crossingAt i L green a b k j
    let early : Prop := ∃ g, green = some g ∧ earlier x.time g = true
    y.slot = i ∧ y.lap = a.lap + j ∧ y.rankS = b.s ∧ y.status = .provisional ∧ (y.multi = true ↔ 1 < k) ∧ y.late = false
    ∧ (early → some y.time = green ∧ y.jump = true)
    ∧ (¬early → y.time = x.time ∧ y.jump = false))
  ∧ (∀ (s : State) (i : Slot) (q x : Sample),
    (∀ c, c ∈ foundCrossings s i q x ↔ ∃ j, 1 ≤ j ∧ j ≤ x.lap - q.lap ∧ q.lap + j ≤ s.params.laps + 1
      ∧ c = crossingAt i s.params.lapLength s.race.tGreen q x (x.lap - q.lap) j)
    ∧ (foundCrossings s i q x).Pairwise fun c d => c.lap < d.lap)
  ∧ ∀ (s : State) (i : Slot) (q : Option Sample) (x : Sample),
    ((s.car i).state = .finished ∨ (q = none ∧ x.lap = 0) ∨ (∃ y, q = some y ∧ x.lap ≤ y.lap) →
      enterCrossings i q x s = s)
    ∧ ((s.car i).state ≠ .finished →
      ((q = none ∧ 0 < x.lap) ∨ (∃ y, q = some y ∧ y.lap < x.lap ∧ s.params.lapLength ≤ y.s) →
        enterCrossings i q x s = s.setCar i { s.car i with unplaced := true })
      ∧ (∀ y, q = some y → y.lap < x.lap → y.s < s.params.lapLength →
        enterCrossings i q x s = (foundCrossings s i y x).foldl enterCrossing s))

/-- The classification holds every enabled slot once, in positions 1, 2, 3 …: FINISHED cars by finish placing, then those
still running, then RETIRED and LOST, each by lap, highest first, and within a lap, of two cars with samples, the one without
the unplaced flag, then the one further on, then the lower slot first. An entry's number, lap, state, flags and, for a FINISHED
car alone, finish placing are its Car Record's, and its finish time is that of its record into lap laps + 1 (R107, R108). -/
def Obligations.ClassificationOrder : Prop :=
  ∀ s : State,
    ((classify s).map fun e => e.slot).Nodup
    ∧ (∀ i, i ∈ ((classify s).map fun e => e.slot) ↔ (s.car i).enabled = true)
    ∧ ((classify s).map fun e => e.position) = List.range' 1 (classify s).length
    ∧ (∀ e ∈ classify s, e.lap = (s.car e.slot).lap ∧ e.state = (s.car e.slot).state
        ∧ (e.group = .finished ↔ (s.car e.slot).state = .finished)
        ∧ (e.group = .out ↔ (s.car e.slot).state = .retired ∨ (s.car e.slot).state = .lost)
        ∧ e.number = (s.car e.slot).number ∧ e.unplaced = (s.car e.slot).unplaced ∧ e.jump = (s.car e.slot).jump
        ∧ e.finishPlacing = (if (s.car e.slot).state = .finished then (s.car e.slot).finishPlacing else none)
        ∧ (let finish (x : Crossing) : Prop := x.slot = e.slot ∧ x.lap = s.params.laps + 1
          ((s.car e.slot).state ≠ .finished → e.finishTime = none)
          ∧ ((∀ x ∈ s.crossings, ¬finish x) → e.finishTime = none)
          ∧ ∀ pre x post, s.crossings = pre ++ x :: post → finish x → (∀ y ∈ pre, ¬finish y) →
            (s.car e.slot).state = .finished → e.finishTime = some x.time))
    ∧ (classify s).Pairwise fun a b =>
      a.group.code.toNat ≤ b.group.code.toNat
      ∧ (a.group = b.group → a.group = .finished →
          (a.finishPlacing.getD 0 < b.finishPlacing.getD 0)
          ∨ (a.finishPlacing.getD 0 = b.finishPlacing.getD 0 ∧ a.slot < b.slot))
      ∧ (a.group = b.group → a.group ≠ .finished → b.lap ≤ a.lap ∧ (a.lap = b.lap →
          ∀ x y, (s.car a.slot).last = some x → (s.car b.slot).last = some y →
            (a.unplaced = false ∧ b.unplaced = true)
            ∨ (a.unplaced = b.unplaced ∧ (y.s < x.s ∨ (x.s = y.s ∧ a.slot < b.slot)))))
      ∧ (a.group = b.group → a.group ≠ .finished → a.lap = b.lap → (s.car a.slot).last = none →
          (s.car b.slot).last = none ∧ (a.unplaced = b.unplaced → a.slot < b.slot))

/-! ### The race -/

/-- OPEN_GRID in IDLE enters GRID when the lap relation holds and is refused with RANGE otherwise; ABORT_START in COUNTDOWN
returns to GRID, T_green absent, with a START_ABORT cue for every ACTIVE port, unless a car has been counted over the line. A
race command that its race state does not take is refused with STATE (R111, R113, R114, R116, R118, R123, R128). -/
def Obligations.GridAndRefusals : Prop :=
  ∀ (s : State) (c : Command),
    let refused (i : Instr) : Prop := exec i s = .next (answer c .state [] s.dropHead)
    (s.asks c [0x30] → s.race.state ≠ .idle → refused .openGrid)
    ∧ (s.asks c [0x31] → s.race.state ≠ .grid → refused .start)
    ∧ (s.asks c [0x32] → s.race.state ≠ .countdown → refused .abortStart)
    ∧ (s.asks c [0x33] → s.race.state ≠ .running → s.race.state ≠ .finishing → refused .hold)
    ∧ (s.asks c [0x34] → s.race.state ≠ .hold → refused .resume)
    ∧ (s.asks c [0x35] → s.race.state ≠ .running → s.race.state ≠ .finishing → s.race.state ≠ .hold → refused .close)
    ∧ (s.asks c [0x30] → s.race.state = .idle →
      (2 * max s.params.jumpDist (s.params.proxLong + s.params.hyst) < s.params.lapLength →
        exec .openGrid s = .next (answer c .ok [] { s.dropHead with race := { s.race with state := .grid } }))
      ∧ (s.params.lapLength ≤ 2 * max s.params.jumpDist (s.params.proxLong + s.params.hyst) →
        exec .openGrid s = .next (answer c .range [] s.dropHead)))
    ∧ (s.asks c [0x32] → s.race.state = .countdown →
      (s.crossings = [] → (∀ i, (s.car i).lap = 0) →
        ∃ u, exec .abortStart s = .next (answer c .ok [] u) ∧ RouteEffect s.dropHead u
          ∧ u.race = { s.race with state := .grid, tGreen := none }
          ∧ ∀ p, (s.port p).phase = .active → (s.port p).wire.isSome = true → (s.port p).cues.length < 8 →
            (u.port p).cues = (s.port p).cues ++ [{ code := 0xFE, slots := [], time := s.clock }])
      ∧ (s.crossings ≠ [] ∨ (∃ i, 0 < (s.car i).lap) →
        exec .abortStart s = .next (answer c .state [] s.dropHead)))

/-- START in GRID: T_green lies light_count + 1 steps ahead, the race enters COUNTDOWN, and under the default routes every
ACTIVE port with an empty Cue Queue and a busy line holds the light cues, one step apart, and the green cue (R114, R141 to
R143). -/
def Obligations.StartTaken : Prop :=
  ∀ (s : State) (c : Command), s.asks c [0x31] → s.race.state = .grid →
    let g := addTime s.clock ((s.params.lightCount + 1) * s.params.lightStep : Nat)
    ∃ u, exec .start s = .next (answer c .ok [] u) ∧ RouteEffect s.dropHead u
      ∧ u.race = { s.race with state := .countdown, tGreen := some g }
      ∧ ∀ p, s.routes = defaultRoutes → s.params.lightCount < 8 → (s.port p).phase = .active →
        (s.port p).wire.isSome = true → (s.port p).cues = [] →
        (u.port p).cues = ((List.range' 1 s.params.lightCount).reverse.map fun i =>
            ({ code := 0x01, slots := [], time := addTime g (-(i * s.params.lightStep : Nat)) } : Cue))
          ++ [{ code := 0x02, slots := [], time := g }]

/-- HOLD in RUNNING and FINISHING: T_h lies hold_lead ahead, the state is remembered, and each ACTIVE port that owns an
enabled slot with a LIVE or COASTING car, in port order, is called for the frame of T_h and awaited. RESUME in HOLD: T_r lies
hold_lead ahead, each ACTIVE port that owns an enabled slot is called for the frame of T_r, and RESUME_BEGIN is raised with event
time now and no slot (R118, R123). -/
def Obligations.HoldAndResumeCalled : Prop :=
  ∀ (s : State) (c : Command),
    let lead := addTime s.clock s.params.holdLead
    let called (p : PortNo) : Prop := (s.port p).phase = .active ∧
      ∃ i, s.owns p i = true ∧ ((s.car i).state = .live ∨ (s.car i).state = .coasting)
    (∀ p, s.getsHoldCall p = true ↔ called p)
    ∧ (s.asks c [0x33] → (s.race.state = .running ∨ s.race.state = .finishing) →
      ∃ u, exec .hold s = .next (answer c .ok [] u) ∧ RouteEffect s.dropHead u
        ∧ u.race = { s.race with
            state := .holdPending, tH := some lead, remembered := some s.race.state,
            acks := (allPorts.filter s.getsHoldCall).map fun p => ⟨p, inverse (s.timing p) lead, false⟩ }
        ∧ ∀ p, called p → (s.port p).wire.isSome = true → (s.port p).calls.length < 4 →
          (u.port p).calls = (s.port p).calls ++ [s.mkFrame p (.holdCall (inverse (s.timing p) lead))])
    ∧ (s.asks c [0x34] → s.race.state = .hold →
      ∃ u, exec .resume s = .next (answer c .ok [] u) ∧ RouteEffect s.dropHead u
        ∧ u.race = { s.race with state := .resumePending, tR := some lead }
        ∧ Noticed (s.noticesFor [{ kind := .resumeBegin, time := s.clock, slots := [], fault := none }]) s u
        ∧ ∀ p, (s.port p).phase = .active → (s.port p).wire.isSome = true → (s.port p).calls.length < 4 →
          ((∃ i, s.owns p i = true) →
            (u.port p).calls = (s.port p).calls ++ [s.mkFrame p (.resumeCall (inverse (s.timing p) lead))])
          ∧ ((∀ i, s.owns p i = false) → (u.port p).calls = (s.port p).calls))

/-- The race's own timers. At T_green COUNTDOWN becomes RUNNING, or with finish seen FINISHING, grace from T_green, and the
race closes at once when its closing tests say so; at T_h the race enters HOLD once every entry is acked, and hold_timeout
later with an entry not acked, after the NOTICE HOLD_INCOMPLETE with T_h and the unacked ports; on either way HOLD_BEGIN is
raised (R115, R119, R127). Each does nothing before its time, the model's choice (notes/assumptions/6.md). -/
def Obligations.RaceTimersExpire : Prop :=
  ∀ s : State,
    (∀ g, s.race.state = .countdown → s.race.tGreen = some g →
      (atOrAfter s.clock g = false → exec .tGreenExpiry s = .next s)
      ∧ (atOrAfter s.clock g = true → s.race.finishSeen = false →
        exec .tGreenExpiry s = .next { s with race := { s.race with state := .running } })
      ∧ (atOrAfter s.clock g = true → s.race.finishSeen = true →
        let grace := addTime g s.params.grace
        (atOrAfter s.clock grace = false → s.fieldDone = false → exec .tGreenExpiry s
          = .next { s with race := { s.race with state := .finishing, grace := some grace } })
        ∧ (atOrAfter s.clock grace = true ∨ s.fieldDone = true →
          ∃ t, exec .tGreenExpiry s = .next t ∧ RaceClosed t ∧ RaceEffect s t)))
    ∧ (∀ h, s.race.state = .holdPending → s.race.tH = some h →
      let latest := addTime h s.params.holdTimeout
      let begun : Event := { kind := .holdBegin, time := s.clock, slots := [], fault := none }
      (atOrAfter s.clock h = false → exec .tHExpiry s = .next s)
      ∧ (atOrAfter s.clock h = true → (∀ a ∈ s.race.acks, a.acked = true) →
        ∃ t, exec .tHExpiry s = .next t ∧ t.race = { s.race with state := .hold, acks := [] } ∧ RouteEffect s t
          ∧ Noticed (s.noticesFor [begun]) s t)
      ∧ ((∃ a ∈ s.race.acks, a.acked = false) → exec .tHExpiry s = .next s)
      ∧ (atOrAfter s.clock latest = false ∨ (∀ a ∈ s.race.acks, a.acked = true) → exec .holdTimeout s = .next s)
      ∧ (atOrAfter s.clock latest = true → (∃ a ∈ s.race.acks, a.acked = false) →
        ∃ t, exec .holdTimeout s = .next t ∧ t.race = { s.race with state := .hold, acks := [] } ∧ RouteEffect s t
          ∧ Noticed (.notice (.holdIncomplete h ((s.race.acks.filter fun a => decide (a.acked = false)).map fun a => a.port))
              :: s.noticesFor [begun]) s t
          ∧ (s.roleHolder = none → ∀ p, (s.port p).wire.isSome = true → (t.port p).outbox = (s.port p).outbox)))

/-- At T_r the hold ends: every stored sample time, every crossing time and, where no fixing has set it anew, every lap's fixed
time moves later by T_r − T_h; FIXED records stay as they are otherwise, PROVISIONAL ones may become FIXED (R34, R104, R124).
The race leaves RESUME_PENDING with no resume time. Where no valid route asks AUTO_HOLD it returns to the remembered state:
FINISHING with its grace deadline moved by as much, or closed by a closing test; RUNNING, unless a finish is fixed at once
(R124, R126, R127). Before T_r nothing happens, the model's choice (notes/assumptions/6.md). -/
def Obligations.HoldEnds : Prop :=
  ∀ (s : State) (h r : RaceTime), s.race.state = .resumePending → s.race.tH = some h → s.race.tR = some r →
    (s.race.remembered = some .running ∨ s.race.remembered = some .finishing) →
    let shifted (x : Sample) : Sample := { x with time := x.time + (r - h) }
    let held (t : State) : Prop := t.race.tH = none ∧ t.race.remembered = none
    (atOrAfter s.clock r = false → exec .tRExpiry s = .next s)
    ∧ (atOrAfter s.clock r = true → ∃ t, exec .tRExpiry s = .next t
      ∧ (∀ i, (t.car i).last = (s.car i).last.map shifted ∧ (t.car i).prev = (s.car i).prev.map shifted)
      ∧ (∀ x ∈ s.crossings, ∃ st, { x with time := x.time + (r - h), status := st } ∈ t.crossings
        ∧ (x.isProvisional = false → st = x.status))
      ∧ (∀ k, (t.lap k).count = (s.lap k).count → (t.lap k).time = (s.lap k).time.map fun y => y + (r - h))
      ∧ t.race.state ≠ .resumePending ∧ t.race.state ≠ .hold ∧ t.race.tR = none
      ∧ ((∀ x ∈ s.routes.toList, x.valid = true → x.action ≠ .autoHold) →
        (s.race.remembered = some .finishing → held t ∧ ((t.race.state = .finishing
            ∧ t.race.grace = s.race.grace.map fun y => y + (r - h)) ∨ RaceClosed t))
        ∧ (s.race.remembered = some .running → held t
          ∧ (t.race.state = .running ∨ t.race.state = .finishing ∨ t.race.state = .closed)
          ∧ (s.params.laps ≤ 99 → (t.lap (s.params.laps + 1)).count = (s.lap (s.params.laps + 1)).count →
            t.race.state = .running))))

/-- RESET_RACE in every race state: the race, its lists and tables and the cars as after a race reset, waiting calls, cues
and placings withdrawn, and a RACE_RESET cue for every ACTIVE port, taken at once by an idle line; everything else untouched:
the parameters, routes, patterns and counters, and of a port all but those waiting frames: its state, entry, timing record,
set in flight, training, quiet gates and class 1 and 5 frames (R28, R66, R89, R130, R148). -/
def Obligations.RaceResetClearsRace : Prop :=
  ∀ (s : State) (c : Command), s.asks c [0x36] →
    ∃ u, exec .resetRace s = .next (answer c .ok [] u)
      ∧ u.race = resetRaceRecord ∧ u.crossings = [] ∧ u.classification = [] ∧ u.contacts = []
      ∧ (∀ k, u.lap k = emptyLap)
      ∧ (∀ i, u.car i = { s.car i with
          state := if (s.car i).enabled then .assigned else .free, last := none, prev := none, gridS := none,
          jump := false, unplaced := false, finishPlacing := none, coastTimer := none, loseTimer := none })
      ∧ u.clock = s.clock ∧ u.params = s.params ∧ u.routes = s.routes ∧ u.patterns = s.patterns
      ∧ u.crossingLost = s.crossingLost ∧ u.mgmt = s.dropHead.mgmt ∧ u.resetLow = s.resetLow ∧ u.free = s.free
      ∧ ∀ p, SameLink (s.port p) (u.port p) ∧ (u.port p).counters = (s.port p).counters
        ∧ let cue : Cue := { code := 0xFF, slots := [], time := s.clock }
          let withdrawn : Port := { s.port p with calls := [], cues := [], placings := [] }
          ((s.port p).phase ≠ .active → u.port p = withdrawn)
          ∧ ((s.port p).phase = .active → (s.port p).wire.isSome = true → u.port p = { withdrawn with cues := [cue] })
          ∧ ((s.port p).phase = .active → (s.port p).wire = none → (s.port p).class1 = [] → u.port p = { withdrawn with
              wire := some { frame := s.cueFrame p cue, sent := s.clock, rate := (s.port p).entry.linkRate } })

/-! ### Contacts and events -/

/-- A pair enters the Contact Pair Set within the inner window with CONTACT_BEGIN and leaves it beyond the outer one with
CONTACT_END, the sampling car's slot first; between them it keeps whatever it had (R136). A sample that leaves its car LIVE is
tested, in slot order, against each other car that is LIVE or COASTING and has a sample, projected to the sample's time from
the state in which it was stored (R135). A car that leaves LIVE or COASTING loses its pairs, with CONTACT_END for each in the
set's order, after the event of its own change; a change between the two states keeps them (R137). -/
def Obligations.ContactWindows : Prop :=
  (∀ (c o : Slot) (g dd : Int) (s : State),
    let pair := if c < o then (c, o) else (o, c)
    let inside := g.natAbs ≤ s.params.proxLong ∧ dd.natAbs ≤ s.params.proxLat
    let outside := s.params.proxLong + s.params.hyst < g.natAbs ∨ s.params.proxLat + s.params.hyst < dd.natAbs
    (pair ∉ s.contacts → inside → ∃ cs, (∀ q, q ∈ cs ↔ q = pair ∨ q ∈ s.contacts)
        ∧ contactTest c o g dd s = raiseNow .contactBegin [c, o] { s with contacts := cs })
    ∧ (pair ∉ s.contacts → ¬inside → contactTest c o g dd s = s)
    ∧ (pair ∈ s.contacts → outside → ∃ cs, (∀ q, q ∈ cs ↔ q ≠ pair ∧ q ∈ s.contacts)
        ∧ contactTest c o g dd s = raiseNow .contactEnd [c, o] { s with contacts := cs })
    ∧ (pair ∈ s.contacts → ¬outside → contactTest c o g dd s = s))
  ∧ (∀ (stored : State) (c : Slot) (x : Sample) (s : State),
    ((s.car c).state ≠ .live → contactSample stored c x s = s)
    ∧ ((s.car c).state = .live → contactSample stored c x s = allSlots.foldl (contactOne stored c x) s)
    ∧ ∀ o, let present := (s.car o).state = .live ∨ (s.car o).state = .coasting
      (o = c ∨ ¬present ∨ (stored.car o).last = none → contactOne stored c x s o = s)
      ∧ (∀ y, o ≠ c → present → (stored.car o).last = some y →
        let r := projectSample stored.params stored.race y x.time
        contactOne stored c x s o = contactTest c o (gap x.s r.s s.params.lapLength) (x.d - r.d) s))
  ∧ ∀ (i : Slot) (new : CarRecord) (event : Option EventKind) (s : State),
    let told (u : State) : State := match event with
      | some k => raiseNow k [i] u
      | none => u
    (new.state = .live ∨ new.state = .coasting → changeCar i new event s = told (s.setCar i new))
    ∧ (new.state ≠ .live → new.state ≠ .coasting →
      let mine := s.contacts.filter fun c => decide (c.1 = i ∨ c.2 = i)
      let others := s.contacts.filter fun c => decide (c.1 ≠ i ∧ c.2 ≠ i)
      changeCar i new event s
        = mine.foldl (fun u c => raiseNow .contactEnd [i, if c.1 = i then c.2 else c.1] u)
            (told { s.setCar i new with contacts := others }))

/-- An event acts through the valid routes of its kind whose filter is ANY or one of its slots, in index order; one that no
route matches changes nothing, and no event touches a port that is not ACTIVE (R142). A CUE route offers each ACTIVE port of
its target set a cue with its code, the event's slots and the event's time plus its lead: the cue joins the Cue Queue's tail
(an idle line with nothing before it takes it at once), and is dropped under CUE_DROP where 8 wait (R143, R146, R147). A NOTIFY
route queues the notice for the director, and nothing while the role is vacant (R144); 16 waiting notices lose it (R169). An
AUTO_HOLD route calls a hold as HOLD does where HOLD is taken, and is ignored elsewhere (R118, R145). -/
def Obligations.EventsRouted : Prop :=
  ∀ (e : Event) (s : State),
    (∀ r : Route, r.matches e = true ↔ r.valid = true ∧ r.kind = e.kind ∧ (∀ i, r.filter = some i → i ∈ e.slots))
    ∧ raise e s = (s.routes.toList.filter fun r => r.matches e).foldl (routeAct e) s
    ∧ ((∀ r ∈ s.routes.toList, r.matches e = false) → raise e s = s)
    ∧ (∀ p, (s.port p).phase ≠ .active → (raise e s).port p = s.port p)
    ∧ RouteEffect s (raise e s)
    ∧ ∀ r : Route,
      let t := routeAct e s r
      let sends (q : Port) (f : HubFrame) : Port :=
        { q with wire := some { frame := f, sent := s.clock, rate := q.entry.linkRate } }
      (r.action = .cue → t = { s with ports := t.ports } ∧ ∀ p,
        let q := s.port p
        let targeted : Prop := r.target = .all ∨ (r.target = .involved ∧ ∃ i ∈ e.slots, (s.car i).owner = p)
          ∨ (r.target = .mask ∧ r.mask.getLsbD p.val = true)
        let cue : Cue := { code := r.code, slots := e.slots, time := addTime e.time r.lead }
        (¬targeted ∨ q.phase ≠ .active → t.port p = q)
        ∧ (targeted → q.phase = .active →
          (8 ≤ q.cues.length → t.port p = { q with counters := { q.counters with cueDrop := bump q.counters.cueDrop } })
          ∧ (q.cues.length < 8 → q.wire.isSome = true → t.port p = { q with cues := q.cues ++ [cue] })
          ∧ (q.wire = none → q.class1 = [] → q.calls = [] → q.cues = [] → t.port p = sends q (s.cueFrame p cue))))
      ∧ (r.action = .notify →
        (s.roleHolder = none → t = s)
        ∧ ∀ d, s.roleHolder = some d →
          let q := s.port d
          let notice := s.mkFrame d (.notice (.event e))
          (16 ≤ q.notices.length → t = s)
          ∧ (q.notices.length < 16 → q.wire.isSome = true → t = s.setPort d { q with outbox := q.outbox ++ [notice] })
          ∧ (q.wire = none → q.class1 = [] → q.calls = [] → q.cues = [] → q.placings = [] → q.outbox = [] →
            t = s.setPort d (sends q notice)))
      ∧ (r.action = .autoHold →
        (s.race.state ≠ .running → s.race.state ≠ .finishing → t = s)
        ∧ (s.race.state = .running ∨ s.race.state = .finishing →
          let tH := addTime s.clock s.params.holdLead
          t.race = { s.race with
            state := .holdPending, tH := some tH, remembered := some s.race.state,
            acks := (allPorts.filter s.getsHoldCall).map fun p => ⟨p, inverse (s.timing p) tH, false⟩ }
          ∧ RouteEffect s t
          ∧ ∀ p, s.getsHoldCall p = true → (s.port p).wire.isSome = true → (s.port p).calls.length < 4 →
            (t.port p).calls = (s.port p).calls ++ [s.mkFrame p (.holdCall (inverse (s.timing p) tH))]))

/-! ### Management -/

/-- Rights: a port that does not hold the role is answered PRIVILEGE to every command but READ_STATUS, READ_PORT of itself and
READ_ENTRIES and SCAN on the Car Table, the Crossing List and the Classification; WRITE_ENTRIES to a table without write
access is answered PRIVILEGE even to the director; an unknown code is answered UNKNOWN. A sender with the right whose payload is
shorter or longer than its command's layout, or names no port, slot or table, is answered RANGE, a WRITE_ENTRIES with 0 written;
the layouts of the writable tables and the fields and modes of SCAN are O54's and O53's. Nothing else changes (R177, R178, R197).
The PRIVILEGE reply to a WRITE_ENTRIES carries its data with 0 written: R196, as the model reads it (DEDUCED,
notes/assumptions/12.md). -/
def Obligations.RightsChecked : Prop :=
  (∀ (n : Nat) (t : Table), tableOf n = some t ↔ ([.carTable, .raceParameters, .portTable, .viewOrderLists, .eventRouteTable,
    .trainingPatterns, .crossingList, .classification, .contactPairSet] : List Table)[n]? = some t)
  ∧ ∀ (s : State) (c : Command), s.head = some c →
    (s.holdsRole c.sender = false →
      (∀ code ∈ ([0x03, 0x20, 0x21, 0x22, 0x23, 0x30, 0x31, 0x32, 0x33, 0x34, 0x35, 0x36, 0x40, 0x41, 0x42] : List Byte),
        c.payload.head? = some code → exec (commandRow c) s = .next (answer c .privilege [] s.dropHead))
      ∧ (c.payload.head? = some 0x02 → c.payload[1]? ≠ some (portByte c.sender) →
        exec (commandRow c) s = .next (answer c .privilege [] s.dropHead))
      ∧ (c.payload.head? = some 0x10 ∨ c.payload.head? = some 0x12 →
        c.table ≠ some .carTable → c.table ≠ some .crossingList → c.table ≠ some .classification →
        exec (commandRow c) s = .next (answer c .privilege [] s.dropHead))
      ∧ (c.payload.head? = some 0x11 → exec (commandRow c) s = .next (answerWrite c .privilege 0 s.dropHead)))
    ∧ (c.payload.head? = some 0x11 →
        c.table = some .crossingList ∨ c.table = some .classification ∨ c.table = some .contactPairSet →
        commandRow c = .writeNoAccessTable
          ∧ exec .writeNoAccessTable s = .next (answerWrite c .privilege 0 s.dropHead))
    ∧ (∀ code, c.payload.head? = some code → code ∉ knownCodes → commandRow c = .unknownCommand
        ∧ exec .unknownCommand s = .next (answer c .unknown [] s.dropHead))
    ∧ let director : Prop := s.holdsRole c.sender = true
      let is (code : Byte) : Prop := c.payload.head? = some code
      let mayRead : Prop := director ∨ c.table = some .carTable ∨ c.table = some .crossingList ∨ c.table = some .classification
      let outOfRange (row : Instr) : Prop :=
        commandRow c = row ∧ exec row s = .next (answer c .range [] s.dropHead)
      let alone (code : Byte) (row : Instr) : Prop := director → is code → c.payload.length ≠ 1 → outOfRange row
      let ported (code : Byte) (row : Instr) : Prop :=
        director → is code → (∀ p : PortNo, c.payload ≠ [code, portByte p]) → outOfRange row
      (is 0x01 → c.payload.length ≠ 1 → outOfRange .readStatus)
      ∧ (is 0x02 → director ∨ c.payload[1]? = some (portByte c.sender) →
        (∀ p : PortNo, c.payload ≠ [0x02, portByte p]) → outOfRange .readPort)
      ∧ (director → is 0x03 → (∀ n ≤ 8, c.payload ≠ [0x03, BitVec.ofNat 8 n]) → outOfRange .clearCounters)
      ∧ (is 0x10 → mayRead → c.table = none ∨ c.payload.length ≠ 4 → outOfRange .readEntries)
      ∧ (is 0x12 → mayRead → c.table = none ∨ c.payload.length ≠ 11 → outOfRange .scan)
      ∧ (director → is 0x11 → c.table = none → commandRow c = .writeNoAccessTable
        ∧ exec .writeNoAccessTable s = .next (answerWrite c .range 0 s.dropHead))
      ∧ ported 0x20 .portReset ∧ ported 0x21 .portQuiet ∧ ported 0x22 .portWake ∧ ported 0x23 .sendView
      ∧ ported 0x41 .moveDirector
      ∧ (director → is 0x40 → (∀ i : Slot, c.payload ≠ [0x40, slotByte i]) → outOfRange .retireCar)
      ∧ alone 0x30 .openGrid ∧ alone 0x31 .start ∧ alone 0x32 .abortStart ∧ alone 0x33 .hold ∧ alone 0x34 .resume
      ∧ alone 0x35 .close ∧ alone 0x36 .resetRace ∧ alone 0x42 .resetHub
      ∧ (c.table = none ↔ ∀ b, c.payload[1]? = some b → 9 ≤ b.toNat)

/-- READ_STATUS answers the 39-byte status record and READ_PORT the 59-byte record of the port, to those who may ask;
CLEAR_COUNTERS zeroes a port's counters or the hub's. None changes anything else (R184, R189, R196). Both records are written
out field by field, their codes and byte order as O10 gives them. The status record counts the commands still waiting without
the one being answered (DEDUCED, notes/assumptions/16.md). -/
def Obligations.StatusReadAndCleared : Prop :=
  ∀ (s : State) (c : Command),
    (s.head = some c → c.payload = [0x01] →
      exec .readStatus s = .next (answer c .ok (statusRecord s.dropHead) s.dropHead)
      ∧ (statusRecord s.dropHead).length = 39
      ∧ ∃ present members acked, let r := s.race
        HasFlags present [r.tGreen.isSome, r.tH.isSome, r.tR.isSome, r.grace.isSome, r.finishSeen, s.roleHolder.isSome]
        ∧ (∀ p : PortNo, (members : Byte).getLsbD p.val = true ↔ ∃ a ∈ r.acks, a.port = p)
        ∧ (∀ p : PortNo, (acked : Byte).getLsbD p.val = true ↔ ∃ a ∈ r.acks, a.port = p ∧ a.acked = true)
        ∧ statusRecord s.dropHead = beBytes 4 s.clock.toNat ++ [r.state.code, present] ++ timeOrZeros r.tGreen
          ++ [(r.remembered.map RaceState.code).getD 0xFF] ++ timeOrZeros r.tH ++ timeOrZeros r.tR ++ [members, acked]
          ++ timeOrZeros r.grace ++ [(s.mgmt.director.map fun p => BitVec.ofNat 8 p.val).getD 0xFF]
          ++ ([0, 1, 2, 3, 4, 5, 6, 7].map fun p => (s.port p).phase.code)
          ++ [BitVec.ofNat 8 (s.mgmt.queue.length - 1)] ++ beBytes 2 s.mgmt.cmdBusy.toNat
          ++ beBytes 2 s.crossingLost.toNat)
    ∧ (∀ p, s.head = some c → c.payload = [0x02, portByte p] → (s.holdsRole c.sender = true ∨ p = c.sender) →
      exec .readPort s = .next (answer c .ok (portRecord p s.dropHead) s.dropHead)
      ∧ (portRecord p s.dropHead).length = 59
      ∧ let q := s.port p
        let k := q.counters
        let fault : Byte := if q.phase = .fault then (q.faultReason.map FaultReason.code).getD 0xFF else 0xFF
        let signed (v : Option Int) : List Byte := match v with
          | none => [0x80, 0, 0, 0]
          | some v => beSigned 4 v
        portRecord p s.dropHead = [BitVec.ofNat 8 p.val, q.phase.code, fault, if s.gateOpen p then 1 else 0,
            if q.timing.valid then 1 else 0] ++ beBytes 2 q.timing.delta ++ beBytes 4 q.timing.anchorTime.toNat
          ++ beBytes 2 q.timing.anchorFrame.toNat ++ beBytes 4 q.timing.period ++ signed q.timing.lag
          ++ signed q.timing.residual
          ++ ([k.framesRx, k.framing, k.crcError, k.outOfState, k.accepted, k.noSlot, k.retired, k.held, k.outOfWindow,
            k.stale, k.badPosition, k.badLap, k.lapRegress, k.lapJump, k.clamped, k.viewAbandoned, k.cueDrop].map
              fun n => beBytes 2 n.toNat).flatten)
    ∧ (∀ p, s.asks c [0x03, portByte p] → exec .clearCounters s
      = .next (answer c .ok [] (s.dropHead.modPort p fun q => { q with counters := zeroCounters })))
    ∧ (s.asks c [0x03, 8] → exec .clearCounters s = .next (answer c .ok []
        { s.dropHead with mgmt := { s.dropHead.mgmt with cmdBusy := 0 }, crossingLost := 0 }))

/-- A reply joins class 5 of its port in ACTIVE and QUIET behind what waits there, with the tag of its command, and goes onto
an idle line at once; in another port state, or with 16 replies waiting, it is lost and nothing changes (R168, R169,
R177, R197). -/
def Obligations.ReplyQueued : Prop :=
  ∀ (s : State) (p : PortNo) (tag code : Byte) (st : Status) (data : List Byte),
    let t := s.offerReply p tag code st data
    let f : HubFrame := { portByte := tag, director := s.holdsRole p, body := .reply code st data }
    ((s.port p).phase = .active ∨ (s.port p).phase = .quiet → (s.port p).replies.length < 16 →
      ((s.port p).wire.isSome = true →
        t = s.modPort p fun q => { q with outbox := q.outbox ++ [f] })
      ∧ ((s.port p).wire = none → (s.port p).class1 = [] → (s.port p).calls = [] → (s.port p).cues = [] →
        (s.port p).placings = [] → (s.port p).outbox = [] →
        (t.port p).wire = some { frame := f, sent := s.clock, rate := (s.port p).entry.linkRate }
        ∧ (t.port p).outbox = []))
    ∧ ((s.port p).phase ≠ .active ∧ (s.port p).phase ≠ .quiet ∨ 16 ≤ (s.port p).replies.length → t = s)

/-- READ_ENTRIES answers, to those who may read, as many whole entries from the index on as the count, the table's end and
the 119 bytes of room allow, and INDEX beyond the table's end (R178, R180, R198). The entries of the nine tables hold the bytes
that `EntriesLaidOut` writes out for each (R198, R199); the flag bits of a Crossing List and of a Classification entry are the
model's reading (DEDUCED, notes/assumptions/14.md). -/
def Obligations.EntriesRead : Prop :=
  (∀ s : State, EntriesLaidOut s)
  ∧ ∀ (s : State) (c : Command) (tb ib nb : Byte) (t : Table),
    s.head = some c → c.payload = [0x10, tb, ib, nb] → tableOf tb.toNat = some t →
    (s.holdsRole c.sender = true ∨ t.isPublic = true) → (∀ x ∈ s.patterns.toList, x.bytes.length = 16) →
    let entries := s.tableBytes t
    (∀ e ∈ entries, e.length = t.readSize)
    ∧ (entries.length ≤ ib.toNat → exec .readEntries s = .next (answer c .index [] s.dropHead))
    ∧ (ib.toNat < entries.length → ∃ n, n ≤ nb.toNat ∧ ib.toNat + n ≤ entries.length ∧ n * t.readSize ≤ 119
      ∧ (n = nb.toNat ∨ ib.toNat + n = entries.length ∨ 119 < (n + 1) * t.readSize)
      ∧ exec .readEntries s = .next (answer c .ok
          ([tb, ib, BitVec.ofNat 8 n] ++ ((entries.drop ib.toNat).take n).flatten) s.dropHead))

/-- SCAN passes entries until the count is used up, the table ends, 32 have been examined, or an entry whose field equals the
value (UNTIL_EQUAL) or does not (WHILE_EQUAL) stops it, and answers the index, the count left, whether it matched and the
reason; a field or mode that is none is refused with RANGE (R183, R196, R200). The fields of each table's entries, their
numbers and which of them are absent are those that `FieldsLaidOut` writes out (R198, R200). -/
def Obligations.ScanStops : Prop :=
  (∀ s : State, FieldsLaidOut s)
  ∧ (∀ (fieldNo : Nat) (v : BitVec 32) (whileEqual : Bool) (es : List (List Field)) (start n : Nat),
    let r := scanFrom fieldNo v whileEqual 32 (es.drop start) start n
    let equal (k : Nat) : Bool := decide ((es.getD k []).getD fieldNo none = some v)
    r.index = start + (n - r.remaining) ∧ r.remaining ≤ n ∧ r.index ≤ start + 32
    ∧ (∀ k, start ≤ k → k < r.index → k < es.length ∧ equal k = whileEqual)
    ∧ (r.reason = 0 ↔ r.remaining = 0)
    ∧ (r.reason = 3 ↔ 0 < r.remaining ∧ es.length ≤ r.index)
    ∧ (r.reason = 2 ↔ 0 < r.remaining ∧ r.index < es.length ∧ r.index = start + 32)
    ∧ (r.reason = 1 ↔ 0 < r.remaining ∧ r.index < es.length ∧ r.index < start + 32)
    ∧ (r.reason = 1 → equal r.index = !whileEqual)
    ∧ (r.matched = true ↔ r.reason = 1 ∧ equal r.index = true))
  ∧ ∀ (s : State) (c : Command) (t : Table) (tb start n1 n0 f v3 v2 v1 v0 mode : Byte),
    s.head = some c → c.payload = [0x12, tb, start, n1, n0, f, v3, v2, v1, v0, mode] → tableOf tb.toNat = some t →
    (s.holdsRole c.sender = true ∨ t.isPublic = true) →
    (f.toNat < t.fieldCount → mode = 0 ∨ mode = 1 →
      let r := scanFrom f.toNat (v3 ++ v2 ++ v1 ++ v0) (decide (mode = 1)) 32
        ((s.tableFields t).drop start.toNat) start.toNat (n1.toNat * 256 + n0.toNat)
      exec .scan s = .next (answer c .ok ([BitVec.ofNat 8 r.index] ++ beBytes 2 r.remaining
        ++ [boolByte r.matched, r.reason]) s.dropHead))
    ∧ (t.fieldCount ≤ f.toNat ∨ (mode ≠ 0 ∧ mode ≠ 1) →
      exec .scan s = .next (answer c .range [] s.dropHead))

/-- A WRITE_ENTRIES applies its entries in order and stops at the first refused one: the number written is that of the entries
accepted before it, all of them exactly when the status is OK, and its status is that of the refused entry (R181). Each of the
six rows runs its entries so, with its table's write size and the write of one entry at an index, whatever the count, and
refuses an index beyond the table with INDEX; a payload whose length does not fit its count is refused with RANGE and 0 written
(R197, R198). -/
def Obligations.WritesInOrder : Prop :=
  (∀ (s : State) (c : Command) (bs : List Byte),
    let runs (row : Instr) (tb : Byte) (size : Nat) (write : Nat → List Byte → State → State × Status) : Prop :=
      (∀ index count : Byte, s.asks c ([0x11, tb, index, count] ++ bs) →
        let r := writeLoop size write count.toNat index.toNat bs s.dropHead
        (bs.length = count.toNat * size → exec row s = .next (answerWrite c r.2.1 r.2.2 r.1))
        ∧ (bs.length ≠ count.toNat * size → exec row s = .next (answerWrite c .range 0 s.dropHead)))
      ∧ (bs.length < 2 → s.asks c ([0x11, tb] ++ bs) → exec row s = .next (answerWrite c .range 0 s.dropHead))
    let indexed (table : Nat) (write : Nat → List Byte → State → State × Status) : Prop :=
      ∀ n, table ≤ n → write n bs s = (s, .index)
    runs .writeCarAssignment 0 7 (onSlot writeCar) ∧ indexed 12 (onSlot writeCar)
    ∧ (∀ i : Slot, onSlot writeCar i.val bs s = writeCar i bs s)
    ∧ runs .writeRaceParameters 1 4 (onNumber 18 writeParam) ∧ indexed 18 (onNumber 18 writeParam)
    ∧ (∀ n < 18, onNumber 18 writeParam n bs s = writeParam n bs s)
    ∧ runs .writePortTable 2 25 (onPort writePort) ∧ indexed 8 (onPort writePort)
    ∧ (∀ p : PortNo, onPort writePort p.val bs s = writePort p bs s)
    ∧ runs .writeViewOrderLists 3 13 (onPort writeViewOrder) ∧ indexed 8 (onPort writeViewOrder)
    ∧ (∀ p : PortNo, onPort writeViewOrder p.val bs s = writeViewOrder p bs s)
    ∧ runs .writeEventRouteTable 4 11 (onNumber 24 writeRoute) ∧ indexed 24 (onNumber 24 writeRoute)
    ∧ (∀ n < 24, onNumber 24 writeRoute n bs s = writeRoute n bs s)
    ∧ runs .writeTrainingPatterns 5 17 (onNumber 4 writePattern) ∧ indexed 4 (onNumber 4 writePattern)
    ∧ (∀ n < 4, onNumber 4 writePattern n bs s = writePattern n bs s))
  ∧ ∀ (size : Nat) (write : Nat → List Byte → State → State × Status) (k n : Nat) (bs : List Byte) (s : State),
    let r := writeLoop size write k n bs s
    let m := r.2.2
    m ≤ k ∧ (m = k ↔ r.2.1 = .ok)
    ∧ (m < k → ∃ u, writeLoop size write m n bs s = (u, .ok, m)
        ∧ write (n + m) ((bs.drop (m * size)).take size) u = (r.1, r.2.1))
    ∧ (∀ a b, k = a + b → (writeLoop size write a n bs s).2.1 = .ok →
        r.1 = (writeLoop size write b (n + a) (bs.drop (a * size)) (writeLoop size write a n bs s).1).1)

/-- A write of one Race Parameter field: refused with STATE where its gate is closed, with INDEX beyond field 17, with RANGE
outside its range or against the relation of lose_after to coast_after or, outside IDLE, the lap relation; else that field,
and no other, holds the value (R110, R111, R182). A write of coast_after or lose_after ages every LIVE and COASTING car under the
new values (R33), one after another in slot order, the model's choice (notes/assumptions/7.md); a write of settle sets the settle
deadline of every lap anew and takes a fixing evaluation (R99, R103); a write of any other field has no further effect. -/
def Obligations.ParametersWritten : Prop :=
  ∀ (s : State) (c : Command) (k v : Nat), k < 256 → v < 2 ^ 32 →
    s.asks c ([0x11, 0x01, BitVec.ofNat 8 k, 1] ++ beBytes 4 v) →
    let idle := s.race.state = .idle
    let gate := (k < 2 → idle) ∧ (k ∈ [2, 3, 4, 5, 8, 9, 10, 15, 16, 17] → idle ∨ s.race.state = .grid)
    let new := setParam s.params k v
    let ranges : List (Nat × Nat) :=
      [(10000, 1000000), (1, 99), (3, 5), (200000, 2000000), (0, 20000), (0, 5000), (0, 262143), (0, 65535), (100, 3200),
       (10000, 1000000), (new.coastAfter, 16000000), (0, 2000000), (50, 2000), (50, 1000), (0, 500), (20000, 1000000),
       (100000, 5000000), (0, 120000000)]
    let fits := (ranges.getD k (1, 0)).1 ≤ v ∧ v ≤ (ranges.getD k (1, 0)).2
      ∧ (k = 9 ∨ k = 10 → new.coastAfter ≤ new.loseAfter)
      ∧ (k = 5 ∨ k = 12 ∨ k = 14 → idle ∨ 2 * max new.jumpDist (new.proxLong + new.hyst) < new.lapLength)
    (18 ≤ k → exec .writeRaceParameters s = .next (answerWrite c .index 0 s.dropHead))
    ∧ (k < 18 → ¬gate → exec .writeRaceParameters s = .next (answerWrite c .state 0 s.dropHead))
    ∧ (k < 18 → gate → ¬fits → exec .writeRaceParameters s = .next (answerWrite c .range 0 s.dropHead))
    ∧ (k < 18 → gate → fits → ∃ u, exec .writeRaceParameters s = .next (answerWrite c .ok 1 u)
      ∧ RaceEffect { s.dropHead with params := u.params } u
      ∧ (∀ j < 18, paramValue u.params j = if j = k then v else paramValue s.params j)
      ∧ let stored : State := { s.dropHead with params := u.params }
        (k = 9 ∨ k = 10 → AllAged stored u)
        ∧ (k = 11 → ∃ t, u = evaluate t ∧ t = { stored with lapTable := t.lapTable }
          ∧ ∀ j, 1 ≤ j → j ≤ 100 → t.lap j = { s.lap j with deadline :=
              if j ≤ s.params.laps + 1 then (s.firstProvisional j).map fun x => addTime x.time v
              else (s.lap j).deadline })
        ∧ (k ≠ 9 → k ≠ 10 → k ≠ 11 → u = stored))

/-- An assignment write in IDLE or GRID: STATE elsewhere; RANGE when a field lies outside its range, or another enabled slot
has its owner and seat, or two have its owner; else the slot holds the entry, FREE and wiped when disabled, kept when the same
port and seat stay, and ASSIGNED without samples otherwise, and no other car changes (R29, R30). -/
def Obligations.AssignmentsWritten : Prop :=
  (∀ (s : State) (c : Command) (i : Slot) (enabled owner seat number x y z : Byte),
    s.asks c ([0x11, 0x00, slotByte i, 1, enabled, owner, seat, number, x, y, z]) →
    1 < enabled.toNat ∨ 7 < owner.toNat ∨ 1 < seat.toNat ∨ number.toNat = 0 ∨ 99 < number.toNat →
    let setup := s.race.state = .idle ∨ s.race.state = .grid
    (setup → exec .writeCarAssignment s = .next (answerWrite c .range 0 s.dropHead))
    ∧ (¬setup → exec .writeCarAssignment s = .next (answerWrite c .state 0 s.dropHead)))
  ∧ ∀ (s : State) (c : Command) (i : Slot) (a : Assignment) (x y z : Byte), 1 ≤ a.number → a.number ≤ 99 →
    s.asks c ([0x11, 0x00, slotByte i, 1, boolByte a.enabled, portByte a.owner, BitVec.ofNat 8 a.seat.val,
      BitVec.ofNat 8 a.number, x, y, z]) →
    let other (j : Slot) : Prop := j ≠ i ∧ s.owns a.owner j = true
    let clash := a.enabled = true ∧ ((∃ j, other j ∧ (s.car j).seat = a.seat)
      ∨ ∃ j k, j ≠ k ∧ other j ∧ other k)
    let setup := s.race.state = .idle ∨ s.race.state = .grid
    (¬setup → exec .writeCarAssignment s = .next (answerWrite c .state 0 s.dropHead))
    ∧ (setup → clash → exec .writeCarAssignment s = .next (answerWrite c .range 0 s.dropHead))
    ∧ (setup → ¬clash → ∃ u, exec .writeCarAssignment s = .next (answerWrite c .ok 1 u)
      ∧ (∀ j, j ≠ i → u.car j = s.car j)
      ∧ (u.car i).enabled = a.enabled ∧ (u.car i).owner = a.owner ∧ (u.car i).seat = a.seat
      ∧ (u.car i).number = a.number
      ∧ (a.enabled = false → (u.car i).state = .free ∧ (u.car i).last = none ∧ (u.car i).prev = none)
      ∧ (a.enabled = true → (s.car i).enabled = true → (s.car i).owner = a.owner → (s.car i).seat = a.seat →
          u.car i = { s.car i with number := a.number })
      ∧ (a.enabled = true → ((s.car i).enabled = false ∨ (s.car i).owner ≠ a.owner ∨ (s.car i).seat ≠ a.seat) →
          (u.car i).state = .assigned ∧ (u.car i).last = none ∧ (u.car i).prev = none))

/-- A Port Table write: enabled and link rate change only in OFF, DOWN and QUIET, and P_nom, tol_ppm and W in no state of
PHASE, RATE and ACTIVE, else STATE; an entry past its gate with a field outside its range is refused with RANGE; an accepted
entry is stored whole, and disabling the port resets it into OFF, enabling it brings it into DOWN with its first invitation (its
PARKED cars return in slot order, the model's choice, notes/assumptions/7.md; R7, R37, R67, R155, R156, R167, R182, R199). A write
of pacing to CLOCK from another value starts the pace timer of an ACTIVE port, one to another value idles it, and a write that
keeps pacing, whatever its pace_period, leaves the deadline (R70). That a
gated field changes when its written bytes differ from the bytes held, so that an illegal value in it is STATE where the gate is
closed and RANGE where it is open, is the model's reading (DEDUCED, notes/assumptions/18.md). -/
def Obligations.PortsWritten : Prop :=
  (∀ (s : State) (c : Command) (p : PortNo) (bs : List Byte), bs.length = 25 →
    s.asks c ([0x11, 0x02, portByte p, 1] ++ bs) →
    let q := s.port p
    let held := portEntryBytes q.entry
    let gate := (field bs 0 2 = field held 0 2 ∨ q.phase = .off ∨ q.phase = .down ∨ q.phase = .quiet)
      ∧ (field bs 6 7 = field held 6 7 ∨ (q.phase ≠ .phase ∧ q.phase ≠ .rate ∧ q.phase ≠ .active))
    let within (off n lo hi : Nat) : Prop := lo ≤ numAt bs off n ∧ numAt bs off n ≤ hi
    let fits := within 0 1 0 1 ∧ numAt bs 1 1 ∈ [10, 20] ∧ within 2 4 10000 1000000 ∧ within 6 4 1280000 10240000
      ∧ within 10 2 0 20000 ∧ numAt bs 12 1 ∈ [16, 32, 64, 128] ∧ within 13 2 0 2000 ∧ within 15 2 100 10000
      ∧ within 17 1 0 2 ∧ within 18 4 5000 100000 ∧ within 22 1 0 8 ∧ within 23 1 0 2 ∧ within 24 1 0 1
    (¬gate → exec .writePortTable s = .next (answerWrite c .state 0 s.dropHead))
    ∧ (gate → ¬fits → exec .writePortTable s = .next (answerWrite c .range 0 s.dropHead)))
  ∧ ∀ (s : State) (c : Command) (p : PortNo) (e : PortEntry),
    let q := s.port p
    portEntryOf (portEntryBytes e) = some e → portEntryOf (portEntryBytes q.entry) = some q.entry →
    s.asks c ([0x11, 0x02, portByte p, 1] ++ portEntryBytes e) →
    let gate := ((e.enabled = q.entry.enabled ∧ e.linkRate = q.entry.linkRate)
        ∨ q.phase = .off ∨ q.phase = .down ∨ q.phase = .quiet)
      ∧ ((e.pNom = q.entry.pNom ∧ e.tolPpm = q.entry.tolPpm ∧ e.winFrames = q.entry.winFrames)
        ∨ (q.phase ≠ .phase ∧ q.phase ≠ .rate ∧ q.phase ≠ .active))
    (¬gate → exec .writePortTable s = .next (answerWrite c .state 0 s.dropHead))
    ∧ (gate → ∃ u, exec .writePortTable s = .next (answerWrite c .ok 1 u) ∧ (u.port p).entry = e
      ∧ (∀ r, r ≠ p → (u.port r).entry = (s.port r).entry)
      ∧ (e.enabled = q.entry.enabled → (u.port p).phase = q.phase ∧ u.cars = s.cars ∧ u.race = s.race
        ∧ (u.port p).paceTimer = if e.pacing = q.entry.pacing then q.paceTimer
          else if e.pacing = .clock ∧ q.phase = .active then some (addTime s.clock e.pacePeriod) else none)
      ∧ let stored := s.dropHead.modPort p fun q => { q with entry := e }
        (q.entry.enabled = true → e.enabled = false → (u.port p).phase = .off ∧ PortWasReset p stored u)
        ∧ (q.entry.enabled = false → e.enabled = true → (u.port p).phase = .down
          ∧ (q.phase = .off → PortWasReset p stored u)))

/-- Writes of one View Order List, one route and one training pattern: in its ranges the entry is stored, in any state, and
nothing else changes; a slot named twice, a cue code above 0xFD or a lead above 1,000,000 is refused with RANGE (R68, R141,
R163, R199). -/
def Obligations.ListsWritten : Prop :=
  ∀ (s : State) (c : Command),
    (∀ (p : PortNo) (l : List Slot), s.asks c ([0x11, 0x03, portByte p, 1] ++ viewOrderBytes l) →
      (l.Nodup → exec .writeViewOrderLists s
        = .next (answerWrite c .ok 1 (s.dropHead.modPort p fun q => { q with viewOrder := l })))
      ∧ (¬l.Nodup → l.length ≤ 12 → exec .writeViewOrderLists s = .next (answerWrite c .range 0 s.dropHead)))
    ∧ (∀ (n : Fin 24) (r : Route), r.lead < 2 ^ 32 → s.asks c ([0x11, 0x04, BitVec.ofNat 8 n.val, 1] ++ routeBytes r) →
      (r.code.toNat ≤ 0xFD → r.lead ≤ 1000000 → exec .writeEventRouteTable s
        = .next (answerWrite c .ok 1 { s.dropHead with routes := s.routes.set n r }))
      ∧ (0xFD < r.code.toNat ∨ 1000000 < r.lead →
        exec .writeEventRouteTable s = .next (answerWrite c .range 0 s.dropHead)))
    ∧ (∀ (n : Fin 4) (x : Pattern), x.bytes.length = 16 →
      s.asks c ([0x11, 0x05, BitVec.ofNat 8 n.val, 1] ++ patternBytes x) →
      exec .writeTrainingPatterns s = .next (answerWrite c .ok 1 { s.dropHead with patterns := s.patterns.set n x }))

/-- MOVE_DIRECTOR: STATE for a port that is not ACTIVE, OK and nothing for the director's own; else the role moves, the reply
and the notice DIRECTOR_MOVED are queued, and the old director's waiting commands are discarded (R174). -/
def Obligations.DirectorMoved : Prop :=
  ∀ (s : State) (c : Command) (p : PortNo), s.asks c [0x41, portByte p] →
    ((s.port p).phase ≠ .active → exec .moveDirector s = .next (answer c .state [] s.dropHead))
    ∧ ((s.port p).phase = .active → p = c.sender → exec .moveDirector s = .next (answer c .ok [] s.dropHead))
    ∧ ((s.port p).phase = .active → p ≠ c.sender → ∃ t, exec .moveDirector s = .next t
      ∧ t.mgmt.director = some p ∧ t.holdsRole p = true
      ∧ t.mgmt.queue = s.mgmt.queue.tail.filter (fun d => decide (d.sender ≠ c.sender))
      ∧ t.race = s.race ∧ t.cars = s.cars
      ∧ ((s.port c.sender).wire.isSome = true → (s.port c.sender).replies.length < 16 →
          ∃ f, (t.port c.sender).outbox = (s.port c.sender).outbox ++ [f] ∧ f.body = .reply 0x41 .ok [])
      ∧ ((s.port p).wire.isSome = true → (s.port p).notices.length < 16 →
          ∃ f, (t.port p).outbox = (s.port p).outbox ++ [f]
            ∧ f.body = .notice (.directorMoved (some c.sender) .move)))

/-! ### Frames -/

/-- What whole groups of rows leave alone. The rows that only answer or hand frames to the ports change of the ports only
waiting frames, wires, counters and what sending a TRAIN or PROBE frame stamps, and of the rest only the Race Controller's
record and the queue's head; the rows of cars, laps and the race's end change besides those only car states, timers, flags
and finish placings, the Crossing List and its lost count, the Lap Table, the classification and the Contact Pair Set; the rows
of one port's link change neither Race Parameters, routes nor patterns, no car's assignment and samples, no pending hub reset,
and of another port only what the first group does: the port's own entry and the Crossing List are not among what they are
said to leave (R125, R138, R162). -/
def Obligations.RowsLeaveTheRestAlone : Prop :=
  ∀ (s t : State),
    (∀ c ∈ [Instr.unknownCommand, .readStatus, .readPort, .readEntries, .scan, .sendView, .openGrid, .start, .abortStart,
        .hold, .resume], exec c s = .next t → RouteEffect s t ∨ RouteEffect s.dropHead t)
    ∧ (∀ c ∈ [Instr.tHExpiry, .holdTimeout], exec c s = .next t → RouteEffect s t)
    ∧ (∀ c ∈ [Instr.close, .retireCar], exec c s = .next t → RaceEffect s t ∨ RaceEffect s.dropHead t)
    ∧ (∀ c ∈ [Instr.tGreenExpiry, .graceDeadlineExpiry], exec c s = .next t → RaceEffect s t)
    ∧ (∀ i k, ∀ c ∈ [Instr.coastTimerExpiry i, .loseTimerExpiry i, .settleDeadlineExpiry k],
        exec c s = .next t → RaceEffect s t)
    ∧ (∀ p stamp payload, ∀ c ∈ [Instr.trainEcho p stamp payload, .probeReply p stamp payload, .holdAck p stamp payload,
        .quietAsk p stamp payload, .transmitEnd p, .linkRateChangeOnLine p, .trainInvitation p, .trainingPauseEnd p,
        .echoWaitExpiry p, .probeDue p, .sweepReplyWaitExpiry p, .paceTimerExpiry p, .linkLoss p],
        exec c s = .next t → LinkEffect p s t)
end

