-- ==== Sys2Proof/Laws/State.lean ====
section
/-! SUPPORT. What one named update of State leaves alone: one lemma for each field, and reading back what was written. -/

namespace Sys2Proof.Machine

/-! ### State.setPort -/

@[simp] theorem State.setPort_resetLow (s : State) (p : PortNo) (q : Port) : (s.setPort p q).resetLow = s.resetLow := rfl
@[simp] theorem State.setPort_clock (s : State) (p : PortNo) (q : Port) : (s.setPort p q).clock = s.clock := rfl
@[simp] theorem State.setPort_cars (s : State) (p : PortNo) (q : Port) : (s.setPort p q).cars = s.cars := rfl
@[simp] theorem State.setPort_params (s : State) (p : PortNo) (q : Port) : (s.setPort p q).params = s.params := rfl
@[simp] theorem State.setPort_race (s : State) (p : PortNo) (q : Port) : (s.setPort p q).race = s.race := rfl
@[simp] theorem State.setPort_crossings (s : State) (p : PortNo) (q : Port) : (s.setPort p q).crossings = s.crossings := rfl
@[simp] theorem State.setPort_lapTable (s : State) (p : PortNo) (q : Port) : (s.setPort p q).lapTable = s.lapTable := rfl
@[simp] theorem State.setPort_classification (s : State) (p : PortNo) (q : Port) : (s.setPort p q).classification = s.classification := rfl
@[simp] theorem State.setPort_crossingLost (s : State) (p : PortNo) (q : Port) : (s.setPort p q).crossingLost = s.crossingLost := rfl
@[simp] theorem State.setPort_contacts (s : State) (p : PortNo) (q : Port) : (s.setPort p q).contacts = s.contacts := rfl
@[simp] theorem State.setPort_routes (s : State) (p : PortNo) (q : Port) : (s.setPort p q).routes = s.routes := rfl
@[simp] theorem State.setPort_patterns (s : State) (p : PortNo) (q : Port) : (s.setPort p q).patterns = s.patterns := rfl
@[simp] theorem State.setPort_mgmt (s : State) (p : PortNo) (q : Port) : (s.setPort p q).mgmt = s.mgmt := rfl
@[simp] theorem State.setPort_free (s : State) (p : PortNo) (q : Port) : (s.setPort p q).free = s.free := rfl
@[simp] theorem State.setPort_pending (s : State) (p : PortNo) (q : Port) : (s.setPort p q).pending = s.pending := rfl

/-! ### State.modPort -/

@[simp] theorem State.modPort_resetLow (s : State) (p : PortNo) (f : Port → Port) : (s.modPort p f).resetLow = s.resetLow := rfl
@[simp] theorem State.modPort_clock (s : State) (p : PortNo) (f : Port → Port) : (s.modPort p f).clock = s.clock := rfl
@[simp] theorem State.modPort_cars (s : State) (p : PortNo) (f : Port → Port) : (s.modPort p f).cars = s.cars := rfl
@[simp] theorem State.modPort_params (s : State) (p : PortNo) (f : Port → Port) : (s.modPort p f).params = s.params := rfl
@[simp] theorem State.modPort_race (s : State) (p : PortNo) (f : Port → Port) : (s.modPort p f).race = s.race := rfl
@[simp] theorem State.modPort_crossings (s : State) (p : PortNo) (f : Port → Port) : (s.modPort p f).crossings = s.crossings := rfl
@[simp] theorem State.modPort_lapTable (s : State) (p : PortNo) (f : Port → Port) : (s.modPort p f).lapTable = s.lapTable := rfl
@[simp] theorem State.modPort_classification (s : State) (p : PortNo) (f : Port → Port) : (s.modPort p f).classification = s.classification := rfl
@[simp] theorem State.modPort_crossingLost (s : State) (p : PortNo) (f : Port → Port) : (s.modPort p f).crossingLost = s.crossingLost := rfl
@[simp] theorem State.modPort_contacts (s : State) (p : PortNo) (f : Port → Port) : (s.modPort p f).contacts = s.contacts := rfl
@[simp] theorem State.modPort_routes (s : State) (p : PortNo) (f : Port → Port) : (s.modPort p f).routes = s.routes := rfl
@[simp] theorem State.modPort_patterns (s : State) (p : PortNo) (f : Port → Port) : (s.modPort p f).patterns = s.patterns := rfl
@[simp] theorem State.modPort_mgmt (s : State) (p : PortNo) (f : Port → Port) : (s.modPort p f).mgmt = s.mgmt := rfl
@[simp] theorem State.modPort_free (s : State) (p : PortNo) (f : Port → Port) : (s.modPort p f).free = s.free := rfl
@[simp] theorem State.modPort_pending (s : State) (p : PortNo) (f : Port → Port) : (s.modPort p f).pending = s.pending := rfl

/-! ### State.count -/

@[simp] theorem State.count_resetLow (s : State) (p : PortNo) (f : PortCounters → PortCounters) : (s.count p f).resetLow = s.resetLow := rfl
@[simp] theorem State.count_clock (s : State) (p : PortNo) (f : PortCounters → PortCounters) : (s.count p f).clock = s.clock := rfl
@[simp] theorem State.count_cars (s : State) (p : PortNo) (f : PortCounters → PortCounters) : (s.count p f).cars = s.cars := rfl
@[simp] theorem State.count_params (s : State) (p : PortNo) (f : PortCounters → PortCounters) : (s.count p f).params = s.params := rfl
@[simp] theorem State.count_race (s : State) (p : PortNo) (f : PortCounters → PortCounters) : (s.count p f).race = s.race := rfl
@[simp] theorem State.count_crossings (s : State) (p : PortNo) (f : PortCounters → PortCounters) : (s.count p f).crossings = s.crossings := rfl
@[simp] theorem State.count_lapTable (s : State) (p : PortNo) (f : PortCounters → PortCounters) : (s.count p f).lapTable = s.lapTable := rfl
@[simp] theorem State.count_classification (s : State) (p : PortNo) (f : PortCounters → PortCounters) : (s.count p f).classification = s.classification := rfl
@[simp] theorem State.count_crossingLost (s : State) (p : PortNo) (f : PortCounters → PortCounters) : (s.count p f).crossingLost = s.crossingLost := rfl
@[simp] theorem State.count_contacts (s : State) (p : PortNo) (f : PortCounters → PortCounters) : (s.count p f).contacts = s.contacts := rfl
@[simp] theorem State.count_routes (s : State) (p : PortNo) (f : PortCounters → PortCounters) : (s.count p f).routes = s.routes := rfl
@[simp] theorem State.count_patterns (s : State) (p : PortNo) (f : PortCounters → PortCounters) : (s.count p f).patterns = s.patterns := rfl
@[simp] theorem State.count_mgmt (s : State) (p : PortNo) (f : PortCounters → PortCounters) : (s.count p f).mgmt = s.mgmt := rfl
@[simp] theorem State.count_free (s : State) (p : PortNo) (f : PortCounters → PortCounters) : (s.count p f).free = s.free := rfl
@[simp] theorem State.count_pending (s : State) (p : PortNo) (f : PortCounters → PortCounters) : (s.count p f).pending = s.pending := rfl

/-! ### State.setCar -/

@[simp] theorem State.setCar_resetLow (s : State) (i : Slot) (c : CarRecord) : (s.setCar i c).resetLow = s.resetLow := rfl
@[simp] theorem State.setCar_clock (s : State) (i : Slot) (c : CarRecord) : (s.setCar i c).clock = s.clock := rfl
@[simp] theorem State.setCar_ports (s : State) (i : Slot) (c : CarRecord) : (s.setCar i c).ports = s.ports := rfl
@[simp] theorem State.setCar_params (s : State) (i : Slot) (c : CarRecord) : (s.setCar i c).params = s.params := rfl
@[simp] theorem State.setCar_race (s : State) (i : Slot) (c : CarRecord) : (s.setCar i c).race = s.race := rfl
@[simp] theorem State.setCar_crossings (s : State) (i : Slot) (c : CarRecord) : (s.setCar i c).crossings = s.crossings := rfl
@[simp] theorem State.setCar_lapTable (s : State) (i : Slot) (c : CarRecord) : (s.setCar i c).lapTable = s.lapTable := rfl
@[simp] theorem State.setCar_classification (s : State) (i : Slot) (c : CarRecord) : (s.setCar i c).classification = s.classification := rfl
@[simp] theorem State.setCar_crossingLost (s : State) (i : Slot) (c : CarRecord) : (s.setCar i c).crossingLost = s.crossingLost := rfl
@[simp] theorem State.setCar_contacts (s : State) (i : Slot) (c : CarRecord) : (s.setCar i c).contacts = s.contacts := rfl
@[simp] theorem State.setCar_routes (s : State) (i : Slot) (c : CarRecord) : (s.setCar i c).routes = s.routes := rfl
@[simp] theorem State.setCar_patterns (s : State) (i : Slot) (c : CarRecord) : (s.setCar i c).patterns = s.patterns := rfl
@[simp] theorem State.setCar_mgmt (s : State) (i : Slot) (c : CarRecord) : (s.setCar i c).mgmt = s.mgmt := rfl
@[simp] theorem State.setCar_free (s : State) (i : Slot) (c : CarRecord) : (s.setCar i c).free = s.free := rfl
@[simp] theorem State.setCar_pending (s : State) (i : Slot) (c : CarRecord) : (s.setCar i c).pending = s.pending := rfl

/-! ### State.modCar -/

@[simp] theorem State.modCar_resetLow (s : State) (i : Slot) (f : CarRecord → CarRecord) : (s.modCar i f).resetLow = s.resetLow := rfl
@[simp] theorem State.modCar_clock (s : State) (i : Slot) (f : CarRecord → CarRecord) : (s.modCar i f).clock = s.clock := rfl
@[simp] theorem State.modCar_ports (s : State) (i : Slot) (f : CarRecord → CarRecord) : (s.modCar i f).ports = s.ports := rfl
@[simp] theorem State.modCar_params (s : State) (i : Slot) (f : CarRecord → CarRecord) : (s.modCar i f).params = s.params := rfl
@[simp] theorem State.modCar_race (s : State) (i : Slot) (f : CarRecord → CarRecord) : (s.modCar i f).race = s.race := rfl
@[simp] theorem State.modCar_crossings (s : State) (i : Slot) (f : CarRecord → CarRecord) : (s.modCar i f).crossings = s.crossings := rfl
@[simp] theorem State.modCar_lapTable (s : State) (i : Slot) (f : CarRecord → CarRecord) : (s.modCar i f).lapTable = s.lapTable := rfl
@[simp] theorem State.modCar_classification (s : State) (i : Slot) (f : CarRecord → CarRecord) : (s.modCar i f).classification = s.classification := rfl
@[simp] theorem State.modCar_crossingLost (s : State) (i : Slot) (f : CarRecord → CarRecord) : (s.modCar i f).crossingLost = s.crossingLost := rfl
@[simp] theorem State.modCar_contacts (s : State) (i : Slot) (f : CarRecord → CarRecord) : (s.modCar i f).contacts = s.contacts := rfl
@[simp] theorem State.modCar_routes (s : State) (i : Slot) (f : CarRecord → CarRecord) : (s.modCar i f).routes = s.routes := rfl
@[simp] theorem State.modCar_patterns (s : State) (i : Slot) (f : CarRecord → CarRecord) : (s.modCar i f).patterns = s.patterns := rfl
@[simp] theorem State.modCar_mgmt (s : State) (i : Slot) (f : CarRecord → CarRecord) : (s.modCar i f).mgmt = s.mgmt := rfl
@[simp] theorem State.modCar_free (s : State) (i : Slot) (f : CarRecord → CarRecord) : (s.modCar i f).free = s.free := rfl
@[simp] theorem State.modCar_pending (s : State) (i : Slot) (f : CarRecord → CarRecord) : (s.modCar i f).pending = s.pending := rfl

/-! ### State.setRace -/

@[simp] theorem State.setRace_resetLow (s : State) (r : RaceState) : (s.setRace r).resetLow = s.resetLow := rfl
@[simp] theorem State.setRace_clock (s : State) (r : RaceState) : (s.setRace r).clock = s.clock := rfl
@[simp] theorem State.setRace_ports (s : State) (r : RaceState) : (s.setRace r).ports = s.ports := rfl
@[simp] theorem State.setRace_cars (s : State) (r : RaceState) : (s.setRace r).cars = s.cars := rfl
@[simp] theorem State.setRace_params (s : State) (r : RaceState) : (s.setRace r).params = s.params := rfl
@[simp] theorem State.setRace_crossings (s : State) (r : RaceState) : (s.setRace r).crossings = s.crossings := rfl
@[simp] theorem State.setRace_lapTable (s : State) (r : RaceState) : (s.setRace r).lapTable = s.lapTable := rfl
@[simp] theorem State.setRace_classification (s : State) (r : RaceState) : (s.setRace r).classification = s.classification := rfl
@[simp] theorem State.setRace_crossingLost (s : State) (r : RaceState) : (s.setRace r).crossingLost = s.crossingLost := rfl
@[simp] theorem State.setRace_contacts (s : State) (r : RaceState) : (s.setRace r).contacts = s.contacts := rfl
@[simp] theorem State.setRace_routes (s : State) (r : RaceState) : (s.setRace r).routes = s.routes := rfl
@[simp] theorem State.setRace_patterns (s : State) (r : RaceState) : (s.setRace r).patterns = s.patterns := rfl
@[simp] theorem State.setRace_mgmt (s : State) (r : RaceState) : (s.setRace r).mgmt = s.mgmt := rfl
@[simp] theorem State.setRace_free (s : State) (r : RaceState) : (s.setRace r).free = s.free := rfl
@[simp] theorem State.setRace_pending (s : State) (r : RaceState) : (s.setRace r).pending = s.pending := rfl

/-! ### State.useFree -/

@[simp] theorem State.useFree_resetLow (s : State) : (s.useFree).resetLow = s.resetLow := rfl
@[simp] theorem State.useFree_clock (s : State) : (s.useFree).clock = s.clock := rfl
@[simp] theorem State.useFree_ports (s : State) : (s.useFree).ports = s.ports := rfl
@[simp] theorem State.useFree_cars (s : State) : (s.useFree).cars = s.cars := rfl
@[simp] theorem State.useFree_params (s : State) : (s.useFree).params = s.params := rfl
@[simp] theorem State.useFree_race (s : State) : (s.useFree).race = s.race := rfl
@[simp] theorem State.useFree_crossings (s : State) : (s.useFree).crossings = s.crossings := rfl
@[simp] theorem State.useFree_lapTable (s : State) : (s.useFree).lapTable = s.lapTable := rfl
@[simp] theorem State.useFree_classification (s : State) : (s.useFree).classification = s.classification := rfl
@[simp] theorem State.useFree_crossingLost (s : State) : (s.useFree).crossingLost = s.crossingLost := rfl
@[simp] theorem State.useFree_contacts (s : State) : (s.useFree).contacts = s.contacts := rfl
@[simp] theorem State.useFree_routes (s : State) : (s.useFree).routes = s.routes := rfl
@[simp] theorem State.useFree_patterns (s : State) : (s.useFree).patterns = s.patterns := rfl
@[simp] theorem State.useFree_mgmt (s : State) : (s.useFree).mgmt = s.mgmt := rfl
@[simp] theorem State.useFree_pending (s : State) : (s.useFree).pending = s.pending := rfl

/-! ### State.discardCommands -/

@[simp] theorem State.discardCommands_resetLow (s : State) (p : PortNo) : (s.discardCommands p).resetLow = s.resetLow := rfl
@[simp] theorem State.discardCommands_clock (s : State) (p : PortNo) : (s.discardCommands p).clock = s.clock := rfl
@[simp] theorem State.discardCommands_ports (s : State) (p : PortNo) : (s.discardCommands p).ports = s.ports := rfl
@[simp] theorem State.discardCommands_cars (s : State) (p : PortNo) : (s.discardCommands p).cars = s.cars := rfl
@[simp] theorem State.discardCommands_params (s : State) (p : PortNo) : (s.discardCommands p).params = s.params := rfl
@[simp] theorem State.discardCommands_race (s : State) (p : PortNo) : (s.discardCommands p).race = s.race := rfl
@[simp] theorem State.discardCommands_crossings (s : State) (p : PortNo) : (s.discardCommands p).crossings = s.crossings := rfl
@[simp] theorem State.discardCommands_lapTable (s : State) (p : PortNo) : (s.discardCommands p).lapTable = s.lapTable := rfl
@[simp] theorem State.discardCommands_classification (s : State) (p : PortNo) : (s.discardCommands p).classification = s.classification := rfl
@[simp] theorem State.discardCommands_crossingLost (s : State) (p : PortNo) : (s.discardCommands p).crossingLost = s.crossingLost := rfl
@[simp] theorem State.discardCommands_contacts (s : State) (p : PortNo) : (s.discardCommands p).contacts = s.contacts := rfl
@[simp] theorem State.discardCommands_routes (s : State) (p : PortNo) : (s.discardCommands p).routes = s.routes := rfl
@[simp] theorem State.discardCommands_patterns (s : State) (p : PortNo) : (s.discardCommands p).patterns = s.patterns := rfl
@[simp] theorem State.discardCommands_free (s : State) (p : PortNo) : (s.discardCommands p).free = s.free := rfl
@[simp] theorem State.discardCommands_pending (s : State) (p : PortNo) : (s.discardCommands p).pending = s.pending := rfl

/-! ### State.setLap -/

@[simp] theorem State.setLap_resetLow (s : State) (k : Nat) (r : LapRecord) : (s.setLap k r).resetLow = s.resetLow := by unfold State.setLap; split <;> rfl
@[simp] theorem State.setLap_clock (s : State) (k : Nat) (r : LapRecord) : (s.setLap k r).clock = s.clock := by unfold State.setLap; split <;> rfl
@[simp] theorem State.setLap_ports (s : State) (k : Nat) (r : LapRecord) : (s.setLap k r).ports = s.ports := by unfold State.setLap; split <;> rfl
@[simp] theorem State.setLap_cars (s : State) (k : Nat) (r : LapRecord) : (s.setLap k r).cars = s.cars := by unfold State.setLap; split <;> rfl
@[simp] theorem State.setLap_params (s : State) (k : Nat) (r : LapRecord) : (s.setLap k r).params = s.params := by unfold State.setLap; split <;> rfl
@[simp] theorem State.setLap_race (s : State) (k : Nat) (r : LapRecord) : (s.setLap k r).race = s.race := by unfold State.setLap; split <;> rfl
@[simp] theorem State.setLap_crossings (s : State) (k : Nat) (r : LapRecord) : (s.setLap k r).crossings = s.crossings := by unfold State.setLap; split <;> rfl
@[simp] theorem State.setLap_classification (s : State) (k : Nat) (r : LapRecord) : (s.setLap k r).classification = s.classification := by unfold State.setLap; split <;> rfl
@[simp] theorem State.setLap_crossingLost (s : State) (k : Nat) (r : LapRecord) : (s.setLap k r).crossingLost = s.crossingLost := by unfold State.setLap; split <;> rfl
@[simp] theorem State.setLap_contacts (s : State) (k : Nat) (r : LapRecord) : (s.setLap k r).contacts = s.contacts := by unfold State.setLap; split <;> rfl
@[simp] theorem State.setLap_routes (s : State) (k : Nat) (r : LapRecord) : (s.setLap k r).routes = s.routes := by unfold State.setLap; split <;> rfl
@[simp] theorem State.setLap_patterns (s : State) (k : Nat) (r : LapRecord) : (s.setLap k r).patterns = s.patterns := by unfold State.setLap; split <;> rfl
@[simp] theorem State.setLap_mgmt (s : State) (k : Nat) (r : LapRecord) : (s.setLap k r).mgmt = s.mgmt := by unfold State.setLap; split <;> rfl
@[simp] theorem State.setLap_free (s : State) (k : Nat) (r : LapRecord) : (s.setLap k r).free = s.free := by unfold State.setLap; split <;> rfl
@[simp] theorem State.setLap_pending (s : State) (k : Nat) (r : LapRecord) : (s.setLap k r).pending = s.pending := by unfold State.setLap; split <;> rfl

/-! ### Reading back -/

@[simp] theorem State.port_setPort_self (s : State) (p : PortNo) (q : Port) : (s.setPort p q).port p = q := by
  simp [State.port, State.setPort]

theorem State.port_setPort_of_ne (s : State) {p r : PortNo} (q : Port) (h : r ≠ p) :
    (s.setPort p q).port r = s.port r := by
  have : p.val ≠ r.val := fun e => h (Fin.ext e.symm)
  simp [State.port, State.setPort, this]

theorem State.port_setPort (s : State) (p r : PortNo) (q : Port) :
    (s.setPort p q).port r = if r = p then q else s.port r := by
  by_cases h : r = p
  · subst h; simp
  · simp [h, State.port_setPort_of_ne]

@[simp] theorem State.car_setPort (s : State) (p : PortNo) (q : Port) (i : Slot) : (s.setPort p q).car i = s.car i := rfl

theorem State.port_modPort (s : State) (p r : PortNo) (f : Port → Port) :
    (s.modPort p f).port r = if r = p then f (s.port p) else s.port r := State.port_setPort s p r _

@[simp] theorem State.car_modPort (s : State) (p : PortNo) (f : Port → Port) (i : Slot) :
    (s.modPort p f).car i = s.car i := rfl

@[simp] theorem State.car_setCar_self (s : State) (i : Slot) (c : CarRecord) : (s.setCar i c).car i = c := by
  simp [State.car, State.setCar]

theorem State.car_setCar (s : State) (i j : Slot) (c : CarRecord) :
    (s.setCar i c).car j = if j = i then c else s.car j := by
  by_cases h : j = i
  · subst h; simp
  · have : i.val ≠ j.val := fun e => h (Fin.ext e.symm)
    simp [h, State.car, State.setCar, this]

@[simp] theorem State.port_setCar (s : State) (i : Slot) (c : CarRecord) (p : PortNo) : (s.setCar i c).port p = s.port p := rfl

theorem State.car_modCar (s : State) (i j : Slot) (f : CarRecord → CarRecord) :
    (s.modCar i f).car j = if j = i then f (s.car i) else s.car j := State.car_setCar s i j _

@[simp] theorem State.port_modCar (s : State) (i : Slot) (f : CarRecord → CarRecord) (p : PortNo) :
    (s.modCar i f).port p = s.port p := rfl

@[simp] theorem State.car_setRace (s : State) (r : RaceState) (i : Slot) : (s.setRace r).car i = s.car i := rfl

@[simp] theorem State.port_setRace (s : State) (r : RaceState) (p : PortNo) : (s.setRace r).port p = s.port p := rfl

@[simp] theorem State.setRace_state (s : State) (r : RaceState) : (s.setRace r).race.state = r := rfl

@[simp] theorem State.car_setLap (s : State) (k : Nat) (r : LapRecord) (i : Slot) : (s.setLap k r).car i = s.car i := by
  unfold State.setLap; split <;> rfl

@[simp] theorem State.port_setLap (s : State) (k : Nat) (r : LapRecord) (p : PortNo) : (s.setLap k r).port p = s.port p := by
  unfold State.setLap; split <;> rfl

@[simp] theorem State.car_discardCommands (s : State) (p : PortNo) (i : Slot) : (s.discardCommands p).car i = s.car i := rfl

@[simp] theorem State.port_discardCommands (s : State) (p q : PortNo) : (s.discardCommands p).port q = s.port q := rfl

theorem State.lap_setLap_self (s : State) {k : Nat} (r : LapRecord) (h1 : 1 ≤ k) (h2 : k ≤ 100) :
    (s.setLap k r).lap k = r := by
  have h0 : k ≠ 0 := by omega
  have hk : k - 1 < 100 := by omega
  simp [State.setLap, State.lap, h0, hk]

theorem State.lap_setLap_of_ne (s : State) {k j : Nat} (r : LapRecord) (h : j ≠ k) (hj : 1 ≤ j) :
    (s.setLap k r).lap j = s.lap j := by
  unfold State.setLap
  split
  · rfl
  · have h0 : j ≠ 0 := by omega
    have hne : k - 1 ≠ j - 1 := by omega
    simp [State.lap, h0, hne]

end Sys2Proof.Machine
end

