-- ==== Sys2Proof/Laws/Frames.lean ====
section
/-! SUPPORT. What the arbiter, the offers and the Cue Router can do to a state, said once for each of them: they change the
waiting frames, the wire and, through AUTO_HOLD, the Race Controller's record, and nothing else (`RouteEffect`). -/

namespace Sys2Proof.Machine

/-! ### Ports -/

theorem SameLink.refl (q : Port) : SameLink q q :=
  ⟨rfl, rfl, rfl, rfl, rfl, rfl, rfl, rfl, rfl, rfl, rfl, rfl, id⟩

theorem SameLink.trans {a b c : Port} (h : SameLink a b) (k : SameLink b c) : SameLink a c :=
  ⟨k.phase.trans h.phase, k.faultReason.trans h.faultReason, k.entry.trans h.entry, k.viewOrder.trans h.viewOrder,
   k.lineRate.trans h.lineRate, k.gateSample.trans h.gateSample, k.gateCar.trans h.gateCar, k.linkBase.trans h.linkBase,
   k.nextInvite.trans h.nextInvite, k.failedRounds.trans h.failedRounds, k.paceTimer.trans h.paceTimer,
   k.record.trans h.record, fun x => k.within (h.within x)⟩

/-! ### States -/

theorem RouteEffect.refl (s : State) : RouteEffect s s :=
  ⟨rfl, rfl, rfl, rfl, rfl, rfl, rfl, rfl, rfl, rfl, rfl, rfl, rfl, rfl, fun _ => .refl _⟩

theorem RouteEffect.trans {a b c : State} (h : RouteEffect a b) (k : RouteEffect b c) : RouteEffect a c :=
  ⟨k.resetLow.trans h.resetLow, k.clock.trans h.clock, k.cars.trans h.cars, k.params.trans h.params,
   k.crossings.trans h.crossings, k.lapTable.trans h.lapTable, k.classification.trans h.classification,
   k.crossingLost.trans h.crossingLost, k.contacts.trans h.contacts, k.routes.trans h.routes,
   k.patterns.trans h.patterns, k.mgmt.trans h.mgmt, k.free.trans h.free, k.pending.trans h.pending,
   fun p => (h.link p).trans (k.link p)⟩

theorem RouteEffect.foldl {α : Type} (f : State → α → State) (h : ∀ s x, RouteEffect s (f s x)) (xs : List α) (s : State) :
    RouteEffect s (xs.foldl f s) := by
  induction xs generalizing s with
  | nil => exact .refl s
  | cons x xs ih => exact (h s x).trans (ih _)

theorem RouteEffect.setPort {s : State} {p : PortNo} {q : Port} (h : SameLink (s.port p) q) : RouteEffect s (s.setPort p q) := by
  refine ⟨rfl, rfl, rfl, rfl, rfl, rfl, rfl, rfl, rfl, rfl, rfl, rfl, rfl, rfl, fun r => ?_⟩
  rw [State.port_setPort]
  split
  · next e => exact e ▸ h
  · exact .refl _

theorem RouteEffect.modPort {s : State} {p : PortNo} {f : Port → Port} (h : SameLink (s.port p) (f (s.port p))) :
    RouteEffect s (s.modPort p f) := RouteEffect.setPort h

theorem RouteEffect.withRace (s : State) (r : RaceRecord) : RouteEffect s { s with race := r } :=
  ⟨rfl, rfl, rfl, rfl, rfl, rfl, rfl, rfl, rfl, rfl, rfl, rfl, rfl, rfl, fun _ => .refl _⟩

theorem RouteEffect.car {s t : State} (h : RouteEffect s t) (i : Slot) : t.car i = s.car i := by
  simp [State.car, h.cars]

/-! ### Capacities of the waiting lists -/

theorem length_pushDropOldest {α : Type} (cap : Nat) (xs : List α) (x : α) (h : 1 ≤ cap) :
    (pushDropOldest cap xs x).length ≤ cap := by
  simp [pushDropOldest]; omega

theorem stampSent_link (now : RaceTime) (f : HubFrame) (q : Port) : SameLink q (stampSent now f q) := by
  unfold stampSent
  split
  · split
    · exact ⟨rfl, rfl, rfl, rfl, rfl, rfl, rfl, rfl, rfl, rfl, rfl, rfl, id⟩
    · exact .refl q
  · split
    · exact ⟨rfl, rfl, rfl, rfl, rfl, rfl, rfl, rfl, rfl, rfl, rfl, rfl, id⟩
    · exact .refl q
  · exact .refl q

/-- The frame the arbiter takes leaves its list, and nothing else of the port changes. -/
theorem chooseFrame_link {s : State} {p : PortNo} {f : HubFrame} {q : Port} (h : s.chooseFrame p = some (f, q)) :
    SameLink (s.port p) q := by
  unfold State.chooseFrame at h
  simp only at h
  split at h
  · next e =>
    cases h
    exact ⟨rfl, rfl, rfl, rfl, rfl, rfl, rfl, rfl, rfl, rfl, rfl, rfl, fun w => by
      refine ⟨?_, w.2⟩; have := w.1; rw [e] at this; simp at this ⊢; omega⟩
  split at h
  · next e =>
    cases h
    exact ⟨rfl, rfl, rfl, rfl, rfl, rfl, rfl, rfl, rfl, rfl, rfl, rfl, fun w => by
      refine ⟨w.1, ?_, w.2.2⟩; have := w.2.1; rw [e] at this; simp at this ⊢; omega⟩
  split at h
  · next e =>
    cases h
    exact ⟨rfl, rfl, rfl, rfl, rfl, rfl, rfl, rfl, rfl, rfl, rfl, rfl, fun w => by
      refine ⟨w.1, w.2.1, ?_, w.2.2.2⟩; have := w.2.2.1; rw [e] at this; simp at this ⊢; omega⟩
  split at h
  · next e =>
    cases h
    exact ⟨rfl, rfl, rfl, rfl, rfl, rfl, rfl, rfl, rfl, rfl, rfl, rfl, fun w => by
      refine ⟨w.1, w.2.1, w.2.2.1, ?_, w.2.2.2.2⟩; have := w.2.2.2.1; rw [e] at this; simp at this ⊢; omega⟩
  split at h
  · next e =>
    cases h
    exact ⟨rfl, rfl, rfl, rfl, rfl, rfl, rfl, rfl, rfl, rfl, rfl, rfl, fun w => by
      obtain ⟨w1, w2, w3, w4, w5, w6, w7⟩ := w
      refine ⟨w1, w2, w3, w4, ?_, ?_, w7⟩
      · unfold Port.replies at w5 ⊢; rw [e, List.filter_cons] at w5; split at w5 <;> (simp_all; try omega)
      · unfold Port.notices at w6 ⊢; rw [e, List.filter_cons] at w6; split at w6 <;> (simp_all; try omega)⟩
  split at h
  · next v e =>
    split at h
    · next rest e2 =>
      cases h
      refine ⟨rfl, rfl, rfl, rfl, rfl, rfl, rfl, rfl, rfl, rfl, rfl, rfl, fun w => ?_⟩
      obtain ⟨w1, w2, w3, w4, w5, w6, w7⟩ := w
      refine ⟨w1, w2, w3, w4, w5, w6, fun u hu => ?_⟩
      have := w7 v e
      simp only at hu
      split at hu
      · cases hu
      · cases hu; rw [e2] at this; simp at this ⊢; omega
    · cases h
  · cases h

@[simp] theorem isReply_reply (c : Byte) (st : Status) (d : List Byte) : (FrameBody.reply c st d).isReply = true := rfl

@[simp] theorem isNotice_reply (c : Byte) (st : Status) (d : List Byte) : (FrameBody.reply c st d).isNotice = false := rfl

@[simp] theorem isReply_notice (n : Notice) : (FrameBody.notice n).isReply = false := rfl

@[simp] theorem isNotice_notice (n : Notice) : (FrameBody.notice n).isNotice = true := rfl

/-! ### The arbiter and the offers -/

/-- The arbiter of a line puts one waiting frame on the wire, or does nothing. -/
theorem arbiterTake_effect (s : State) (p : PortNo) : RouteEffect s (s.arbiterTake p) := by
  unfold State.arbiterTake
  split
  · exact .refl s
  split
  · next f q h =>
    refine .setPort ?_
    refine (chooseFrame_link h).trans ?_
    refine SameLink.trans (b := { q with wire := some { frame := f, sent := s.clock, rate := q.entry.linkRate } }) ?_
      (stampSent_link _ _ _)
    exact ⟨rfl, rfl, rfl, rfl, rfl, rfl, rfl, rfl, rfl, rfl, rfl, rfl, id⟩
  · exact .refl s

theorem offerTraining_effect (s : State) (p : PortNo) (b : FrameBody) : RouteEffect s (s.offerTraining p b) := by
  unfold State.offerTraining
  split
  · next h =>
    refine .trans (.modPort ?_) (arbiterTake_effect _ p)
    refine ⟨rfl, rfl, rfl, rfl, rfl, rfl, rfl, rfl, rfl, rfl, rfl, rfl, fun w => ⟨?_, w.2⟩⟩
    simp at h ⊢; omega
  · exact .refl s

theorem offerCall_effect (s : State) (p : PortNo) (b : FrameBody) : RouteEffect s (s.offerCall p b) := by
  unfold State.offerCall
  split
  · refine .trans (.modPort ?_) (arbiterTake_effect _ p)
    refine ⟨rfl, rfl, rfl, rfl, rfl, rfl, rfl, rfl, rfl, rfl, rfl, rfl, fun w => ⟨w.1, ?_, w.2.2⟩⟩
    exact length_pushDropOldest 4 _ _ (by decide)
  · exact .refl s

theorem offerCue_effect (s : State) (p : PortNo) (c : Cue) : RouteEffect s (s.offerCue p c) := by
  unfold State.offerCue
  split
  · split
    · next h =>
      refine .trans (.modPort ?_) (arbiterTake_effect _ p)
      refine ⟨rfl, rfl, rfl, rfl, rfl, rfl, rfl, rfl, rfl, rfl, rfl, rfl, fun w => ⟨w.1, w.2.1, ?_, w.2.2.2⟩⟩
      simp; omega
    · exact .modPort ⟨rfl, rfl, rfl, rfl, rfl, rfl, rfl, rfl, rfl, rfl, rfl, rfl, id⟩
  · exact .refl s

theorem offerPlacing_effect (s : State) (p : PortNo) (b : FrameBody) : RouteEffect s (s.offerPlacing p b) := by
  unfold State.offerPlacing
  split
  · refine .trans (.modPort ?_) (arbiterTake_effect _ p)
    have hl := length_pushDropOldest 128 (s.port p).placings (s.mkFrame p b) (by omega)
    generalize pushDropOldest 128 (s.port p).placings (s.mkFrame p b) = ys at hl ⊢
    exact ⟨rfl, rfl, rfl, rfl, rfl, rfl, rfl, rfl, rfl, rfl, rfl, rfl, fun w => ⟨w.1, w.2.1, w.2.2.1, hl, w.2.2.2.2⟩⟩
  · exact .refl s

theorem offerReply_effect (s : State) (p : PortNo) (tag code : Byte) (st : Status) (d : List Byte) :
    RouteEffect s (s.offerReply p tag code st d) := by
  unfold State.offerReply
  split
  · next h =>
    refine .trans (.modPort ?_) (arbiterTake_effect _ p)
    refine ⟨rfl, rfl, rfl, rfl, rfl, rfl, rfl, rfl, rfl, rfl, rfl, rfl, fun w => ?_⟩
    obtain ⟨w1, w2, w3, w4, w5, w6, w7⟩ := w
    refine ⟨w1, w2, w3, w4, ?_, ?_, w7⟩
    · simp [Port.replies, List.filter_append, List.filter_cons, State.mkFrame] at h ⊢; omega
    · simpa [Port.notices, List.filter_append, List.filter_cons, State.mkFrame] using w6
  · exact .refl s

theorem offerNotice_effect (s : State) (p : PortNo) (n : Notice) : RouteEffect s (s.offerNotice p n) := by
  unfold State.offerNotice
  split
  · next h =>
    refine .trans (.modPort ?_) (arbiterTake_effect _ p)
    refine ⟨rfl, rfl, rfl, rfl, rfl, rfl, rfl, rfl, rfl, rfl, rfl, rfl, fun w => ?_⟩
    obtain ⟨w1, w2, w3, w4, w5, w6, w7⟩ := w
    refine ⟨w1, w2, w3, w4, ?_, ?_, w7⟩
    · simpa [Port.replies, List.filter_append, List.filter_cons, State.mkFrame] using w5
    · simp [Port.notices, List.filter_append, List.filter_cons, State.mkFrame] at h ⊢; omega
  · exact .refl s

theorem noticeToDirector_effect (s : State) (n : Notice) : RouteEffect s (s.noticeToDirector n) := by
  unfold State.noticeToDirector
  split
  · exact offerNotice_effect ..
  · exact .refl s

theorem offerViewSet_effect (s : State) (p : PortNo) (f : FrameNum) (bs : List FrameBody) (h : bs.length ≤ 2) :
    RouteEffect s (s.offerViewSet p f bs) := by
  unfold State.offerViewSet
  refine .trans (.modPort ?_) (arbiterTake_effect _ p)
  refine ⟨rfl, rfl, rfl, rfl, rfl, rfl, rfl, rfl, rfl, rfl, rfl, rfl, fun w => ?_⟩
  obtain ⟨w1, w2, w3, w4, w5, w6, -⟩ := w
  refine ⟨w1, w2, w3, w4, w5, w6, fun v hv => ?_⟩
  simp only [Option.some.injEq] at hv
  subst hv; simpa using h

theorem abandonViewSet_effect (s : State) (p : PortNo) : RouteEffect s (s.abandonViewSet p) := by
  unfold State.abandonViewSet
  split
  · refine .modPort ⟨rfl, rfl, rfl, rfl, rfl, rfl, rfl, rfl, rfl, rfl, rfl, rfl, fun w => ?_⟩
    obtain ⟨w1, w2, w3, w4, w5, w6, -⟩ := w
    exact ⟨w1, w2, w3, w4, w5, w6, fun v hv => by simp at hv⟩
  · exact .refl s

/-! ### Holds, routes and events -/

theorem holdPort_effect (tH : RaceTime) (s : State) (p : PortNo) : RouteEffect s (holdPort tH s p) := by
  unfold holdPort
  split
  · exact .trans (offerCall_effect ..) (.withRace _ _)
  · exact .refl s

theorem callHold_effect (s : State) : RouteEffect s (callHold s) := by
  unfold callHold State.setRace
  exact .trans (.trans (.withRace s _) (.foldl _ (holdPort_effect _) _ _)) (.withRace _ _)

theorem autoHold_effect (s : State) : RouteEffect s (autoHold s) := by
  unfold autoHold
  split
  · exact callHold_effect s
  · exact .refl s

theorem routeAct_effect (e : Event) (s : State) (r : Route) : RouteEffect s (routeAct e s r) := by
  unfold routeAct
  split
  · exact .foldl _ (fun s p => offerCue_effect s p _) _ _
  · exact noticeToDirector_effect ..
  · exact autoHold_effect s

theorem routeOne_effect (e : Event) (s : State) (r : Route) : RouteEffect s (routeOne e s r) := by
  unfold routeOne
  split
  · exact routeAct_effect e s r
  · exact .refl s

/-- An event routed: cues, notices and holds, and nothing else. -/
theorem raise_effect (e : Event) (s : State) : RouteEffect s (raise e s) := .foldl _ (routeOne_effect e) _ _

theorem raiseNow_effect (k : EventKind) (is : List Slot) (s : State) : RouteEffect s (raiseNow k is s) := raise_effect ..

theorem fixedCue_effect (c : Byte) (s : State) : RouteEffect s (fixedCue c s) :=
  .foldl _ (fun s p => offerCue_effect s p _) _ _

theorem enterHold_effect (s : State) : RouteEffect s (enterHold s) := .trans (.withRace s _) (raiseNow_effect ..)

theorem ackTest_effect (s : State) : RouteEffect s (ackTest s) := by
  unfold ackTest
  split
  · exact enterHold_effect s
  · exact .refl s

/-! ### Views -/

theorem length_viewBodies (f : FrameNum) (es : List ViewEntry) : (viewBodies f es).length ≤ 2 := by
  unfold viewBodies; split <;> simp

theorem buildViewSet_effect (p : PortNo) (f : FrameNum) (s : State) : RouteEffect s (buildViewSet p f s) := by
  unfold buildViewSet
  split
  · exact .refl s
  · exact .trans (abandonViewSet_effect s p) (offerViewSet_effect _ p _ _ (length_viewBodies _ _))

theorem paceEvent_effect (p : PortNo) (f : FrameNum) (s : State) : RouteEffect s (paceEvent p f s) := by
  unfold paceEvent
  split
  · exact buildViewSet_effect p f s
  · exact .refl s

theorem acceptanceReport_effect (p : PortNo) (f : FrameNum) (b : Bool) (s : State) :
    RouteEffect s (acceptanceReport p f b s) := by
  unfold acceptanceReport
  split
  · exact paceEvent_effect ..
  · exact .refl s

theorem resumePort_effect (tR : RaceTime) (s : State) (p : PortNo) : RouteEffect s (resumePort tR s p) := by
  unfold resumePort
  split
  · exact offerCall_effect ..
  · exact .refl s

theorem answer_effect (c : Command) (st : Status) (d : List Byte) (s : State) : RouteEffect s (answer c st d s) :=
  offerReply_effect ..

end Sys2Proof.Machine
end

