-- ==== Sys2Proof/Laws/RaceFrames.lean ====
section
/-! SUPPORT. What the work of the race can do to a state, said once for each shared operation: car states, crossings, laps,
contacts, the race's record and the waiting frames may change; assignments, samples, parameters, port states, tables, the
Management Unit and the clock may not (`RaceEffect`). -/

namespace Sys2Proof.Machine

theorem SameCar.refl (c : CarRecord) : SameCar c c := ⟨rfl, rfl, rfl, rfl, rfl, rfl, rfl⟩

theorem SameCar.trans {a b c : CarRecord} (h : SameCar a b) (k : SameCar b c) : SameCar a c :=
  ⟨k.enabled.trans h.enabled, k.owner.trans h.owner, k.seat.trans h.seat, k.number.trans h.number,
   k.last.trans h.last, k.prev.trans h.prev, k.gridS.trans h.gridS⟩

theorem RaceEffect.refl (s : State) : RaceEffect s s :=
  ⟨rfl, rfl, rfl, rfl, rfl, rfl, rfl, rfl, fun _ => .refl _, fun _ => .refl _, Nat.le_max_right _ _, id⟩

theorem RaceEffect.trans {a b c : State} (h : RaceEffect a b) (k : RaceEffect b c) : RaceEffect a c :=
  ⟨k.resetLow.trans h.resetLow, k.clock.trans h.clock, k.params.trans h.params, k.routes.trans h.routes,
   k.patterns.trans h.patterns, k.mgmt.trans h.mgmt, k.free.trans h.free, k.pending.trans h.pending,
   fun p => (h.link p).trans (k.link p), fun i => (h.cars i).trans (k.cars i), by
     have := h.crossings; have := k.crossings; omega,
   fun x => k.contacts (h.contacts x)⟩

theorem contactsOk_congr {s t : State} (hc : t.contacts = s.contacts)
    (hs : ∀ i, inContactState (s.car i).state = true → inContactState (t.car i).state = true) (h : s.contactsOk) :
    t.contactsOk := by
  refine ⟨fun c m => ?_, hc ▸ h.2⟩
  have := h.1 c (hc ▸ m)
  exact ⟨this.1, hs _ this.2.1, hs _ this.2.2⟩

theorem RouteEffect.race {s t : State} (h : RouteEffect s t) : RaceEffect s t :=
  ⟨h.resetLow, h.clock, h.params, h.routes, h.patterns, h.mgmt, h.free, h.pending, h.link,
   fun i => by rw [h.car i]; exact .refl _, by rw [h.crossings]; exact Nat.le_max_right _ _,
   contactsOk_congr h.contacts fun i x => by rw [h.car i]; exact x⟩

theorem RaceEffect.foldl {α : Type} (f : State → α → State) (h : ∀ s x, RaceEffect s (f s x)) (xs : List α) (s : State) :
    RaceEffect s (xs.foldl f s) := by
  induction xs generalizing s with
  | nil => exact .refl s
  | cons x xs ih => exact (h s x).trans (ih _)

/-- A change of the race's own records that keeps the cars, the contacts and the length of the Crossing List in bound. -/
theorem RaceEffect.withRecords (s : State) (r : RaceRecord) (xs : List Crossing) (l : Vector LapRecord 100)
    (cl : List ClassEntry) (n : Counter) (hx : xs.length ≤ max 128 s.crossings.length) :
    RaceEffect s { s with race := r, crossings := xs, lapTable := l, classification := cl, crossingLost := n } :=
  ⟨rfl, rfl, rfl, rfl, rfl, rfl, rfl, rfl, fun _ => .refl _, fun _ => .refl _, hx, contactsOk_congr rfl fun _ => id⟩

theorem RaceEffect.withRace (s : State) (r : RaceRecord) : RaceEffect s { s with race := r } :=
  (RouteEffect.withRace s r).race

theorem RaceEffect.setLap (s : State) (k : Nat) (r : LapRecord) : RaceEffect s (s.setLap k r) := by
  unfold State.setLap
  split
  · exact .refl s
  · exact .withRecords s s.race s.crossings _ s.classification s.crossingLost (Nat.le_max_right _ _)

theorem RaceEffect.setCar {s : State} {i : Slot} {c : CarRecord} (h : SameCar (s.car i) c)
    (hs : inContactState (s.car i).state = true → inContactState c.state = true) : RaceEffect s (s.setCar i c) := by
  refine ⟨rfl, rfl, rfl, rfl, rfl, rfl, rfl, rfl, fun _ => .refl _, fun j => ?_, Nat.le_max_right _ _, contactsOk_congr rfl fun j x => ?_⟩
  · rw [State.car_setCar]; split
    · next e => exact e ▸ h
    · exact .refl _
  · rw [State.car_setCar]; split
    · next e => exact hs (e ▸ x)
    · exact x

/-! ### A car's state changes -/

/-- A car that leaves LIVE or COASTING loses its pairs; no other pair changes (R137). -/
theorem putCar_contacts (s : State) (i : Slot) (c : CarRecord) (ok : s.contactsOk) : (s.putCar i c).contactsOk := by
  have hcar : ∀ j, (s.putCar i c).car j = if j = i then c else s.car j := fun j => State.car_setCar s i j c
  have hst : ∀ j, j ≠ i → (s.putCar i c).car j = s.car j := fun j e => by rw [hcar]; simp [e]
  by_cases hc : inContactState c.state = true
  · have e : (s.putCar i c).contacts = s.contacts := by simp [State.putCar, hc]
    refine contactsOk_congr e (fun j x => ?_) ok
    rw [hcar]; split
    · exact hc
    · exact x
  · have e : (s.putCar i c).contacts = s.contacts.filter fun q => !pairHolds i q := by simp [State.putCar, hc]
    refine ⟨fun q m => ?_, e ▸ ok.2.filter _⟩
    rw [e, List.mem_filter] at m
    have n := m.2
    simp [pairHolds] at n
    have := ok.1 q m.1
    rw [hst _ n.1, hst _ n.2]
    exact this

theorem putCar_effect {s : State} {i : Slot} {c : CarRecord} (h : SameCar (s.car i) c) : RaceEffect s (s.putCar i c) := by
  refine ⟨rfl, rfl, rfl, rfl, rfl, rfl, rfl, rfl, fun _ => .refl _, fun j => ?_, Nat.le_max_right _ _, putCar_contacts s i c⟩
  show SameCar (s.car j) ((s.setCar i c).car j)
  rw [State.car_setCar]; split
  · next e => exact e ▸ h
  · exact .refl _

theorem changeCar_effect {s : State} {i : Slot} {c : CarRecord} (ev : Option EventKind) (h : SameCar (s.car i) c) :
    RaceEffect s (changeCar i c ev s) := by
  unfold changeCar
  refine .trans (.trans (putCar_effect h) ?_) (.foldl _ (fun s c => (raiseNow_effect ..).race) _ _)
  split
  · exact (raiseNow_effect ..).race
  · exact .refl _

/-! ### Fixing -/

theorem setDeadline_effect (s : State) (k : Nat) : RaceEffect s (s.setDeadline k) := .setLap s k _

theorem setAllDeadlines_effect (s : State) : RaceEffect s s.setAllDeadlines := .foldl _ setDeadline_effect _ _

theorem sendPlacing_effect (x : Crossing) (n : Nat) (s : State) : RaceEffect s (sendPlacing x n s) :=
  .foldl _ (fun s p => (offerPlacing_effect s p _).race) _ _

theorem raiseLeadChange_effect (k : Nat) (i : Slot) (s : State) : RaceEffect s (raiseLeadChange k i s) := by
  unfold raiseLeadChange
  split
  · exact (raiseNow_effect ..).race
  · exact .refl s

theorem firstFinish_effect (s : State) : RaceEffect s (firstFinish s) := by
  unfold firstFinish
  simp only
  split <;> exact .withRace s _

theorem fixFinish_effect (i : Slot) (n : Nat) (s : State) : RaceEffect s (fixFinish i n s) := by
  unfold fixFinish
  simp only
  have h1 : RaceEffect s (if (s.car i).enabled then changeCar i ((s.car i).finished n) none s else s) := by
    split
    · exact changeCar_effect _ ⟨rfl, rfl, rfl, rfl, rfl, rfl, rfl⟩
    · exact .refl s
  refine h1.trans ?_
  generalize (if (s.car i).enabled then changeCar i ((s.car i).finished n) none s else s) = u
  split
  · exact (raiseNow_effect ..).race.trans (firstFinish_effect _)
  · exact (raiseNow_effect ..).race

theorem fixEvents_effect (x : Crossing) (n : Nat) (s : State) : RaceEffect s (fixEvents x n s) := by
  have h1 : RaceEffect s (raiseNow .lapFixed [x.slot] s) := (raiseNow_effect ..).race
  have h2 : ∀ u, RaceEffect u (if n = 1 then raiseLeadChange x.lap x.slot u else u) := fun u => by
    split
    · exact raiseLeadChange_effect ..
    · exact .refl u
  have h3 : ∀ u, RaceEffect u (if n = 1 ∧ x.lap = u.params.laps then raiseNow .lastLap [x.slot] u else u) := fun u => by
    split
    · exact (raiseNow_effect ..).race
    · exact .refl u
  have h4 : ∀ u, RaceEffect u (if x.lap = u.params.laps + 1 then fixFinish x.slot n u else u) := fun u => by
    split
    · exact fixFinish_effect ..
    · exact .refl u
  exact ((h1.trans (h2 _)).trans (h3 _)).trans (h4 _)

theorem length_insertCrossing (x : Crossing) (xs : List Crossing) : (insertCrossing x xs).length = xs.length + 1 := by
  induction xs with
  | nil => rfl
  | cons y ys ih => unfold insertCrossing; split <;> simp [ih]

theorem length_fixInList (x y : Crossing) (late : Bool) (xs : List Crossing) :
    (fixInList x y late xs).length = xs.length + if late then 1 else 0 := by
  unfold fixInList; split <;> simp [length_insertCrossing]

/-- The Crossing List of an effect exchanged for another one of a fitting length. -/
theorem RaceEffect.recross {s t : State} (h : RaceEffect s { t with crossings := [] }) (xs : List Crossing)
    (hx : xs.length ≤ max 128 s.crossings.length) : RaceEffect s { t with crossings := xs } :=
  ⟨h.resetLow, h.clock, h.params, h.routes, h.patterns, h.mgmt, h.free, h.pending, h.link, h.cars, hx, h.contacts⟩

/-- A fixing, given that its record has room. -/
theorem fixRecord_effect_from (x : Crossing) (late : Bool) (s0 s : State) (h : RaceEffect s0 { s with crossings := [] })
    (hl : s.crossings.length + (if late then 1 else 0) ≤ max 128 s0.crossings.length) :
    RaceEffect s0 (fixRecord x late s) := by
  have h1 : ∀ (r : LapRecord) (xs : List Crossing), xs.length ≤ max 128 s0.crossings.length →
      RaceEffect s0 { s.setLap x.lap r with crossings := xs } := fun r xs hx => by
    refine RaceEffect.recross ?_ xs hx
    refine h.trans ?_
    unfold State.setLap
    split
    · exact .refl _
    · exact .withRecords { s with crossings := [] } s.race [] _ s.classification s.crossingLost (Nat.le_max_right _ _)
  unfold fixRecord
  refine (h1 _ _ ?_).trans ((setDeadline_effect _ _).trans ((sendPlacing_effect ..).trans (fixEvents_effect ..)))
  rw [length_fixInList]; simpa using hl

theorem fixRecord_provisional_effect (x : Crossing) (s : State) : RaceEffect s (fixRecord x false s) :=
  fixRecord_effect_from x false s s
    (.withRecords s s.race [] s.lapTable s.classification s.crossingLost (Nat.zero_le _)) (Nat.le_max_right _ _)

theorem fixLap_effect (k : Nat) (fuel : Nat) (s : State) : RaceEffect s (fixLap k fuel s) := by
  induction fuel generalizing s with
  | zero => exact .refl s
  | succ n ih =>
    unfold fixLap
    split
    · split
      · exact (fixRecord_provisional_effect ..).trans (ih _)
      · exact .refl s
    · exact .refl s

theorem fixPass_effect (s : State) : RaceEffect s (fixPass s) := .foldl _ (fun s k => fixLap_effect k _ s) _ _

theorem fixAll_effect (fuel : Nat) (s : State) : RaceEffect s (fixAll fuel s) := by
  induction fuel generalizing s with
  | zero => exact .refl s
  | succ n ih =>
    unfold fixAll
    split
    · exact (fixRecord_provisional_effect ..).trans (ih _)
    · exact .refl s

theorem fixPasses_effect (fuel : Nat) (s : State) : RaceEffect s (fixPasses fuel s) := by
  induction fuel generalizing s with
  | zero => exact .refl s
  | succ n ih =>
    unfold fixPasses
    simp only
    split
    · exact fixPass_effect s
    · exact (fixPass_effect s).trans (ih _)

/-! ### Ageing, the close and the evaluation -/

theorem ageStep_effect (i : Slot) (s : State) : RaceEffect s (ageStep i s) := by
  unfold ageStep
  simp only
  split
  · exact .refl s
  split
  · next hl =>
    split
    · exact changeCar_effect _ ⟨rfl, rfl, rfl, rfl, rfl, rfl, rfl⟩
    · split
      · exact changeCar_effect _ ⟨rfl, rfl, rfl, rfl, rfl, rfl, rfl⟩
      · exact .setCar ⟨rfl, rfl, rfl, rfl, rfl, rfl, rfl⟩ id
  · split
    · exact changeCar_effect _ ⟨rfl, rfl, rfl, rfl, rfl, rfl, rfl⟩
    · exact .setCar ⟨rfl, rfl, rfl, rfl, rfl, rfl, rfl⟩ id
  · exact .refl s

theorem classified_effect (s : State) (cl : List ClassEntry) : RaceEffect s { s with classification := cl } :=
  .withRecords s s.race s.crossings s.lapTable cl s.crossingLost (Nat.le_max_right _ _)

theorem closeSteps_effect (s : State) : RaceEffect s (closeSteps s) := by
  have tail : ∀ u : State, RaceEffect u (raiseNow .raceClosed []
      { (fixAll u.crossings.length u).setAllDeadlines with
        classification := classify (fixAll u.crossings.length u).setAllDeadlines }) := fun u => by
    refine (fixAll_effect u.crossings.length u).trans ?_
    generalize fixAll u.crossings.length u = v
    refine (setAllDeadlines_effect v).trans ?_
    generalize v.setAllDeadlines = w
    exact (classified_effect w _).trans (raiseNow_effect ..).race
  have aged : ∀ (b : Bool) (u : State),
      RaceEffect u (if b = true then allSlots.foldl (fun s i => ageStep i s) u else u) := fun b u => by
    split
    · exact .foldl _ (fun s i => ageStep_effect i s) _ _
    · exact .refl u
  exact (RaceEffect.withRace s _).trans ((aged _ _).trans (tail _))

theorem fieldTest_effect (s : State) : RaceEffect s (fieldTest s) := by
  unfold fieldTest
  split
  · exact closeSteps_effect s
  · exact .refl s

theorem closingTests_effect (s : State) : RaceEffect s (closingTests s) := by
  unfold closingTests
  split
  · exact closeSteps_effect s
  · exact .refl s

/-- A fixing evaluation with the tests it leads to. -/
theorem evaluate_effect (s : State) : RaceEffect s (evaluate s) := by
  unfold evaluate
  simp only
  split
  · split
    · exact (fixPasses_effect 13 s).trans (closingTests_effect _)
    · split
      · exact (fixPasses_effect 13 s).trans (fieldTest_effect _)
      · exact fixPasses_effect 13 s
  · exact .refl s

theorem afterChange_effect (s : State) : RaceEffect s (afterChange s) := (evaluate_effect s).trans (fieldTest_effect _)

theorem ageEval_effect (i : Slot) (s : State) : RaceEffect s (ageEval i s) := by
  unfold ageEval
  simp only
  split
  · exact ageStep_effect i s
  · exact (ageStep_effect i s).trans (afterChange_effect _)

theorem ageAll_effect (s : State) : RaceEffect s (ageAll s) := .foldl _ (fun s i => ageEval_effect i s) _ _

/-! ### Samples -/

theorem length_removeFirst {α : Type} (p : α → Bool) (xs ys : List α) (h : removeFirst p xs = some ys) :
    xs.length = ys.length + 1 := by
  induction xs generalizing ys with
  | nil => simp [removeFirst] at h
  | cons x xs ih =>
    unfold removeFirst at h
    split at h
    · cases h; rfl
    · simp only [Option.map_eq_some_iff] at h
      obtain ⟨zs, hz, rfl⟩ := h
      simp [ih zs hz]

/-- Room for one more record (R95, R96). -/
theorem makeRoom_length {s : State} {xs : List Crossing} (h : s.makeRoom = some xs) :
    xs.length + 1 ≤ max 128 s.crossings.length := by
  unfold State.makeRoom at h
  split at h
  · cases h; omega
  · have := length_removeFirst _ _ _ h; omega

/-- Marking a car unplaced. -/
theorem unplace_effect (s : State) (i : Slot) : RaceEffect s (s.modCar i fun c => { c with unplaced := true }) :=
  .setCar ⟨rfl, rfl, rfl, rfl, rfl, rfl, rfl⟩ id

theorem enterCrossing_effect (s : State) (x : Crossing) : RaceEffect s (enterCrossing s x) := by
  unfold enterCrossing
  split
  · refine (unplace_effect s x.slot).trans ?_
    exact .withRecords _ _ _ _ _ _ (Nat.le_max_right _ _)
  · next xs h =>
    have hl := makeRoom_length h
    simp only
    split
    · exact fixRecord_effect_from x true s { s with crossings := xs }
        (.withRecords s s.race [] s.lapTable s.classification s.crossingLost (Nat.zero_le _)) hl
    · refine .trans (.withRecords s s.race (insertCrossing x xs) s.lapTable s.classification s.crossingLost ?_)
        (setDeadline_effect _ _)
      rw [length_insertCrossing]; exact hl

theorem enterCrossings_effect (i : Slot) (prev : Option Sample) (x : Sample) (s : State) :
    RaceEffect s (enterCrossings i prev x s) := by
  unfold enterCrossings
  split
  · exact .refl s
  split
  · split
    · exact .refl s
    · exact unplace_effect s i
  · split
    · exact .refl s
    split
    · exact .foldl _ enterCrossing_effect _ _
    · exact unplace_effect s i

theorem lineSample_effect (i : Slot) (prev : Option Sample) (x : Sample) (s : State) : RaceEffect s (lineSample i prev x s) := by
  unfold lineSample
  simp only
  have h := (enterCrossings_effect i prev x s).trans (evaluate_effect _)
  split
  · exact h
  · exact h.trans (fieldTest_effect _)

/-! ### Contacts -/

theorem mem_insertByKey {α : Type} (key : α → List Int) (x y : α) (xs : List α) :
    y ∈ insertByKey key x xs ↔ y = x ∨ y ∈ xs := by
  induction xs with
  | nil => simp [insertByKey]
  | cons z zs ih =>
    unfold insertByKey
    split
    · simp
    · simp only [List.mem_cons, ih]; constructor <;> (rintro (h | h | h) <;> simp [h])

theorem pairBefore_iff (a b : Slot × Slot) :
    pairBefore a b ↔ a.1.val < b.1.val ∨ (a.1.val = b.1.val ∧ a.2.val < b.2.val) := by
  unfold pairBefore; rw [Fin.ext_iff]; exact Iff.rfl

theorem lexLt_pairKey (a b : Slot × Slot) : lexLt (pairKey a) (pairKey b) = true ↔ pairBefore a b := by
  rw [pairBefore_iff]; simp [lexLt, pairKey]

theorem pairBefore_total {a b : Slot × Slot} (h : ¬pairBefore a b) (hne : b ≠ a) : pairBefore b a := by
  rw [pairBefore_iff] at *
  have hv : ¬(b.1.val = a.1.val ∧ b.2.val = a.2.val) := fun e => hne (Prod.ext (Fin.ext e.1) (Fin.ext e.2))
  omega

theorem pairBefore_trans {a b c : Slot × Slot} (h : pairBefore a b) (k : pairBefore b c) : pairBefore a c := by
  rw [pairBefore_iff] at *; omega

/-- A new pair inserted keeps the order of the Contact Pair Set. -/
theorem pairwise_insertPair (x : Slot × Slot) (xs : List (Slot × Slot)) (h : xs.Pairwise pairBefore) (hx : x ∉ xs) :
    (insertByKey pairKey x xs).Pairwise pairBefore := by
  induction xs with
  | nil => simp [insertByKey]
  | cons y ys ih =>
    simp only [List.mem_cons, not_or] at hx
    obtain ⟨hy, ht⟩ := List.pairwise_cons.mp h
    unfold insertByKey
    split
    · next hb =>
      rw [lexLt_pairKey] at hb
      refine List.pairwise_cons.mpr ⟨fun z hz => ?_, h⟩
      rcases List.mem_cons.mp hz with rfl | hz
      · exact hb
      · exact pairBefore_trans hb (hy z hz)
    · next hb =>
      rw [lexLt_pairKey] at hb
      refine List.pairwise_cons.mpr ⟨fun z hz => ?_, ih ht hx.2⟩
      rcases (mem_insertByKey ..).mp hz with rfl | hz
      · exact pairBefore_total hb (Ne.symm hx.1)
      · exact hy z hz

/-- A change of the Contact Pair Set that keeps it sound. -/
theorem RaceEffect.withContacts (s : State) (cs : List (Slot × Slot)) (h : s.contactsOk → { s with contacts := cs }.contactsOk) :
    RaceEffect s { s with contacts := cs } :=
  ⟨rfl, rfl, rfl, rfl, rfl, rfl, rfl, rfl, fun _ => .refl _, fun _ => .refl _, Nat.le_max_right _ _, h⟩

theorem contactTest_effect (c o : Slot) (g dd : Int) (s : State) (hne : o ≠ c)
    (hc : inContactState (s.car c).state = true) (ho : inContactState (s.car o).state = true) :
    RaceEffect s (contactTest c o g dd s) := by
  unfold contactTest
  simp only
  split
  · split
    · refine .trans (.withContacts s _ fun ok => ⟨fun q m => ?_, ok.2.filter _⟩) (raiseNow_effect ..).race
      exact ok.1 q (List.mem_filter.mp m).1
    · exact .refl s
  · next hm =>
    split
    · refine .trans (.withContacts s _ fun ok => ⟨fun q m => ?_, ?_⟩) (raiseNow_effect ..).race
      · rcases (mem_insertByKey ..).mp m with rfl | m
        · unfold mkPair
          split
          · next hlt => exact ⟨hlt, hc, ho⟩
          · next hlt => exact ⟨by simp only [Fin.lt_def, Fin.ext_iff, ne_eq] at *; omega, ho, hc⟩
        · exact ok.1 q m
      · exact pairwise_insertPair _ _ ok.2 (by simpa using hm)
    · exact .refl s

/-- A contact evaluation changes no car. -/
theorem contactTest_car (c o : Slot) (g dd : Int) (s : State) (i : Slot) : (contactTest c o g dd s).car i = s.car i := by
  unfold contactTest
  simp only
  split
  · split
    · exact (raiseNow_effect ..).car i
    · rfl
  · split
    · exact (raiseNow_effect ..).car i
    · rfl

theorem contactOne_car (s0 : State) (c : Slot) (x : Sample) (s : State) (o i : Slot) :
    (contactOne s0 c x s o).car i = s.car i := by
  unfold contactOne
  split
  · split
    · exact contactTest_car ..
    · rfl
  · rfl

theorem contactOne_effect (s0 : State) (c : Slot) (x : Sample) (s : State) (o : Slot)
    (hc : inContactState (s.car c).state = true) : RaceEffect s (contactOne s0 c x s o) := by
  unfold contactOne
  split
  · next h =>
    split
    · exact contactTest_effect _ _ _ _ _ h.1 hc h.2
    · exact .refl s
  · exact .refl s

theorem contactFold_effect (s0 : State) (c : Slot) (x : Sample) (os : List Slot) (s : State)
    (hc : inContactState (s.car c).state = true) : RaceEffect s (os.foldl (contactOne s0 c x) s) := by
  induction os generalizing s with
  | nil => exact .refl s
  | cons o os ih => exact (contactOne_effect s0 c x s o hc).trans (ih _ (by rw [contactOne_car]; exact hc))

theorem contactSample_effect (s0 : State) (c : Slot) (x : Sample) (s : State) : RaceEffect s (contactSample s0 c x s) := by
  unfold contactSample
  split
  · next h => exact contactFold_effect s0 c x _ s (by simp [inContactState, h])
  · exact .refl s

/-! ### Handing on -/

theorem jumpCheck_effect (i : Slot) (x : Sample) (s : State) : RaceEffect s (jumpCheck i x s) := by
  unfold jumpCheck
  split
  · split
    · have h : RaceEffect s (s.modCar i fun c => { c with jump := true }) := .setCar ⟨rfl, rfl, rfl, rfl, rfl, rfl, rfl⟩ id
      exact h.trans (raiseNow_effect ..).race
    · exact .refl s
  · exact .refl s

/-- What an accepted sample leads to changes no sample and no assignment. -/
theorem handOn_effect (s0 : State) (i : Slot) (prev : Option Sample) (x : Sample) (s : State) :
    RaceEffect s (handOn s0 i prev x s) := by
  unfold handOn
  simp only
  refine .trans ?_ ((contactSample_effect ..).trans (jumpCheck_effect ..))
  split
  · exact lineSample_effect ..
  · exact .refl s

end Sys2Proof.Machine
end

