-- ==== Sys2Proof/Laws/LinkFrames.lean ====
section
/-! SUPPORT. What the work of one port's link can do to a state, said once for each shared operation: the port itself, the
director role, the queue of commands, car states and what the race's work reaches may change; every other port's link, the
parameters, the routes, the patterns and the clock may not (`LinkEffect`). What every command keeps is `StepEffect`. -/

namespace Sys2Proof.Machine

theorem StepEffect.refl (s : State) : StepEffect s s :=
  ⟨rfl, rfl, rfl, fun _ => id, Nat.le_max_right _ _, Nat.le_max_right _ _, id, id, fun _ => id⟩

theorem StepEffect.trans {a b c : State} (h : StepEffect a b) (k : StepEffect b c) : StepEffect a c :=
  ⟨k.resetLow.trans h.resetLow, k.clock.trans h.clock, k.pending.trans h.pending, fun p x => k.within p (h.within p x),
   by have := h.queue; have := k.queue; omega, by have := h.crossings; have := k.crossings; omega,
   fun x => k.contacts (h.contacts x), fun x => k.seats (h.seats x), fun p x => k.timing p (h.timing p x)⟩

theorem LinkEffect.refl (p : PortNo) (s : State) : LinkEffect p s s :=
  ⟨.refl s, rfl, rfl, rfl, rfl, rfl, fun _ => .refl _, fun _ _ => .refl _⟩

theorem LinkEffect.trans {p : PortNo} {a b c : State} (h : LinkEffect p a b) (k : LinkEffect p b c) : LinkEffect p a c :=
  ⟨h.toStepEffect.trans k.toStepEffect, k.params.trans h.params, k.routes.trans h.routes, k.patterns.trans h.patterns,
   k.free.trans h.free, k.resetPending.trans h.resetPending, fun i => (h.cars i).trans (k.cars i),
   fun r e => (h.others r e).trans (k.others r e)⟩

theorem LinkEffect.foldl {α : Type} {p : PortNo} (f : State → α → State) (h : ∀ s x, LinkEffect p s (f s x)) (xs : List α)
    (s : State) : LinkEffect p s (xs.foldl f s) := by
  induction xs generalizing s with
  | nil => exact .refl p s
  | cons x xs ih => exact (h s x).trans (ih _)

theorem SameLink.timingOk {q r : Port} (h : SameLink q r) (k : q.timingOk) : r.timingOk := by
  have hr := h.record
  have hv := congrArg TimingRecord.valid hr
  have hp := congrArg TimingRecord.period hr
  have hn := congrArg TimingRecord.pNom hr
  have ht := congrArg TimingRecord.tolPpm hr
  simp only at hv hp hn ht
  unfold Port.timingOk periodBand at *
  rw [h.phase, hv, hp, hn, ht]; exact k

theorem seatsOk_congr {s t : State} (h : ∀ i, SameCar (s.car i) (t.car i)) (k : s.seatsOk) : t.seatsOk := by
  intro i j hij hi hj ho
  rw [(h i).enabled] at hi; rw [(h j).enabled] at hj; rw [(h i).owner, (h j).owner] at ho
  rw [(h i).seat, (h j).seat]; exact k i j hij hi hj ho

theorem RaceEffect.link' (p : PortNo) {s t : State} (h : RaceEffect s t) : LinkEffect p s t :=
  ⟨⟨h.resetLow, h.clock, h.pending, fun r => (h.link r).within, by rw [h.mgmt]; exact Nat.le_max_right _ _, h.crossings,
    h.contacts, seatsOk_congr h.cars, fun r => (h.link r).timingOk⟩,
   h.params, h.routes, h.patterns, h.free, by rw [h.mgmt], h.cars, fun r _ => h.link r⟩

theorem RouteEffect.link' (p : PortNo) {s t : State} (h : RouteEffect s t) : LinkEffect p s t := h.race.link' p

/-- A change of port `p` that keeps its lists within capacity and its timing record sound. -/
theorem LinkEffect.setPort {p : PortNo} {s : State} {q : Port} (hw : (s.port p).withinCapacity → q.withinCapacity)
    (ht : (s.port p).timingOk → q.timingOk) : LinkEffect p s (s.setPort p q) := by
  refine ⟨⟨rfl, rfl, rfl, fun r => ?_, Nat.le_max_right _ _, Nat.le_max_right _ _, id, id, fun r => ?_⟩, rfl, rfl, rfl, rfl, rfl,
    fun _ => .refl _, fun r e => ?_⟩
  · rw [State.port_setPort]; split
    · next e => exact e ▸ hw
    · exact id
  · rw [State.port_setPort]; split
    · next e => exact e ▸ ht
    · exact id
  · rw [State.port_setPort_of_ne _ _ e]; exact .refl _

theorem LinkEffect.modPort {p : PortNo} {s : State} {f : Port → Port} (hw : (s.port p).withinCapacity → (f (s.port p)).withinCapacity)
    (ht : (s.port p).timingOk → (f (s.port p)).timingOk) : LinkEffect p s (s.modPort p f) := .setPort hw ht

/-- A change of port `p` that touches neither its lists nor what its timing record promises. -/
theorem LinkEffect.modPort_plain {p : PortNo} {s : State} {f : Port → Port}
    (h : ∀ q, (f q).class1 = q.class1 ∧ (f q).calls = q.calls ∧ (f q).cues = q.cues ∧ (f q).placings = q.placings
      ∧ (f q).outbox = q.outbox ∧ (f q).viewSet = q.viewSet)
    (ht : (s.port p).timingOk → (f (s.port p)).timingOk) : LinkEffect p s (s.modPort p f) := by
  refine .modPort (fun w => ?_) ht
  obtain ⟨h1, h2, h3, h4, h5, h6⟩ := h (s.port p)
  unfold Port.withinCapacity Port.replies Port.notices at *
  rw [h1, h2, h3, h4, h5, h6]; exact w

/-- A phase that promises nothing of the timing record. -/
theorem timingOk_of_phase {q : Port} (h1 : q.phase ≠ .rate) (h2 : q.phase ≠ .active) : q.timingOk :=
  ⟨fun h => by rcases h with h | h <;> contradiction, fun h => absurd h h2⟩

/-- A change of the role and of the queue of commands that adds no command. -/
theorem LinkEffect.withMgmt (p : PortNo) (s : State) (m : MgmtRecord) (hq : m.queue.length ≤ s.mgmt.queue.length)
    (hr : m.resetPending = s.mgmt.resetPending) : LinkEffect p s { s with mgmt := m } :=
  ⟨⟨rfl, rfl, rfl, fun _ => id, by show m.queue.length ≤ _; omega, Nat.le_max_right _ _, id, id, fun _ => id⟩, rfl, rfl, rfl, rfl, hr,
    fun _ => .refl _, fun _ _ => .refl _⟩

/-! ### Cars and their port -/

/-- A car that changes its state and its timers. -/
theorem SameCar.timers (c : CarRecord) (st : CarState) (ct lt : Option RaceTime) :
    SameCar c { c with state := st, coastTimer := ct, loseTimer := lt } := ⟨rfl, rfl, rfl, rfl, rfl, rfl, rfl⟩

/-- A change of a car's state, reported to the Line Unit and the Race Controller. -/
theorem report_effect {s : State} {i : Slot} {c : CarRecord} (ev : Option EventKind) (h : SameCar (s.car i) c) :
    RaceEffect s (afterChange (changeCar i c ev s)) := (changeCar_effect ev h).trans (afterChange_effect _)

theorem leaveCar_effect (quiet : Bool) (s : State) (i : Slot) : RaceEffect s (leaveCar quiet s i) := by
  unfold leaveCar
  simp only
  split
  · split
    · exact report_effect none (.timers ..)
    · exact .refl s
  · split
    · exact report_effect (some .carCoasting) (.timers ..)
    · exact .refl s

theorem unparkCar_effect (s : State) (i : Slot) : RaceEffect s (unparkCar s i) := by
  have h : RaceEffect s (afterChange (changeCar i (s.coasting (s.car i)) (some .carCoasting) s)) :=
    report_effect (some .carCoasting) (.timers ..)
  unfold unparkCar
  simp only
  split
  · split
    · exact h
    · exact h.trans (ageEval_effect ..)
  · exact .refl s

theorem unparkCars_effect (p : PortNo) (s : State) : RaceEffect s (unparkCars p s) := .foldl _ unparkCar_effect _ _

/-! ### The director role and leaving ACTIVE -/

theorem discardCommands_effect (p r : PortNo) (s : State) : LinkEffect p s (s.discardCommands r) :=
  .withMgmt p s _ (List.length_filter_le _ _) rfl

/-- The role moved to another port, or fallen vacant. -/
theorem withDirector_effect (p : PortNo) (s : State) (d : Option PortNo) :
    LinkEffect p s { s with mgmt := { s.mgmt with director := d } } := .withMgmt p s _ (Nat.le_refl _) rfl

theorem handOver_effect (p : PortNo) (s : State) : LinkEffect p s (handOver p s) := by
  have h := (withDirector_effect p s (allPorts.find? s.isActive)).trans (discardCommands_effect p p _)
  unfold handOver
  simp only
  split
  · exact h.trans ((offerNotice_effect ..).link' p)
  · exact h

theorem takeUp_effect (p : PortNo) (s : State) : LinkEffect p s (takeUp p s) :=
  (withDirector_effect p s (some p)).trans ((offerNotice_effect ..).link' p)

theorem removeAck_effect (p : PortNo) (s : State) : RouteEffect s (removeAck p s) := by
  unfold removeAck
  split
  · exact .trans (.withRace s _) (ackTest_effect _)
  · exact .refl s

theorem departed_within {q : Port} (new : PortPhase) (h : q.withinCapacity) : (q.departed new).withinCapacity := by
  obtain ⟨h1, h2, h3, h4, h5, h6, h7⟩ := h
  refine ⟨h1, by simp [Port.departed], by simp [Port.departed], by simp [Port.departed], ?_, ?_, h7⟩
  · by_cases e : new = .quiet
    · simpa [Port.departed, Port.replies, e] using h5
    · simp [Port.departed, Port.replies, e]
  · by_cases e : new = .quiet
    · simpa [Port.departed, Port.notices, e] using h6
    · simp [Port.departed, Port.notices, e]

/-- A port that leaves ACTIVE for another phase than RATE (R162). -/
theorem leaveActive_effect (p : PortNo) (new : PortPhase) (s : State) (h1 : new ≠ .rate) (h2 : new ≠ .active) :
    LinkEffect p s (leaveActive p new s) := by
  have h : LinkEffect p s ((s.abandonViewSet p).modPort p (·.departed new)) :=
    .trans ((abandonViewSet_effect s p).link' p) (.modPort (departed_within new) fun _ => timingOk_of_phase h1 h2)
  have tail : ∀ u, LinkEffect p u (removeAck p ((u.slotsOf p).foldl (leaveCar (decide (new = .quiet))) u)) := fun u =>
    .trans ((RaceEffect.foldl _ (leaveCar_effect _) _ _).link' p) ((removeAck_effect ..).link' p)
  unfold leaveActive
  simp only
  refine .trans ?_ (tail _)
  split
  · exact h.trans (handOver_effect ..)
  · split
    · exact h
    · exact h.trans (discardCommands_effect ..)

theorem changePhase_effect (p : PortNo) (new : PortPhase) (s : State) (h1 : new ≠ .rate) (h2 : new ≠ .active) :
    LinkEffect p s (changePhase p new s) := by
  unfold changePhase
  split
  · exact leaveActive_effect p new s h1 h2
  · exact .modPort id fun _ => timingOk_of_phase h1 h2

/-! ### FAULT, PHASE, RATE and ACTIVE -/

/-- Handing over the role leaves every port's link as it was. -/
theorem handOver_link (p r : PortNo) (s : State) : SameLink (s.port r) ((handOver p s).port r) := by
  unfold handOver
  simp only
  split
  · exact (offerNotice_effect ({ s with mgmt := { s.mgmt with director := allPorts.find? s.isActive } }.discardCommands p) ..).link r
  · exact .refl _

/-- After leaving ACTIVE the port is as `Port.departed` says, but for its waiting frames. -/
theorem leaveActive_link (p r : PortNo) (new : PortPhase) (s : State) :
    SameLink (((s.abandonViewSet p).modPort p (·.departed new)).port r) ((leaveActive p new s).port r) := by
  have tail : ∀ u : State, SameLink (u.port r)
      ((removeAck p ((u.slotsOf p).foldl (leaveCar (decide (new = .quiet))) u)).port r) := fun u =>
    .trans ((RaceEffect.foldl _ (leaveCar_effect _) _ _).link r) ((removeAck_effect ..).link r)
  unfold leaveActive
  simp only
  refine .trans ?_ (tail _)
  split
  · exact handOver_link ..
  · split
    · exact .refl _
    · exact .refl _

/-- The phase of port `p` right after a change of it. -/
theorem changePhase_phase (p : PortNo) (new : PortPhase) (s : State) : ((changePhase p new s).port p).phase = new := by
  unfold changePhase
  split
  · rw [(leaveActive_link ..).phase]; simp [State.port_modPort, Port.departed]
  · simp [State.port_modPort]

theorem enterFault_effect (p : PortNo) (reason : FaultReason) (s : State) : LinkEffect p s (enterFault p reason s) := by
  have h1 := changePhase_effect p .fault s (by decide) (by decide)
  have hp := changePhase_phase p .fault s
  unfold enterFault
  generalize changePhase p .fault s = u at h1 hp
  simp only
  refine h1.trans (.trans (.modPort (fun w => ⟨by simp, w.2⟩) fun _ => timingOk_of_phase ?_ ?_)
    (.trans ((unparkCars_effect p _).link' p) ((raise_effect ..).link' p)))
  · show (u.port p).phase ≠ _; rw [hp]; decide
  · show (u.port p).phase ≠ _; rw [hp]; decide

theorem startSweep_effect (p : PortNo) (n : Nat) (s : State) : LinkEffect p s (startSweep p n s) := by
  unfold startSweep
  refine .trans ?_ ((offerTraining_effect ..).link' p)
  exact .modPort_plain (fun _ => ⟨rfl, rfl, rfl, rfl, rfl, rfl⟩) id

theorem enterPhase_effect (p : PortNo) (s : State) : LinkEffect p s (enterPhase p s) := by
  have h1 := changePhase_effect p .phase s (by decide) (by decide)
  unfold enterPhase
  generalize changePhase p .phase s = u at h1
  refine h1.trans (.trans ?_ (startSweep_effect ..))
  exact .modPort_plain (fun _ => ⟨rfl, rfl, rfl, rfl, rfl, rfl⟩) id

theorem queueProbe_effect (p : PortNo) (w : Sweep) (s : State) : LinkEffect p s (queueProbe p w s) := by
  unfold queueProbe
  refine .trans ?_ ((offerTraining_effect ..).link' p)
  exact .modPort_plain (fun _ => ⟨rfl, rfl, rfl, rfl, rfl, rfl⟩) id

theorem decideSweep_effect (p : PortNo) (w : Sweep) (s : State) : LinkEffect p s (decideSweep p w s) := by
  unfold decideSweep
  split
  · exact .modPort_plain (fun _ => ⟨rfl, rfl, rfl, rfl, rfl, rfl⟩) fun _ => ⟨fun _ => rfl, fun h => by simp at h⟩
  · split
    · exact startSweep_effect ..
    · exact enterFault_effect ..

theorem fileAnswer_effect (p : PortNo) (index : Nat) (n : FrameNum) (s : State) : LinkEffect p s (fileAnswer p index n s) := by
  unfold fileAnswer
  split
  · exact .refl p s
  · next w _ =>
    simp only
    split
    · have h : ∀ w1 : Sweep, LinkEffect p s (s.modPort p fun q => { q with timing := { q.timing with sweep := some w1 } }) :=
        fun _ => .modPort_plain (fun _ => ⟨rfl, rfl, rfl, rfl, rfl, rfl⟩) id
      split
      · exact (h _).trans (decideSweep_effect ..)
      · exact h _
    · exact .refl p s

/-- Entry into ACTIVE with a record that is valid and in band. -/
theorem enterActive_effect (p : PortNo) (s : State) (hv : (s.timing p).valid = true)
    (hb : (((s.timing p).period : Int) - (s.timing p).pNom).natAbs ≤ periodBand (s.timing p)) :
    LinkEffect p s (enterActive p s) := by
  unfold enterActive
  simp only
  have h : LinkEffect p s (s.modPort p fun q => { q with phase := .active, paceTimer := if q.entry.pacing = .clock then some (addTime s.clock q.entry.pacePeriod) else none }) :=
    .modPort_plain (fun _ => ⟨rfl, rfl, rfl, rfl, rfl, rfl⟩) fun _ => ⟨fun _ => hv, fun _ => hb⟩
  refine h.trans (.trans ?_ ((unparkCars_effect p _).link' p))
  split
  · exact takeUp_effect ..
  · exact .refl p _

/-! ### TRAIN -/

theorem enterTrain_effect (p : PortNo) (s : State) : LinkEffect p s (enterTrain p s) := by
  have h : ∀ u : State, LinkEffect p u (u.modPort p (·.toTrain u.clock)) := fun u =>
    .modPort (fun w => ⟨by simp [Port.toTrain], w.2.1, w.2.2.1, w.2.2.2.1, by simp [Port.replies, Port.toTrain],
      by simp [Port.notices, Port.toTrain], w.2.2.2.2.2.2⟩) fun _ => timingOk_of_phase (by simp [Port.toTrain]) (by simp [Port.toTrain])
  unfold enterTrain
  simp only
  split
  · exact (discardCommands_effect p p s).trans (h _)
  · exact h s

theorem sendTrain_effect (p : PortNo) (todo : List TrainFrame) (s : State) : LinkEffect p s (sendTrain p todo s) := by
  have h : LinkEffect p s (s.modPort p fun q => { q with training := .round todo none }) :=
    .modPort_plain (fun _ => ⟨rfl, rfl, rfl, rfl, rfl, rfl⟩) id
  unfold sendTrain
  simp only
  split
  · exact h.trans ((offerTraining_effect ..).link' p)
  · exact h

theorem startRound_effect (p : PortNo) (s : State) : LinkEffect p s (startRound p s) := by
  unfold startRound
  refine .trans ?_ (sendTrain_effect ..)
  exact .modPort_plain (fun _ => ⟨rfl, rfl, rfl, rfl, rfl, rfl⟩) id

theorem failRound_effect (p : PortNo) (s : State) : LinkEffect p s (failRound p s) := by
  have h : LinkEffect p s (s.modPort p fun q =>
      { q with failedRounds := (s.port p).failedRounds + 1, training := .pause (addTime s.clock 5000),
               timing := { q.timing with echoValues := [] } }) :=
    .modPort_plain (fun _ => ⟨rfl, rfl, rfl, rfl, rfl, rfl⟩) id
  unfold failRound
  simp only
  split
  · exact h.trans (enterFault_effect ..)
  · exact h

theorem goodEcho_effect (p : PortNo) (v : Nat) (rest : List TrainFrame) (s : State) : LinkEffect p s (goodEcho p v rest s) := by
  unfold goodEcho
  simp only
  split
  · refine .trans ?_ (enterPhase_effect ..)
    exact .modPort_plain (fun _ => ⟨rfl, rfl, rfl, rfl, rfl, rfl⟩) id
  · refine .trans ?_ (sendTrain_effect ..)
    exact .modPort_plain (fun _ => ⟨rfl, rfl, rfl, rfl, rfl, rfl⟩) id

theorem roundEcho_effect (p : PortNo) (stamp : RaceTime) (index : Nat) (bytes : List Byte) (turn : Nat) (s : State) :
    LinkEffect p s (roundEcho p stamp index bytes turn s) := by
  unfold roundEcho
  split
  · split
    · exact goodEcho_effect ..
    · exact failRound_effect ..
  · exact .refl p s

/-! ### DOWN, the port reset and QUIET -/

theorem invite_effect (p : PortNo) (s : State) : LinkEffect p s (invite p s) := by
  unfold invite
  refine .trans ?_ ((offerTraining_effect ..).link' p)
  exact .modPort_plain (fun _ => ⟨rfl, rfl, rfl, rfl, rfl, rfl⟩) id

theorem cleared_effect (p : PortNo) (new : PortPhase) (s : State) (h1 : new ≠ .rate) (h2 : new ≠ .active) :
    LinkEffect p s (s.modPort p (·.cleared new)) :=
  .modPort (fun _ => ⟨by simp [Port.cleared], by simp [Port.cleared], by simp [Port.cleared], by simp [Port.cleared],
    by simp [Port.replies, Port.cleared], by simp [Port.notices, Port.cleared], by simp [Port.cleared]⟩)
    fun _ => timingOk_of_phase h1 h2

theorem settleDown_effect (p : PortNo) (s : State) : LinkEffect p s (settleDown p s) := by
  unfold settleDown
  simp only
  split
  · exact ((unparkCars_effect p s).link' p).trans (invite_effect ..)
  · exact (unparkCars_effect p s).link' p

theorem portReset_effect (p : PortNo) (s : State) : LinkEffect p s (portReset p s) := by
  have hn : (if (s.port p).entry.enabled = true then PortPhase.down else .off) ≠ .rate
      ∧ (if (s.port p).entry.enabled = true then PortPhase.down else .off) ≠ .active := by split <;> decide
  unfold portReset
  simp only
  generalize (if (s.port p).entry.enabled = true then PortPhase.down else .off) = new at hn
  have h : ∀ u : State, LinkEffect p u (settleDown p (u.modPort p (·.cleared new))) := fun u =>
    (cleared_effect p new u hn.1 hn.2).trans (settleDown_effect ..)
  split
  · exact (leaveActive_effect p new s hn.1 hn.2).trans (h _)
  · split
    · exact (discardCommands_effect p p s).trans (h _)
    · exact h s

theorem enablePort_effect (p : PortNo) (s : State) : LinkEffect p s (enablePort p s) :=
  (cleared_effect p .down s (by decide) (by decide)).trans (settleDown_effect ..)

theorem followRate_effect (p : PortNo) (s : State) : LinkEffect p s (s.followRate p) := by
  refine .modPort_plain (fun q => ?_) fun h => ?_
  · split <;> exact ⟨rfl, rfl, rfl, rfl, rfl, rfl⟩
  · split
    · exact h
    · exact h

theorem enterQuiet_effect (p : PortNo) (rate : Option LinkRate) (s : State) : LinkEffect p s (enterQuiet p rate s) := by
  have h1 : LinkEffect p s (s.modPort p fun q => { q with entry := { q.entry with linkRate := rate.getD q.entry.linkRate } }) :=
    .modPort_plain (fun _ => ⟨rfl, rfl, rfl, rfl, rfl, rfl⟩) id
  have h2 : ∀ u : State, LinkEffect p u (u.modPort p fun q => { q with linkBase := none }) := fun u =>
    .modPort_plain (fun _ => ⟨rfl, rfl, rfl, rfl, rfl, rfl⟩) id
  exact h1.trans ((leaveActive_effect p .quiet _ (by decide) (by decide)).trans ((h2 _).trans (followRate_effect ..)))

end Sys2Proof.Machine
end

