-- ==== Sys2Proof/Laws/CommandFrames.lean ====
section
/-! SUPPORT. What the work of a CAR frame, a table write and a race command keeps, said once for each shared operation. -/

namespace Sys2Proof.Machine

/-! ### Rate windows -/

/-- What a Port Timing Record promises a port that is in RATE (`active` false) or ACTIVE. -/
def TimingRecord.sound (active : Bool) (r : TimingRecord) : Prop :=
  r.valid = true ∧ (active = true → ((r.period : Int) - r.pNom).natAbs ≤ periodBand r)

theorem inBand_toNat {r : TimingRecord} {m : Int} (h : inBand r m = true) :
    ((m.toNat : Int) - r.pNom).natAbs ≤ periodBand r := by
  unfold inBand at h
  have := of_decide_eq_true h
  omega

/-- What a window end promises: the record stays sound, and a request for ACTIVE comes with a period in band (R20). -/
def TimingOutcome.sound (active : Bool) (o : TimingOutcome) : Prop :=
  o.record.sound active ∧ (o.request = .active → o.record.sound true)

theorem closed_sound {b : Bool} {r : TimingRecord} (h : r.sound b) : r.closed.sound b := h

theorem moved_sound {b : Bool} {r : TimingRecord} {m : Int} (f : FrameNum) (h : r.sound b) (hm : inBand r m = true) :
    (r.moved f m).sound true := ⟨h.1, fun _ => inBand_toNat hm⟩

theorem sound_weaken {b : Bool} {r : TimingRecord} (h : r.sound true) : r.sound b := ⟨h.1, fun _ => h.2 rfl⟩

theorem firstWindowEnd_sound {r : TimingRecord} (f : FrameNum) (m : Int) (h : r.sound false) :
    (firstWindowEnd r f m).sound false := by
  unfold firstWindowEnd
  split
  · next hm => exact ⟨sound_weaken (moved_sound f h hm), fun _ => moved_sound f h hm⟩
  · exact ⟨h, fun e => by cases e⟩

theorem trackingWindowEnd_sound {e : PortEntry} {r : TimingRecord} (f : FrameNum) (stamp : RaceTime) (m : Int)
    (h : r.sound true) : (trackingWindowEnd e r f stamp m).sound true := by
  unfold trackingWindowEnd
  split
  · next hm =>
    have k := moved_sound f h hm
    simp only
    split
    · exact ⟨k, fun _ => k⟩
    · exact ⟨k, fun _ => k⟩
  · exact ⟨h, fun e => by cases e⟩

theorem countFrame_sound {b : Bool} {e : PortEntry} {r : TimingRecord} (w : RateWindow) (f : FrameNum) (stamp : RaceTime)
    (h : r.sound b) : (countFrame b e r w f stamp).sound b := by
  unfold countFrame
  simp only
  split
  · refine ⟨h, fun e => ?_⟩
    cases b <;> simp at e
  split
  · exact ⟨h, fun e => by cases e⟩
  split
  · cases b
    · exact firstWindowEnd_sound f _ h
    · exact trackingWindowEnd_sound f stamp _ h
  · exact ⟨h, fun e => by cases e⟩

theorem feedWindow_sound {b : Bool} {e : PortEntry} {r : TimingRecord} (f : FrameNum) (stamp : RaceTime) (h : r.sound b) :
    (feedWindow b e r f stamp).sound b := by
  unfold feedWindow
  split
  · exact ⟨h, fun e => by cases e⟩
  · exact countFrame_sound _ f stamp h

/-- A CAR frame keeps the record sound, and asks for ACTIVE only with a record that is valid and in band. -/
theorem timeFrame_sound {b : Bool} {e : PortEntry} {r : TimingRecord} (f : FrameNum) (stamp : RaceTime) (h : r.sound b) :
    (timeFrame b e r f stamp).sound b := by
  unfold timeFrame
  split
  · exact feedWindow_sound f stamp h
  split
  · exact feedWindow_sound f stamp h
  · exact ⟨h, fun e => by cases e⟩

/-! ### Samples -/

theorem count_effect (p : PortNo) (f : PortCounters → PortCounters) (s : State) : RouteEffect s (s.count p f) :=
  .modPort ⟨rfl, rfl, rfl, rfl, rfl, rfl, rfl, rfl, rfl, rfl, rfl, rfl, id⟩

/-- A change of one car that leaves it in its seat keeps the seats. -/
theorem seatsOk_set {s t : State} {i : Slot} {c : CarRecord} (ht : ∀ j, t.car j = if j = i then c else s.car j)
    (he : c.enabled = (s.car i).enabled) (ho : c.owner = (s.car i).owner) (hs : c.seat = (s.car i).seat) (k : s.seatsOk) :
    t.seatsOk := by
  have h1 : ∀ j, (t.car j).enabled = (s.car j).enabled := fun j => by rw [ht]; split <;> simp_all
  have h2 : ∀ j, (t.car j).owner = (s.car j).owner := fun j => by rw [ht]; split <;> simp_all
  have h3 : ∀ j, (t.car j).seat = (s.car j).seat := fun j => by rw [ht]; split <;> simp_all
  intro i j; rw [h1, h1, h2, h2, h3, h3]; exact k i j

/-- A change of one car that a contact pair survives, and that leaves the car in its seat. -/
theorem setCar_step {s : State} {i : Slot} {c : CarRecord} (he : c.enabled = (s.car i).enabled)
    (ho : c.owner = (s.car i).owner) (hse : c.seat = (s.car i).seat)
    (hs : inContactState (s.car i).state = true → inContactState c.state = true) : StepEffect s (s.setCar i c) := by
  refine ⟨rfl, rfl, rfl, fun _ => id, Nat.le_max_right _ _, Nat.le_max_right _ _, contactsOk_congr rfl fun j x => ?_,
    seatsOk_set (State.car_setCar s i · c) he ho hse, fun _ => id⟩
  rw [State.car_setCar]; split
  · next e => exact hs (e ▸ x)
  · exact x

theorem afterSample_contact (st : CarState) (h : inContactState st = true) : inContactState (afterSample st) = true := by
  cases st <;> simp_all [inContactState, afterSample]

/-- A sample stored and handed on. -/
theorem storeSample_step (u : State) (i : Slot) (c : CarRecord) (prev : Option Sample) (x : Sample) (found : Prop)
    [Decidable found] (he : c.enabled = (u.car i).enabled) (ho : c.owner = (u.car i).owner)
    (hse : c.seat = (u.car i).seat) (hs : inContactState (u.car i).state = true → inContactState c.state = true) :
    StepEffect u (handOn (u.setCar i c) i prev x (if found then raiseNow .carFound [i] (u.setCar i c) else u.setCar i c)) := by
  refine (setCar_step he ho hse hs).trans (.trans ?_ ((handOn_effect ..).link' 0).toStepEffect)
  split
  · exact ((raiseNow_effect ..).link' 0).toStepEffect
  · exact .refl _

/-- A sample stored and handed on leaves every port's link as it was. -/
theorem storeSample_link (u : State) (r : PortNo) (i : Slot) (c : CarRecord) (prev : Option Sample) (x : Sample) (found : Prop)
    [Decidable found] : SameLink (u.port r) ((handOn (u.setCar i c) i prev x
      (if found then raiseNow .carFound [i] (u.setCar i c) else u.setCar i c)).port r) := by
  refine .trans ?_ ((handOn_effect ..).link r)
  split
  · exact (raiseNow_effect .carFound [i] (u.setCar i c)).link r
  · exact .refl _

theorem acceptSample_effect (p : PortNo) (i : Slot) (t : RaceTime) (raw : RawSample) (s : State) :
    StepEffect s (acceptSample p i t raw s) := by
  unfold acceptSample
  refine .trans ?_ (storeSample_step _ _ _ _ _ _ rfl rfl rfl ?_)
  · exact ((count_effect ..).link' p).toStepEffect
  · exact afterSample_contact _

/-- Every port's link is as it was after a sample. -/
theorem acceptSample_link (p r : PortNo) (i : Slot) (t : RaceTime) (raw : RawSample) (s : State) :
    SameLink (s.port r) ((acceptSample p i t raw s).port r) := by
  unfold acceptSample
  refine .trans ?_ (storeSample_link ..)
  exact (count_effect ..).link r

theorem takeSample_effect (p : PortNo) (t : Option RaceTime) (acc : State × Bool) (x : RawSample) :
    StepEffect acc.1 (takeSample p t acc x).1 ∧ ∀ r, SameLink (acc.1.port r) ((takeSample p t acc x).1.port r) := by
  unfold takeSample
  split
  · exact ⟨acceptSample_effect .., fun r => acceptSample_link ..⟩
  · next e _ =>
    have h := count_effect p (fun k => countRefusal k e) acc.1
    exact ⟨(h.link' p).toStepEffect, h.link⟩

theorem takeSampleFold_effect (p : PortNo) (t : Option RaceTime) (xs : List RawSample) (acc : State × Bool) :
    StepEffect acc.1 (xs.foldl (takeSample p t) acc).1
      ∧ ∀ r, SameLink (acc.1.port r) ((xs.foldl (takeSample p t) acc).1.port r) := by
  induction xs generalizing acc with
  | nil => exact ⟨.refl _, fun _ => .refl _⟩
  | cons x xs ih =>
    have h := takeSample_effect p t acc x
    have k := ih (takeSample p t acc x)
    exact ⟨h.1.trans k.1, fun r => (h.2 r).trans (k.2 r)⟩

/-- The samples of a CAR frame keep every port's timing record and phase. -/
theorem takeSamples_effect (p : PortNo) (f : FrameNum) (xs : List RawSample) (s : State) :
    StepEffect s (takeSamples p f xs s)
      ∧ ∀ r, ((takeSamples p f xs s).port r).phase = (s.port r).phase := by
  have h := takeSampleFold_effect p (forward (s.timing p) f) xs (s, false)
  unfold takeSamples
  simp only
  generalize xs.foldl (takeSample p (forward (s.timing p) f)) (s, false) = acc at h
  have k : ∀ u : State, StepEffect u (u.modPort p fun q => { q with gateSample := true }) := fun u => by
    refine LinkEffect.toStepEffect (p := p) ?_
    exact .modPort_plain (fun _ => ⟨rfl, rfl, rfl, rfl, rfl, rfl⟩) id
  have kp : ∀ (u : State) (r : PortNo), ((u.modPort p fun q => { q with gateSample := true }).port r).phase = (u.port r).phase :=
    fun u r => by rw [State.port_modPort]; split <;> simp_all
  constructor
  · refine h.1.trans (.trans ?_ ((acceptanceReport_effect ..).link' p).toStepEffect)
    split
    · exact k _
    · exact .refl _
  · intro r
    rw [((acceptanceReport_effect ..).link r).phase]
    split
    · rw [kp]; exact (h.2 r).phase
    · exact (h.2 r).phase

theorem takeRequest_effect (p : PortNo) (ph : PortPhase) (req : TimingRequest) (s : State)
    (h : req = .active → (s.timing p).sound true) : StepEffect s (takeRequest p ph req s) := by
  unfold takeRequest
  split
  · split
    · exact .refl s
    · exact (enterActive_effect p s (h rfl).1 ((h rfl).2 rfl)).toStepEffect
    · exact (enterPhase_effect ..).toStepEffect
    · exact (enterFault_effect ..).toStepEffect
  · exact .refl s

/-- The whole work of a CAR frame, in a port whose record is sound for RATE or ACTIVE. -/
theorem takeCarFrame_effect (p : PortNo) (stamp : RaceTime) (payload : List Byte) (s : State) (ht : (s.port p).timingOk)
    (hp : (s.port p).phase = .rate ∨ (s.port p).phase = .active) : StepEffect s (takeCarFrame p stamp payload s) := by
  have hs : (s.port p).timing.sound (decide ((s.port p).phase = .active)) :=
    ⟨ht.1 hp, fun h => ht.2 (of_decide_eq_true h)⟩
  have ho := timeFrame_sound (e := (s.port p).entry) (BitVec.ofNat 16 (beNat (field payload 0 2))) stamp hs
  have h1 : ∀ b : Bool, RouteEffect s
      (if b = true then s.count p (fun k => { k with outOfWindow := bump k.outOfWindow }) else s) := fun b => by
    split
    · exact count_effect ..
    · exact .refl s
  have h2 : ∀ (b : Bool) (xs : List RawSample) (f : FrameNum) (u : State),
      StepEffect u (if b = true then takeSamples p f xs u else u)
        ∧ ((if b = true then takeSamples p f xs u else u).port p).phase = (u.port p).phase := fun b xs f u => by
    split
    · exact ⟨(takeSamples_effect p f xs u).1, (takeSamples_effect p f xs u).2 p⟩
    · exact ⟨.refl u, rfl⟩
  unfold takeCarFrame
  simp only
  generalize timeFrame (decide ((s.port p).phase = .active)) (s.port p).entry (s.port p).timing
    (BitVec.ofNat 16 (beNat (field payload 0 2))) stamp = o at ho
  have k1 := h1 o.missed
  generalize (if o.missed = true then s.count p (fun k => { k with outOfWindow := bump k.outOfWindow }) else s) = u at k1
  have k2 := h2 (decide ((s.port p).phase = .active)) (frameSamples payload) (BitVec.ofNat 16 (beNat (field payload 0 2))) u
  generalize (if decide ((s.port p).phase = .active) = true then takeSamples p _ (frameSamples payload) u else u) = v at k2
  have hv : (v.port p).phase = (s.port p).phase := k2.2.trans (k1.link p).phase
  refine ((k1.link' p).toStepEffect.trans k2.1).trans (.trans (b := v.modPort p fun q => { q with timing := o.record }) ?_ ?_)
  · refine LinkEffect.toStepEffect (p := p) (.modPort_plain (fun _ => ⟨rfl, rfl, rfl, rfl, rfl, rfl⟩) fun _ => ?_)
    refine ⟨fun _ => ho.1.1, fun h => ho.1.2 ?_⟩
    have h' : (v.port p).phase = .active := h
    rw [hv] at h'; simp [h']
  · refine takeRequest_effect _ _ _ _ fun h => ?_
    show TimingRecord.sound true (((v.modPort p _).port p).timing)
    rw [State.port_modPort]; simpa using ho.2 h

/-! ### Received frames -/

theorem countValid_effect (p : PortNo) (stamp : RaceTime) (s : State) : LinkEffect p s (countValid p stamp s) := by
  unfold countValid
  exact .modPort_plain (fun _ => ⟨rfl, rfl, rfl, rfl, rfl, rfl⟩) id

/-- A valid frame is counted without a change of any port's state. -/
theorem countValid_phase (p r : PortNo) (stamp : RaceTime) (s : State) :
    ((countValid p stamp s).port r).phase = (s.port r).phase := by
  unfold countValid; rw [State.port_modPort]; split <;> simp_all

theorem outOfState_effect (p : PortNo) (s : State) : RouteEffect s (outOfState p s) := count_effect ..

theorem receiveTrainEcho_effect (p : PortNo) (stamp : RaceTime) (bs : List Byte) (s : State) :
    LinkEffect p s (receiveTrainEcho p stamp bs s) := by
  unfold receiveTrainEcho
  simp only
  refine (countValid_effect p stamp s).trans ?_
  split
  · split
    · exact enterTrain_effect ..
    · exact (outOfState_effect ..).link' p
  · split
    · exact enterTrain_effect ..
    · exact (outOfState_effect ..).link' p
  · split
    · exact roundEcho_effect ..
    · exact (outOfState_effect ..).link' p
  · exact (outOfState_effect ..).link' p

theorem receiveProbeReply_effect (p : PortNo) (stamp : RaceTime) (bs : List Byte) (s : State) :
    LinkEffect p s (receiveProbeReply p stamp bs s) := by
  unfold receiveProbeReply
  simp only
  refine (countValid_effect p stamp s).trans ?_
  split
  · split
    · exact fileAnswer_effect ..
    · exact (outOfState_effect ..).link' p
  · split
    · exact .refl _ _
    · exact (outOfState_effect ..).link' p
  · split
    · exact .refl _ _
    · exact (outOfState_effect ..).link' p
  · exact (outOfState_effect ..).link' p

theorem receiveCar_effect (p : PortNo) (stamp : RaceTime) (count : Byte) (bs : List Byte) (s : State)
    (ht : (s.port p).timingOk) : StepEffect s (receiveCar p stamp count bs s) := by
  have h : LinkEffect p s ((countValid p stamp s).modPort p fun q => { q with gateCar := true }) := by
    refine (countValid_effect p stamp s).trans ?_
    exact .modPort_plain (fun _ => ⟨rfl, rfl, rfl, rfl, rfl, rfl⟩) id
  unfold receiveCar
  simp only
  generalize (countValid p stamp s).modPort p (fun q => { q with gateCar := true }) = u at h
  have hu := h.timing p ht
  refine h.toStepEffect.trans ?_
  split
  · next e =>
    split
    · exact takeCarFrame_effect p stamp bs u hu (.inl e)
    · exact ((outOfState_effect ..).link' p).toStepEffect
  · next e =>
    split
    · exact takeCarFrame_effect p stamp bs u hu (.inr e)
    · exact ((outOfState_effect ..).link' p).toStepEffect
  · exact ((outOfState_effect ..).link' p).toStepEffect

theorem takeHoldAck_effect (p : PortNo) (f : FrameNum) (s : State) : RouteEffect s (takeHoldAck p f s) := by
  unfold takeHoldAck
  split
  · exact (RouteEffect.withRace s _).trans (ackTest_effect _)
  · exact .refl s

theorem receiveHoldAck_effect (p : PortNo) (stamp : RaceTime) (bs : List Byte) (s : State) :
    LinkEffect p s (receiveHoldAck p stamp bs s) := by
  unfold receiveHoldAck
  simp only
  refine (countValid_effect p stamp s).trans ?_
  split
  · exact (takeHoldAck_effect ..).link' p
  · exact (outOfState_effect ..).link' p

theorem takeQuietAsk_effect (p : PortNo) (rate : Nat) (s : State) : LinkEffect p s (takeQuietAsk p rate s) := by
  unfold takeQuietAsk
  split
  · exact (offerNotice_effect ..).link' p
  · split
    · exact (offerNotice_effect ..).link' p
    · exact enterQuiet_effect ..

theorem receiveQuietAsk_effect (p : PortNo) (stamp : RaceTime) (bs : List Byte) (s : State) :
    LinkEffect p s (receiveQuietAsk p stamp bs s) := by
  unfold receiveQuietAsk
  simp only
  refine (countValid_effect p stamp s).trans ?_
  split
  · split
    · exact takeQuietAsk_effect ..
    · exact (outOfState_effect ..).link' p
  · exact .refl _ _
  · exact (outOfState_effect ..).link' p

/-- A free value used changes nothing but the count of them. -/
theorem useFree_effect (s : State) : StepEffect s s.useFree :=
  ⟨rfl, rfl, rfl, fun _ => id, Nat.le_max_right _ _, Nat.le_max_right _ _, id, id, fun _ => id⟩

theorem commandByte_effect (payload : List Byte) (n : Nat) (s : State) : StepEffect s (commandByte payload n s).2 := by
  unfold commandByte
  split
  · exact .refl s
  · exact useFree_effect s

theorem writeData_effect (payload : List Byte) (n : Nat) (s : State) : StepEffect s (writeData payload n s).2 :=
  (commandByte_effect payload 1 s).trans (commandByte_effect payload 2 _)

/-- A change of the Management Unit's record that keeps the Command Queue within its capacity. -/
theorem withMgmt_step (s : State) (m : MgmtRecord) (hq : m.queue.length ≤ max 4 s.mgmt.queue.length) :
    StepEffect s { s with mgmt := m } :=
  ⟨rfl, rfl, rfl, fun _ => id, hq, Nat.le_max_right _ _, id, id, fun _ => id⟩

theorem offerReply_step (s : State) (p : PortNo) (tag code : Byte) (st : Status) (d : List Byte) :
    StepEffect s (s.offerReply p tag code st d) := ((offerReply_effect ..).link' p).toStepEffect

theorem offerCommand_effect (p : PortNo) (tag : Byte) (payload : List Byte) (s : State) :
    StepEffect s (offerCommand p tag payload s) := by
  unfold offerCommand
  split
  · refine withMgmt_step s _ ?_
    simp; omega
  · have h : StepEffect s { s with mgmt := { s.mgmt with cmdBusy := bump s.mgmt.cmdBusy } } :=
      withMgmt_step s _ (Nat.le_max_right _ _)
    simp only
    split
    · exact h.trans ((writeData_effect ..).trans (offerReply_step ..))
    · exact h.trans (offerReply_step ..)

theorem receiveMgmt_effect (p : PortNo) (stamp : RaceTime) (tag : Byte) (bs : List Byte) (s : State) :
    StepEffect s (receiveMgmt p stamp tag bs s) := by
  unfold receiveMgmt
  simp only
  refine (countValid_effect p stamp s).toStepEffect.trans ?_
  split
  · split
    · exact offerCommand_effect ..
    · exact ((outOfState_effect ..).link' p).toStepEffect
  · split
    · exact offerCommand_effect ..
    · exact ((outOfState_effect ..).link' p).toStepEffect
  · exact ((outOfState_effect ..).link' p).toStepEffect

/-- A valid frame of any kind. -/
theorem receiveFrame_effect (p : PortNo) (stamp : RaceTime) (kind port flags : Byte) (bs : List Byte) (s : State)
    (ht : (s.port p).timingOk) : StepEffect s (receiveFrame p stamp kind port flags bs s) := by
  unfold receiveFrame
  split
  · exact (receiveTrainEcho_effect ..).toStepEffect
  split
  · exact (receiveProbeReply_effect ..).toStepEffect
  split
  · exact receiveCar_effect _ _ _ _ _ ht
  split
  · exact (receiveHoldAck_effect ..).toStepEffect
  split
  · exact (receiveQuietAsk_effect ..).toStepEffect
  split
  · exact receiveMgmt_effect ..
  · exact (countValid_effect p stamp s).toStepEffect.trans ((outOfState_effect ..).link' p).toStepEffect

end Sys2Proof.Machine
end

