-- ==== Sys2Proof/Laws/WorkFrames.lean ====
section
/-! SUPPORT. What the race's work can do to the ports and to the race's own times, said once for each shared operation: a port
that is not ACTIVE does not change; on a busy line frames only join the waiting lists, and only class 5, the calls, the cues
and the placings; only CUE_DROP is counted; only ACTIVE ports join the ack set (`Work`). -/

namespace Sys2Proof.Machine

/-- What the race's work may do to a port. -/
structure PortWork (q r : Port) : Prop where
  phase : r.phase = q.phase
  still : q.phase ≠ .active → r = q
  busy : q.wire.isSome = true → r.wire = q.wire ∧ r.class1 = q.class1 ∧ r.viewSet = q.viewSet
    ∧ r.training = q.training ∧ r.timing = q.timing ∧ q.outbox <+: r.outbox
  counters : { r.counters with cueDrop := 0 } = { q.counters with cueDrop := 0 }

/-- What the race's work may do to the ports, the ack set, T_green and T_r. -/
structure Work (s t : State) : Prop where
  ports : ∀ p, PortWork (s.port p) (t.port p)
  acks : ∀ a ∈ t.race.acks, a ∈ s.race.acks ∨ (s.port a.port).phase = .active
  tGreen : t.race.tGreen = s.race.tGreen
  tR : t.race.tR = s.race.tR

theorem PortWork.refl (q : Port) : PortWork q q :=
  ⟨rfl, fun _ => rfl, fun _ => ⟨rfl, rfl, rfl, rfl, rfl, List.prefix_rfl⟩, rfl⟩

theorem PortWork.trans {a b c : Port} (h : PortWork a b) (k : PortWork b c) : PortWork a c := by
  refine ⟨k.phase.trans h.phase, fun e => ?_, fun e => ?_, k.counters.trans h.counters⟩
  · rw [k.still (by rw [h.phase]; exact e), h.still e]
  · obtain ⟨h1, h2, h3, h4, h5, h6⟩ := h.busy e
    obtain ⟨k1, k2, k3, k4, k5, k6⟩ := k.busy (by rw [h1]; exact e)
    exact ⟨k1.trans h1, k2.trans h2, k3.trans h3, k4.trans h4, k5.trans h5, h6.trans k6⟩

theorem Work.refl (s : State) : Work s s := ⟨fun _ => .refl _, fun _ => .inl, rfl, rfl⟩

theorem Work.trans {a b c : State} (h : Work a b) (k : Work b c) : Work a c := by
  refine ⟨fun p => (h.ports p).trans (k.ports p), fun x m => ?_, k.tGreen.trans h.tGreen, k.tR.trans h.tR⟩
  rcases k.acks x m with m | m
  · exact h.acks x m
  · exact .inr (by rw [← (h.ports x.port).phase]; exact m)

theorem Work.foldl {α : Type} (f : State → α → State) (h : ∀ s x, Work s (f s x)) (xs : List α) (s : State) :
    Work s (xs.foldl f s) := by
  induction xs generalizing s with
  | nil => exact .refl s
  | cons x xs ih => exact (h s x).trans (ih _)

theorem Work.setPort {s : State} {p : PortNo} {q : Port} (h : PortWork (s.port p) q) : Work s (s.setPort p q) := by
  refine ⟨fun r => ?_, fun _ => .inl, rfl, rfl⟩
  rw [State.port_setPort]
  split
  · next e => exact e ▸ h
  · exact .refl _

/-- A change of the race's record that adds no entry to the ack set and keeps T_green and T_r. -/
theorem Work.withRace (s : State) (r : RaceRecord) (ha : ∀ a ∈ r.acks, a ∈ s.race.acks) (hg : r.tGreen = s.race.tGreen)
    (hr : r.tR = s.race.tR) : Work s { s with race := r } := ⟨fun _ => .refl _, fun a m => .inl (ha a m), hg, hr⟩

/-- A change of neither the ports nor the race's record. -/
theorem Work.of_eq {s t : State} (hp : t.ports = s.ports) (hr : t.race = s.race) : Work s t :=
  ⟨fun p => by simp only [State.port, hp]; exact .refl _, fun a m => .inl (hr ▸ m), by rw [hr], by rw [hr]⟩

/-- Work after a change of neither the ports nor the race's record. -/
theorem Work.after {s u t : State} (h : Work u t) (hp : u.ports = s.ports) (hr : u.race = s.race) : Work s t :=
  (Work.of_eq hp hr).trans h

/-- Work after a change of the race's record. -/
theorem Work.afterRace {s t : State} {r : RaceRecord} (h : Work { s with race := r } t) (ha : ∀ a ∈ r.acks, a ∈ s.race.acks)
    (hg : r.tGreen = s.race.tGreen) (hr : r.tR = s.race.tR) : Work s t := (Work.withRace s r ha hg hr).trans h

/-! ### Offers -/

theorem stampSent_phase (now : RaceTime) (f : HubFrame) (q : Port) :
    (stampSent now f q).phase = q.phase ∧ (stampSent now f q).counters = q.counters := by
  unfold stampSent; repeat' split
  all_goals exact ⟨rfl, rfl⟩

theorem chooseFrame_counters {s : State} {p : PortNo} {f : HubFrame} {q : Port} (h : s.chooseFrame p = some (f, q)) :
    q.phase = (s.port p).phase ∧ q.counters = (s.port p).counters := by
  unfold State.chooseFrame at h
  simp only at h
  repeat' split at h
  all_goals first | (cases h; exact ⟨rfl, rfl⟩) | cases h

/-- A frame offered to an ACTIVE port: the waiting list grows, and an idle line takes a frame. -/
theorem offer_work {s : State} {p : PortNo} (f : Port → Port) (ha : (s.port p).phase = .active)
    (hf : PortWork (s.port p) (f (s.port p))) (hw : (f (s.port p)).wire = (s.port p).wire) :
    Work s ((s.modPort p f).arbiterTake p) := by
  have e : (s.modPort p f).port p = f (s.port p) := by simp [State.modPort]
  unfold State.arbiterTake
  split
  · exact .setPort hf
  · next hn =>
    rw [e, hw] at hn
    split
    · next g q hc =>
      have hq := chooseFrame_counters hc
      rw [e] at hq
      have hs := stampSent_phase (s.modPort p f).clock g { q with
        wire := some { frame := g, sent := (s.modPort p f).clock, rate := q.entry.linkRate } }
      refine ⟨fun r => ?_, fun _ => .inl, rfl, rfl⟩
      rw [State.port_setPort]
      split
      · next er =>
        subst er
        exact ⟨hs.1.trans (hq.1.trans hf.phase), fun x => absurd ha x, fun x => absurd x hn,
          by rw [hs.2]; exact (congrArg (fun k : PortCounters => { k with cueDrop := 0 }) hq.2).trans hf.counters⟩
      · next er => simp only [State.modPort, State.port_setPort_of_ne _ _ er]; exact .refl _
    · exact .setPort hf

theorem offerCall_work (s : State) (p : PortNo) (b : FrameBody) : Work s (s.offerCall p b) := by
  unfold State.offerCall
  split
  · next h =>
    have ha : (s.port p).phase = .active := by simpa [State.isActive] using h
    exact offer_work _ ha ⟨rfl, fun x => absurd ha x, fun _ => ⟨rfl, rfl, rfl, rfl, rfl, List.prefix_rfl⟩, rfl⟩ rfl
  · exact .refl s

theorem offerCue_work (s : State) (p : PortNo) (c : Cue) : Work s (s.offerCue p c) := by
  unfold State.offerCue
  split
  · next h =>
    have ha : (s.port p).phase = .active := by simpa [State.isActive] using h
    split
    · exact offer_work _ ha ⟨rfl, fun x => absurd ha x, fun _ => ⟨rfl, rfl, rfl, rfl, rfl, List.prefix_rfl⟩, rfl⟩ rfl
    · exact .setPort ⟨rfl, fun x => absurd ha x, fun _ => ⟨rfl, rfl, rfl, rfl, rfl, List.prefix_rfl⟩, rfl⟩
  · exact .refl s

theorem offerPlacing_work (s : State) (p : PortNo) (b : FrameBody) : Work s (s.offerPlacing p b) := by
  unfold State.offerPlacing
  split
  · next h =>
    have ha : (s.port p).phase = .active := by simpa [State.isActive] using h
    exact offer_work _ ha ⟨rfl, fun x => absurd ha x, fun _ => ⟨rfl, rfl, rfl, rfl, rfl, List.prefix_rfl⟩, rfl⟩ rfl
  · exact .refl s

theorem offerNotice_work (s : State) (p : PortNo) (n : Notice) (ha : (s.port p).phase = .active) :
    Work s (s.offerNotice p n) := by
  unfold State.offerNotice
  split
  · exact offer_work _ ha
      ⟨rfl, fun x => absurd ha x, fun _ => ⟨rfl, rfl, rfl, rfl, rfl, List.prefix_append _ _⟩, rfl⟩ rfl
  · exact .refl s

/-- The port that holds the role is ACTIVE. -/
theorem roleHolder_active {s : State} {p : PortNo} (h : s.roleHolder = some p) : (s.port p).phase = .active := by
  unfold State.roleHolder at h
  split at h
  · split at h
    · next ha => cases h; simpa [State.isActive] using ha
    · cases h
  · cases h

theorem noticeToDirector_work (s : State) (n : Notice) : Work s (s.noticeToDirector n) := by
  unfold State.noticeToDirector
  split
  · next p h => exact offerNotice_work s p n (roleHolder_active h)
  · exact .refl s

/-! ### Holds, routes and events -/

theorem holdPort_work (tH : RaceTime) (s : State) (p : PortNo) : Work s (holdPort tH s p) := by
  unfold holdPort
  split
  · next h =>
    have ha : (s.port p).phase = .active := by
      simp only [State.getsHoldCall, Bool.and_eq_true] at h; simpa [State.isActive] using h.1
    refine (offerCall_work s p (.holdCall (inverse (s.timing p) tH))).trans ⟨fun _ => .refl _, fun a m => ?_, rfl, rfl⟩
    rcases List.mem_append.1 m with m | m
    · exact .inl m
    · right
      rw [List.mem_singleton] at m; subst m
      rw [((offerCall_work s p (.holdCall (inverse (s.timing p) tH))).ports p).phase]; exact ha
  · exact .refl s

theorem callHold_work (s : State) : Work s (callHold s) := by
  have h : Work s (allPorts.foldl (holdPort (addTime s.clock s.params.holdLead)) { s with race := { s.race with
      tH := some (addTime s.clock s.params.holdLead), remembered := some s.race.state, acks := [] } }) :=
    .afterRace (.foldl _ (holdPort_work _) _ _) (fun _ m => absurd m List.not_mem_nil) rfl rfl
  unfold callHold State.setRace
  simp only
  generalize allPorts.foldl (holdPort (addTime s.clock s.params.holdLead)) _ = u at h ⊢
  exact h.trans (.withRace u _ (fun _ m => m) rfl rfl)

theorem autoHold_work (s : State) : Work s (autoHold s) := by
  unfold autoHold
  split
  · exact callHold_work s
  · exact .refl s

theorem routeAct_work (e : Event) (s : State) (r : Route) : Work s (routeAct e s r) := by
  unfold routeAct
  split
  · exact .foldl _ (fun s p => offerCue_work s p _) _ _
  · exact noticeToDirector_work ..
  · exact autoHold_work s

theorem raise_work (e : Event) (s : State) : Work s (raise e s) := by
  refine .foldl _ (fun s r => ?_) _ _
  unfold routeOne
  split
  · exact routeAct_work e s r
  · exact .refl s

theorem raiseNow_work (k : EventKind) (is : List Slot) (s : State) : Work s (raiseNow k is s) := raise_work ..

theorem enterHold_work (s : State) : Work s (enterHold s) :=
  .afterRace (raiseNow_work ..) (fun _ m => absurd m List.not_mem_nil) rfl rfl

theorem ackTest_work (s : State) : Work s (ackTest s) := by
  unfold ackTest
  split
  · exact enterHold_work s
  · exact .refl s

/-! ### Cars, fixing, the close and the evaluation -/

theorem changeCar_work (i : Slot) (c : CarRecord) (ev : Option EventKind) (s : State) : Work s (changeCar i c ev s) := by
  unfold changeCar
  refine .trans (b := match ev with
    | some k => raiseNow k [i] (s.putCar i c)
    | none => s.putCar i c) (.after (u := s.putCar i c) ?_ rfl rfl) (.foldl _ (fun s c => raiseNow_work ..) _ _)
  split
  · exact raiseNow_work ..
  · exact .refl _

theorem setLap_work (s : State) (k : Nat) (r : LapRecord) : Work s (s.setLap k r) := by
  unfold State.setLap
  split
  · exact .refl s
  · exact .of_eq rfl rfl

theorem setDeadline_work (s : State) (k : Nat) : Work s (s.setDeadline k) := setLap_work s k _

theorem setAllDeadlines_work (s : State) : Work s s.setAllDeadlines := .foldl _ setDeadline_work _ _

theorem sendPlacing_work (x : Crossing) (n : Nat) (s : State) : Work s (sendPlacing x n s) :=
  .foldl _ (fun s p => offerPlacing_work s p _) _ _

theorem firstFinish_work (s : State) : Work s (firstFinish s) := by
  unfold firstFinish
  simp only
  split <;> exact .withRace s _ (fun _ m => m) rfl rfl

theorem fixFinish_work (i : Slot) (n : Nat) (s : State) : Work s (fixFinish i n s) := by
  unfold fixFinish
  simp only
  have h1 : Work s (if (s.car i).enabled then changeCar i ((s.car i).finished n) none s else s) := by
    split
    · exact changeCar_work ..
    · exact .refl s
  refine h1.trans ?_
  generalize (if (s.car i).enabled then changeCar i ((s.car i).finished n) none s else s) = u
  split
  · exact (raiseNow_work ..).trans (firstFinish_work _)
  · exact raiseNow_work ..

theorem fixEvents_work (x : Crossing) (n : Nat) (s : State) : Work s (fixEvents x n s) := by
  have h2 : ∀ u, Work u (if n = 1 then raiseLeadChange x.lap x.slot u else u) := fun u => by
    split
    · unfold raiseLeadChange
      split
      · exact raiseNow_work ..
      · exact .refl u
    · exact .refl u
  have h3 : ∀ u, Work u (if n = 1 ∧ x.lap = u.params.laps then raiseNow .lastLap [x.slot] u else u) := fun u => by
    split
    · exact raiseNow_work ..
    · exact .refl u
  have h4 : ∀ u, Work u (if x.lap = u.params.laps + 1 then fixFinish x.slot n u else u) := fun u => by
    split
    · exact fixFinish_work ..
    · exact .refl u
  exact (((raiseNow_work ..).trans (h2 _)).trans (h3 _)).trans (h4 _)

theorem fixRecord_work (x : Crossing) (late : Bool) (s : State) : Work s (fixRecord x late s) := by
  unfold fixRecord
  refine (setLap_work s _ _).trans (.after (u := { s.setLap x.lap ((s.lap x.lap).afterFix x late) with
    crossings := fixInList x { x with status := .fixed ((s.lap x.lap).count + 1), late := late || x.late } late
      (s.setLap x.lap ((s.lap x.lap).afterFix x late)).crossings }) ?_ rfl rfl)
  exact (setDeadline_work _ _).trans ((sendPlacing_work ..).trans (fixEvents_work ..))

theorem fixLap_work (k : Nat) (fuel : Nat) (s : State) : Work s (fixLap k fuel s) := by
  induction fuel generalizing s with
  | zero => exact .refl s
  | succ n ih =>
    unfold fixLap
    split
    · split
      · exact (fixRecord_work ..).trans (ih _)
      · exact .refl s
    · exact .refl s

theorem fixAll_work (fuel : Nat) (s : State) : Work s (fixAll fuel s) := by
  induction fuel generalizing s with
  | zero => exact .refl s
  | succ n ih =>
    unfold fixAll
    split
    · exact (fixRecord_work ..).trans (ih _)
    · exact .refl s

theorem fixPasses_work (fuel : Nat) (s : State) : Work s (fixPasses fuel s) := by
  have pass : ∀ u, Work u (fixPass u) := fun u => .foldl _ (fun s k => fixLap_work k _ s) _ _
  induction fuel generalizing s with
  | zero => exact .refl s
  | succ n ih =>
    unfold fixPasses
    simp only
    split
    · exact pass s
    · exact (pass s).trans (ih _)

theorem ageStep_work (i : Slot) (s : State) : Work s (ageStep i s) := by
  unfold ageStep
  simp only
  repeat' split
  all_goals first | exact .refl s | exact changeCar_work .. | exact .of_eq rfl rfl

theorem closeSteps_work (s : State) : Work s (closeSteps s) := by
  have tail : ∀ u : State, Work u (raiseNow .raceClosed []
      { (fixAll u.crossings.length u).setAllDeadlines with
        classification := classify (fixAll u.crossings.length u).setAllDeadlines }) := fun u => by
    refine ((fixAll_work u.crossings.length u).trans (setAllDeadlines_work _)).trans ?_
    generalize (fixAll u.crossings.length u).setAllDeadlines = v
    exact .after (raiseNow_work ..) rfl rfl
  have aged : ∀ (b : Bool) (u : State),
      Work u (if b = true then allSlots.foldl (fun s i => ageStep i s) u else u) := fun b u => by
    split
    · exact .foldl _ (fun s i => ageStep_work i s) _ _
    · exact .refl u
  have start : ∀ r : RaceRecord, r.acks = s.race.acks → r.tGreen = s.race.tGreen → r.tR = s.race.tR →
      Work s { s with race := r } := fun r ha hg hr => .withRace s r (fun _ m => ha ▸ m) hg hr
  unfold closeSteps
  extract_lets _ _ u v w
  exact (start _ rfl rfl rfl : Work s u).trans ((aged _ _ : Work u v).trans (tail v))

theorem fieldTest_work (s : State) : Work s (fieldTest s) := by
  unfold fieldTest
  split
  · exact closeSteps_work s
  · exact .refl s

theorem closingTests_work (s : State) : Work s (closingTests s) := by
  unfold closingTests
  split
  · exact closeSteps_work s
  · exact .refl s

theorem evaluate_work (s : State) : Work s (evaluate s) := by
  unfold evaluate
  simp only
  split
  · split
    · exact (fixPasses_work 13 s).trans (closingTests_work _)
    · split
      · exact (fixPasses_work 13 s).trans (fieldTest_work _)
      · exact fixPasses_work 13 s
  · exact .refl s

theorem afterChange_work (s : State) : Work s (afterChange s) := (evaluate_work s).trans (fieldTest_work _)

theorem ageEval_work (i : Slot) (s : State) : Work s (ageEval i s) := by
  unfold ageEval
  simp only
  split
  · exact ageStep_work i s
  · exact (ageStep_work i s).trans (afterChange_work _)

theorem ageAll_work (s : State) : Work s (ageAll s) := .foldl _ (fun s i => ageEval_work i s) _ _

/-! ### Samples -/

theorem enterCrossing_work (s : State) (x : Crossing) : Work s (enterCrossing s x) := by
  unfold enterCrossing
  split
  · exact .of_eq rfl rfl
  · simp only
    split
    · exact .after (fixRecord_work ..) rfl rfl
    · exact .after (setDeadline_work _ _) rfl rfl

theorem enterCrossings_work (i : Slot) (prev : Option Sample) (x : Sample) (s : State) :
    Work s (enterCrossings i prev x s) := by
  unfold enterCrossings
  split
  · exact .refl s
  split
  · split
    · exact .refl s
    · exact .of_eq rfl rfl
  · split
    · exact .refl s
    split
    · exact .foldl _ enterCrossing_work _ _
    · exact .of_eq rfl rfl

theorem lineSample_work (i : Slot) (prev : Option Sample) (x : Sample) (s : State) : Work s (lineSample i prev x s) := by
  unfold lineSample
  simp only
  have h := (enterCrossings_work i prev x s).trans (evaluate_work _)
  split
  · exact h
  · exact h.trans (fieldTest_work _)

theorem contactSample_work (s0 : State) (c : Slot) (x : Sample) (s : State) : Work s (contactSample s0 c x s) := by
  unfold contactSample
  split
  · refine .foldl _ (fun u o => ?_) _ _
    unfold contactOne contactTest
    simp only
    repeat' split
    all_goals first | exact .refl _ | exact .after (raiseNow_work ..) rfl rfl
  · exact .refl s

theorem jumpCheck_work (i : Slot) (x : Sample) (s : State) : Work s (jumpCheck i x s) := by
  unfold jumpCheck
  repeat' split
  all_goals first | exact .refl _ | exact .after (raiseNow_work ..) rfl rfl

/-- What an accepted sample leads to. -/
theorem handOn_work (s0 : State) (i : Slot) (prev : Option Sample) (x : Sample) (s : State) :
    Work s (handOn s0 i prev x s) := by
  unfold handOn
  simp only
  refine .trans ?_ ((contactSample_work ..).trans (jumpCheck_work ..))
  split
  · exact lineSample_work ..
  · exact .refl s

/-! ### Cars and their port -/

theorem leaveCar_work (quiet : Bool) (s : State) (i : Slot) : Work s (leaveCar quiet s i) := by
  unfold leaveCar
  simp only
  split
  · split
    · exact (changeCar_work ..).trans (afterChange_work _)
    · exact .refl s
  · split
    · exact (changeCar_work ..).trans (afterChange_work _)
    · exact .refl s

theorem unparkCar_work (s : State) (i : Slot) : Work s (unparkCar s i) := by
  have h : Work s (afterChange (changeCar i (s.coasting (s.car i)) (some .carCoasting) s)) :=
    (changeCar_work ..).trans (afterChange_work _)
  unfold unparkCar
  simp only
  split
  · split
    · exact h
    · exact h.trans (ageEval_work ..)
  · exact .refl s

theorem unparkCars_work (p : PortNo) (s : State) : Work s (unparkCars p s) := .foldl _ unparkCar_work _ _

theorem removeAck_work (p : PortNo) (s : State) : Work s (removeAck p s) := by
  unfold removeAck
  split
  · exact .afterRace (ackTest_work _) (fun _ m => (List.mem_filter.1 m).1) rfl rfl
  · exact .refl s

/-- The cars of a port that leaves ACTIVE, and its entry in the ack set. -/
theorem leaveCars_work (quiet : Bool) (p : PortNo) (is : List Slot) (s : State) :
    Work s (removeAck p (is.foldl (leaveCar quiet) s)) := .trans (.foldl _ (leaveCar_work quiet) _ _) (removeAck_work ..)

end Sys2Proof.Machine
end

