-- ==== Sys2Proof/Laws/Notices.lean ====
section
/-! SUPPORT. What the director is sent: on a busy line an event adds to class 5 of the director's port the notices of its
NOTIFY routes and nothing else (`Sent`), said once for each shared operation, so that a list of events can be read from the
notices it leaves. -/

namespace Sys2Proof.Machine

/-- Port `d` keeps what is on its wire and gets `xs` at the tail of class 5. -/
structure Sends (d : PortNo) (xs : List HubFrame) (s t : State) : Prop where
  wire : (t.port d).wire = (s.port d).wire
  outbox : (t.port d).outbox = (s.port d).outbox ++ xs

/-- A director who hears is sent `bodies`. -/
structure Sent (bodies : List FrameBody) (s t : State) : Prop where
  sends : ∀ d, Hears s d bodies.length → Sends d (bodies.map (s.mkFrame d)) s t

theorem Sends.refl (d : PortNo) (s : State) : Sends d [] s s := ⟨rfl, (List.append_nil _).symm⟩

theorem Sends.of_port {d : PortNo} {s t : State} (h : t.port d = s.port d) : Sends d [] s t := by
  exact ⟨by rw [h], by rw [h, List.append_nil]⟩

theorem Sends.trans {d : PortNo} {xs ys : List HubFrame} {s u t : State} (h : Sends d xs s u) (k : Sends d ys u t) :
    Sends d (xs ++ ys) s t := ⟨k.wire.trans h.wire, by rw [k.outbox, h.outbox, List.append_assoc]⟩

theorem Sent.noticed {bodies : List FrameBody} {s t : State} (h : Sent bodies s t) : Noticed bodies s t :=
  fun d k => (h.sends d k).outbox

theorem Sent.refl (s : State) : Sent [] s s := ⟨fun d _ => .refl d s⟩

/-! ### Who holds the role, and what frames carry, stays -/

theorem RaceEffect.roleHolder {s t : State} (h : RaceEffect s t) : t.roleHolder = s.roleHolder := by
  have e : ∀ p, t.isActive p = s.isActive p := fun p => by simp only [State.isActive, (h.link p).phase]
  unfold State.roleHolder
  rw [h.mgmt]
  split
  · rw [e]
  · rfl

theorem RaceEffect.mkFrame {s t : State} (h : RaceEffect s t) (p : PortNo) (b : FrameBody) : t.mkFrame p b = s.mkFrame p b := by
  simp only [State.mkFrame, State.holdsRole, h.roleHolder]

theorem RaceEffect.noticesFor {s t : State} (h : RaceEffect s t) (es : List Event) : t.noticesFor es = s.noticesFor es := by
  simp only [State.noticesFor, h.routes]

theorem noticesFor_append (s : State) (xs ys : List Event) : s.noticesFor (xs ++ ys) = s.noticesFor xs ++ s.noticesFor ys :=
  List.flatMap_append

theorem notices_append_le (q : Port) (xs : List HubFrame) :
    ({ q with outbox := q.outbox ++ xs } : Port).notices.length ≤ q.notices.length + xs.length := by
  simp only [Port.notices, List.filter_append, List.length_append]
  have := List.length_filter_le (fun f : HubFrame => f.body.isNotice) xs
  omega

theorem Sends.notices_le {d : PortNo} {xs : List HubFrame} {s t : State} (h : Sends d xs s t) :
    (t.port d).notices.length ≤ (s.port d).notices.length + xs.length := by
  have := notices_append_le (s.port d) xs
  simp only [Port.notices, h.outbox] at this ⊢
  exact this

theorem Sent.trans {xs ys : List FrameBody} {s u t : State} (e : RaceEffect s u) (h : Sent xs s u) (k : Sent ys u t) :
    Sent (xs ++ ys) s t := by
  refine ⟨fun d hd => ?_⟩
  have room := hd.room
  rw [List.length_append] at room
  have h1 := h.sends d ⟨hd.role, hd.busy, by omega⟩
  have := h1.notices_le
  rw [List.length_map] at this
  have h2 := k.sends d ⟨e.roleHolder.trans hd.role, by rw [h1.wire]; exact hd.busy, by omega⟩
  rw [List.map_append]
  exact h1.trans (by simpa only [funext (e.mkFrame d)] using h2)

/-- A change that leaves every port on a busy line its wire and its class 5. -/
theorem Sent.of_keeps {s t : State} (h : ∀ d, (s.port d).wire.isSome = true → Sends d [] s t) : Sent [] s t :=
  ⟨fun d k => h d k.busy⟩

theorem Sent.of_ports {s t : State} (h : t.ports = s.ports) : Sent [] s t :=
  .of_keeps fun d _ => .of_port (by simp only [State.port, h])

/-- Sent after a change that leaves the ports as they are. -/
theorem Sent.after {xs : List FrameBody} {s u t : State} (k : Sent xs u t) (e : RaceEffect s u) (hp : u.ports = s.ports) :
    Sent xs s t := (Sent.of_ports hp).trans e k

theorem Sent.foldl {α : Type} (f : State → α → State) (e : ∀ s x, RaceEffect s (f s x)) (h : ∀ s x, Sent [] s (f s x))
    (xs : List α) (s : State) : Sent [] s (xs.foldl f s) := by
  induction xs generalizing s with
  | nil => exact .refl s
  | cons x xs ih => exact (h s x).trans (e s x) (ih _)

/-! ### Offers on a busy line -/

theorem arbiterTake_busy {s : State} {p : PortNo} (h : (s.port p).wire.isSome = true) : s.arbiterTake p = s := by
  simp [State.arbiterTake, h]

theorem arbiterTake_other (s : State) {p d : PortNo} (h : d ≠ p) : (s.arbiterTake p).port d = s.port d := by
  unfold State.arbiterTake
  split
  · rfl
  · split
    · exact State.port_setPort_of_ne _ _ h
    · rfl

/-- An offer to port `p` that touches neither the wire nor class 5. -/
theorem offer_keeps {s : State} {p d : PortNo} (f : Port → Port) (hw : (f (s.port p)).wire = (s.port p).wire)
    (ho : (f (s.port p)).outbox = (s.port p).outbox) (hd : (s.port d).wire.isSome = true) :
    Sends d [] s ((s.modPort p f).arbiterTake p) := by
  by_cases e : d = p
  · subst e
    have h : (s.modPort d f).port d = f (s.port d) := by simp [State.modPort]
    rw [arbiterTake_busy (by rw [h, hw]; exact hd)]
    exact ⟨by rw [h, hw], by rw [h, ho, List.append_nil]⟩
  · exact .of_port ((arbiterTake_other _ e).trans (State.port_setPort_of_ne _ _ e))

theorem offerCue_keeps (s : State) (p : PortNo) (c : Cue) {d : PortNo} (hd : (s.port d).wire.isSome = true) :
    Sends d [] s (s.offerCue p c) := by
  unfold State.offerCue
  split
  · split
    · exact offer_keeps _ rfl rfl hd
    · by_cases e : d = p
      · subst e; exact ⟨by simp [State.count, State.modPort], by simp [State.count, State.modPort]⟩
      · exact .of_port (State.port_setPort_of_ne _ _ e)
  · exact .refl d s

theorem offerCue_sent (s : State) (p : PortNo) (c : Cue) : Sent [] s (s.offerCue p c) :=
  .of_keeps fun _ => offerCue_keeps s p c

theorem offerCall_keeps (s : State) (p : PortNo) (b : FrameBody) {d : PortNo} (hd : (s.port d).wire.isSome = true) :
    Sends d [] s (s.offerCall p b) := by
  unfold State.offerCall
  split
  · exact offer_keeps _ rfl rfl hd
  · exact .refl d s

theorem offerCall_sent (s : State) (p : PortNo) (b : FrameBody) : Sent [] s (s.offerCall p b) :=
  .of_keeps fun _ => offerCall_keeps s p b

theorem offerPlacing_sent (s : State) (p : PortNo) (b : FrameBody) : Sent [] s (s.offerPlacing p b) := by
  refine .of_keeps fun d hd => ?_
  unfold State.offerPlacing
  split
  · exact offer_keeps _ rfl rfl hd
  · exact .refl d s

theorem noticeToDirector_sent (s : State) (n : Notice) : Sent [.notice n] s (s.noticeToDirector n) := by
  refine ⟨fun d h => ?_⟩
  have ha := roleHolder_active h.role
  have room := h.room
  have e : (s.modPort d fun q => { q with outbox := q.outbox ++ [s.mkFrame d (.notice n)] }).port d
      = { s.port d with outbox := (s.port d).outbox ++ [s.mkFrame d (.notice n)] } := by simp [State.modPort]
  have hn : ((s.port d).outbox.filter fun f => f.body.isNotice).length < 16 := by
    simp only [Port.notices, List.length_singleton] at room; omega
  simp only [State.noticeToDirector, h.role, State.offerNotice, admitsReplies, ha, hn]
  simp only [decide_true, Bool.and_self, if_true, true_or]
  rw [arbiterTake_busy (by rw [e]; exact h.busy)]
  exact ⟨by rw [e], by rw [e]; rfl⟩

/-! ### Events -/

theorem holdPort_sent (tH : RaceTime) (s : State) (p : PortNo) : Sent [] s (holdPort tH s p) := by
  unfold holdPort
  split
  · exact (offerCall_sent s p _).trans (offerCall_effect ..).race (.of_ports rfl)
  · exact .refl s

theorem autoHold_sent (s : State) : Sent [] s (autoHold s) := by
  have e (r : RaceRecord) (tH : RaceTime) : RaceEffect s (allPorts.foldl (holdPort tH) { s with race := r }) :=
    (RaceEffect.withRace s r).trans (.foldl _ (fun s p => (holdPort_effect tH s p).race) _ _)
  have h (r : RaceRecord) (tH : RaceTime) : Sent [] s (allPorts.foldl (holdPort tH) { s with race := r }) :=
    .after (.foldl _ (fun s p => (holdPort_effect tH s p).race) (holdPort_sent tH) _ _) (.withRace s r) rfl
  unfold autoHold
  split
  · unfold callHold State.setRace
    simp only
    have e1 := e { s.race with tH := some (addTime s.clock s.params.holdLead), remembered := some s.race.state, acks := [] }
      (addTime s.clock s.params.holdLead)
    have h1 := h { s.race with tH := some (addTime s.clock s.params.holdLead), remembered := some s.race.state, acks := [] }
      (addTime s.clock s.params.holdLead)
    generalize allPorts.foldl (holdPort (addTime s.clock s.params.holdLead)) _ = u at e1 h1 ⊢
    exact h1.trans (ys := []) e1 (.of_ports rfl)
  · exact .refl s

/-- A matching route sends the director the notice of a NOTIFY, and nothing for another action. -/
theorem routeAct_sent (e : Event) (s : State) (r : Route) :
    Sent (if r.action = .notify then [.notice (.event e)] else []) s (routeAct e s r) := by
  unfold routeAct
  cases r.action
  · exact .foldl _ (fun s p => (offerCue_effect s p _).race) (fun s p => offerCue_sent s p _) _ s
  · exact noticeToDirector_sent s (.event e)
  · exact autoHold_sent s

/-- Some routes, taken in order, send the director one notice for each matching NOTIFY. -/
theorem routes_sent (e : Event) (rs : List Route) (s : State) :
    Sent ((rs.filter fun r => r.matches e && decide (r.action = .notify)).map fun _ => .notice (.event e)) s
      (rs.foldl (routeOne e) s) := by
  induction rs generalizing s with
  | nil => exact .refl s
  | cons r rs ih =>
    have one : Sent (if r.matches e && decide (r.action = .notify) then [.notice (.event e)] else []) s (routeOne e s r) := by
      unfold routeOne
      by_cases h : r.matches e = true
      · simpa [h] using routeAct_sent e s r
      · simpa [h] using Sent.refl s
    have := one.trans (routeOne_effect e s r).race (ih _)
    simp only [List.filter_cons, List.foldl_cons]
    split <;> simp_all

/-- An event sends the director the notices of its NOTIFY routes and nothing else (R142, R144). -/
theorem raise_sent (e : Event) (s : State) : Sent (s.noticesFor [e]) s (raise e s) := by
  have h := routes_sent e s.routes.toList s
  rwa [← List.append_nil (List.map _ _)] at h

theorem raiseNow_sent (k : EventKind) (is : List Slot) (s : State) :
    Sent (s.noticesFor [{ kind := k, time := s.clock, slots := is, fault := none }]) s (raiseNow k is s) := raise_sent ..

theorem enterHold_sent (s : State) :
    Sent (s.noticesFor [{ kind := .holdBegin, time := s.clock, slots := [], fault := none }]) s (enterHold s) := by
  have k := raiseNow_sent .holdBegin [] { s with race := { s.race with state := .hold, acks := [] } }
  rw [(RaceEffect.withRace s _).noticesFor] at k
  exact k.after (.withRace s _) rfl

theorem sendPlacing_sent (x : Crossing) (n : Nat) (s : State) : Sent [] s (sendPlacing x n s) :=
  .foldl _ (fun s p => (offerPlacing_effect s p _).race) (fun s p => offerPlacing_sent s p _) _ _

/-! ### What a director has been sent who ends with room -/

/-- The director's busy line keeps its frame and class 5 grows at its tail, by exactly the notices of `bodies` where fewer than
16 notices wait in the end. -/
structure Adds (bodies : List FrameBody) (s t : State) : Prop where
  adds : ∀ d, s.roleHolder = some d → (s.port d).wire.isSome = true →
    (t.port d).wire = (s.port d).wire ∧ ∃ xs, (t.port d).outbox = (s.port d).outbox ++ xs
      ∧ ((t.port d).notices.length < 16 → xs = bodies.map (s.mkFrame d))

theorem Adds.of_sent {s t : State} (h : ∀ d, (s.port d).wire.isSome = true → Sends d [] s t) : Adds [] s t :=
  ⟨fun d _ hd => ⟨(h d hd).wire, [], (h d hd).outbox, fun _ => rfl⟩⟩

theorem Adds.refl (s : State) : Adds [] s s := .of_sent fun d _ => .refl d s

theorem Adds.of_ports {s t : State} (h : t.ports = s.ports) : Adds [] s t :=
  .of_sent fun d _ => .of_port (by simp only [State.port, h])

theorem notices_grow {d : PortNo} {s t : State} {xs : List HubFrame} (h : (t.port d).outbox = (s.port d).outbox ++ xs) :
    (s.port d).notices.length ≤ (t.port d).notices.length := by
  simp only [Port.notices, h, List.filter_append, List.length_append]
  omega

theorem Adds.trans {xs ys : List FrameBody} {s u t : State} (e : RaceEffect s u) (h : Adds xs s u) (k : Adds ys u t) :
    Adds (xs ++ ys) s t := by
  refine ⟨fun d hr hd => ?_⟩
  obtain ⟨w1, as, o1, r1⟩ := h.adds d hr hd
  obtain ⟨w2, bs, o2, r2⟩ := k.adds d (e.roleHolder.trans hr) (by rw [w1]; exact hd)
  refine ⟨w2.trans w1, as ++ bs, by rw [o2, o1, List.append_assoc], fun room => ?_⟩
  rw [r1 (Nat.lt_of_le_of_lt (notices_grow o2) room), r2 room, List.map_append, funext (e.mkFrame d)]

theorem Adds.foldl {α : Type} (f : State → α → State) (e : ∀ s x, RaceEffect s (f s x)) (h : ∀ s x, Adds [] s (f s x))
    (xs : List α) (s : State) : Adds [] s (xs.foldl f s) := by
  induction xs generalizing s with
  | nil => exact .refl s
  | cons x xs ih => exact (h s x).trans (e s x) (ih _)

theorem noticeToDirector_adds (s : State) (n : Notice) : Adds [.notice n] s (s.noticeToDirector n) := by
  refine ⟨fun d hr hd => ?_⟩
  have ha := roleHolder_active hr
  have e : (s.modPort d fun q => { q with outbox := q.outbox ++ [s.mkFrame d (.notice n)] }).port d
      = { s.port d with outbox := (s.port d).outbox ++ [s.mkFrame d (.notice n)] } := by simp [State.modPort]
  by_cases hn : ((s.port d).outbox.filter fun f => f.body.isNotice).length < 16
  · simp only [State.noticeToDirector, hr, State.offerNotice, admitsReplies, ha, hn]
    simp only [decide_true, Bool.and_self, if_true, true_or]
    rw [arbiterTake_busy (by rw [e]; exact hd)]
    exact ⟨by rw [e], [s.mkFrame d (.notice n)], by rw [e], fun _ => rfl⟩
  · simp only [State.noticeToDirector, hr, State.offerNotice, hn]
    simp only [decide_false, Bool.and_false, Bool.false_eq_true, if_false]
    exact ⟨trivial, [], (List.append_nil _).symm, fun room => absurd room hn⟩

theorem autoHold_adds (s : State) : Adds [] s (autoHold s) := by
  have one (tH : RaceTime) (s : State) (p : PortNo) : Adds [] s (holdPort tH s p) := by
    refine .of_sent fun d hd => ?_
    unfold holdPort
    split
    · have k := offerCall_keeps s p (.holdCall (inverse (s.timing p) tH)) hd
      exact ⟨k.wire, k.outbox⟩
    · exact .refl d s
  have called (r : RaceRecord) (tH : RaceTime) : Adds [] s (allPorts.foldl (holdPort tH) { s with race := r }) :=
    Adds.trans (xs := []) (.withRace s r) (.of_ports rfl) (.foldl _ (fun s p => (holdPort_effect tH s p).race) (one tH) _ _)
  have e (r : RaceRecord) (tH : RaceTime) : RaceEffect s (allPorts.foldl (holdPort tH) { s with race := r }) :=
    (RaceEffect.withRace s r).trans (.foldl _ (fun s p => (holdPort_effect tH s p).race) _ _)
  unfold autoHold
  split
  · unfold callHold State.setRace
    simp only
    have e1 := e { s.race with tH := some (addTime s.clock s.params.holdLead), remembered := some s.race.state, acks := [] }
      (addTime s.clock s.params.holdLead)
    have h1 := called { s.race with tH := some (addTime s.clock s.params.holdLead), remembered := some s.race.state, acks := [] }
      (addTime s.clock s.params.holdLead)
    generalize allPorts.foldl (holdPort (addTime s.clock s.params.holdLead)) _ = u at e1 h1 ⊢
    exact h1.trans (ys := []) e1 (.of_ports rfl)
  · exact .refl s

theorem routeAct_adds (e : Event) (s : State) (r : Route) :
    Adds (if r.action = .notify then [.notice (.event e)] else []) s (routeAct e s r) := by
  unfold routeAct
  cases r.action
  · exact .foldl _ (fun s p => (offerCue_effect s p _).race) (fun s p => .of_sent fun _ => offerCue_keeps s p _) _ s
  · exact noticeToDirector_adds s (.event e)
  · exact autoHold_adds s

theorem routes_adds (e : Event) (rs : List Route) (s : State) :
    Adds ((rs.filter fun r => r.matches e && decide (r.action = .notify)).map fun _ => .notice (.event e)) s
      (rs.foldl (routeOne e) s) := by
  induction rs generalizing s with
  | nil => exact .refl s
  | cons r rs ih =>
    have one : Adds (if r.matches e && decide (r.action = .notify) then [.notice (.event e)] else []) s (routeOne e s r) := by
      unfold routeOne
      by_cases h : r.matches e = true
      · simpa [h] using routeAct_adds e s r
      · simpa [h] using Adds.refl s
    have := one.trans (routeOne_effect e s r).race (ih _)
    simp only [List.filter_cons, List.foldl_cons]
    split <;> simp_all

/-- An event adds the notices of its NOTIFY routes to what the director has been sent, and nothing else (R142, R144). -/
theorem raise_adds (e : Event) (s : State) : Adds (s.noticesFor [e]) s (raise e s) := by
  have h := routes_adds e s.routes.toList s
  rwa [← List.append_nil (List.map _ _)] at h

/-- Of the notices a director with room has been sent, those of an event raised last stand last. -/
theorem raise_noticedLast (e : Event) (s : State) : NoticedLast (s.noticesFor [e]) s (raise e s) := by
  intro d hr hd room
  have eff := (raise_effect e s).race
  obtain ⟨-, xs, ho, hx⟩ := (raise_adds e s).adds d (eff.roleHolder ▸ hr) hd
  refine ⟨[], ?_⟩
  rw [ho, hx room, List.append_nil, funext (eff.mkFrame d)]

end Sys2Proof.Machine
end

