-- ==== Sys2Proof/Laws/TableFrames.lean ====
section
/-! SUPPORT. What the table writes, the Management Unit's commands, the race commands, the timers and the resets keep, said
once for each shared operation. -/

namespace Sys2Proof.Machine

theorem RaceEffect.step {s t : State} (h : RaceEffect s t) : StepEffect s t := (h.link' 0).toStepEffect

theorem RouteEffect.step {s t : State} (h : RouteEffect s t) : StepEffect s t := (h.link' 0).toStepEffect

theorem StepEffect.foldl {α : Type} (f : State → α → State) (h : ∀ s x, StepEffect s (f s x)) (xs : List α) (s : State) :
    StepEffect s (xs.foldl f s) := by
  induction xs generalizing s with
  | nil => exact .refl s
  | cons x xs ih => exact (h s x).trans (ih _)

/-! ### Table writes -/

theorem putCar_step (s : State) (i : Slot) (c : CarRecord) (h : s.seatsOk → (s.putCar i c).seatsOk) :
    StepEffect s (s.putCar i c) :=
  ⟨rfl, rfl, rfl, fun _ => id, Nat.le_max_right _ _, Nat.le_max_right _ _, putCar_contacts s i c, h, fun _ => id⟩

theorem changeCar_step (s : State) (i : Slot) (c : CarRecord) (ev : Option EventKind)
    (h : s.seatsOk → (s.putCar i c).seatsOk) : StepEffect s (changeCar i c ev s) := by
  unfold changeCar
  refine .trans (.trans (putCar_step s i c h) ?_) (.foldl _ (fun s c => (raiseNow_effect ..).step) _ _)
  split
  · exact (raiseNow_effect ..).step
  · exact .refl _

theorem assigned_fields (c : CarRecord) (a : Assignment) :
    (c.assigned a).enabled = a.enabled ∧ (c.assigned a).owner = a.owner ∧ (c.assigned a).seat = a.seat := by
  unfold CarRecord.assigned CarRecord.wiped
  simp only
  split
  · exact ⟨rfl, rfl, rfl⟩
  · split <;> exact ⟨rfl, rfl, rfl⟩

theorem mem_allSlots (i : Slot) : i ∈ allSlots := by revert i; decide

theorem mem_othersOf (s : State) (i j : Slot) (o : PortNo) :
    j ∈ s.othersOf i o ↔ (s.car j).enabled = true ∧ (s.car j).owner = o ∧ j ≠ i := by
  simp [State.othersOf, State.slotsOf, State.owns, mem_allSlots]; tauto

/-- An assignment that does not clash keeps the seats (R29). -/
theorem assigned_seats (s : State) (i : Slot) (a : Assignment) (h : ¬s.clashes i a = true) (ok : s.seatsOk) :
    (s.putCar i ((s.car i).assigned a)).seatsOk := by
  have hcar : ∀ j, (s.putCar i ((s.car i).assigned a)).car j = if j = i then (s.car i).assigned a else s.car j :=
    fun j => State.car_setCar s i j _
  obtain ⟨h1, h2, h3⟩ := assigned_fields (s.car i) a
  have free : a.enabled = true → ∀ j, j ≠ i → (s.car j).enabled = true → (s.car j).owner = a.owner → (s.car j).seat ≠ a.seat := by
    intro he j hj hje hjo hs
    refine h ?_
    have : j ∈ s.othersOf i a.owner := (mem_othersOf ..).mpr ⟨hje, hjo, hj⟩
    simp only [State.clashes, he, Bool.true_and, Bool.or_eq_true, List.any_eq_true]
    exact .inl ⟨j, this, by simp [hs]⟩
  intro j k hjk hj hk ho
  rw [hcar] at hj hk ho ⊢
  rw [hcar] at ho ⊢
  by_cases ej : j = i
  · have ek : k ≠ i := fun e => hjk (ej.trans e.symm)
    simp only [ej, ek, if_true, if_false, h1, h2, h3] at hj hk ho ⊢
    exact fun e => free hj k ek hk ho.symm e.symm
  · by_cases ek : k = i
    · simp only [ej, ek, if_true, if_false, h1, h2, h3] at hj hk ho ⊢
      exact fun e => free hk j ej hj ho e
    · simp only [ej, ek, if_false] at hj hk ho ⊢
      exact ok j k hjk hj hk ho

theorem writeCar_step (i : Slot) (bs : List Byte) (s : State) : StepEffect s (writeCar i bs s).1 := by
  unfold writeCar
  split
  · split
    · exact .refl s
    split
    · exact .refl s
    · next h => exact (changeCar_step _ _ _ _ (assigned_seats s i _ h)).trans (afterChange_effect _).step
  · exact .refl s

/-- A change of the parameters, the routes or the patterns touches nothing else. -/
theorem withTables_step (s : State) (pr : RaceParams) (rs : Vector Route 24) (ps : Vector Pattern 4) :
    StepEffect s { s with params := pr, routes := rs, patterns := ps } :=
  ⟨rfl, rfl, rfl, fun _ => id, Nat.le_max_right _ _, Nat.le_max_right _ _, id, id, fun _ => id⟩

theorem paramEffect_effect (k : Nat) (s : State) : RaceEffect s (paramEffect k s) := by
  unfold paramEffect
  split
  · split
    · exact .refl s
    · exact ageAll_effect s
  split
  · exact (setAllDeadlines_effect s).trans (evaluate_effect _)
  · exact .refl s

theorem writeParam_step (k : Nat) (bs : List Byte) (s : State) : StepEffect s (writeParam k bs s).1 := by
  unfold writeParam
  simp only
  split
  · split
    · refine .trans ?_ (paramEffect_effect k _).step
      exact withTables_step s _ s.routes s.patterns
    · exact .refl s
  · exact .refl s

theorem enableEffect_effect (p : PortNo) (was now : Bool) (s : State) : LinkEffect p s (enableEffect p was now s) := by
  unfold enableEffect
  split
  · exact .refl p s
  split
  · exact enablePort_effect ..
  · exact portReset_effect ..

theorem writePort_effect (p : PortNo) (bs : List Byte) (s : State) : LinkEffect p s (writePort p bs s).1 := by
  unfold writePort
  simp only
  split
  · split
    · exact .refl p s
    · refine .trans (.trans ?_ (followRate_effect ..)) (enableEffect_effect ..)
      exact .modPort_plain (fun _ => ⟨rfl, rfl, rfl, rfl, rfl, rfl⟩) id
  · exact .refl p s

theorem writeViewOrder_effect (p : PortNo) (bs : List Byte) (s : State) : LinkEffect p s (writeViewOrder p bs s).1 := by
  unfold writeViewOrder
  split
  · simp only; exact .modPort_plain (fun _ => ⟨rfl, rfl, rfl, rfl, rfl, rfl⟩) id
  · exact .refl p s

theorem writeRoute_step (n : Nat) (bs : List Byte) (s : State) : StepEffect s (writeRoute n bs s).1 := by
  unfold writeRoute
  split
  · exact withTables_step s s.params _ s.patterns
  · exact .refl s

theorem writePattern_step (n : Nat) (bs : List Byte) (s : State) : StepEffect s (writePattern n bs s).1 := by
  unfold writePattern
  split
  · exact withTables_step s s.params s.routes _
  · exact .refl s

theorem writeLoop_step (size : Nat) (write : Nat → List Byte → State → State × Status)
    (h : ∀ n bs s, StepEffect s (write n bs s).1) (k n : Nat) (bs : List Byte) (s : State) :
    StepEffect s (writeLoop size write k n bs s).1 := by
  induction k generalizing n bs s with
  | zero => exact .refl s
  | succ k ih =>
    unfold writeLoop
    simp only
    split
    · exact (h _ _ _).trans (ih _ _ _)
    · exact h _ _ _

theorem onSlot_step (write : Slot → List Byte → State → State × Status) (h : ∀ i bs s, StepEffect s (write i bs s).1)
    (n : Nat) (bs : List Byte) (s : State) : StepEffect s (onSlot write n bs s).1 := by
  unfold onSlot; split
  · exact h _ _ _
  · exact .refl s

theorem onPort_step (write : PortNo → List Byte → State → State × Status) (h : ∀ i bs s, StepEffect s (write i bs s).1)
    (n : Nat) (bs : List Byte) (s : State) : StepEffect s (onPort write n bs s).1 := by
  unfold onPort; split
  · exact h _ _ _
  · exact .refl s

theorem onNumber_step (size : Nat) (write : Nat → List Byte → State → State × Status) (h : ∀ i bs s, StepEffect s (write i bs s).1)
    (n : Nat) (bs : List Byte) (s : State) : StepEffect s (onNumber size write n bs s).1 := by
  unfold onNumber; split
  · exact h _ _ _
  · exact .refl s

/-! ### Taking a command -/

theorem answer_step (c : Command) (st : Status) (d : List Byte) (s : State) : StepEffect s (answer c st d s) :=
  (answer_effect ..).step

theorem answerWrite_step (c : Command) (st : Status) (n : Nat) (s : State) : StepEffect s (answerWrite c st n s) :=
  (writeData_effect ..).trans (answer_step ..)

theorem dropHead_step (s : State) : StepEffect s s.dropHead :=
  withMgmt_step s _ (by show s.mgmt.queue.tail.length ≤ _; rw [List.length_tail]; omega)

theorem onHead_step (mine : Command → Bool) (act : Command → State → State) (h : ∀ c s, StepEffect s (act c s)) (s : State) :
    StepEffect s (onHead mine act s) := by
  unfold onHead
  split
  · split
    · exact (dropHead_step s).trans (h _ _)
    · exact .refl s
  · exact .refl s

theorem asDirector_step (act : State → State × Status) (h : ∀ s, StepEffect s (act s).1) (c : Command) (s : State) :
    StepEffect s (asDirector act c s) := by
  unfold asDirector
  split
  · exact (h s).trans (answer_step ..)
  · exact answer_step ..

theorem noParams_step (c : Command) (act : State → State × Status) (h : ∀ s, StepEffect s (act s).1) (s : State) :
    StepEffect s (noParams c act s).1 := by
  unfold noParams; split
  · exact h s
  · exact .refl s

theorem portParam_step (c : Command) (act : PortNo → State → State × Status) (h : ∀ p s, StepEffect s (act p s).1) (s : State) :
    StepEffect s (portParam c act s).1 := by
  unfold portParam; split
  · split
    · exact h _ s
    · exact .refl s
  · exact .refl s

theorem slotParam_step (c : Command) (act : Slot → State → State × Status) (h : ∀ p s, StepEffect s (act p s).1) (s : State) :
    StepEffect s (slotParam c act s).1 := by
  unfold slotParam; split
  · split
    · exact h _ s
    · exact .refl s
  · exact .refl s

theorem writeTable_step (size : Nat) (write : Nat → List Byte → State → State × Status)
    (h : ∀ n bs s, StepEffect s (write n bs s).1) (c : Command) (s : State) : StepEffect s (writeTable size write c s) := by
  unfold writeTable
  split
  · split
    · exact (writeLoop_step size write h ..).trans (answerWrite_step ..)
    · exact answerWrite_step ..
  · exact answerWrite_step ..

/-! ### Effects of the commands -/

theorem clearCounters_step (n : Nat) (s : State) : StepEffect s (clearCounters n s).1 := by
  unfold clearCounters
  split
  · exact ⟨rfl, rfl, rfl, fun _ => id, Nat.le_max_right _ _, Nat.le_max_right _ _, id, id, fun _ => id⟩
  split
  · next p _ =>
    refine LinkEffect.toStepEffect (p := p) ?_
    simp only
    exact .modPort_plain (fun _ => ⟨rfl, rfl, rfl, rfl, rfl, rfl⟩) id
  · exact .refl s

theorem quietPort_effect (p : PortNo) (s : State) : LinkEffect p s (quietPort p s).1 := by
  unfold quietPort
  split
  · split
    · exact .refl p s
    · exact enterQuiet_effect ..
  · exact .refl p s

theorem wakePort_effect (p : PortNo) (s : State) : LinkEffect p s (wakePort p s).1 := by
  unfold wakePort
  split
  · exact enterTrain_effect ..
  · exact .refl p s

theorem sendView_effect (p : PortNo) (s : State) : RouteEffect s (sendView p s).1 := by
  unfold sendView
  split
  · exact paceEvent_effect ..
  · exact .refl s

theorem moveRole_step (c : Command) (p : PortNo) (s : State) : StepEffect s (moveRole c p s) :=
  .trans (.trans (.trans (withDirector_effect p s (some p)).toStepEffect (answer_step ..)) (offerNotice_effect ..).step)
    (discardCommands_effect p ..).toStepEffect

theorem setRace_effect (r : RaceState) (s : State) : RouteEffect s (s.setRace r) := .withRace s _

theorem openGrid_effect (s : State) : RouteEffect s (openGrid s).1 := by
  unfold openGrid
  split
  · split
    · exact setRace_effect .grid s
    · exact .refl s
  · exact .refl s

theorem raiseLights_effect (g : RaceTime) (step n : Nat) (s : State) : RouteEffect s (raiseLights g step n s) := by
  induction n generalizing s with
  | zero => exact .refl s
  | succ n ih => exact (raise_effect ..).trans (ih _)

theorem startRace_effect (s : State) : RouteEffect s (startRace s).1 := by
  unfold startRace startEvent
  split
  · refine .trans (.trans (.trans ?_ (raiseLights_effect ..)) (raise_effect ..)) (setRace_effect ..)
    exact .withRace s _
  · exact .refl s

theorem abortStart_effect (s : State) : RouteEffect s (abortStart s).1 := by
  have h : ∀ (r : RaceRecord) (c : Byte), RouteEffect s (fixedCue c { s with race := r }) := fun r c =>
    (RouteEffect.withRace s r).trans (fixedCue_effect ..)
  unfold abortStart
  split
  · simp only; exact h _ _
  · exact .refl s

theorem holdRace_effect (s : State) : RouteEffect s (holdRace s).1 := by
  unfold holdRace
  split
  · exact callHold_effect s
  · exact .refl s

theorem resumeRace_effect (s : State) : RouteEffect s (resumeRace s).1 := by
  unfold resumeRace
  split
  · refine .trans (.trans (.trans ?_ (.foldl _ (resumePort_effect _) _ _)) (raiseNow_effect ..)) (setRace_effect ..)
    exact .withRace s _
  · exact .refl s

theorem closeRace_effect (s : State) : RaceEffect s (closeRace s).1 := by
  unfold closeRace
  split
  · exact closeSteps_effect s
  · exact .refl s

theorem retireCar_effect (i : Slot) (s : State) : RaceEffect s (retireCar i s).1 := by
  unfold retireCar
  simp only
  split
  · exact report_effect none (.timers ..)
  · exact .refl s

@[simp] theorem perPort_get {α : Type} (f : PortNo → α) (p : PortNo) : (perPort f)[p] = f p := by
  revert p; simp only [Fin.forall_fin_succ, perPort]; simp

@[simp] theorem perSlot_get {α : Type} (f : Slot → α) (i : Slot) : (perSlot f)[i] = f i := by
  revert i; simp only [Fin.forall_fin_succ, perSlot]; simp

theorem resetRace_step (s : State) : StepEffect s (resetRace s) := by
  refine StepEffect.trans ?_ (fixedCue_effect ..).step
  refine ⟨rfl, rfl, rfl, fun p => ?_, Nat.le_max_right _ _, Nat.zero_le _, fun _ => ⟨by simp, by simp⟩, ?_, fun p => ?_⟩
  · simp only [State.port, perPort_get]
    exact fun w => ⟨w.1, by simp [Port.raceReset], by simp [Port.raceReset], by simp [Port.raceReset], w.2.2.2.2⟩
  · simp only [State.seatsOk, State.car, perSlot_get]
    exact id
  · simp only [State.port, perPort_get]
    exact id

theorem resetPending_step (s : State) (d : Option RaceTime) :
    StepEffect s { s with mgmt := { s.mgmt with resetPending := d } } := withMgmt_step s _ (Nat.le_max_right _ _)

/-! ### Resets and timers -/

/-- After a hub reset every list is within its capacity, no pair stands, and every port is DOWN. -/
theorem hubReset_sound (s : State) : (hubReset s).sound := by
  refine ⟨⟨fun p => ?_, by simp [hubReset, State.reset, resetMgmt], by simp [hubReset, State.reset]⟩,
    ⟨by simp [hubReset, State.reset], by simp [hubReset, State.reset]⟩, fun i j _ h => ?_, fun p => ?_⟩
  · simp only [State.port, hubReset, perPort_get]
    refine ⟨?_, by simp [resetPort], by simp [resetPort], by simp [resetPort], by simp [resetPort, Port.replies],
      by simp [resetPort, Port.notices], by simp [resetPort]⟩
    unfold resetPort; simp only; split <;> simp
  · simp only [State.car, hubReset, State.reset, perSlot_get, resetCar] at h; cases h
  · simp only [State.port, hubReset, perPort_get]
    exact timingOk_of_phase (by simp [resetPort]) (by simp [resetPort])

theorem goGreen_effect (s : State) : RaceEffect s (goGreen s) := by
  unfold goGreen
  split
  · exact (RaceEffect.withRace s _).trans (closingTests_effect _)
  · exact .withRace s _

theorem resumeShift_step (d : Int) (s : State) : StepEffect s (resumeShift d s) := by
  refine ⟨rfl, rfl, rfl, fun _ => id, Nat.le_max_right _ _, by simp [resumeShift], contactsOk_congr rfl fun i => ?_, ?_, fun _ => id⟩
  · simp only [State.car, resumeShift, perSlot_get]
    exact id
  · simp only [State.seatsOk, State.car, resumeShift, perSlot_get]
    exact id

theorem endHold_step (s : State) : StepEffect s (endHold s) := by
  have h : StepEffect s (leaveResume (resumeShift s.holdLength s)) :=
    (resumeShift_step _ s).trans (RaceEffect.withRace (resumeShift s.holdLength s) _).step
  unfold endHold
  generalize leaveResume (resumeShift s.holdLength s) = u at h
  exact h.trans ((setAllDeadlines_effect u).trans ((ageAll_effect _).trans ((evaluate_effect _).trans (closingTests_effect _)))).step

theorem holdTimeout_effect (s : State) (n : Notice) : RouteEffect s (enterHold (s.noticeToDirector n)) :=
  (noticeToDirector_effect s n).trans (enterHold_effect _)

theorem transmitEnd_effect (p : PortNo) (s : State) :
    RouteEffect s ((s.modPort p fun q => { q with wire := none }).arbiterTake p) := by
  refine .trans ?_ (arbiterTake_effect _ p)
  exact .modPort ⟨rfl, rfl, rfl, rfl, rfl, rfl, rfl, rfl, rfl, rfl, rfl, rfl, id⟩

end Sys2Proof.Machine
end

