-- ==== Sys2Proof/Tests/Slice0.lean ====
section
/-! SUPPORT. The smoke test of WellFormed, the worked cases of the spec as small theorems on one step or one operation, and
for every statement with hypotheses a concrete state and operands that meet them. Expected values come from spec/. -/

open Sys2Proof Sys2Proof.Machine

set_option Elab.async false

/-! ### WellFormed refuses an ill-formed term for each of its checks -/

theorem test_wellFormed_emptyRun : (Instr.damagedFrame 0 0 []).wellFormed = false := by decide
theorem test_wellFormed_knownKind : (Instr.unknownKindFrame 0 0 0x03 []).wellFormed = false := by decide
theorem test_wellFormed_unknownKind : (Instr.unknownKindFrame 0 0 0x07 []).wellFormed = true := by decide
theorem test_wellFormed_longPayload : (Instr.mgmt 0 0 0 (List.replicate 125 0)).wellFormed = false := by decide +kernel
theorem test_wellFormed_fullPayload : (Instr.mgmt 0 0 0 (List.replicate 124 0)).wellFormed = true := by decide +kernel
theorem test_wellFormed_lap0 : (Instr.settleDeadlineExpiry 0).wellFormed = false := by decide
theorem test_wellFormed_lap101 : (Instr.settleDeadlineExpiry 101).wellFormed = false := by decide

/-! ### Helpers -/

/-- The state a command leads to. -/
def after (c : Instr) (s : State) : State :=
  match exec c s with
  | .next t => t
  | _ => s

/-- A trained record: δ 180, anchor frame 500 at 1,000,000, the default period. -/
def trained : TimingRecord :=
  { clearedTiming with
    valid := true, delta := 180, anchorTime := 1000000, anchorFrame := 500, period := 4266667, pNom := 4266667,
    tolPpm := 2000, winFrames := 64, lag := some 400 }

/-- A hub whose port 0 is ACTIVE, its line busy with the first invitation; the clock stands at 1,050,000. -/
def hub : State :=
  { State.reset.modPort 0 fun q => { q with phase := .active, timing := trained, linkBase := some 1040000 } with
    clock := 1050000 }

/-- A command of port 0, with tag 0x2C. -/
def sent (bs : List Byte) : Command := { sender := 0, tag := 0x2C, payload := bs }

/-- The command waits at the head of the Command Queue. -/
def asking (bs : List Byte) (s : State) : State := { s with mgmt := { s.mgmt with queue := [sent bs] } }

/-- The race is in a state. -/
def racingIn (r : RaceState) (s : State) : State := { s with race := { s.race with state := r } }

/-- A sample taken at 1,000,000. -/
def sampleAt : Sample :=
  { time := 1000000, s := 399000, lap := 0, d := 0, v := 3000, w := 0, a := 0, offTrack := false, spun := false }

/-- Slot 2 as a car of port 0, seat 0, in a state, with the sample. -/
def withCar (st : CarState) (s : State) : State :=
  s.setCar 2 { resetCar 2 with enabled := true, state := st, last := some sampleAt }

/-- Port 0 changed. -/
def with0 (f : Port → Port) (s : State) : State := s.modPort 0 f

/-- Port 0 in a phase. -/
def phase0 (ph : PortPhase) (s : State) : State := with0 (fun q => { q with phase := ph }) s

/-- A PROVISIONAL crossing of slot 2 into lap 1 at 1,000,000. -/
def crossing1 : Crossing :=
  { slot := 2, lap := 1, time := 1000000, rankS := 100, status := .provisional, multi := false, late := false, jump := false }

/-! ### Worked cases of spec/01 -/

/-- Worked case: link delay. -/
theorem test_linkDelay : linkDelay [362, 360, 361, 364, 359, 360, 362, 361, 360, 363, 360, 361] = 180 := by decide

/-- Worked case: one phase sweep. -/
theorem test_sweepChange : sweepChange
    { number := 1, queued := 64, sent := [],
      answers := ⟨⟨List.replicate 34 (some 1200) ++ List.replicate 30 (some 1201)⟩, by decide⟩ } = some 34 := by decide

/-- Worked case: a change at k = 1 does not succeed. -/
theorem test_sweepChangeAt1 : sweepChange
    { number := 1, queued := 64, sent := [],
      answers := ⟨⟨some 1200 :: List.replicate 63 (some 1201)⟩, by decide⟩ } = none := by decide

/-- Worked case: forward translation of a half, rounded away from zero on both sides. -/
theorem test_forwardHalf :
    forward { trained with period := 4265600 } 501 = some 1016663
      ∧ forward { trained with period := 4265600 } 499 = some 983337 := by decide

/-- Worked case: forward translation across the wrap of the frame number, and out of window. -/
theorem test_forwardWindow :
    (forward { trained with anchorFrame := 65500 } 20).isSome = true
      ∧ forward { trained with anchorFrame := 65500 } 1100 = none := by decide

/-- Worked case: inverse translation, ordinary and at a rounded mark. -/
theorem test_inverse :
    inverse trained 1050000 = 503
      ∧ inverse { trained with anchorTime := 2066542, anchorFrame := 564, period := 4265600 } 2050000 = 564
      ∧ inverse { trained with anchorTime := 2066542, anchorFrame := 564, period := 4265600 } 2083205 = 566 := by decide

/-- Worked case: the arrival lag. -/
theorem test_arrivalLag :
    (timeFrame false defaultEntry
      { trained with anchorTime := 5008890, anchorFrame := 1201, lag := none } 1203 5042700).record.lag = some 477 := by
  decide

/-- Worked case: a tracking window. -/
theorem test_trackingWindow :
    let r := (timeFrame true defaultEntry
      { trained with anchorTime := 983340, anchorFrame := 499,
                     window := some { startFrame := 500, startArrival := 1000410, lastCounted := 563 } } 564 2066810).record
    (r.anchorTime, r.anchorFrame, r.period, r.residual) = (2066542, 564, 4265600, some (-263)) := by decide

/-! ### Worked cases of spec/03 -/

/-- Worked case: an ordinary projection with a lap carry. -/
theorem test_projectionCarry :
    projectSample { defaultParams with lapLength := 480000, hF := 250000 } resetRaceRecord
      { time := 40000000, s := 479200, lap := 2, d := 120, v := 6000, w := -150, a := 300, offTrack := false, spun := false }
      40180000 = { s := 285, lap := 3, d := 93, v := 6054, held := false, stopped := false } := by decide

/-- Worked case: a backward projection over the line. -/
theorem test_projectionBorrow :
    projectSample defaultParams resetRaceRecord
      { time := 8050000, s := 100, lap := 5, d := 30, v := 4000, w := -500, a := -200, offTrack := false, spun := false }
      8000000 = { s := 399968, lap := 4, d := 47, v := 4007, held := false, stopped := false } := by decide

/-- Worked case: held and stopped together. -/
theorem test_projectionHeldStopped :
    projectSample defaultParams resetRaceRecord
      { time := 15000000, s := 60000, lap := 4, d := 0, v := 500, w := 0, a := -8000, offTrack := false, spun := false }
      15400000 = { s := 60016, lap := 4, d := 0, v := 0, held := true, stopped := true } := by decide

/-- Worked case: across the wrap of the race clock. -/
theorem test_projectionWrap : timeDiff 20000 4294900000 = 87296 := by decide

/-! ### Encodings -/

/-- The kind codes of R191 and a HOLD_CALL's header and payload as R191 and R195 lay them out. -/
theorem test_holdCallBytes :
    ({ portByte := 3, director := false, body := .holdCall 0x1234 } : HubFrame).headerAndPayload
      = [0x86, 0x02, 0x03, 0x00, 0x12, 0x34] := by decide

/-- One bit of a frame changed is a CRC error; a frame cut short is a framing error (R151). -/
theorem test_judge :
    judgeRun (([0x04, 0x02, 0x00, 0x00, 0x12, 0x34] ++ crcBytes [0x04, 0x02, 0x00, 0x00, 0x12, 0x35]).map .byte) = .crcError
      ∧ judgeRun (([0x04, 0x02, 0x00, 0x00, 0x12, 0x34] ++ crcBytes [0x04, 0x02, 0x00, 0x00, 0x12, 0x34]).map .byte)
          = .valid 0x04 0x00 0x00 [0x12, 0x34]
      ∧ judgeRun ([0x04, 0x02, 0x00].map .byte) = .framing := by decide +kernel

/-- The entry sizes of R198 and the record sizes of R196. -/
theorem test_sizes :
    (carBytes (resetCar 0)).length = 44 ∧ (portEntryBytes defaultEntry).length = 25 ∧ (routeBytes emptyRoute).length = 11
      ∧ (statusRecord State.reset).length = 39 ∧ (portRecord 0 State.reset).length = 59 := by decide +kernel

/-! ### One step of a command -/

/-- R114, "Worked case: a countdown": T_green lies (light_count + 1) × light_step after START. -/
theorem test_start :
    (after .start (asking [0x31] (racingIn .grid { hub with clock := 4000000 }))).race.tGreen = some 10000000 := by
  decide +kernel

/-- R113: OPEN_GRID in IDLE at the defaults. -/
theorem test_openGrid : (after .openGrid (asking [0x30] hub)).race.state = .grid := by decide +kernel

/-- R118: HOLD in RUNNING calls the port of a LIVE car and awaits it. -/
theorem test_hold :
    let t := after .hold (asking [0x33] (racingIn .running (withCar .live hub)))
    (t.race.state, t.race.tH, t.race.acks.length, (t.port 0).calls.length) = (.holdPending, some 1150000, 1, 1) := by
  decide +kernel

/-- R32: a LIVE car silent for more than coast_after is COASTING. -/
theorem test_coast :
    let s := (withCar .live { hub with clock := 1100001 }).modCar 2 fun c => { c with coastTimer := some 1100000 }
    ((after (.coastTimerExpiry 2) s).car 2).state = .coasting := by decide +kernel

/-- R156, R157: the first echo taken in DOWN begins training with a pause of 5,000 µs. -/
theorem test_wake :
    let t := after (.trainEcho 0 20000 (List.replicate 19 0)) { State.reset with clock := 20030 }
    ((t.port 0).phase, (t.port 0).training) = (.train, .pause 25030) := by decide +kernel

/-- R175: the fifth command meets BUSY. -/
theorem test_busy :
    let s := { hub with mgmt := { hub.mgmt with queue := List.replicate 4 (sent [0x01]) } }
    (after (.mgmt 0 0 7 [0x30]) s).mgmt.cmdBusy = 1 ∧ (after (.mgmt 0 0 7 [0x30]) s).mgmt.queue.length = 4 := by
  decide +kernel

/-- R29: slot 3 may not take a seat that slot 2 has. -/
theorem test_seatTaken :
    let s := asking [0x11, 0, 3, 1, 1, 0, 0, 7, 0, 0, 0] (withCar .assigned hub)
    ((after .writeCarAssignment s).car 3).enabled = false := by decide +kernel

/-- R91: a car that covers the line halfway between two samples crosses halfway between their times. -/
theorem test_crossing :
    (crossingAt 2 400000 none sampleAt { sampleAt with time := 1020000, s := 1000, lap := 1 } 1 1).time = 1010000 := by
  decide

/-- R168: a waiting call goes before a waiting reply. -/
theorem test_arbiter :
    let f (b : FrameBody) : HubFrame := { portByte := 0, director := true, body := b }
    let s := with0 (fun q => { q with calls := [f (.holdCall 9)], outbox := [f (.reply 1 .ok [])] }) hub
    ((after (.transmitEnd 0) s).port 0).wire.map (fun w => w.frame.body) = some (.holdCall 9) := by decide +kernel

/-- R183: a scan of 12 cars for an enabled one ends at the table's end. -/
theorem test_scan :
    scanFrom 0 1 false 32 (State.reset.tableFields .carTable) 0 20
      = { index := 12, remaining := 8, matched := false, reason := 3 } := by decide +kernel

/-! ### Witnesses: states and operands that meet the hypotheses of each statement -/

theorem witness_RoundingAndComparison : (0 : Nat) < 2 ∧ (-1 : Int) ≤ 1 ∧ roundDiv (-5) 2 = -3 ∧ gap 0 200000 400000 = 200000 := by
  decide

/-- Reset held; nothing due; and a row due. -/
theorem witness_StepIdles :
    State.reset.pending = [] ∧ State.reset.resetLow = false ∧ dueRows State.reset = []
      ∧ ({ State.reset with resetLow := true } : State).pending = []
      ∧ dueRows { State.reset with clock := 10000 } ≠ [] := by decide +kernel

/-- The premise of the invariant holds after reset. -/
theorem witness_StepKeepsSound_step : ∃ t, step State.reset = .next t := ⟨_, rfl⟩

/-- A command that is no reset and completes. -/
theorem witness_ClockAndTablesHaveOneWriter : ∃ t, exec (.transmitEnd 0) State.reset = .next t := ⟨_, rfl⟩

theorem witness_HubResetClearsAll :
    ({ hub with resetLow := true } : State).resetLow = true ∧ hub.resetLow = false
      ∧ (asking [0x42] hub).asks (sent [0x42]) [0x42] ∧ hub.mgmt.resetPending = none
      ∧ (let s := { hub with mgmt := { hub.mgmt with resetPending := some 1050000 } }
         atOrAfter s.clock 1050000 = true ∧ s.resetReplyWaits = false)
      ∧ (let s := with0 (fun q => { q with outbox := [hub.mkFrame 0 (.reply 0x42 .ok [])] }) hub
         atOrAfter s.clock 1050001 = false ∧ s.resetReplyWaits = true) := by decide +kernel

theorem witness_HubFramesReadBack :
    (FrameBody.reply 0x10 .ok (List.replicate 122 0)).payload.length = 124 := by decide +kernel

/-- An entry at the lower end of its ranges; a route at the upper end; a full View Order List. -/
theorem witness_EntriesReadBack :
    (let e := { defaultEntry with linkTimeout := 10000, pNom := 1280000, tolPpm := 20000, winFrames := 128, slewMax := 2000,
                                  phaseTol := 100, pacePeriod := 5000, leadFrames := 8 }
     10000 ≤ e.linkTimeout ∧ e.linkTimeout ≤ 1000000 ∧ 1280000 ≤ e.pNom ∧ e.pNom ≤ 10240000 ∧ e.tolPpm ≤ 20000
       ∧ e.winFrames = 128 ∧ e.slewMax ≤ 2000 ∧ 100 ≤ e.phaseTol ∧ e.phaseTol ≤ 10000 ∧ 5000 ≤ e.pacePeriod
       ∧ e.pacePeriod ≤ 100000 ∧ e.leadFrames ≤ 8)
    ∧ (let r := { emptyRoute with code := 0xFD, lead := 1000000 }
       r.code.toNat ≤ 253 ∧ r.lead ≤ 1000000)
    ∧ allSlots.Nodup ∧ 1 ≤ (resetCar 0).number ∧ (resetCar 11).number ≤ 99 ∧ 4294967295 < 2 ^ 32 := by decide

/-- A run too short, a run of spoiled symbols alone, a run with a wrong CRC, and a valid one. -/
theorem witness_DamagedFrames :
    judgeRun [.byte 1] = .framing ∧ judgeRun [.spoiled] = .framing
      ∧ judgeRun ([0x04, 0x00, 0x00, 0x00, 0x12, 0x34].map LineSymbol.byte) = .crcError
      ∧ judgeRun (([0x07, 0x00, 0x00, 0x00] ++ crcBytes [0x07, 0x00, 0x00, 0x00]).map LineSymbol.byte)
          = .valid 0x07 0x00 0x00 [] := by decide +kernel

/-- A kind that no cabinet sends; a CAR frame with the wrong count byte; QUIET; and a PROBE_REPLY in RATE. -/
theorem witness_FramesNotTaken :
    takesFrame 0x81 0 [] .active = false ∧ takesFrame 0x03 2 (List.replicate 16 0) .active = false
      ∧ takesFrame 0x04 0 [0, 0] .quiet = false ∧ ((phase0 .quiet hub).port 0).phase = .quiet
      ∧ ((phase0 .rate hub).port 0).phase = .rate ∧ ([0, 0, 0] : List Byte).length = 3 := by decide +kernel

theorem witness_PortsWake :
    (State.reset.port 0).phase = .down ∧ ((phase0 .quiet hub).port 0).phase = .quiet
      ∧ (List.replicate 19 (0 : Byte)).length = 19
      ∧ (asking [0x22, 1] (hub.modPort 1 fun q => { q with phase := .quiet })).asks (sent [0x22, 1]) [0x22, portByte 1]
      ∧ ((hub.modPort 1 fun q => { q with phase := .quiet }).port 1).phase = .quiet
      ∧ (asking [0x22, 0] hub).asks (sent [0x22, 0]) [0x22, portByte 0] ∧ (hub.port 0).phase ≠ .quiet := by decide +kernel

/-- Port 0 in TRAIN, the frames `todo` of its round left, the first of them sent at 1,040,000. -/
def inRound (todo : List TrainFrame) : State :=
  with0 (fun q => { q with phase := .train, training := .round todo (some 1040000), failedRounds := 7 }) hub

/-- A good echo of the first frame, for a round with more frames and for its last. -/
theorem witness_GoodEchoAdvancesRound :
    let f : TrainFrame := ⟨1, List.replicate 16 0xA5⟩
    let payload : List Byte := 1 :: List.replicate 16 0xA5 ++ [0, 100]
    (∀ rest ∈ [[], [f]], ((inRound (f :: rest)).port 0).phase = .train
        ∧ ((inRound (f :: rest)).port 0).training = .round (f :: rest) (some 1040000))
      ∧ payload.length = 19 ∧ beNat (field payload 0 1) = f.index.val ∧ field payload 1 16 = f.bytes
      ∧ ((inRound [f]).port 0).class1 = [] := by decide +kernel

/-- A wrong echo and a passed wait, at the eighth failure and before it. -/
theorem witness_RoundFails :
    let f : TrainFrame := ⟨1, List.replicate 16 0xA5⟩
    let payload : List Byte := List.replicate 19 0
    ((inRound [f]).port 0).phase = .train ∧ ((inRound [f]).port 0).training = .round [f] (some 1040000)
      ∧ payload.length = 19 ∧ ¬(beNat (field payload 0 1) = f.index.val ∧ field payload 1 16 = f.bytes)
      ∧ atOrAfter (inRound [f]).clock (addTime 1040000 5000) = true ∧ 8 ≤ ((inRound [f]).port 0).failedRounds + 1
      ∧ atOrAfter ({ inRound [f] with clock := 1044999 } : State).clock (addTime 1040000 5000) = false
      ∧ ((with0 (fun q => { q with failedRounds := 6 }) (inRound [f])).port 0).failedRounds + 1 < 8 := by decide +kernel

/-- An echo in the pause, and before the first frame of a round has been sent. -/
theorem witness_RoundFails_noFrame :
    let s (tr : Training) := with0 (fun q => { q with phase := .train, training := tr }) hub
    (∀ tr ∈ [Training.pause 1060000, .round [⟨1, []⟩] none],
      ((s tr).port 0).phase = .train ∧ ((s tr).port 0).training = tr ∧ (List.replicate 19 (0 : Byte)).length = 19)
    ∧ ∀ f rest sent, Training.pause 1060000 ≠ .round (f :: rest) (some sent)
      ∧ Training.round [⟨1, []⟩] none ≠ .round (f :: rest) (some sent) :=
  ⟨by decide +kernel, fun _ _ _ => ⟨nofun, nofun⟩⟩

/-- A director on port 1 with a busy line, who is told last of a fault of port 0. -/
theorem witness_Faulted :
    let f : TrainFrame := ⟨1, List.replicate 16 0xA5⟩
    let s : State := { (inRound [f]).modPort 1 fun q => { q with phase := .active } with
      mgmt := { resetMgmt with director := some 1 } }
    let fault : Event := { kind := .portFault, time := 1050000, slots := [], fault := some (0, .train) }
    let t := after (.echoWaitExpiry 0) s
    s.noticesFor [fault] = [.notice (.event fault)] ∧ t.roleHolder = some 1 ∧ (s.port 1).wire.isSome = true
      ∧ (t.port 1).notices.length < 16 ∧ (t.port 0).phase = .fault
      ∧ (t.port 1).outbox = [t.mkFrame 1 (.notice (.event fault))] := by decide +kernel

/-- The lines a first PROBE meets: a busy one with room in class 1, and an idle one with nothing there. -/
theorem witness_FirstProbeQueued :
    (hub.port 0).wire.isSome = true ∧ (hub.port 0).class1.length < 64
      ∧ (let q := (with0 (fun q => { q with wire := none }) hub).port 0
         q.wire = none ∧ q.class1 = []) := by decide +kernel

/-- A sweep with all probes sent and the given answers. -/
def sweepOf (n : Nat) (answers : Vector (Option FrameNum) 64) : Sweep :=
  { number := n, queued := 64, sent := List.replicate 64 1020000, answers := answers }

/-- Answers that change at index 34, and answers that never do. -/
def changing : Vector (Option FrameNum) 64 :=
  ⟨⟨List.replicate 34 (some 1200) ++ List.replicate 30 (some 1201)⟩, by decide⟩

/-- Port 0 in PHASE with a sweep. -/
def sweeping (w : Sweep) : State :=
  with0 (fun q => { q with phase := .phase, timing := { q.timing with sweep := some w } }) hub

/-- A reply to probe 0 with others missing, the last reply of a sweep, a reply of another sweep, and no sweep. -/
theorem witness_ProbeReplies :
    let payload : List Byte := [0, 0x04, 0xB0]
    let empty := sweepOf 1 (Vector.replicate 64 none)
    let full := sweepOf 1 (changing.set 0 none)
    ((sweeping empty).port 0).phase = .phase ∧ payload.length = 3 ∧ ((sweeping empty).timing 0).sweep = some empty
      ∧ 1 ≤ empty.number ∧ beNat (field payload 0 1) = 0 ∧ 0 < empty.sent.length ∧ empty.answers.toList[0]? = some none
      ∧ empty.answers.toList[63]? = some none
      ∧ full.answers.toList[0]? = some none ∧ (∀ j < 64, j ≠ 0 → full.answers.toList[j]? ≠ some none)
      ∧ sweepChange { full with answers := full.answers.setIfInBounds 0 (some (BitVec.ofNat 16 (beNat (field payload 1 2)))) }
          ≠ none
      ∧ ¬(64 * ((sweepOf 2 changing).number - 1) ≤ beNat (field payload 0 1))
      ∧ ((phase0 .phase hub).timing 0).sweep = none := by decide +kernel

/-- A last reply that makes its sweep succeed with a probe before the change, and last replies of sweeps 1 and 3 that fail. -/
theorem witness_ProbeReplies_last :
    let filed := sweepOf 1 ((changing.set 0 none).setIfInBounds 0 (some 1200))
    let still (n : Nat) := sweepOf n ((Vector.replicate 64 (some (1200 : FrameNum))).set 0 none)
    let all (n : Nat) := sweepOf n ((still n).answers.setIfInBounds 0 (some 1200))
    sweepChange filed = some 34 ∧ filed.answers.toList[34]? = some (some 1201) ∧ filed.sent[33]? = some 1020000
      ∧ (∀ n ∈ [1, 2, 3], beNat (field [BitVec.ofNat 8 (64 * (n - 1)), 0x04, 0xB0] 0 1) - 64 * (n - 1) = 0
        ∧ (still n).answers.toList[0]? = some none ∧ (∀ j < 64, j ≠ 0 → (still n).answers.toList[j]? ≠ some none)
        ∧ sweepChange (all n) = none) := by decide +kernel

/-- The reply wait before and at its end; a sweep that succeeds, one that fails before sweep 3, and sweep 3 failing. -/
theorem witness_SweepDecided :
    let w := sweepOf 1 changing
    let failed (n : Nat) := sweepOf n (Vector.replicate 64 none)
    ((sweeping w).port 0).phase = .phase ∧ ((sweeping w).timing 0).sweep = some w ∧ w.sent[63]? = some 1020000
      ∧ atOrAfter (sweeping w).clock (addTime 1020000 20000) = true
      ∧ atOrAfter ({ sweeping w with clock := 1039999 } : State).clock (addTime 1020000 20000) = false
      ∧ sweepChange w = some 34 ∧ w.answers.toList[34]? = some (some 1201) ∧ w.sent[33]? = some 1020000
      ∧ sweepChange (failed 2) = none ∧ (failed 2).number < 3 ∧ sweepChange (failed 3) = none ∧ 3 ≤ (failed 3).number := by
  decide +kernel

/-- An invitation due on a busy and on an idle line, a pause that ends, and a probe due. -/
theorem witness_TrainingTimers :
    (let s := { State.reset with clock := 10000 }
     (s.port 0).phase = .down ∧ (s.port 0).nextInvite = some 10000 ∧ atOrAfter s.clock 10000 = true
       ∧ (s.port 0).wire.isSome = true ∧ (s.port 0).class1.length < 64)
    ∧ (let s := with0 (fun q => { q with wire := none }) { State.reset with clock := 10000 }
       (s.port 0).wire = none ∧ (s.port 0).class1 = [] ∧ (s.port 0).nextInvite = some 10000)
    ∧ (let s := with0 (fun q => { q with phase := .train, training := .pause 1050000 }) hub
       (s.port 0).phase = .train ∧ (s.port 0).training = .pause 1050000 ∧ atOrAfter s.clock 1050000 = true
         ∧ (s.port 0).class1 = [])
    ∧ (let w : Sweep := { sweepOf 1 (Vector.replicate 64 none) with queued := 63, sent := [1020000] }
       ((sweeping w).port 0).phase = .phase ∧ ((sweeping w).timing 0).sweep = some w ∧ w.sent.head? = some 1020000
         ∧ w.queued < 64 ∧ ((sweeping w).port 0).wire.isSome = true ∧ ((sweeping w).port 0).class1.length < 64
         ∧ atOrAfter (sweeping w).clock
             (addTime 1020000 (w.queued * (roundDiv ((sweeping w).timing 0).pNom 16384).toNat : Nat)) = true) := by
  decide +kernel

/-- A probe due on an idle line, and pattern stores whose lowest enabled pattern is not 0 and with none enabled. -/
theorem witness_TrainingTimers_idle :
    (let w : Sweep := { sweepOf 1 (Vector.replicate 64 none) with queued := 63, sent := [1020000] }
     let s := with0 (fun q => { q with wire := none }) (sweeping w)
     (s.port 0).phase = .phase ∧ (s.timing 0).sweep = some w ∧ (s.port 0).wire = none ∧ (s.port 0).class1 = []
       ∧ atOrAfter s.clock (addTime 1020000 (w.queued * (roundDiv (s.timing 0).pNom 16384).toNat : Nat)) = true)
    ∧ (let off (n : Fin 4) : Pattern := { defaultPatterns[n] with enabled := false }
       let ps : Vector Pattern 4 := #v[off 0, defaultPatterns[1], off 2, off 3]
       let none : Vector Pattern 4 := #v[off 0, off 1, off 2, off 3]
       ps[(1 : Fin 4)].enabled = true ∧ (∀ m < (1 : Fin 4), ps[m].enabled = false)
         ∧ (∀ n : Fin 4, none[n].enabled = false)
         ∧ (roundFrames ps).head? = some ⟨1, defaultPatterns[1].bytes⟩) := by decide +kernel

/-- A CAR frame payload: frame 502, seat 0, s 399,900, lap 0. -/
def carPayload : List Byte := [0x01, 0xF6, 0, 0x06, 0x1A, 0x1C, 0, 0, 0, 0, 100, 0, 0, 0, 0, 0]

theorem witness_SampleAccepted :
    let s := racingIn .countdown (withCar .live hub)
    (s.port 0).phase = .active ∧ carPayload.length = 16
      ∧ s.checkSample 0 (forward (s.timing 0) (BitVec.ofNat 16 (beNat (field carPayload 0 2))))
          (rawSample (field carPayload 2 14)) = .ok (2, 1033333) := by decide +kernel

/-- A sample of slot 2 at 1,033,333 and the first values that each check refuses; the last values they let pass. -/
theorem witness_SampleChecks :
    let raw (s lap : Nat) : RawSample := { rawSample (field carPayload 2 14) with s := s, lap := lap }
    let ran := racingIn .running ((withCar .live hub).modCar 2 fun c => { c with last := some { sampleAt with lap := 5 } })
    (withCar .live hub).seatSlot 0 0 = some 2 ∧ (∀ i, hub.owns 0 i = true → (hub.car i).seat.val ≠ 0)
      ∧ ((withCar .retired hub).car 2).state = .retired ∧ (racingIn .hold (withCar .live hub)).race.state = .hold
      ∧ later 1000001 1000000 = true ∧ later 1000000 sampleAt.time = false ∧ (raw 399999 0).s < hub.params.lapLength
      ∧ hub.params.lapLength ≤ (raw 400000 0).s ∧ hub.race.state = .idle ∧ (raw 0 1).lap ≠ 0
      ∧ (ran.car 2).lap = 5 ∧ (raw 0 4).lap < (ran.car 2).lap ∧ (ran.car 2).lap + 3 < (raw 0 9).lap
      ∧ ran.checkSample 0 (some 1033333) (raw 399999 8) = .ok (2, 1033333) := by decide +kernel

/-- The state of the timing in every seat's sample, a LOST car, and a FINISHED one. -/
theorem witness_SampleAccepted_states :
    let o := timeFrame true (hub.port 0).entry (hub.timing 0) 502 1033733
    o.request = .none ∧ o.missed = false
      ∧ (∀ st ∈ [CarState.assigned, .live, .coasting, .parked, .lost, .finished],
        (withCar st hub).checkSample 0 (some 1033333) (rawSample (field carPayload 2 14)) = .ok (2, 1033333)) := by
  decide +kernel

/-- A CAR frame payload of two seats, the higher first: frame 502, seat 1 at s 500, seat 0 at s 399,900. -/
def carPayload2 : List Byte :=
  [0x01, 0xF6, 1, 0x00, 0x01, 0xF4, 0, 0, 0, 0, 100, 0, 0, 0, 0, 0, 0, 0x06, 0x1A, 0x1C, 0, 0, 0, 0, 100, 0, 0, 0, 0, 0]

/-- Two seats of which both samples, the second alone, or none pass. -/
theorem witness_SampleAccepted_twoSeats :
    let low := rawSample (field carPayload2 16 14)
    let high := rawSample (field carPayload2 2 14)
    let both := (withCar .live hub).setCar 4 { resetCar 4 with enabled := true, seat := 1, state := .assigned }
    carPayload2.length = 30 ∧ low.seat < high.seat
      ∧ (timeFrame true (hub.port 0).entry (hub.timing 0) 502 1033733).missed = false
      ∧ both.checkSample 0 (some 1033333) low = .ok (2, 1033333)
      ∧ (acceptSample 0 2 1033333 low both).checkSample 0 (some 1033333) high = .ok (4, 1033333)
      ∧ (withCar .live hub).checkSample 0 (some 1033333) high = .error .noSlot
      ∧ (hub.checkSample 0 (some 1033333) low = .error .noSlot ∧ hub.checkSample 0 (some 1033333) high = .error .noSlot) := by
  decide +kernel

/-- A jump by the speed test at its first speed, one by the creep test at its first distance, and neither. -/
theorem witness_SampleAccepted_jump :
    let green : State := { withCar .live hub with race := { resetRaceRecord with state := .countdown, tGreen := some 2000000 } }
    let s := green.modCar 2 fun c => { c with gridS := some 399000 }
    s.race.tGreen = some 2000000 ∧ earlier sampleAt.time 2000000 = true ∧ (s.car 2).jump = false
      ∧ s.params.jumpSpeed < 101 ∧ ¬(s.params.jumpSpeed < 100)
      ∧ s.params.jumpDist < (gap 399201 399000 s.params.lapLength).natAbs
      ∧ ¬(s.params.jumpDist < (gap 399200 399000 s.params.lapLength).natAbs) := by decide +kernel

/-- A sample that enters its crossing and waits, one whose late finish crossing finishes its car, and a race state whose samples
the Line Unit is not handed. -/
theorem witness_SampleAccepted_handOn :
    let s := racingIn .running (withCar .live hub)
    let last : Sample := { sampleAt with lap := 3 }
    let next : Sample := { last with time := 1020000, s := 1000, lap := 4 }
    let finished (u : State) := (s.lap 4).count ≠ ((enterCrossings 2 (some last) next u).lap 4).count
    s.race.state = .running ∧ s.params.laps + 1 = 4 ∧ ((enterCrossings 2 (some last) next s).lap 4).count = (s.lap 4).count
      ∧ finished (s.setLap 4 { emptyLap with time := some 2000000 }) ∧ (racingIn .hold s).race.state = .hold
      ∧ (s.car 2).state = .live := by decide +kernel

theorem witness_SampleRefused :
    (hub.port 0).phase = .active
      ∧ hub.checkSample 0 (forward (hub.timing 0) 502) (rawSample (field carPayload 2 14)) = .error .noSlot
      ∧ (timeFrame true (hub.port 0).entry (hub.timing 0) 502 1033733).request = .none
      ∧ (timeFrame true (hub.port 0).entry (hub.timing 0) 502 1033733).missed = false := by decide +kernel

/-- Two refused samples of one frame. -/
theorem witness_SampleRefused_twoSeats :
    carPayload2.length = 30
      ∧ (withCar .retired hub).checkSample 0 (forward (hub.timing 0) 502) (rawSample (field carPayload2 2 14)) = .error .noSlot
      ∧ (withCar .retired hub).checkSample 0 (forward (hub.timing 0) 502) (rawSample (field carPayload2 16 14))
          = .error .retired := by decide +kernel

/-- Port 0 in RATE with a lag and a window, or neither. -/
def rating (lag : Option Int) (w : Option RateWindow) (fa : FrameNum) : State :=
  with0 (fun q => { q with phase := .rate, timing := { q.timing with lag := lag, window := w, anchorFrame := fa } }) hub

/-- The first frame, one that does not translate, and the ends of a window in and out of band. -/
theorem witness_CarFramesInRate :
    ((rating none none 500).port 0).phase = .rate ∧ ((rating none none 500).timing 0).lag = none
      ∧ ((rating none none 500).timing 0).window = none
      ∧ forward ((rating none none 500).timing 0) 502 = some 1033333
      ∧ forward ((rating none none 1527).timing 0) 502 = none
      ∧ (List.replicate 16 (0 : Byte)).length = 16 ∧ (List.replicate 30 (0 : Byte)).length = 30
      ∧ (let w : RateWindow := { startFrame := 438, startArrival := 1000410, lastCounted := 501 }
         let r := (rating (some 400) (some w) 500).timing 0
         let m (stamp : RaceTime) := roundDiv (timeDiff stamp w.startArrival * 256) (frameDiff w.startFrame 502).toNat
         0 < frameDiff w.lastCounted 502 ∧ (r.winFrames : Int) ≤ frameDiff w.startFrame 502
           ∧ (m 2066810 - r.pNom).natAbs ≤ r.pNom * r.tolPpm / 1000000
           ∧ r.pNom * r.tolPpm / 1000000 < (m 2069410 - r.pNom).natAbs) := by decide +kernel

/-- An open window that a frame breaks, repeats, lags by W, and feeds without ending it; the role vacant and held. -/
theorem witness_CarFramesInRate_window :
    let s (first last : FrameNum) := rating (some 400)
      (some { startFrame := first, startArrival := 1000410, lastCounted := last }) 500
    (frameDiff 567 502 < -(((s 500 567).timing 0).winFrames : Int))
      ∧ (-(((s 500 566).timing 0).winFrames : Int) ≤ frameDiff 566 502 ∧ frameDiff 566 502 ≤ 0 ∧ frameDiff 502 502 ≤ 0)
      ∧ (0 < frameDiff 501 502 ∧ frameDiff 439 502 < ((s 439 501).timing 0).winFrames)
      ∧ (s 438 501).roleHolder = none ∧ ((s 438 501).port 0).wire.isSome = true ∧ ((s 438 501).port 0).notices.length < 16
      ∧ ((rating (some 400) none 500).timing 0).window = none
      ∧ ({ (s 438 501).modPort 1 fun q => { q with phase := .active } with
          mgmt := { resetMgmt with director := some 1 } } : State).roleHolder = some 1 := by decide +kernel

/-- PARKED cars of port 0 within and beyond lose_after, and in a hold. -/
theorem witness_ParkedReturned :
    let s (now : RaceTime) : State := { withCar .parked hub with clock := now }
    (s 1050000).params.holdLead ≤ 1000000 ∧ (s 1050000).owns 0 2 = true ∧ ((s 1050000).car 2).state = .parked
      ∧ (s 1050000).suspended = false ∧ ((s 1050000).car 2).last = some sampleAt
      ∧ timeDiff (s 3000000).clock sampleAt.time ≤ (s 3000000).params.loseAfter
      ∧ ((s 3000001).params.loseAfter : Int) < timeDiff (s 3000001).clock sampleAt.time
      ∧ (racingIn .hold (s 3000001)).suspended = true := by decide +kernel

/-- A window of an ACTIVE port that ends in band with a small and with a large residual, and out of band. -/
theorem witness_TrackingWindow :
    let w : RateWindow := { startFrame := 438, startArrival := 1000410, lastCounted := 501 }
    let s (l : Int) := with0 (fun q => { q with timing := { q.timing with lag := some l, window := some w } }) hub
    let r := (s 0).timing 0
    let m (stamp : RaceTime) := roundDiv (timeDiff stamp w.startArrival * 256) (frameDiff w.startFrame 502).toNat
    let res (l : Int) := timeDiff 2066810 (frameMark r 502) - l
    (∀ l ∈ [0, 1033400], ((s l).port 0).phase = .active ∧ ((s l).timing 0).window = some w ∧ ((s l).timing 0).lag = some l)
      ∧ 0 < frameDiff w.lastCounted 502 ∧ (r.winFrames : Int) ≤ frameDiff w.startFrame 502
      ∧ (m 2066810 - r.pNom).natAbs ≤ r.pNom * r.tolPpm / 1000000
      ∧ (res 1033400).natAbs ≤ ((s 0).port 0).entry.phaseTol ∧ ((s 0).port 0).entry.phaseTol < (res 0).natAbs
      ∧ r.pNom * r.tolPpm / 1000000 < (m 2069410 - r.pNom).natAbs := by decide +kernel

/-- A frame of two seats that restarts the count of an ACTIVE port whose LIVE car it then leaves, its director told. -/
theorem witness_TrackingWindow_twoSeats :
    let w : RateWindow := { startFrame := 500, startArrival := 1000410, lastCounted := 567 }
    let s := with0 (fun q => { q with timing := { q.timing with window := some w } }) (withCar .live hub)
    let t := after (.car 0 1033733 2 carPayload2) s
    carPayload2.length = 30 ∧ (s.port 0).phase = .active ∧ (s.timing 0).lag = some 400 ∧ (s.timing 0).window = some w
      ∧ frameDiff w.lastCounted (BitVec.ofNat 16 (beNat (field carPayload2 0 2))) < -((s.timing 0).winFrames : Int)
      ∧ s.owns 0 2 = true ∧ (s.car 2).state = .live ∧ (t.port 0).phase = .phase ∧ (t.car 2).state = .coasting := by
  decide +kernel

/-- No window, and a window that a frame breaks, repeats, lags by W, and feeds without ending it. -/
theorem witness_TrackingWindow_open :
    let s (w : Option RateWindow) := with0 (fun q => { q with timing := { q.timing with window := w } }) hub
    let w (first last : FrameNum) : RateWindow := { startFrame := first, startArrival := 1000410, lastCounted := last }
    ((s none).port 0).phase = .active ∧ ((s none).timing 0).lag = some 400 ∧ ((s none).timing 0).window = none
      ∧ ((s (some (w 500 567))).timing 0).window = some (w 500 567)
      ∧ (frameDiff (w 500 567).lastCounted 502 < -((hub.timing 0).winFrames : Int))
      ∧ (-((hub.timing 0).winFrames : Int) ≤ frameDiff (w 500 566).lastCounted 502 ∧ frameDiff (w 500 566).lastCounted 502 ≤ 0)
      ∧ (0 < frameDiff (w 439 501).lastCounted 502 ∧ frameDiff (w 439 501).startFrame 502 < (hub.timing 0).winFrames) := by
  decide +kernel

/-- The ends of the translation window and the first frame beyond them; a time just before a frame's mark and one before the
anchor. -/
theorem witness_TrackingWindow_translation :
    trained.valid = true ∧ 0 < trained.period ∧ trained.period < 2 ^ 32 ∧ (frameDiff 500 1524).natAbs ≤ 1024
      ∧ (frameDiff 500 65012).natAbs ≤ 1024 ∧ forward trained 1524 ≠ none ∧ forward trained 1525 = none
      ∧ (let k : Int := 3
         (k - 1) * trained.period < timeDiff 1050000 1000000 * 256 ∧ timeDiff 1050000 1000000 * 256 ≤ k * trained.period)
      ∧ (let k : Int := -2
         (k - 1) * trained.period < timeDiff 960000 1000000 * 256 ∧ timeDiff 960000 1000000 * 256 ≤ k * trained.period)
      ∧ inverse trained 1050000 = 503 ∧ inverse trained 960000 = 498 := by decide +kernel

/-- A coast timer and a lose timer that have passed, with ages at the edges of each clause. -/
theorem witness_TimersAgeCars :
    let s (st : CarState) (now : RaceTime) := ({ withCar st hub with clock := now } : State).modCar 2 fun c =>
      { c with coastTimer := some 1000000, loseTimer := some 1000000 }
    (∀ st ∈ [CarState.live, .coasting], ((s st 1100000).car 2).last = some sampleAt ∧ (s st 1100000).coastDue 2 = true
        ∧ (s st 1100000).loseDue 2 = true ∧ ((s st 1100000).car 2).state = st)
      ∧ timeDiff (s .live 1100000).clock sampleAt.time ≤ (s .live 1100000).params.coastAfter
      ∧ ((s .live 1100001).params.coastAfter : Int) < timeDiff (s .live 1100001).clock sampleAt.time
      ∧ timeDiff (s .live 3000000).clock sampleAt.time ≤ (s .live 1100001).params.loseAfter
      ∧ ((s .live 3000001).params.loseAfter : Int) < timeDiff (s .live 3000001).clock sampleAt.time
      ∧ hub.coastDue 2 = false ∧ hub.loseDue 2 = false := by decide +kernel

/-- A director who hears the notice of the default route for CAR_LOST, none for CAR_COASTING, and HOLD_INCOMPLETE. -/
theorem witness_Hears :
    let e (k : EventKind) : Event := { kind := k, time := 1050000, slots := [2], fault := none }
    hub.roleHolder = some 0 ∧ (hub.port 0).wire.isSome = true ∧ hub.noticesFor [e .carLost] = [.notice (.event (e .carLost))]
      ∧ hub.noticesFor [e .carCoasting] = [] ∧ (hub.port 0).notices.length + 1 ≤ 16
      ∧ State.reset.roleHolder = none ∧ (State.reset.port 0).wire.isSome = true := by decide +kernel

theorem witness_RetireCarTaken :
    (asking [0x40, 2] (withCar .lost hub)).asks (sent [0x40, 2]) [0x40, slotByte 2]
      ∧ ((withCar .lost hub).car 2).state = .lost ∧ (asking [0x40, 2] hub).asks (sent [0x40, 2]) [0x40, slotByte 2]
      ∧ (hub.car 2).state = .free := by decide +kernel

/-- A braking car at the exact stop, and an interval of 0. -/
theorem witness_Projection :
    (let x : Sample := { sampleAt with v := 480, a := -6000 }
     x.a < 0 ∧ 0 < effectiveInterval defaultParams 80000
       ∧ (x.v : Int) * 1000000 + x.a * effectiveInterval defaultParams 80000 = 0)
    ∧ 0 < defaultParams.lapLength ∧ sampleAt.s < defaultParams.lapLength ∧ sampleAt.v ≤ 20000 ∧ sampleAt.lap ≤ 255
    ∧ stoppedInterval sampleAt.v sampleAt.a
        (effectiveInterval defaultParams (timeDiff (holdTarget resetRaceRecord 1000000) sampleAt.time)) = 0
    ∧ (projectSample defaultParams resetRaceRecord { sampleAt with v := 479, a := -8000 } 1080000).stopped = true := by
  decide

/-- A target beyond T_h in a hold, one at it, and a race state that reads no T_h; positions that carry and that borrow. -/
theorem witness_Projection_wrap :
    let r : RaceRecord := { resetRaceRecord with state := .hold, tH := some 1000000 }
    r.tH = some 1000000 ∧ later 1000001 1000000 = true ∧ later 1000000 1000000 = false ∧ resetRaceRecord.state = .idle
      ∧ wrapPosition 100000 0 350000 = (50000, 3) ∧ wrapPosition 100000 254 350000 = (50000, 255)
      ∧ (((1 : Int) - 1) * 100000 < -(-100000) ∧ -(-100000 : Int) ≤ 1 * 100000)
      ∧ wrapPosition 100000 1 (-100000) = (0, 0) ∧ wrapPosition 100000 5 (-1) = (99999, 4) ∧ wrapPosition 100000 0 (-1) = (0, 0) := by
  decide

/-- HOLD_PENDING with port 0 awaited for frame 0x1234, T_h reached or not. -/
def pendingHold (tH : RaceTime) (more : List AckEntry) : State :=
  { hub with race := { resetRaceRecord with
      state := .holdPending, remembered := some .running, tH := some tH, acks := ⟨0, 0x1234, false⟩ :: more } }

theorem witness_HoldAckMarksEntry :
    ((pendingHold 1050000 []).port 0).phase = .active ∧ ([0x12, 0x34] : List Byte).length = 2
      ∧ (∃ a ∈ (pendingHold 1050000 []).race.acks, a.port = 0 ∧ a.frame = BitVec.ofNat 16 (beNat [0x12, 0x34])
          ∧ a.acked = false)
      ∧ ¬(∃ a ∈ (pendingHold 1050000 []).race.acks, a.port = 0 ∧ a.frame = BitVec.ofNat 16 (beNat [0x12, 0x35])
          ∧ a.acked = false)
      ∧ (pendingHold 1050000 []).reached (pendingHold 1050000 []).race.tH = true
      ∧ (pendingHold 1050001 []).reached (pendingHold 1050001 []).race.tH = false
      ∧ hub.race.state ≠ .holdPending := by decide +kernel

/-- The hub with a route that notifies the director of an event. -/
def notifying (k : EventKind) (s : State) : State := { s with routes := s.routes.set 8 (notifyRoute k) }

/-- A director who hears of HOLD_BEGIN at the ack that completes the set. -/
theorem witness_HoldAckMarksEntry_hears :
    let s := notifying .holdBegin (pendingHold 1050000 [])
    let e : Event := { kind := .holdBegin, time := 1050000, slots := [], fault := none }
    s.roleHolder = some 0 ∧ (s.port 0).wire.isSome = true ∧ (s.port 0).notices.length + 1 ≤ 16
      ∧ s.noticesFor [e] = [.notice (.event e)] ∧ s.reached s.race.tH = true := by decide +kernel

/-- A departure that completes the ack set, one that leaves an entry awaited, and the new director told of HOLD_BEGIN. -/
theorem witness_LeftActive_ackTest :
    let s (more : List AckEntry) := notifying .holdBegin
      ((pendingHold 1050000 more).modPort 1 fun q => { q with phase := .active })
    let e : Event := { kind := .holdBegin, time := 1050000, slots := [], fault := none }
    let t := portReset 0 (s [⟨1, 5, true⟩])
    (∃ a ∈ (s [⟨1, 5, true⟩]).race.acks, a.port = 0) ∧ (s []).reached (s []).race.tH = true
      ∧ ((s [⟨1, 5, true⟩]).race.acks.filter fun a => decide (a.port ≠ 0)) = [⟨1, 5, true⟩]
      ∧ ((s [⟨1, 5, false⟩]).race.acks.filter fun a => decide (a.port ≠ 0)) = [⟨1, 5, false⟩]
      ∧ t.roleHolder = some 1 ∧ ((s []).port 1).wire.isSome = true ∧ (t.port 1).notices.length < 16
      ∧ t.race.state = .hold ∧ (portReset 0 (s [⟨1, 5, false⟩])).race.state = .holdPending
      ∧ (t.port 1).outbox.getLast? = some (t.mkFrame 1 (.notice (.event e))) := by decide +kernel

/-- Refusals of each kind, and a port that may go QUIET. -/
theorem witness_PortsGoQuiet :
    (withCar .live hub).quietRefusal 0 = none ∧ (racingIn .running (withCar .live hub)).quietRefusal 0 = some .state
      ∧ (with0 (fun q => { q with gateSample := false }) (withCar .live hub)).quietRefusal 0 = some .tooSoon
      ∧ (hub.port 0).phase = .active ∧ (asking [0x21, 0] (withCar .live hub)).asks (sent [0x21, 0]) [0x21, portByte 0]
      ∧ (asking [0x21, 1] hub).asks (sent [0x21, 1]) [0x21, portByte 1] ∧ (hub.port 1).phase ≠ .active
      ∧ (asking [0x21, 0] (racingIn .running (withCar .live hub))).asks (sent [0x21, 0]) [0x21, portByte 0] := by
  decide +kernel

theorem witness_MgmtQueued :
    (hub.port 0).phase = .active ∧ hub.mgmt.queue.length < 4 ∧ (List.replicate 124 (0 : Byte)).length ≤ 124
      ∧ 4 ≤ ({ hub with mgmt := { hub.mgmt with queue := List.replicate 4 (sent [1]) } } : State).mgmt.queue.length := by
  decide +kernel

/-- A waiting frame. -/
def frameOf (b : FrameBody) : HubFrame := { portByte := 0, director := true, body := b }

/-- Each class in turn the highest with a frame, an idle line, and a line whose rate is to change and may, may not because a
frame of another rate is on it, or has not changed. -/
theorem witness_ArbiterTakesHighestClass :
    let q := hub.port 0
    q.wire.isSome = true ∧ q.class1 = [] ∧ q.calls = [] ∧ q.cues = [] ∧ q.placings = [] ∧ q.outbox = [] ∧ q.viewSet = none
      ∧ (with0 (fun q => { q with class1 := [frameOf (.probe 0)] }) hub).port 0 ≠ q
      ∧ (with0 (fun q => { q with calls := [frameOf (.holdCall 0)] }) hub).port 0 ≠ q
      ∧ (with0 (fun q => { q with cues := [⟨1, [], 0⟩] }) hub).port 0 ≠ q
      ∧ (with0 (fun q => { q with placings := [frameOf (.placing 1 1 0 0 false false false)] }) hub).port 0 ≠ q
      ∧ (with0 (fun q => { q with outbox := [frameOf (.reply 1 .ok [])] }) hub).port 0 ≠ q
      ∧ (with0 (fun q => { q with viewSet := some ⟨0, 1, [frameOf (.view 0 0 1 [])]⟩ }) hub).port 0 ≠ q
      ∧ ((with0 (fun q => { q with wire := none }) hub).port 0).wire = none
      ∧ (let s := with0 (fun q => { q with lineRate := .r20, wire := none }) hub
         (s.port 0).lineRate ≠ (s.port 0).entry.linkRate ∧ (s.port 0).wire = none)
      ∧ (let s := with0 (fun q => { q with entry := { q.entry with linkRate := .r20 } }) hub
         ((s.port 0).wire.any fun w => decide (w.rate ≠ (s.port 0).entry.linkRate)) = true)
      ∧ q.lineRate = q.entry.linkRate := by decide +kernel

/-- A TRAIN frame of a round not yet awaited, and a PROBE of an open sweep, waiting behind the frame on the wire. -/
theorem witness_ArbiterTakesHighestClass_class1 :
    let f : TrainFrame := ⟨1, List.replicate 16 0xA5⟩
    let train := with0 (fun q => { q with
      training := .round [f] none, class1 := [frameOf (.train f.index f.bytes)] }) (phase0 .train hub)
    let w := sweepOf 1 (Vector.replicate 64 none)
    let probe := with0 (fun q => { q with class1 := [frameOf (.probe 0)] }) (sweeping { w with sent := [] })
    (train.port 0).wire.isSome = true ∧ (train.port 0).class1 = [frameOf (.train f.index f.bytes)]
      ∧ ((after (.transmitEnd 0) train).port 0).training = .round [f] (some 1050000)
      ∧ (probe.port 0).wire.isSome = true ∧ (probe.port 0).class1 = [frameOf (.probe 0)]
      ∧ ((after (.transmitEnd 0) probe).timing 0).sweep = some { w with sent := [1050000] } := by decide +kernel

/-- PORT_RESET of an ACTIVE port, link loss at its deadline and one microsecond before it, and a port in DOWN. -/
theorem witness_PortResets :
    (asking [0x20, 0] hub).asks (sent [0x20, 0]) [0x20, portByte 0] ∧ (hub.port 0).linkBase = some 1040000
      ∧ (hub.port 0).phase = .active
      ∧ atOrAfter ({ hub with clock := 1090000 } : State).clock (addTime 1040000 (hub.port 0).entry.linkTimeout) = true
      ∧ atOrAfter ({ hub with clock := 1089999 } : State).clock (addTime 1040000 (hub.port 0).entry.linkTimeout) = false
      ∧ (hub.port 1).phase = .down := by decide +kernel

/-- A director that leaves ACTIVE with another ACTIVE port that is told, and with none; an idle line; a parked car. -/
theorem witness_PortResets_left :
    let s := hub.modPort 1 fun q => { q with phase := .active }
    s.holdsRole 0 = true ∧ (allPorts.find? fun r => decide (r ≠ 0 ∧ (s.port r).phase = .active)) = some 1
      ∧ (s.port 1).wire.isSome = true ∧ (s.port 1).notices.length < 16 ∧ s.holdsRole 1 = false
      ∧ (allPorts.find? fun r => decide (r ≠ 0 ∧ (hub.port r).phase = .active)) = none
      ∧ ((with0 (fun q => { q with wire := none }) hub).port 0).wire = none
      ∧ ((withCar .parked hub).car 2).state = .parked ∧ (withCar .parked hub).owns 0 2 = true := by decide +kernel

/-- A LIVE car of an ACTIVE port, and a PARKED one of a port in QUIET. -/
theorem witness_PortResets_cars :
    (hub.port 0).phase = .active ∧ (withCar .live hub).owns 0 2 = true ∧ ((withCar .live hub).car 2).state = .live
      ∧ ((phase0 .quiet (withCar .parked hub)).port 0).phase = .quiet
      ∧ ((phase0 .quiet (withCar .parked hub)).car 2).state = .parked := by decide +kernel

/-- A pace timer reached, with a target that translates and one that does not; SEND_VIEW for an ACTIVE port and another. -/
theorem witness_ViewsBuilt :
    let s := with0 (fun q => { q with entry := { q.entry with pacing := .clock }, paceTimer := some 1050000 }) hub
    let far := with0 (fun q => { q with timing := { q.timing with anchorTime := 3000000000 } }) s
    let target (s : State) := inverse (s.timing 0) s.clock + BitVec.ofNat 16 (s.port 0).entry.leadFrames
    (s.port 0).phase = .active ∧ (s.port 0).entry.pacing = .clock ∧ (s.port 0).paceTimer = some 1050000
      ∧ atOrAfter s.clock 1050000 = true ∧ forward (s.timing 0) (target s) ≠ none ∧ (s.port 0).wire.isSome = true
      ∧ atOrAfter ({ s with clock := 1049999 } : State).clock 1050000 = false
      ∧ (far.port 0).phase = .active ∧ forward (far.timing 0) (target far) = none ∧ (hub.port 0).paceTimer = none
      ∧ (asking [0x23, 0] hub).asks (sent [0x23, 0]) [0x23, portByte 0]
      ∧ (asking [0x23, 0] far).asks (sent [0x23, 0]) [0x23, portByte 0]
      ∧ (asking [0x23, 1] hub).asks (sent [0x23, 1]) [0x23, portByte 1] ∧ (hub.port 1).phase ≠ .active := by
  decide +kernel

/-- An idle line with nothing waiting, a set in flight, and a report under CABINET pacing whose target translates or not. -/
theorem witness_ViewsBuilt_cabinet :
    let s := with0 (fun q => { q with wire := none, viewSet := some ⟨0, 1, []⟩ }) hub
    (s.port 0).wire = none ∧ (s.port 0).class1 = [] ∧ (s.port 0).calls = [] ∧ (s.port 0).cues = [] ∧ (s.port 0).placings = []
      ∧ (s.port 0).outbox = [] ∧ (s.port 0).viewSet.isSome = true ∧ (s.port 0).entry.pacing = .cabinet
      ∧ (forward (s.timing 0) (502 + 2)).isSome = true ∧ forward (s.timing 0) (1523 + 2) = none := by decide +kernel

/-- CAR frames of one seat and of two in each order, of an ACTIVE port whose timing asks nothing. -/
theorem witness_ViewsBuilt_report :
    let swapped : List Byte := carPayload2.take 2 ++ carPayload2.drop 16 ++ (carPayload2.drop 2).take 14
    let o := timeFrame true (hub.port 0).entry (hub.timing 0) 502 1033733
    (hub.port 0).phase = .active ∧ o.missed = false ∧ o.request = .none ∧ carPayload.length = 16 ∧ swapped.length = 30
      ∧ (∀ bs ∈ [carPayload, carPayload2, swapped], BitVec.ofNat 16 (beNat (field bs 0 2)) = (502 : FrameNum))
      ∧ (rawSample (field swapped 2 14)).seat ≤ (rawSample (field swapped 16 14)).seat
      ∧ (rawSample (field carPayload2 16 14)).seat < (rawSample (field carPayload2 2 14)).seat := by decide +kernel

/-- A port in each of the three modes, with a reference car and without one. -/
theorem witness_ViewOrder :
    let listed := with0 (fun q => { q with entry := { q.entry with viewMode := .fixedList, includeOwn := true }, viewOrder := [2] })
      (withCar .live hub)
    let near := with0 (fun q => { q with entry := { q.entry with viewMode := .nearestFirst } }) (withCar .live hub)
    (listed.port 0).entry.viewMode = .fixedList ∧ (listed.viewList 0 1000000).map (fun e => e.1) ≠ ([] : List Slot)
      ∧ (hub.port 0).entry.viewMode = .raceOrder ∧ (near.port 0).entry.viewMode = .nearestFirst ∧ near.referenceCar 0 = some 2
      ∧ (near.projected 1000000 2).isSome = true
      ∧ (∀ i, hub.owns 0 i = true → (hub.car i).seat = 0 → viewableState (hub.car i).state = false)
      ∧ (∃ r, (withCar .live hub).viewable 1 2 = true ∧ (withCar .live hub).projected 1000000 2 = some r) := by
  refine ⟨by decide +kernel, ?_, by decide +kernel, by decide +kernel, by decide +kernel, by decide +kernel,
    by decide +kernel, ?_⟩
  · decide +kernel
  · exact ⟨_, by decide +kernel, rfl⟩

theorem witness_RecordFixed : 1 ≤ crossing1.lap ∧ ({ crossing1 with lap := 100 } : Crossing).lap ≤ 100 := by decide

/-- A first finish in every state it is told apart in, without AUTO_HOLD routes; a lead kept, taken and new; a pair parted; a
busy and an idle line for the PLACING frame. -/
theorem witness_RecordFixed_finish :
    let s := withCar .live hub
    let led (f : Slot) := s.setLap 3 { emptyLap with count := 1, leader := some f }
    s.params.laps = 3 ∧ (s.lap 4).count = 0 ∧ (s.car 2).enabled = true
      ∧ (∀ r ∈ [RaceState.running, .countdown, .holdPending, .hold, .resumePending], (racingIn r s).race.state ≠ .closed)
      ∧ (pendingHold 1040000 []).race.tH = some 1040000 ∧ (pendingHold 1040000 []).race.state = .holdPending
      ∧ (∀ y ∈ s.routes.toList, y.valid = true → y.action ≠ .autoHold)
      ∧ (s.lap 3).leader = none ∧ ((led 2).lap 3).leader = some 2 ∧ ((led 5).lap 3).leader = some 5
      ∧ ([((2 : Slot), (5 : Slot))].filter fun y => decide (y.1 = 2 ∨ y.2 = 2)) = [(2, 5)]
      ∧ (s.port 0).phase = .active ∧ (s.port 0).wire.isSome = true ∧ (s.port 0).placings.length < 128
      ∧ (s.port 1).phase ≠ .active
      ∧ (let q := (with0 (fun q => { q with wire := none }) s).port 0
         q.wire = none ∧ q.class1 = [] ∧ q.calls = [] ∧ q.cues = [] ∧ q.placings = []) := by decide +kernel

/-- A full list with a record that may go and one without; a crossing earlier than its lap's fixed time, and one at it. -/
theorem witness_RecordFixed_entered :
    let old : Crossing := { crossing1 with status := .fixed 1 }
    let s (x : Crossing) : State := { (withCar .live hub).modCar 2 fun c => { c with last := some { sampleAt with lap := 3 } } with
      crossings := List.replicate 128 x }
    (s old).leaderLap = 3 ∧ (s old).crossings = [] ++ old :: List.replicate 127 old
      ∧ (old.isProvisional = false ∧ old.lap + 1 < (s old).leaderLap ∧ old.lap < (s old).params.laps + 1)
      ∧ 128 ≤ (s crossing1).crossings.length ∧ crossing1.isProvisional = true ∧ hub.crossings.length < 128
      ∧ (let late := hub.setLap 1 { emptyLap with count := 1, time := some 1000001 }
         (late.lap 1).time = some 1000001 ∧ earlier crossing1.time 1000001 = true ∧ earlier 1000001 1000001 = false) := by
  decide +kernel

/-- A lap with a record whose settle deadline is reached, before it, and in a hold. -/
theorem witness_SettleDeadline :
    let s (now : RaceTime) := ({ racingIn .running hub with clock := now, crossings := [crossing1] } : State).setDeadline 1
    ((s 1250000).lap 1).deadline = some 1250000 ∧ (s 1250000).suspended = false ∧ atOrAfter (s 1250000).clock 1250000 = true
      ∧ (s 1250000).firstProvisional 1 = some crossing1
      ∧ atOrAfter (s 1250000).clock (addTime crossing1.time (s 1250000).params.settle) = true
      ∧ 1 ≤ (s 1250000).params.laps + 1 ∧ (s 1250000).params.holdLead ≤ 1000000 ∧ (s 1250000).race.state = .running
      ∧ atOrAfter (s 1249999).clock 1250000 = false ∧ (racingIn .hold hub).suspended = true := by decide +kernel

/-- A record that its settle period fixes, one that the proof fixes, and one that another car's last sample holds back, the car
one microsecond too early; a lap without a PROVISIONAL record. -/
theorem witness_SettleDeadline_conditions :
    let held (t : RaceTime) : CarRecord :=
      { resetCar 3 with enabled := true, state := .parked, last := some { sampleAt with time := t } }
    let s (t : RaceTime) : State := { (racingIn .running hub).setCar 3 (held t) with crossings := [crossing1] }
    let settles (u : State) := u.suspended = false ∧ atOrAfter u.clock (addTime crossing1.time u.params.settle) = true
    let late (t : RaceTime) : State := { s t with clock := 1250000 }
    (s 1000000).firstProvisional 1 = some crossing1 ∧ (s 1000000).firstProvisional 2 = none
      ∧ ¬settles (s 1000000) ∧ settles (late 1000000) ∧ (3 : Slot) ≠ crossing1.slot
      ∧ ((s 1000000).car 3).state ∈ [CarState.live, .coasting, .parked] ∧ sampleAt.lap < crossing1.lap
      ∧ later 1000000 crossing1.time = false ∧ later 1000001 crossing1.time = true
      ∧ (s 1000000).proven crossing1 = false ∧ (s 1000001).proven crossing1 = true
      ∧ (s 1000000).race.state ∉ [RaceState.idle, .grid, .closed] ∧ hub.race.state ∈ [RaceState.idle, .grid, .closed] := by
  decide +kernel

theorem witness_RaceCloses :
    (∀ r ∈ [RaceState.running, .finishing, .hold], (asking [0x35] (racingIn r hub)).asks (sent [0x35]) [0x35]
        ∧ (asking [0x35] (racingIn r hub)).race.state = r)
      ∧ (let s := { hub with race := { resetRaceRecord with state := .finishing, grace := some 1050000 } }
         s.race.state = .finishing ∧ s.race.grace = some 1050000 ∧ atOrAfter s.clock 1050000 = true
           ∧ atOrAfter ({ s with clock := 1049999 } : State).clock 1050000 = false)
      ∧ hub.race.state ≠ .finishing := by decide +kernel

/-- Cars that a close from HOLD makes LOST and COASTING, a car that it finishes, and what the field test and the closing tests
look at. -/
theorem witness_RaceCloses_taken :
    let s (now : RaceTime) : State := { racingIn .hold (withCar .live hub) with clock := now }
    let done : State := { racingIn .finishing (withCar .lost hub) with crossings := [{ crossing1 with lap := 4 }] }
    (s 3000001).agedState 2 = .lost ∧ (s 1100001).agedState 2 = .coasting ∧ (s 1100000).agedState 2 = .live
      ∧ (done.car 2).enabled = true ∧ (∃ x ∈ done.crossings, x.isProvisional = true ∧ x.slot = 2 ∧ x.lap = done.params.laps + 1)
      ∧ done.race.state = .finishing
      ∧ (∀ i, (done.car i).enabled = true → (done.car i).state ∈ [CarState.finished, .retired, .lost])
      ∧ ¬(∀ i, ((withCar .live hub).car i).enabled = true →
        ((withCar .live hub).car i).state ∈ [CarState.finished, .retired, .lost])
      ∧ (∀ x ∈ hub.crossings, x.isProvisional = false) ∧ atOrAfter hub.clock 1050000 = true := by decide +kernel

theorem witness_CrossingTimes :
    sampleAt.s < 400000 ∧ 0 ≤ timeDiff (1020000 : RaceTime) sampleAt.time ∧ 1 ≤ 3 ∧ 2 + 1 ≤ 3 := by decide

/-- A crossing before T_green and one at it; a first sample on lap 0 and beyond it; a lap risen and not; a previous sample
beyond the lap's length. -/
theorem witness_CrossingTimes_green :
    let x := crossingAt 2 400000 none sampleAt { sampleAt with time := 1020000, s := 1000, lap := 1 } 1 1
    x.time = 1010000 ∧ earlier x.time 1010001 = true ∧ earlier x.time 1010000 = false
      ∧ ((withCar .finished hub).car 2).state = .finished ∧ ((withCar .live hub).car 2).state ≠ .finished
      ∧ sampleAt.lap = 0 ∧ sampleAt.lap < 1 ∧ sampleAt.s < hub.params.lapLength
      ∧ ({ hub with params := { hub.params with lapLength := 399000 } } : State).params.lapLength ≤ sampleAt.s := by
  decide +kernel

/-- A FINISHED car whose finish crossing stands behind an earlier record of it, and a car that has none. -/
theorem witness_ClassificationOrder :
    let finish : Crossing := { crossing1 with lap := 4, time := 1040000, status := .fixed 1 }
    let s : State := { withCar .finished hub with crossings := [crossing1, finish] }
    s.crossings = [crossing1] ++ finish :: [] ∧ s.params.laps + 1 = 4 ∧ crossing1.lap ≠ 4 ∧ (s.car 2).state = .finished
      ∧ ((withCar .live hub).car 2).state ≠ .finished
      ∧ ((classify s).map fun e => (e.slot, e.finishTime)) = [(2, some 1040000)] := by decide +kernel

/-- The grid opens, is refused for the lap relation, a start is aborted and is not, and each command in a wrong state. -/
theorem witness_GridAndRefusals :
    (asking [0x30] hub).asks (sent [0x30]) [0x30] ∧ hub.race.state = .idle
      ∧ 2 * max hub.params.jumpDist (hub.params.proxLong + hub.params.hyst) < hub.params.lapLength
      ∧ (let s := { hub with params := { hub.params with lapLength := 1000 } }
         s.params.lapLength ≤ 2 * max s.params.jumpDist (s.params.proxLong + s.params.hyst))
      ∧ (let s := asking [0x32] (racingIn .countdown hub)
         s.asks (sent [0x32]) [0x32] ∧ s.race.state = .countdown ∧ s.crossings = [] ∧ (∀ i, (s.car i).lap = 0)
           ∧ (s.port 0).phase = .active ∧ (s.port 0).wire.isSome = true ∧ (s.port 0).cues.length < 8)
      ∧ ({ hub with crossings := [crossing1] } : State).crossings ≠ []
      ∧ (∀ code ∈ [(0x31 : Byte), 0x32, 0x33, 0x34, 0x35], (asking [code] hub).asks (sent [code]) [code])
      ∧ (asking [0x30] (racingIn .grid hub)).asks (sent [0x30]) [0x30] := by decide +kernel

theorem witness_StartTaken :
    let s := asking [0x31] (racingIn .grid hub)
    s.asks (sent [0x31]) [0x31] ∧ s.race.state = .grid ∧ s.routes = defaultRoutes ∧ s.params.lightCount < 8
      ∧ (s.port 0).phase = .active ∧ (s.port 0).wire.isSome = true ∧ (s.port 0).cues = [] := by decide +kernel

theorem witness_HoldAndResumeCalled :
    (∀ r ∈ [RaceState.running, .finishing],
      let s := asking [0x33] (racingIn r (withCar .live hub))
      s.asks (sent [0x33]) [0x33] ∧ s.race.state = r ∧ (s.port 0).phase = .active ∧ s.owns 0 2 = true
        ∧ (s.car 2).state = .live ∧ (s.port 0).wire.isSome = true ∧ (s.port 0).calls.length < 4)
    ∧ (let s := asking [0x34] (racingIn .hold (withCar .parked hub))
       s.asks (sent [0x34]) [0x34] ∧ s.race.state = .hold ∧ s.owns 0 2 = true ∧ (s.port 0).phase = .active)
    ∧ (∀ i, hub.owns 0 i = false) := by decide +kernel

/-- A director who hears of RESUME_BEGIN. -/
theorem witness_HoldAndResumeCalled_hears :
    let s := notifying .resumeBegin (racingIn .hold hub)
    let e : Event := { kind := .resumeBegin, time := 1050000, slots := [], fault := none }
    (asking [0x34] s).asks (sent [0x34]) [0x34] ∧ s.race.state = .hold ∧ s.roleHolder = some 0
      ∧ (s.port 0).wire.isSome = true ∧ (s.port 0).notices.length + 1 ≤ 16 ∧ s.noticesFor [e] = [.notice (.event e)] := by
  decide +kernel

/-- T_green and T_h at their times and just before, finish seen and not, the closing tests failing and passing. -/
theorem witness_RaceTimersExpire :
    (let s (seen : Bool) (now : RaceTime) : State :=
      { withCar .live hub with
        clock := now, race := { resetRaceRecord with state := .countdown, tGreen := some 1050000, finishSeen := seen } }
     atOrAfter (s true 1050000).clock 1050000 = true ∧ atOrAfter (s false 1049999).clock 1050000 = false
       ∧ (s true 1050000).race.finishSeen = true ∧ (s false 1050000).race.finishSeen = false
       ∧ (s true 1050000).fieldDone = false ∧ hub.fieldDone = true
       ∧ atOrAfter (s true 1050000).clock (addTime 1050000 (s true 1050000).params.grace) = false)
    ∧ (pendingHold 1050000 []).race.state = .holdPending ∧ (∃ a ∈ (pendingHold 1050000 []).race.acks, a.acked = false)
    ∧ atOrAfter (pendingHold 550000 []).clock (addTime 550000 (pendingHold 550000 []).params.holdTimeout) = true
    ∧ atOrAfter (pendingHold 550001 []).clock (addTime 550001 (pendingHold 550001 []).params.holdTimeout) = false
    ∧ (∀ a ∈ ({ (pendingHold 1050000 []).race with acks := [] } : RaceRecord).acks, a.acked = true) := by decide +kernel

theorem witness_HoldEnds :
    ∀ m ∈ [RaceState.running, .finishing],
      let s : State := { hub with
        race := { resetRaceRecord with
          state := .resumePending, tH := some 1000000, tR := some 1050000, remembered := some m } }
      s.race.state = .resumePending ∧ s.race.tH = some 1000000 ∧ s.race.tR = some 1050000 ∧ s.race.remembered = some m
        ∧ atOrAfter s.clock 1050000 = true ∧ atOrAfter ({ s with clock := 1049999 } : State).clock 1050000 = false := by
  decide +kernel

/-- Routes without AUTO_HOLD, as after a hub reset, and a finish lap that is in the Lap Table. -/
theorem witness_HoldEnds_routes :
    (∀ x ∈ hub.routes.toList, x.valid = true → x.action ≠ .autoHold) ∧ hub.params.laps ≤ 99 := by decide +kernel

theorem witness_RaceResetClearsRace :
    (asking [0x36] hub).asks (sent [0x36]) [0x36] ∧ (hub.port 0).wire.isSome = true ∧ (hub.port 0).phase = .active := by
  decide +kernel

/-- An idle line of an ACTIVE port, and a port that is not ACTIVE. -/
theorem witness_RaceResetClearsRace_idle :
    let s := with0 (fun q => { q with wire := none }) hub
    (s.port 0).phase = .active ∧ (s.port 0).wire = none ∧ (s.port 0).class1 = [] ∧ (s.port 1).phase ≠ .active := by
  decide +kernel

/-- A pair absent and inside, absent and outside, present and beyond the outer window, present and between. -/
theorem witness_ContactWindows :
    let s := { hub with contacts := [(2, 5)] }
    ((2, 5) : Slot × Slot) ∉ hub.contacts ∧ ((2, 5) : Slot × Slot) ∈ s.contacts
      ∧ ((400 : Int).natAbs ≤ s.params.proxLong ∧ (180 : Int).natAbs ≤ s.params.proxLat)
      ∧ ¬((401 : Int).natAbs ≤ s.params.proxLong)
      ∧ s.params.proxLong + s.params.hyst < (-501 : Int).natAbs
      ∧ ¬(s.params.proxLong + s.params.hyst < (500 : Int).natAbs ∨ s.params.proxLat + s.params.hyst < (280 : Int).natAbs) := by
  decide +kernel

/-- A sampled car that is LIVE and one that is not; another car that is present with a sample; a change that keeps the pairs
and one that loses them. -/
theorem witness_ContactWindows_cars :
    let s := { withCar .live hub with contacts := [(2, 5)] }
    (s.car 2).state = .live ∧ (hub.car 2).state ≠ .live ∧ (3 : Slot) ≠ 2 ∧ (s.car 2).last = some sampleAt
      ∧ (s.car 2).lost.state ≠ .live ∧ (s.car 2).lost.state ≠ .coasting ∧ (s.coasting (s.car 2)).state = .coasting
      ∧ (s.contacts.filter fun c => decide (c.1 = 2 ∨ c.2 = 2)) = [(2, 5)] := by decide +kernel

/-- An event that no default route matches, and a port that is not ACTIVE. -/
theorem witness_EventsRouted :
    (∀ r ∈ hub.routes.toList, r.matches { kind := .lapFixed, time := 0, slots := [2], fault := none } = false)
      ∧ (hub.port 1).phase ≠ .active := by decide +kernel

/-- A CUE route for ALL, INVOLVED and MASK that reaches port 0 and misses port 1, with 7 and 8 cues waiting and an idle line;
NOTIFY with the role held and vacant, 15 and 16 notices waiting; AUTO_HOLD in RUNNING and in IDLE. -/
theorem witness_EventsRouted_actions :
    let s := withCar .live hub
    let cues (n : Nat) := with0 (fun q => { q with cues := List.replicate n ⟨1, [], 0⟩ }) s
    let told (n : Nat) := with0 (fun q => { q with outbox := List.replicate n (frameOf (.notice (.quietRefused .state))) }) s
    let idle := with0 (fun q => { q with wire := none }) s
    (cueRoute .contactBegin 1 .all 0).target = .all ∧ (s.car 2).owner = 0 ∧ (1 : Byte).getLsbD (0 : PortNo).val = true
      ∧ (1 : Byte).getLsbD (1 : PortNo).val = false ∧ (s.port 0).phase = .active
      ∧ ((cues 7).port 0).cues.length < 8 ∧ 8 ≤ ((cues 8).port 0).cues.length ∧ ((cues 7).port 0).wire.isSome = true
      ∧ ((idle.port 0).wire = none ∧ (idle.port 0).class1 = [] ∧ (idle.port 0).calls = [] ∧ (idle.port 0).cues = []
        ∧ (idle.port 0).placings = [] ∧ (idle.port 0).outbox = [])
      ∧ s.roleHolder = some 0 ∧ State.reset.roleHolder = none ∧ (notifyRoute .carLost).action = .notify
      ∧ ((told 15).port 0).notices.length < 16 ∧ 16 ≤ ((told 16).port 0).notices.length
      ∧ ({ emptyRoute with action := .autoHold } : Route).action = .autoHold ∧ s.race.state ≠ .running
      ∧ (racingIn .running s).race.state = .running ∧ (racingIn .running s).getsHoldCall 0 = true
      ∧ (s.port 0).calls.length < 4 := by decide +kernel

/-- A command of port 1, which is not the director. -/
def asking1 (bs : List Byte) (s : State) : State :=
  { s with mgmt := { s.mgmt with queue := [{ sender := 1, tag := 7, payload := bs }] } }

theorem witness_RightsChecked :
    (∀ bs ∈ [([0x30] : List Byte), [0x02, 0], [0x10, 1, 0, 1], [0x11, 1, 0, 0]],
      (asking1 bs hub).head = some { sender := 1, tag := 7, payload := bs } ∧ (asking1 bs hub).holdsRole 1 = false)
      ∧ (sent [0x11, 6, 0, 0]).table = some .crossingList ∧ (asking [0x11, 6, 0, 0] hub).head = some (sent [0x11, 6, 0, 0])
      ∧ (0x99 : Byte) ∉ knownCodes ∧ (asking [0x99] hub).head = some (sent [0x99]) := by decide +kernel

/-- The director's commands with payloads too short and too long, and the first port, slot and table that name none. -/
theorem witness_RightsChecked_range :
    (∀ bs ∈ [([0x01, 0] : List Byte), [0x02, 8], [0x03, 9], [0x10, 9, 0, 1], [0x10, 0, 0], [0x11, 9, 0, 0], [0x12, 0], [0x20],
        [0x21, 8], [0x22, 0, 0], [0x23, 8], [0x30, 0], [0x36, 0], [0x40, 12], [0x41, 8], [0x42, 0]],
      (asking bs hub).head = some (sent bs) ∧ (asking bs hub).holdsRole 0 = true)
      ∧ (∀ p : PortNo, ([0x20] : List Byte) ≠ [0x20, portByte p] ∧ ([0x21, 8] : List Byte) ≠ [0x21, portByte p]
        ∧ ([0x02, 8] : List Byte) ≠ [0x02, portByte p] ∧ ([0x22, 0, 0] : List Byte) ≠ [0x22, portByte p])
      ∧ (∀ i : Slot, ([0x40, 12] : List Byte) ≠ [0x40, slotByte i])
      ∧ (∀ n ≤ 8, ([0x03, 9] : List Byte) ≠ [0x03, BitVec.ofNat 8 n])
      ∧ (sent [0x10, 9, 0, 1]).table = none ∧ (sent [0x12, 0]).table = some .carTable ∧ (sent [0x11, 9, 0, 0]).table = none := by
  decide +kernel

theorem witness_StatusReadAndCleared :
    (asking1 [0x01] hub).head = some { sender := 1, tag := 7, payload := [0x01] }
      ∧ (asking1 [0x02, 1] hub).head = some { sender := 1, tag := 7, payload := [0x02, portByte 1] }
      ∧ (asking [0x03, 7] hub).asks (sent [0x03, 7]) [0x03, portByte 7] ∧ (asking [0x03, 8] hub).asks (sent [0x03, 8]) [0x03, 8] := by
  decide +kernel

/-- A busy and an idle line with nothing waiting, a port in DOWN, and a port with 16 replies. -/
theorem witness_ReplyQueued :
    (hub.port 0).phase = .active ∧ (hub.port 0).replies.length < 16 ∧ (hub.port 0).wire.isSome = true
      ∧ (let q := (with0 (fun q => { q with wire := none }) hub).port 0
         q.wire = none ∧ q.class1 = [] ∧ q.calls = [] ∧ q.cues = [] ∧ q.placings = [] ∧ q.outbox = [])
      ∧ (hub.port 1).phase = .down
      ∧ 16 ≤ ((with0 (fun q => { q with outbox := List.replicate 16 (frameOf (.reply 1 .ok [])) }) hub).port 0).replies.length := by
  decide +kernel

/-- Reads of the Car Table by a port that is not the director, at its last entry and beyond it. -/
theorem witness_EntriesRead :
    (asking1 [0x10, 0, 11, 255] hub).head = some { sender := 1, tag := 7, payload := [0x10, 0, 11, 255] }
      ∧ tableOf (0 : Byte).toNat = some .carTable ∧ Table.carTable.isPublic = true
      ∧ (∀ x ∈ hub.patterns.toList, x.bytes.length = 16)
      ∧ (11 : Byte).toNat < (hub.tableBytes .carTable).length ∧ (hub.tableBytes .carTable).length ≤ (12 : Byte).toNat := by
  decide +kernel

/-- A Crossing List and a Classification with an entry each, and View Order Lists within their length. -/
theorem witness_EntriesRead_lists :
    let s : State := { hub with crossings := [crossing1], classification := classify (withCar .live hub) }
    s.crossings[0]? = some crossing1 ∧ s.classification[0]? ≠ none ∧ ((s.port 0).viewOrder).length ≤ 12
      ∧ allSlots.length ≤ 12 := by decide +kernel

theorem witness_ScanStops :
    (asking1 [0x12, 6, 0, 0, 9, 5, 0, 0, 0, 0, 0] hub).head
        = some { sender := 1, tag := 7, payload := [0x12, 6, 0, 0, 9, 5, 0, 0, 0, 0, 0] }
      ∧ tableOf (6 : Byte).toNat = some .crossingList ∧ Table.crossingList.isPublic = true
      ∧ (8 : Byte).toNat < Table.crossingList.fieldCount ∧ Table.crossingList.fieldCount ≤ (9 : Byte).toNat := by
  decide +kernel

/-- Field 17, field 18, a closed gate, and a value at and beyond its range. -/
theorem witness_ParametersWritten :
    (asking ([0x11, 0x01, BitVec.ofNat 8 17, 1] ++ beBytes 4 120000000) hub).asks
        (sent ([0x11, 0x01, BitVec.ofNat 8 17, 1] ++ beBytes 4 120000000))
        ([0x11, 0x01, BitVec.ofNat 8 17, 1] ++ beBytes 4 120000000)
      ∧ (paramRange 17).1 ≤ 120000000 ∧ 120000000 ≤ (paramRange 17).2 ∧ (paramRange 17).2 < 120000001 ∧ hub.race.state = .idle
      ∧ (asking ([0x11, 0x01, BitVec.ofNat 8 18, 1] ++ beBytes 4 0) hub).asks
        (sent ([0x11, 0x01, BitVec.ofNat 8 18, 1] ++ beBytes 4 0)) ([0x11, 0x01, BitVec.ofNat 8 18, 1] ++ beBytes 4 0)
      ∧ (racingIn .running hub).race.state ≠ .idle := by decide +kernel

/-- Writes of coast_after in GRID with a LIVE car older than the new value, and of settle in RUNNING. -/
theorem witness_ParametersWritten_effects :
    let s := racingIn .grid (withCar .live hub)
    let bs (k v : Nat) := [0x11, 0x01, BitVec.ofNat 8 k, 1] ++ beBytes 4 v
    (asking (bs 9 10000) s).asks (sent (bs 9 10000)) (bs 9 10000) ∧ s.race.state = .grid ∧ 10000 ≤ s.params.loseAfter
      ∧ ({ s with params := setParam s.params 9 10000 } : State).agedState 2 = .coasting ∧ s.agedState 2 = .live
      ∧ ((after .writeRaceParameters (asking (bs 9 10000) s)).car 2).state = .coasting
      ∧ (let r := { racingIn .running s with crossings := [crossing1] }
         (asking (bs 11 0) r).asks (sent (bs 11 0)) (bs 11 0) ∧ r.firstProvisional 1 = some crossing1) := by decide +kernel

/-- A slot made free, a new assignment, a clash, and a race under way. -/
theorem witness_AssignmentsWritten :
    (asking [0x11, 0x00, slotByte 3, 1, 1, portByte 0, 1, 7, 0, 0, 0] (withCar .live hub)).asks
        (sent [0x11, 0x00, slotByte 3, 1, 1, portByte 0, 1, 7, 0, 0, 0])
        [0x11, 0x00, slotByte 3, 1, boolByte true, portByte 0, BitVec.ofNat 8 (1 : Fin 2).val, BitVec.ofNat 8 7, 0, 0, 0]
      ∧ hub.race.state = .idle
      ∧ (∃ j : Slot, (j ≠ 3 ∧ (withCar .live hub).owns 0 j = true) ∧ ((withCar .live hub).car j).seat = 0)
      ∧ ¬(∃ j : Slot, (j ≠ 3 ∧ (withCar .live hub).owns 0 j = true) ∧ ((withCar .live hub).car j).seat = 1)
      ∧ ((withCar .live hub).car 2).enabled = true ∧ (hub.car 3).enabled = false := by decide +kernel

/-- The first values of each field outside its range. -/
theorem witness_AssignmentsWritten_range :
    let bs : List Byte := [0x11, 0x00, slotByte 3, 1, 2, 8, 2, 100, 0, 0, 0]
    (asking bs hub).asks (sent bs) bs ∧ 1 < (2 : Byte).toNat ∧ 7 < (8 : Byte).toNat ∧ 99 < (100 : Byte).toNat
      ∧ (0 : Byte).toNat = 0 := by decide +kernel

/-- A port in DOWN disabled, one enabled, and a gate closed for an ACTIVE port. -/
theorem witness_PortsWritten :
    let off := { defaultEntry with enabled := false }
    portEntryOf (portEntryBytes off) = some off ∧ portEntryOf (portEntryBytes defaultEntry) = some defaultEntry
      ∧ (asking ([0x11, 0x02, portByte 1, 1] ++ portEntryBytes off) hub).asks
          (sent ([0x11, 0x02, portByte 1, 1] ++ portEntryBytes off)) ([0x11, 0x02, portByte 1, 1] ++ portEntryBytes off)
      ∧ (hub.port 1).entry = defaultEntry ∧ (hub.port 1).phase = .down ∧ (hub.port 0).phase = .active := by decide +kernel

/-- A port in OFF that is enabled. -/
theorem witness_PortsWritten_enable :
    let s := hub.modPort 1 fun q => { q with phase := .off, entry := { defaultEntry with enabled := false } }
    (s.port 1).phase = .off ∧ (s.port 1).entry.enabled = false
      ∧ (asking ([0x11, 0x02, portByte 1, 1] ++ portEntryBytes defaultEntry) s).asks
          (sent ([0x11, 0x02, portByte 1, 1] ++ portEntryBytes defaultEntry))
          ([0x11, 0x02, portByte 1, 1] ++ portEntryBytes defaultEntry) := by decide +kernel

/-- An entry with a field just outside its range, for a port in DOWN and for the ACTIVE port. -/
theorem witness_PortsWritten_range :
    let bs := portEntryBytes { defaultEntry with linkTimeout := 1000001 }
    bs.length = 25 ∧ numAt bs 2 4 = 1000001 ∧ numAt (portEntryBytes { defaultEntry with leadFrames := 9 }) 22 1 = 9
      ∧ (∀ p ∈ [(0 : PortNo), 1], (asking ([0x11, 0x02, portByte p, 1] ++ bs) hub).asks
        (sent ([0x11, 0x02, portByte p, 1] ++ bs)) ([0x11, 0x02, portByte p, 1] ++ bs))
      ∧ field bs 0 2 = field (portEntryBytes (hub.port 0).entry) 0 2
      ∧ field bs 6 7 = field (portEntryBytes (hub.port 0).entry) 6 7
      ∧ field (portEntryBytes { defaultEntry with winFrames := 65 }) 6 7 ≠ field (portEntryBytes (hub.port 0).entry) 6 7 := by
  decide +kernel

/-- The ACTIVE port set to CLOCK, and with CLOCK kept. -/
theorem witness_PortsWritten_pacing :
    let e := { defaultEntry with pacing := .clock }
    let kept := with0 (fun q => { q with entry := e }) hub
    portEntryOf (portEntryBytes e) = some e ∧ (hub.port 0).entry.pacing ≠ .clock ∧ (hub.port 0).phase = .active
      ∧ (∀ s ∈ [hub, kept], (asking ([0x11, 0x02, portByte 0, 1] ++ portEntryBytes e) s).asks
        (sent ([0x11, 0x02, portByte 0, 1] ++ portEntryBytes e)) ([0x11, 0x02, portByte 0, 1] ++ portEntryBytes e))
      ∧ (kept.port 0).entry.pacing = e.pacing ∧ (kept.port 0).entry.enabled = e.enabled := by decide +kernel

/-- A full list, a list with a slot twice, a route at the ends of its ranges and beyond, and a pattern. -/
theorem witness_ListsWritten :
    (asking ([0x11, 0x03, portByte 7, 1] ++ viewOrderBytes allSlots) hub).asks
        (sent ([0x11, 0x03, portByte 7, 1] ++ viewOrderBytes allSlots)) ([0x11, 0x03, portByte 7, 1] ++ viewOrderBytes allSlots)
      ∧ allSlots.Nodup ∧ ¬([1, 1] : List Slot).Nodup ∧ ([1, 1] : List Slot).length ≤ 12
      ∧ (let r := { emptyRoute with code := 0xFD, lead := 1000000 }
         (asking ([0x11, 0x04, BitVec.ofNat 8 23, 1] ++ routeBytes r) hub).asks
             (sent ([0x11, 0x04, BitVec.ofNat 8 23, 1] ++ routeBytes r)) ([0x11, 0x04, BitVec.ofNat 8 23, 1] ++ routeBytes r)
           ∧ r.code.toNat ≤ 0xFD ∧ r.lead ≤ 1000000)
      ∧ 0xFD < ({ emptyRoute with code := 0xFE } : Route).code.toNat
      ∧ (let x : Pattern := { enabled := true, bytes := List.replicate 16 7 }
         x.bytes.length = 16 ∧ (asking ([0x11, 0x05, BitVec.ofNat 8 3, 1] ++ patternBytes x) hub).asks
           (sent ([0x11, 0x05, BitVec.ofNat 8 3, 1] ++ patternBytes x)) ([0x11, 0x05, BitVec.ofNat 8 3, 1] ++ patternBytes x)) := by
  decide +kernel

/-- The role to an ACTIVE port, to the director itself, and to a port in DOWN. -/
theorem witness_DirectorMoved :
    let s := hub.modPort 1 fun q => { q with phase := .active }
    (asking [0x41, 1] s).asks (sent [0x41, 1]) [0x41, portByte 1] ∧ (s.port 1).phase = .active
      ∧ (s.port 0).wire.isSome = true ∧ (s.port 0).replies.length < 16 ∧ (s.port 1).wire.isSome = true
      ∧ (s.port 1).notices.length < 16
      ∧ (asking [0x41, 0] s).asks (sent [0x41, 0]) [0x41, portByte 0]
      ∧ (asking [0x41, 2] s).asks (sent [0x41, 2]) [0x41, portByte 2] ∧ (s.port 2).phase ≠ .active := by decide +kernel

/-- A write that stops at its second entry. -/
theorem witness_WritesInOrder :
    (writeLoop 4 (onNumber 18 writeParam) 2 17 (beBytes 4 0 ++ beBytes 4 0) hub).2 = (.index, 1) := by decide +kernel

/-- A write of two parameters, one whose length does not fit its count, and one cut short. -/
theorem witness_WritesInOrder_rows :
    let bs : List Byte := beBytes 4 250000 ++ beBytes 4 400
    (asking ([0x11, 1, 11, 2] ++ bs) hub).asks (sent ([0x11, 1, 11, 2] ++ bs)) ([0x11, 1, 11, 2] ++ bs)
      ∧ bs.length = (2 : Byte).toNat * 4 ∧ bs.length ≠ (3 : Byte).toNat * 4
      ∧ (asking ([0x11, 1] ++ [11]) hub).asks (sent ([0x11, 1] ++ [11])) ([0x11, 1] ++ [11]) ∧ ([11] : List Byte).length < 2
      ∧ (writeLoop 4 (onNumber 18 writeParam) 2 11 bs (asking [] hub).dropHead).2 = (.ok, 2) := by decide +kernel

/-- Rows of each group that complete. -/
theorem witness_RowsLeaveTheRestAlone :
    (∃ t, exec .openGrid (asking [0x30] hub) = .next t) ∧ (∃ t, exec .tHExpiry (pendingHold 1050000 []) = .next t)
      ∧ (∃ t, exec .close (asking [0x35] (racingIn .running hub)) = .next t) ∧ (∃ t, exec (.linkLoss 0) hub = .next t) :=
  ⟨⟨_, rfl⟩, ⟨_, rfl⟩, ⟨_, rfl⟩, ⟨_, rfl⟩⟩
end

section
/-! PROOFS. Rounding, clamping and gaps (R1), and race times and frame numbers compared through their signed difference (R3). -/

namespace Sys2Proof.Machine

/-! ### Rounding (R1) -/

theorem roundDiv_of_neg {n : Int} (d : Nat) (hn : n < 0) : roundDiv n d = -roundDiv (-n) d := by
  rw [roundDiv, roundDiv, if_neg (by omega), if_pos (by omega)]

/-- A number that is not negative lies less than half a divisor above its rounded multiple, and at most half below it. -/
theorem roundDiv_bounds {n : Int} {d : Nat} (hn : 0 ≤ n) (hd : 0 < d) :
    2 * (d * roundDiv n d) ≤ 2 * n + d ∧ 2 * n < 2 * (d * roundDiv n d) + d := by
  rw [roundDiv, if_pos hn]
  have lower : 2 * (d : Int) * ((2 * n + d) / (2 * d)) ≤ 2 * n + d := Int.mul_ediv_self_le (by omega)
  have upper : 2 * n + d < 2 * (d : Int) * ((2 * n + d) / (2 * d)) + 2 * d := Int.lt_mul_ediv_self_add (by omega)
  rw [mul_assoc] at lower upper
  omega

/-- A negative number is rounded as its negation is, so that a half goes away from zero on either side. -/
theorem roundDiv_nearest (n : Int) {d : Nat} (hd : 0 < d) :
    2 * (n - d * roundDiv n d).natAbs ≤ d
      ∧ (2 * (n - d * roundDiv n d).natAbs = d → n.natAbs < d * (roundDiv n d).natAbs) := by
  have product : d * (roundDiv n d).natAbs = (d * roundDiv n d : Int).natAbs := by simp [Int.natAbs_mul]
  rw [product]
  by_cases hn : 0 ≤ n
  · obtain ⟨lower, upper⟩ := roundDiv_bounds hn hd
    omega
  · obtain ⟨lower, upper⟩ := roundDiv_bounds (n := -n) (by omega) hd
    rw [roundDiv_of_neg d (by omega), mul_neg]
    omega

/-! ### Clamping (R1) -/

theorem clamp_of_lt {lo x : Int} (hi : Int) (h : x < lo) : clamp lo hi x = lo := if_pos h

theorem clamp_of_gt {lo hi x : Int} (hle : lo ≤ hi) (h : hi < x) : clamp lo hi x = hi := by
  rw [clamp, if_neg (by omega), if_pos h]

theorem clamp_of_mem {lo hi x : Int} (hlo : lo ≤ x) (hhi : x ≤ hi) : clamp lo hi x = x := by
  rw [clamp, if_neg (by omega), if_neg (by omega)]

/-! ### The gap on a closed lap (R1) -/

theorem dvd_sub_gap (s1 s2 : Int) (L : Nat) : (L : Int) ∣ s1 - s2 - gap s1 s2 L := by
  have whole : (L : Int) ∣ s1 - s2 - (s1 - s2) % L := Int.dvd_self_sub_emod
  simp only [gap]
  split
  · rw [← sub_add]
    exact dvd_add whole (dvd_refl _)
  · exact whole

theorem gap_bounds (s1 s2 : Int) {L : Nat} (hL : 0 < L) :
    -(L : Int) < 2 * gap s1 s2 L ∧ 2 * gap s1 s2 L ≤ L := by
  have nonneg : 0 ≤ (s1 - s2) % L := Int.emod_nonneg _ (by omega)
  have below : (s1 - s2) % L < L := Int.emod_lt_of_pos _ (by omega)
  simp only [gap]
  split <;> omega

/-! ### Race times (R3) -/

/-- Half the range reads as negative. -/
theorem timeDiff_eq (a b : RaceTime) :
    timeDiff b a = if (b - a).toNat < 2 ^ 31 then ((b - a).toNat : Int) else (b - a).toNat - 2 ^ 32 := by
  rw [timeDiff, BitVec.toInt_eq_toNat_cond]
  split <;> split <;> omega

theorem toNat_sub_eq_zero_iff (a b : RaceTime) : (b - a).toNat = 0 ↔ a = b := by
  bv_omega

theorem earlier_iff (a b : RaceTime) :
    earlier a b = true ↔ 1 ≤ (b - a).toNat ∧ (b - a).toNat ≤ 2 ^ 31 - 1 := by
  rw [earlier, decide_eq_true_iff, timeDiff_eq]
  split <;> omega

theorem later_iff (a b : RaceTime) : later a b = true ↔ 2 ^ 31 ≤ (b - a).toNat := by
  rw [later, decide_eq_true_iff, timeDiff_eq]
  split <;> omega

theorem atOrAfter_iff (a b : RaceTime) : atOrAfter a b = true ↔ a = b ∨ later a b = true := by
  rw [atOrAfter, decide_eq_true_iff, ← toNat_sub_eq_zero_iff, later_iff, timeDiff_eq]
  split <;> omega

/-! ### Frame numbers (R3) -/

/-- Half the range reads as negative. -/
theorem frameDiff_eq (g f : FrameNum) :
    frameDiff g f = if (f - g).toNat < 2 ^ 15 then ((f - g).toNat : Int) else (f - g).toNat - 2 ^ 16 := by
  rw [frameDiff, BitVec.toInt_eq_toNat_cond]
  split <;> split <;> omega

theorem add_frameDiff (g f : FrameNum) : g + BitVec.ofInt 16 (frameDiff g f) = f := by
  rw [frameDiff, BitVec.ofInt_toInt, add_sub_cancel]

/-- Settles O1: each clause is the law above of the operation it speaks of. -/
theorem roundingAndComparison : Obligations.RoundingAndComparison := by
  refine ⟨fun n d hd => roundDiv_nearest n hd, fun lo hi x hle => ?clamping, fun s1 s2 L hL => ?gaps,
    fun a b => ?raceTimes, fun g f => ?frameNumbers⟩
  case clamping => exact ⟨clamp_of_lt hi, clamp_of_gt hle, clamp_of_mem⟩
  case gaps => exact ⟨dvd_sub_gap s1 s2 L, gap_bounds s1 s2 hL⟩
  case raceTimes =>
    exact ⟨timeDiff_eq a b, toNat_sub_eq_zero_iff a b, earlier_iff a b, later_iff a b, atOrAfter_iff a b⟩
  case frameNumbers => exact ⟨frameDiff_eq g f, add_frameDiff g f⟩

end Sys2Proof.Machine
end

section
/-! PROOFS. The hold substitution, the effective interval and the stop of a braking car (R52, R53, R54), and the speed that
stage 5 gives at the end of the interval (R59). -/

namespace Sys2Proof.Machine

/-! ### Arithmetic of the stages (R1) -/

/-- A whole multiple of the divisor is not rounded. -/
theorem roundDiv_mul_self (n : Int) {d : Nat} (hd : 0 < d) : roundDiv (d * n) d = n := by
  have near : 2 * (d * (n - roundDiv (d * n) d) : Int).natAbs ≤ d := by
    rw [mul_sub]
    exact (roundDiv_nearest (d * n) hd).1
  rw [Int.natAbs_mul, Int.natAbs_natCast] at near
  have same : (n - roundDiv (d * n) d).natAbs = 0 := by
    by_contra differ
    have := Nat.mul_le_mul_left d (Nat.one_le_iff_ne_zero.mpr differ)
    omega
  omega

theorem clamp_bounds {lo hi : Int} (x : Int) (hle : lo ≤ hi) : lo ≤ clamp lo hi x ∧ clamp lo hi x ≤ hi := by
  rw [clamp]
  split
  · omega
  · split <;> omega

/-! ### Stage 1: the hold substitution (R52) -/

/-- The race states in which a target is held back to T_h. -/
def RaceState.Holds (q : RaceState) : Prop := q = .holdPending ∨ q = .hold ∨ q = .resumePending

theorem holdTarget_of_holds {r : RaceRecord} {h : RaceTime} (t : RaceTime) (holds : r.state.Holds) (htH : r.tH = some h) :
    holdTarget r t = if later t h then h else t := by
  obtain state | state | state := holds <;> simp only [holdTarget, state, htH]

theorem holdTarget_of_not_holds {r : RaceRecord} (t : RaceTime) (free : ¬r.state.Holds) : holdTarget r t = t := by
  rw [holdTarget]
  split
  case h_1 state _ => exact absurd (.inl state) free
  case h_2 state _ => exact absurd (.inr (.inl state)) free
  case h_3 state _ => exact absurd (.inr (.inr state)) free
  case h_4 => rfl

/-! ### Stage 1: the clamped interval (R53) -/

theorem effectiveInterval_of_lt {pr : RaceParams} {dt : Int} (h : dt < -pr.hB) : effectiveInterval pr dt = -pr.hB :=
  clamp_of_lt _ h

theorem effectiveInterval_of_mem {pr : RaceParams} {dt : Int} (lower : -(pr.hB : Int) ≤ dt) (upper : dt ≤ pr.hF) :
    effectiveInterval pr dt = dt :=
  clamp_of_mem lower upper

theorem effectiveInterval_of_gt {pr : RaceParams} {dt : Int} (h : (pr.hF : Int) < dt) : effectiveInterval pr dt = pr.hF :=
  clamp_of_gt (by omega) h

/-! ### Stage 2: the stop (R54) -/

theorem comesToRest_iff {v : Nat} {a e : Int} :
    comesToRest v a e = true ↔ a < 0 ∧ 0 < e ∧ (v : Int) * 1000000 + a * e < 0 :=
  decide_eq_true_iff

theorem stoppedInterval_of_rest {v : Nat} {a e : Int} (rest : comesToRest v a e = true) :
    stoppedInterval v a e = (v : Int) * 1000000 / -a :=
  if_pos rest

theorem stoppedInterval_of_no_rest {v : Nat} {a e : Int} (moving : comesToRest v a e = false) : stoppedInterval v a e = e :=
  if_neg (by simp [moving])

/-- A car comes to rest at or after its last sample, and before the end of the interval. -/
theorem stoppedInterval_bounds {v : Nat} {a e : Int} (rest : comesToRest v a e = true) :
    0 ≤ stoppedInterval v a e ∧ stoppedInterval v a e < e := by
  obtain ⟨braking, _, restsBefore⟩ := comesToRest_iff.mp rest
  rw [stoppedInterval_of_rest rest]
  constructor
  · exact Int.ediv_nonneg (by omega) (by omega)
  · refine Int.ediv_lt_of_lt_mul (by omega) ?_
    rw [mul_neg, mul_comm e a]
    omega

/-! ### Stage 5: the speed (R59) -/

theorem projectedSpeed_eq (v : Nat) (a e : Int) :
    (projectedSpeed v a e : Int) = clamp 0 20000 (v + roundDiv (a * e) 1000000) :=
  Int.toNat_of_nonneg (clamp_bounds _ (by omega)).1

/-- A car whose braking uses up its speed exactly at the end of the interval stands there: stage 5 finds its speed 0 though
stage 2 does not stop it. -/
theorem projectedSpeed_of_exact_stop {v : Nat} {a e : Int} (balance : (v : Int) * 1000000 + a * e = 0) :
    projectedSpeed v a e = 0 := by
  have lost : a * e = (1000000 : Nat) * (-v : Int) := by omega
  have speed := projectedSpeed_eq v a e
  rw [lost, roundDiv_mul_self _ (by omega), add_neg_cancel, clamp_of_mem le_rfl (by omega)] at speed
  exact_mod_cast speed

/-! ### The projection as its stages give it (R49 to R60) -/

section
variable (pr : RaceParams) (r : RaceRecord) (x : Sample) (t : RaceTime)

theorem projectSample_held_iff :
    (projectSample pr r x t).held = true ↔ (pr.hF : Int) < timeDiff (holdTarget r t) x.time :=
  decide_eq_true_iff

theorem projectSample_stopped :
    (projectSample pr r x t).stopped
      = comesToRest x.v x.a (effectiveInterval pr (timeDiff (holdTarget r t) x.time)) := rfl

/-- The interval that leaves stage 2. -/
def settledInterval : Int := stoppedInterval x.v x.a (effectiveInterval pr (timeDiff (holdTarget r t) x.time))

theorem projectSample_position :
    ((projectSample pr r x t).s, (projectSample pr r x t).lap)
      = wrapPosition pr.lapLength x.lap (x.s + distance x.v x.a (settledInterval pr r x t)) :=
  Prod.mk.eta

theorem projectSample_v : (projectSample pr r x t).v = projectedSpeed x.v x.a (settledInterval pr r x t) := rfl

theorem projectSample_d : (projectSample pr r x t).d = projectedOffset pr.dMax x.d x.w (settledInterval pr r x t) := rfl

/-- At the exact stop the car is not STOPPED, and its speed is 0 all the same. -/
theorem projectSample_of_exact_stop
    (balance : (x.v : Int) * 1000000 + x.a * effectiveInterval pr (timeDiff (holdTarget r t) x.time) = 0) :
    (projectSample pr r x t).stopped = false ∧ (projectSample pr r x t).v = 0 := by
  have moving : comesToRest x.v x.a (effectiveInterval pr (timeDiff (holdTarget r t) x.time)) = false := by
    rw [Bool.eq_false_iff, ne_eq, comesToRest_iff]
    omega
  refine ⟨moving, ?_⟩
  rw [projectSample_v, settledInterval, stoppedInterval_of_no_rest moving]
  exact projectedSpeed_of_exact_stop balance
end

/-- Settles O27: stage 1 by the laws of `holdTarget` and `effectiveInterval`, stage 2 by those of `comesToRest` and
`stoppedInterval`, and the later stages read off the projection. -/
theorem projectionInterval : Obligations.ProjectionInterval := by
  intro pr r x t holding dt e
  have stopped : (projectSample pr r x t).stopped = comesToRest x.v x.a e := projectSample_stopped pr r x t
  refine ⟨fun h holds htH => holdTarget_of_holds t holds htH, fun free => holdTarget_of_not_holds t free,
    projectSample_held_iff pr r x t, effectiveInterval_of_lt, effectiveInterval_of_mem, effectiveInterval_of_gt,
    ?rests, ?interval, ?kept, fun _ _ balance => projectSample_of_exact_stop pr r x t balance,
    projectSample_position pr r x t, ?speed, projectSample_d pr r x t⟩
  case rests => rw [stopped, comesToRest_iff]
  case interval =>
    intro rest
    rw [stopped] at rest
    exact ⟨stoppedInterval_of_rest rest, stoppedInterval_bounds rest⟩
  case kept =>
    intro moving
    exact stoppedInterval_of_no_rest (stopped ▸ moving)
  case speed =>
    rw [projectSample_v]
    exact projectedSpeed_eq x.v x.a _

end Sys2Proof.Machine
end

section
/-! PROOFS. The order of lists by their keys: dictionary order, insertion and sorting. -/

namespace Sys2Proof.Machine

/-- The model's dictionary order is the linear order of integer lists. -/
theorem lexLt_iff (xs ys : List Int) : lexLt xs ys = true ↔ xs < ys := by
  induction xs generalizing ys with
  | nil => cases ys <;> simp [lexLt]
  | cons x xs ih =>
    cases ys with
    | nil => simp [lexLt]
    | cons y ys => simp [lexLt, ih, List.cons_lt_cons_iff]

section
variable {α : Type} (key : α → List Int)

/-- Keys that never fall along the list. -/
def KeyOrdered (xs : List α) : Prop := xs.Pairwise fun a b => key a ≤ key b

theorem insertByKey_perm (x : α) (xs : List α) : (insertByKey key x xs).Perm (x :: xs) := by
  induction xs with
  | nil => exact .refl _
  | cons y ys ih =>
    rw [insertByKey]
    split
    · exact .refl _
    · exact (ih.cons y).trans (.swap x y ys)

theorem insertByKey_keyOrdered (x : α) {xs : List α} (ordered : KeyOrdered key xs) :
    KeyOrdered key (insertByKey key x xs) := by
  induction xs with
  | nil => exact List.pairwise_singleton _ x
  | cons y ys ih =>
    obtain ⟨least, rest⟩ := List.pairwise_cons.mp ordered
    rw [insertByKey]
    split
    case isTrue before =>
      have smaller : key x < key y := (lexLt_iff ..).mp before
      refine List.pairwise_cons.mpr ⟨fun z hz => ?_, ordered⟩
      obtain rfl | hz := List.mem_cons.mp hz
      · exact smaller.le
      · exact smaller.le.trans (least z hz)
    case isFalse after =>
      have larger : key y ≤ key x := not_lt.mp fun smaller => after ((lexLt_iff ..).mpr smaller)
      refine List.pairwise_cons.mpr ⟨fun z hz => ?_, ih rest⟩
      obtain rfl | hz := (mem_insertByKey ..).mp hz
      · exact larger
      · exact least z hz

/-- Sorting is insertion of the elements, one by one, into an ordered list. -/
theorem foldl_insertByKey_spec (xs : List α) {acc : List α} (ordered : KeyOrdered key acc) :
    (xs.foldl (fun acc x => insertByKey key x acc) acc).Perm (acc ++ xs)
      ∧ KeyOrdered key (xs.foldl (fun acc x => insertByKey key x acc) acc) := by
  induction xs generalizing acc with
  | nil => simpa using ordered
  | cons x xs ih =>
    obtain ⟨perm, sorted⟩ := ih (insertByKey_keyOrdered key x ordered)
    exact ⟨perm.trans (((insertByKey_perm key x acc).append_right xs).trans List.perm_middle.symm), sorted⟩

theorem sortByKey_perm (xs : List α) : (sortByKey key xs).Perm xs :=
  (foldl_insertByKey_spec key xs List.Pairwise.nil).1

theorem sortByKey_keyOrdered (xs : List α) : KeyOrdered key (sortByKey key xs) :=
  (foldl_insertByKey_spec key xs List.Pairwise.nil).2

@[simp] theorem mem_sortByKey {xs : List α} {x : α} : x ∈ sortByKey key xs ↔ x ∈ xs := (sortByKey_perm key xs).mem_iff

end

theorem nodup_allSlots : allSlots.Nodup := by decide

end Sys2Proof.Machine
end

section
/-! PROOFS. The cars of a view set and their order: who is viewable (R74), the reference car (R75), the three view modes
(R76 to R78) and the entries (R79). -/

namespace Sys2Proof.Machine

/-! ### Who is viewable, and who may serve as reference car (R74, R75) -/

theorem viewableState_iff (st : CarState) :
    viewableState st = true ↔ st ∈ [CarState.live, .coasting, .parked, .finished] := by
  simp [viewableState]

theorem State.viewable_iff (s : State) (p : PortNo) (i : Slot) :
    s.viewable p i = true ↔
      (s.car i).state ∈ [CarState.live, .coasting, .parked, .finished]
      ∧ (s.owns p i = true → (s.port p).entry.includeOwn = true)
      ∧ ((s.port p).entry.viewMode = .fixedList → i ∈ (s.port p).viewOrder) := by
  have own : (!s.owns p i || (s.port p).entry.includeOwn) = true ↔
      (s.owns p i = true → (s.port p).entry.includeOwn = true) := by
    cases s.owns p i <;> simp
  have listed : (decide ((s.port p).entry.viewMode ≠ .fixedList) || (s.port p).viewOrder.contains i) = true ↔
      ((s.port p).entry.viewMode = .fixedList → i ∈ (s.port p).viewOrder) := by
    simp [imp_iff_not_or]
  rw [State.viewable, Bool.and_eq_true, Bool.and_eq_true, viewableState_iff, own, listed, and_assoc]

/-- Slot `i` may give port `p` its reference car (R75). -/
def State.MayRefer (s : State) (p : PortNo) (i : Slot) : Prop :=
  s.owns p i = true ∧ (s.car i).seat = 0 ∧ viewableState (s.car i).state = true

theorem State.mayRefer_of_referenceCar {s : State} {p : PortNo} {i : Slot} (h : s.referenceCar p = some i) :
    s.MayRefer p i := by
  simpa [State.MayRefer, and_assoc] using List.find?_some h

theorem State.referenceCar_eq_none_iff (s : State) (p : PortNo) :
    s.referenceCar p = none ↔ ∀ i, ¬s.MayRefer p i := by
  simp [State.referenceCar, State.MayRefer, mem_allSlots]

theorem State.exists_referenceCar {s : State} {p : PortNo} {i : Slot} (h : s.MayRefer p i) :
    ∃ j, s.referenceCar p = some j :=
  Option.ne_none_iff_exists'.mp fun unserved => (s.referenceCar_eq_none_iff p).mp unserved i h

/-! ### The cars that a view set holds -/

section
variable (s : State) (p : PortNo) (t : RaceTime)

theorem State.mem_projectedSlots {is : List Slot} {e : Slot × Projected} :
    e ∈ s.projectedSlots t is ↔ e.1 ∈ is ∧ s.projected t e.1 = some e.2 := by
  obtain ⟨i, r⟩ := e
  simp [State.projectedSlots]

theorem State.projectedSlots_slots_sublist (is : List Slot) :
    ((s.projectedSlots t is).map fun e => e.1).Sublist is := by
  have slots : (s.projectedSlots t is).map (fun e => e.1) = is.filter fun i => (s.projected t i).isSome := by
    induction is with
    | nil => rfl
    | cons i is ih =>
      rw [State.projectedSlots] at ih ⊢
      cases found : s.projected t i <;> simp [found, ih]
  exact slots ▸ List.filter_sublist

/-- The viewable cars with their projections, in slot order. -/
def State.viewableSlots : List (Slot × Projected) := s.projectedSlots t (allSlots.filter (s.viewable p))

theorem State.mem_viewableSlots {e : Slot × Projected} :
    e ∈ s.viewableSlots p t ↔ s.viewable p e.1 = true ∧ s.projected t e.1 = some e.2 := by
  simp [State.viewableSlots, State.mem_projectedSlots, mem_allSlots]

theorem State.viewableSlots_distinct : (s.viewableSlots p t).Pairwise fun a b => a.1 ≠ b.1 :=
  List.pairwise_map.mp
    (((s.projectedSlots_slots_sublist t _).trans List.filter_sublist).nodup nodup_allSlots)

/-- A sort of the viewable cars keeps each slot once, with keys that do not fall. -/
theorem State.sorted_viewableSlots (key : Slot × Projected → List Int) :
    (sortByKey key (s.viewableSlots p t)).Pairwise fun a b => key a ≤ key b ∧ a.1 ≠ b.1 :=
  (sortByKey_keyOrdered key _).and
    ((sortByKey_perm key _).symm.pairwise (s.viewableSlots_distinct p t) fun differ => differ.symm)

/-! ### The three view modes (R76 to R78) -/

variable {s p}

theorem State.viewList_fixedList (mode : (s.port p).entry.viewMode = .fixedList) :
    s.viewList p t = s.projectedSlots t ((s.port p).viewOrder.filter (s.viewable p)) := by
  rw [State.viewList, mode]

theorem State.viewList_raceOrder (mode : (s.port p).entry.viewMode = .raceOrder) :
    s.viewList p t = sortByKey raceOrderKey (s.viewableSlots p t) := by
  rw [State.viewList, mode]; rfl

theorem State.viewList_nearestFirst {i : Slot} {ref : Projected} (mode : (s.port p).entry.viewMode = .nearestFirst)
    (serves : s.referenceCar p = some i) (proj : s.projected t i = some ref) :
    s.viewList p t = sortByKey (nearestKey s.params.lapLength ref) (s.viewableSlots p t) := by
  simp only [State.viewList, mode, serves, Option.bind_some, proj]; rfl

theorem State.viewList_nearestFirst_of_no_projection (mode : (s.port p).entry.viewMode = .nearestFirst)
    (unserved : (s.referenceCar p).bind (s.projected t) = none) :
    s.viewList p t = sortByKey raceOrderKey (s.viewableSlots p t) := by
  simp only [State.viewList, mode, unserved]; rfl

variable (s p)

/-- Every mode shows the same cars: the viewable ones, each with its projection. -/
theorem State.mem_viewList {e : Slot × Projected} :
    e ∈ s.viewList p t ↔ s.viewable p e.1 = true ∧ s.projected t e.1 = some e.2 := by
  cases mode : (s.port p).entry.viewMode
  case fixedList =>
    have listed : s.viewable p e.1 = true → e.1 ∈ (s.port p).viewOrder := fun shown =>
      ((s.viewable_iff p e.1).mp shown).2.2 mode
    rw [State.viewList_fixedList t mode, State.mem_projectedSlots, List.mem_filter, and_iff_right_of_imp listed]
  case raceOrder =>
    rw [State.viewList_raceOrder t mode, mem_sortByKey, State.mem_viewableSlots]
  case nearestFirst =>
    cases reference : (s.referenceCar p).bind (s.projected t)
    case none =>
      rw [State.viewList_nearestFirst_of_no_projection t mode reference, mem_sortByKey, State.mem_viewableSlots]
    case some ref =>
      obtain ⟨i, serves, proj⟩ := Option.bind_eq_some_iff.mp reference
      rw [State.viewList_nearestFirst t mode serves proj, mem_sortByKey, State.mem_viewableSlots]

/-! ### The two sorted orders (R77, R78) -/

/-- Car `a` stands before car `b` in RACE_ORDER (R77). -/
def RaceBefore (a b : Slot × Projected) : Prop :=
  b.2.lap < a.2.lap ∨ (a.2.lap = b.2.lap ∧ (b.2.s < a.2.s ∨ (a.2.s = b.2.s ∧ a.1 < b.1)))

theorem raceBefore_of_key_le {a b : Slot × Projected} (le : raceOrderKey a ≤ raceOrderKey b) (differ : a.1 ≠ b.1) :
    RaceBefore a b := by
  rw [← not_lt] at le
  simp only [raceOrderKey, List.cons_lt_cons_iff] at le
  rw [RaceBefore, Fin.lt_def]
  rw [ne_eq, Fin.ext_iff] at differ
  omega

/-- Car `a` stands before car `b` in NEAREST_FIRST about the projection `ref` (R78). -/
def NearestBefore (L : Nat) (ref : Projected) (a b : Slot × Projected) : Prop :=
  (gap a.2.s ref.s L).natAbs < (gap b.2.s ref.s L).natAbs
  ∨ ((gap a.2.s ref.s L).natAbs = (gap b.2.s ref.s L).natAbs ∧ a.1 < b.1)

theorem nearestBefore_of_key_le {L : Nat} {ref : Projected} {a b : Slot × Projected}
    (le : nearestKey L ref a ≤ nearestKey L ref b) (differ : a.1 ≠ b.1) : NearestBefore L ref a b := by
  rw [← not_lt] at le
  simp only [nearestKey, List.cons_lt_cons_iff] at le
  rw [NearestBefore, Fin.lt_def]
  rw [ne_eq, Fin.ext_iff] at differ
  omega

theorem State.raceSorted : (sortByKey raceOrderKey (s.viewableSlots p t)).Pairwise RaceBefore :=
  (s.sorted_viewableSlots p t raceOrderKey).imp fun ⟨le, differ⟩ => raceBefore_of_key_le le differ

theorem State.nearestSorted (L : Nat) (ref : Projected) :
    (sortByKey (nearestKey L ref) (s.viewableSlots p t)).Pairwise (NearestBefore L ref) :=
  (s.sorted_viewableSlots p t (nearestKey L ref)).imp fun ⟨le, differ⟩ => nearestBefore_of_key_le le differ

/-! ### The entries (R79) -/

theorem State.projected_of_last {i : Slot} {x : Sample} (last : (s.car i).last = some x) :
    s.projected t i = some (projectSample s.params s.race x t) := by
  rw [State.projected, projectCar, last, Option.map_some]

theorem State.viewEntry_of_last {i : Slot} {x : Sample} (y : Projected) (last : (s.car i).last = some x) :
    s.viewEntry (i, y) = {
      slot := i, number := (s.car i).number, s := y.s, lap := y.lap, d := y.d, v := y.v,
      offTrack := x.offTrack, spun := x.spun, coasting := decide ((s.car i).state = .coasting),
      parked := decide ((s.car i).state = .parked), finished := decide ((s.car i).state = .finished),
      held := y.held, stopped := y.stopped, jump := (s.car i).jump } := by
  simp only [State.viewEntry, last, Option.map_some, Option.getD_some]

end

/-- Settles O35: every mode shows the same cars (`State.mem_viewList`), FIXED_LIST keeps the order of its list, and the
other modes sort slots that differ, so that their keys, which end with the slot, order them strictly. -/
theorem viewOrder : Obligations.ViewOrder := by
  intro s p t raceOrdered
  have raceOrdered_of_sort (sort : s.viewList p t = sortByKey raceOrderKey (s.viewableSlots p t)) : raceOrdered := by
    change (s.viewList p t).Pairwise RaceBefore
    rw [sort]
    exact s.raceSorted p t
  refine ⟨s.viewable_iff p, ?entries, fun e => (s.mem_viewList p t).mp,
    fun i r shown proj => (s.mem_viewList p t).mpr ⟨shown, proj⟩, ?fixedList, ?raceOrder,
    fun mode => ⟨?noReference, ?found, fun i => State.mayRefer_of_referenceCar, ?nearest⟩⟩
  case entries =>
    intro i x last y
    exact ⟨s.projected_of_last t last, s.viewEntry_of_last y last⟩
  case fixedList =>
    intro mode
    rw [State.viewList_fixedList t mode]
    exact (s.projectedSlots_slots_sublist t _).trans List.filter_sublist
  case raceOrder =>
    intro mode
    exact raceOrdered_of_sort (State.viewList_raceOrder t mode)
  case noReference =>
    intro hidden
    have unserved : s.referenceCar p = none := (s.referenceCar_eq_none_iff p).mpr fun i ⟨owned, seat, shown⟩ =>
      Bool.false_ne_true ((hidden i owned seat).symm.trans shown)
    exact raceOrdered_of_sort (State.viewList_nearestFirst_of_no_projection t mode (by rw [unserved, Option.bind_none]))
  case found =>
    rintro ⟨i, serves⟩
    exact State.exists_referenceCar serves
  case nearest =>
    intro i ref serves proj
    exact State.viewList_nearestFirst t mode serves proj ▸ s.nearestSorted p t _ ref

end Sys2Proof.Machine
end

section
/-! PROOFS. The acknowledgement of a hold (R119, R120): what a HOLD_ACK does to the ack set, the entry into HOLD with its
HOLD_BEGIN, and that an event calls no further hold while one stands (R118, R145). -/

namespace Sys2Proof.Machine

/-! ### Offers and events leave the race's record alone unless they call a hold -/

@[simp] theorem State.arbiterTake_race (s : State) (p : PortNo) : (s.arbiterTake p).race = s.race := by
  unfold State.arbiterTake
  split
  · rfl
  · split <;> rfl

@[simp] theorem State.offerCue_race (s : State) (p : PortNo) (c : Cue) : (s.offerCue p c).race = s.race := by
  unfold State.offerCue
  split
  · split
    · rw [State.arbiterTake_race, State.modPort_race]
    · exact State.count_race ..
  · rfl

@[simp] theorem State.noticeToDirector_race (s : State) (n : Notice) : (s.noticeToDirector n).race = s.race := by
  unfold State.noticeToDirector State.offerNotice
  split
  · split
    · rw [State.arbiterTake_race, State.modPort_race]
    · rfl
  · rfl

theorem foldl_race {α : Type} (f : State → α → State) (xs : List α) (s : State)
    (keeps : ∀ u x, u.race = s.race → (f u x).race = s.race) : (xs.foldl f s).race = s.race :=
  List.foldlRecOn xs f (motive := fun u => u.race = s.race) rfl fun u same x _ => keeps u x same

theorem routeAct_race {s : State} (free : holdAllowed s.race.state = false) (e : Event) (r : Route) :
    (routeAct e s r).race = s.race := by
  unfold routeAct
  split
  case h_1 => exact foldl_race _ _ s fun u p same => (State.offerCue_race u p _).trans same
  case h_2 => exact State.noticeToDirector_race ..
  case h_3 => rw [autoHold, if_neg (by rw [free]; exact Bool.false_ne_true)]

/-- Where no hold may be called, an event leaves the race's record as it is: AUTO_HOLD is ignored there (R118, R145). -/
theorem raise_race {s : State} (free : holdAllowed s.race.state = false) (e : Event) : (raise e s).race = s.race := by
  refine foldl_race _ _ s fun u r same => ?_
  unfold routeOne
  split
  · exact (routeAct_race (same ▸ free) e r).trans same
  · exact same

/-! ### The entry into HOLD and the test before it (R119) -/

theorem enterHold_race (s : State) : (enterHold s).race = { s.race with state := .hold, acks := [] } :=
  raise_race (by rfl) _

theorem State.allAcked_iff (s : State) : s.allAcked = true ↔ ∀ a ∈ s.race.acks, a.acked = true := List.all_eq_true

theorem ackTest_of_complete {s : State} (pending : s.race.state = .holdPending) (due : s.reached s.race.tH = true)
    (acked : ∀ a ∈ s.race.acks, a.acked = true) : ackTest s = enterHold s :=
  if_pos ⟨pending, by rw [due, s.allAcked_iff.mpr acked]; rfl⟩

theorem ackTest_of_incomplete {s : State}
    (waits : s.reached s.race.tH = false ∨ ∃ a ∈ s.race.acks, a.acked = false) : ackTest s = s := by
  refine if_neg fun ⟨_, complete⟩ => ?_
  obtain ⟨due, acked⟩ := Bool.and_eq_true_iff.mp complete
  obtain early | ⟨a, mem, unacked⟩ := waits
  · exact Bool.false_ne_true (early.symm.trans due)
  · exact Bool.false_ne_true (unacked.symm.trans (s.allAcked_iff.mp acked a mem))

/-! ### The entry a HOLD_ACK marks (R120) -/

theorem State.marksAck_iff (s : State) (p : PortNo) (f : FrameNum) :
    s.marksAck p f = true ↔ ∃ a ∈ s.race.acks, a.port = p ∧ a.frame = f ∧ a.acked = false := by
  simp [State.marksAck, and_assoc]

/-- The state in which a HOLD_ACK of port `p` for frame `f` has marked its entry (R120). -/
def State.withAck (s : State) (p : PortNo) (f : FrameNum) : State :=
  { s with race := { s.race with acks := s.race.acks.map (·.after p f) } }

theorem takeHoldAck_of_marks {p : PortNo} {f : FrameNum} {s : State} (pending : s.race.state = .holdPending)
    (mine : ∃ a ∈ s.race.acks, a.port = p ∧ a.frame = f ∧ a.acked = false) :
    takeHoldAck p f s = ackTest (s.withAck p f) :=
  if_pos (by rw [decide_eq_true pending, (s.marksAck_iff p f).mpr mine]; rfl)

theorem takeHoldAck_of_ignored {p : PortNo} {f : FrameNum} {s : State}
    (ignored : s.race.state ≠ .holdPending ∨ ¬∃ a ∈ s.race.acks, a.port = p ∧ a.frame = f ∧ a.acked = false) :
    takeHoldAck p f s = s := by
  refine if_neg fun taken => ?_
  obtain ⟨pending, marks⟩ := Bool.and_eq_true_iff.mp taken
  obtain idle | notMine := ignored
  · exact idle (of_decide_eq_true pending)
  · exact notMine ((s.marksAck_iff p f).mp marks)

/-! ### The valid frame that carries it (R151) -/

section
variable (p : PortNo) (stamp : RaceTime) (s : State)

/-- The count of the frame leaves every wire and every port's class 5 as they are. -/
theorem countValid_sends (d : PortNo) : Sends d [] s (countValid p stamp s) := by
  by_cases same : d = p
  · subst same
    exact ⟨by rw [countValid, State.port_modPort, if_pos rfl],
      by rw [countValid, State.port_modPort, if_pos rfl, List.append_nil]⟩
  · exact .of_port (State.port_setPort_of_ne _ _ same)

theorem countValid_roleHolder : (countValid p stamp s).roleHolder = s.roleHolder := by
  have active (d : PortNo) : (countValid p stamp s).isActive d = s.isActive d := by
    rw [State.isActive, State.isActive, countValid_phase]
  have mgmt : (countValid p stamp s).mgmt = s.mgmt := rfl
  simp only [State.roleHolder, mgmt, active]

theorem countValid_mkFrame (d : PortNo) (b : FrameBody) : (countValid p stamp s).mkFrame d b = s.mkFrame d b := by
  simp only [State.mkFrame, State.holdsRole, countValid_roleHolder]

theorem noticed_of_countValid {bodies : List FrameBody} {t : State} (told : Noticed bodies (countValid p stamp s) t) :
    Noticed bodies s t := by
  intro d hears
  have counted := countValid_sends p stamp s d
  have outbox : ((countValid p stamp s).port d).outbox = (s.port d).outbox := counted.outbox.trans (List.append_nil _)
  have hearsCounted : Hears (countValid p stamp s) d bodies.length :=
    ⟨(countValid_roleHolder p stamp s).trans hears.role, by rw [counted.wire]; exact hears.busy,
      (Nat.add_le_add_right counted.notices_le _).trans hears.room⟩
  rw [told d hearsCounted, outbox, funext (countValid_mkFrame p stamp s d)]

/-- An ACTIVE port's HOLD_ACK of the right length reaches the Race Controller (R120, R153). -/
theorem exec_holdAck_of_active {payload : List Byte} (active : (s.port p).phase = .active) (fits : payload.length = 2) :
    exec (.holdAck p stamp payload) s
      = .next (takeHoldAck p (BitVec.ofNat 16 (beNat payload)) (countValid p stamp s)) := by
  have runs : exec (.holdAck p stamp payload) s = .next (receiveHoldAck p stamp payload s) := rfl
  rw [runs, receiveHoldAck]
  exact congrArg _ (if_pos ⟨(countValid_phase p p stamp s).trans active, fits⟩)

end

/-- Settles O29: the frame is counted and reaches `takeHoldAck`, which either ignores it or marks the entry and makes the test
of R119; that test goes either way by `ackTest_of_complete` and `ackTest_of_incomplete`. -/
theorem holdAckMarksEntry : Obligations.HoldAckMarksEntry := by
  intro p stamp payload s active fits f heard mine acks
  rw [exec_holdAck_of_active p stamp s active fits]
  refine ⟨fun idle => congrArg _ (takeHoldAck_of_ignored (.inl idle)),
    fun notMine => congrArg _ (takeHoldAck_of_ignored (.inr notMine)), fun pending hasEntry => ?_⟩
  have marked : takeHoldAck p f heard = ackTest (heard.withAck p f) := takeHoldAck_of_marks pending hasEntry
  rw [marked]
  refine ⟨fun due acked => ⟨enterHold (heard.withAck p f), ?complete, enterHold_race _,
    (RouteEffect.withRace heard _).trans (enterHold_effect _), ?told⟩, fun waits => ?incomplete⟩
  case complete => exact congrArg _ (ackTest_of_complete pending due acked)
  case told =>
    have sent := (enterHold_sent (heard.withAck p f)).after (.withRace heard _) rfl
    exact noticed_of_countValid p stamp s sent.noticed
  case incomplete => exact congrArg _ (ackTest_of_incomplete waits)

end Sys2Proof.Machine
end

section
/-! PROOFS. The rights of a command's sender and the layout of its payload (R177, R178, R196, R197): which row takes a command,
and what that row answers to a sender without the right and to a payload that its layout refuses. -/

namespace Sys2Proof.Machine

/-! ### Taking the head command (R177) -/

@[simp] theorem State.holdsRole_dropHead (s : State) (p : PortNo) : s.dropHead.holdsRole p = s.holdsRole p := rfl

@[simp] theorem mayReadPort_dropHead (c : Command) (s : State) : mayReadPort c s.dropHead = mayReadPort c s := rfl

theorem onHead_of_mine {s : State} {c : Command} {mine : Command → Bool} (head : s.head = some c) (own : mine c = true)
    (act : Command → State → State) : onHead mine act s = act c s.dropHead := by
  simp only [onHead, head, own, if_true]

theorem codeIs_iff {code : Byte} {c : Command} : codeIs code c = true ↔ c.payload.head? = some code := decide_eq_true_iff

theorem onHead_of_code {s : State} {c : Command} {code : Byte} (head : s.head = some c) (is : c.payload.head? = some code)
    (act : Command → State → State) : onHead (codeIs code) act s = act c s.dropHead :=
  onHead_of_mine head (codeIs_iff.mpr is) act

theorem asDirector_of_stranger {s : State} {c : Command} (stranger : s.holdsRole c.sender = false)
    (act : State → State × Status) : asDirector act c s = answer c .privilege [] s := by
  simp [asDirector, stranger]

theorem asDirector_of_range {s : State} {c : Command} {act : State → State × Status} (director : s.holdsRole c.sender = true)
    (refused : act s = (s, .range)) : asDirector act c s = answer c .range [] s := by
  simp [asDirector, director, refused]

/-! ### The row of a code (R196) -/

theorem codeRows_find_self :
    ∀ r ∈ codeRows, r.1 ≠ 0x11 ∧ codeRows.find? (fun q => decide (q.1 = r.1)) = some r := by decide

theorem commandRow_of_mem {c : Command} {code : Byte} {row : Instr} (listed : (code, row) ∈ codeRows)
    (is : c.payload.head? = some code) : commandRow c = row := by
  obtain ⟨notWrite, found⟩ := codeRows_find_self _ listed
  simp only [commandRow, List.headD_eq_head?_getD, is, Option.getD_some, notWrite, if_false, found]

theorem commandRow_of_write {c : Command} (is : c.payload.head? = some 0x11) : commandRow c = writeRow c := by
  simp only [commandRow, List.headD_eq_head?_getD, is, Option.getD_some, if_true]

theorem codeRows_known : ∀ r ∈ codeRows, r.1 ∈ knownCodes := by decide

theorem commandRow_of_unknown {c : Command} {code : Byte} (is : c.payload.head? = some code) (unknown : code ∉ knownCodes) :
    commandRow c = .unknownCommand := by
  have notWrite : code ≠ 0x11 := fun same => unknown (same ▸ by decide)
  have notFound : codeRows.find? (fun r => decide (r.1 = code)) = none :=
    List.find?_eq_none.mpr fun r listed same => unknown (of_decide_eq_true same ▸ codeRows_known r listed)
  simp only [commandRow, List.headD_eq_head?_getD, is, Option.getD_some, notWrite, if_false, notFound]

theorem exec_unknownCommand {s : State} {c : Command} {code : Byte} (head : s.head = some c)
    (is : c.payload.head? = some code) (unknown : code ∉ knownCodes) :
    exec .unknownCommand s = .next (answer c .unknown [] s.dropHead) := by
  have mine : codeUnknown c = true := by
    simp only [codeUnknown, List.headD_eq_head?_getD, is, Option.getD_some, List.contains_eq_mem, unknown, decide_false,
      Bool.not_false]
  exact congrArg _ (onHead_of_mine head mine _)

/-! ### Payloads with one parameter byte (R197) -/

theorem payload_of_code {c : Command} {code : Byte} (is : c.payload.head? = some code) (two : c.payload.length = 2) :
    ∃ b, c.payload = [code, b] := by
  obtain ⟨a, b, pair⟩ := List.length_eq_two.mp two
  rw [pair] at is
  cases is
  exact ⟨b, pair⟩

theorem numAt_param (code b : Byte) : numAt [code, b] 1 1 = b.toNat := by
  simp [numAt, field, beNat]

theorem portByte_of_portOf {b : Byte} {p : PortNo} (names : portOf b.toNat = some p) : portByte p = b := by
  unfold portOf at names
  split at names
  · cases names
    exact (BitVec.ofNat_toNat 8 b).trans b.setWidth_eq
  · cases names

theorem slotByte_of_slotOf {b : Byte} {i : Slot} (names : slotOf b.toNat = some i) : slotByte i = b := by
  unfold slotOf at names
  split at names
  · cases names
    exact (BitVec.ofNat_toNat 8 b).trans b.setWidth_eq
  · cases names

theorem portOf_eq_none {c : Command} {code : Byte} (is : c.payload.head? = some code) (two : c.payload.length = 2)
    (unfit : ¬∃ p, c.payload = [code, portByte p]) : portOf (numAt c.payload 1 1) = none := by
  obtain ⟨b, pair⟩ := payload_of_code is two
  rw [pair, numAt_param]
  refine Option.eq_none_iff_forall_ne_some.mpr fun p names => unfit ⟨p, ?_⟩
  rw [pair, portByte_of_portOf names]

theorem slotOf_eq_none {c : Command} {code : Byte} (is : c.payload.head? = some code) (two : c.payload.length = 2)
    (unfit : ¬∃ i, c.payload = [code, slotByte i]) : slotOf (numAt c.payload 1 1) = none := by
  obtain ⟨b, pair⟩ := payload_of_code is two
  rw [pair, numAt_param]
  refine Option.eq_none_iff_forall_ne_some.mpr fun i names => unfit ⟨i, ?_⟩
  rw [pair, slotByte_of_slotOf names]

theorem portParam_of_unfit {c : Command} {code : Byte} (is : c.payload.head? = some code)
    (unfit : ¬∃ p, c.payload = [code, portByte p]) (act : PortNo → State → State × Status) (s : State) :
    portParam c act s = (s, .range) := by
  unfold portParam
  split
  next two => rw [portOf_eq_none is two unfit]
  next => rfl

theorem slotParam_of_unfit {c : Command} {code : Byte} (is : c.payload.head? = some code)
    (unfit : ¬∃ i, c.payload = [code, slotByte i]) (act : Slot → State → State × Status) (s : State) :
    slotParam c act s = (s, .range) := by
  unfold slotParam
  split
  next two => rw [slotOf_eq_none is two unfit]
  next => rfl

theorem clearCounters_of_unfit {c : Command} {code : Byte} (is : c.payload.head? = some code) (two : c.payload.length = 2)
    (unfit : ¬∃ n ≤ 8, c.payload = [code, BitVec.ofNat 8 n]) (s : State) :
    clearCounters (numAt c.payload 1 1) s = (s, .range) := by
  have noPort : portOf (numAt c.payload 1 1) = none :=
    portOf_eq_none is two fun ⟨p, names⟩ => unfit ⟨p.val, p.isLt.le, names⟩
  have notHub : numAt c.payload 1 1 ≠ 8 := by
    obtain ⟨b, pair⟩ := payload_of_code is two
    rw [pair, numAt_param]
    refine fun eight => unfit ⟨b.toNat, eight.le, ?_⟩
    rw [pair, BitVec.ofNat_toNat, BitVec.setWidth_eq]
  simp only [clearCounters, notHub, if_false, noPort]

/-! ### The rows of the director alone (R178) -/

/-- Row `row` takes the commands of code `code`. It answers PRIVILEGE to any sender but the director, and RANGE to the
director's payload that its layout `fits` refuses (R177, R178, R197). -/
structure DirectorRow (code : Byte) (row : Instr) (fits : List Byte → Prop) : Prop where
  listed : (code, row) ∈ codeRows
  privilege : ∀ {s : State} {c : Command}, s.head = some c → c.payload.head? = some code → s.holdsRole c.sender = false →
    exec row s = .next (answer c .privilege [] s.dropHead)
  range : ∀ {s : State} {c : Command}, s.head = some c → c.payload.head? = some code → s.holdsRole c.sender = true →
    ¬fits c.payload → exec row s = .next (answer c .range [] s.dropHead)

/-- A payload of the code `code` and a port number (R196). -/
def namesPort (code : Byte) (bs : List Byte) : Prop := ∃ p : PortNo, bs = [code, portByte p]

/-- A payload of the code `code` and a slot number (R196). -/
def namesSlot (code : Byte) (bs : List Byte) : Prop := ∃ i : Slot, bs = [code, slotByte i]

/-- A payload of the code `code` and a port number, or 8 for the hub (R184, R196). -/
def namesCounters (code : Byte) (bs : List Byte) : Prop := ∃ n ≤ 8, bs = [code, BitVec.ofNat 8 n]

/-- A payload of the code alone (R196). -/
def isAlone (bs : List Byte) : Prop := bs.length = 1

section
variable {code : Byte} {row : Instr} {fits : List Byte → Prop}

theorem DirectorRow.of_asDirector {work : Command → State → State × Status} (listed : (code, row) ∈ codeRows)
    (runs : ∀ s, exec row s = .next (onHead (codeIs code) (fun c => asDirector (work c) c) s))
    (refuses : ∀ c s, c.payload.head? = some code → ¬fits c.payload → work c s = (s, .range)) :
    DirectorRow code row fits where
  listed := listed
  privilege {s c} head is stranger := by
    rw [runs, onHead_of_code head is, asDirector_of_stranger (s := s.dropHead) stranger]
  range {s c} head is director unfit := by
    rw [runs, onHead_of_code head is, asDirector_of_range (s := s.dropHead) director (refuses c _ is unfit)]

theorem DirectorRow.of_noParams {act : State → State × Status} (listed : (code, row) ∈ codeRows)
    (runs : ∀ s, exec row s = .next (onHead (codeIs code) (fun c => asDirector (noParams c act) c) s)) :
    DirectorRow code row isAlone :=
  .of_asDirector listed runs fun _ _ _ unfit => if_neg unfit

theorem DirectorRow.of_portParam {act : PortNo → State → State × Status} (listed : (code, row) ∈ codeRows)
    (runs : ∀ s, exec row s = .next (onHead (codeIs code) (fun c => asDirector (portParam c act) c) s)) :
    DirectorRow code row (namesPort code) :=
  .of_asDirector listed runs fun _ s is unfit => portParam_of_unfit is unfit act s

theorem DirectorRow.of_slotParam {act : Slot → State → State × Status} (listed : (code, row) ∈ codeRows)
    (runs : ∀ s, exec row s = .next (onHead (codeIs code) (fun c => asDirector (slotParam c act) c) s)) :
    DirectorRow code row (namesSlot code) :=
  .of_asDirector listed runs fun _ s is unfit => slotParam_of_unfit is unfit act s

end

theorem clearCounters_row : DirectorRow 0x03 .clearCounters (namesCounters 0x03) := by
  refine .of_asDirector (by decide) (fun _ => rfl) fun c s is unfit => ?_
  split
  next two => exact clearCounters_of_unfit is two unfit s
  next => rfl

theorem portReset_row : DirectorRow 0x20 .portReset (namesPort 0x20) := .of_portParam (by decide) fun _ => rfl

theorem portQuiet_row : DirectorRow 0x21 .portQuiet (namesPort 0x21) := .of_portParam (by decide) fun _ => rfl

theorem portWake_row : DirectorRow 0x22 .portWake (namesPort 0x22) := .of_portParam (by decide) fun _ => rfl

theorem sendView_row : DirectorRow 0x23 .sendView (namesPort 0x23) := .of_portParam (by decide) fun _ => rfl

theorem openGrid_row : DirectorRow 0x30 .openGrid isAlone := .of_noParams (by decide) fun _ => rfl

theorem start_row : DirectorRow 0x31 .start isAlone := .of_noParams (by decide) fun _ => rfl

theorem abortStart_row : DirectorRow 0x32 .abortStart isAlone := .of_noParams (by decide) fun _ => rfl

theorem hold_row : DirectorRow 0x33 .hold isAlone := .of_noParams (by decide) fun _ => rfl

theorem resume_row : DirectorRow 0x34 .resume isAlone := .of_noParams (by decide) fun _ => rfl

theorem close_row : DirectorRow 0x35 .close isAlone := .of_noParams (by decide) fun _ => rfl

theorem resetRace_row : DirectorRow 0x36 .resetRace isAlone := .of_noParams (by decide) fun _ => rfl

theorem retireCar_row : DirectorRow 0x40 .retireCar (namesSlot 0x40) := .of_slotParam (by decide) fun _ => rfl

theorem resetHub_row : DirectorRow 0x42 .resetHub isAlone := .of_noParams (by decide) fun _ => rfl

/-- MOVE_DIRECTOR answers in three ways of its own, but refuses as the others do (R174). -/
theorem moveDirector_row : DirectorRow 0x41 .moveDirector (namesPort 0x41) where
  listed := by decide
  privilege {s c} head is stranger := by
    refine congrArg _ ((onHead_of_code head is _).trans ?_)
    simp [stranger]
  range {s c} head is director unfit := by
    refine congrArg _ ((onHead_of_code head is _).trans ?_)
    rw [State.holdsRole_dropHead, director, if_pos rfl]
    split
    next two => rw [portOf_eq_none is two unfit]
    next => rfl

/-- The codes of the commands that only the director may send, but for WRITE_ENTRIES (R178). -/
def directorCodes : List Byte :=
  [0x03, 0x20, 0x21, 0x22, 0x23, 0x30, 0x31, 0x32, 0x33, 0x34, 0x35, 0x36, 0x40, 0x41, 0x42]

theorem directorRow_of_mem {code : Byte} (mem : code ∈ directorCodes) : ∃ row fits, DirectorRow code row fits := by
  simp only [directorCodes, List.mem_cons, List.not_mem_nil, or_false] at mem
  obtain rfl | rfl | rfl | rfl | rfl | rfl | rfl | rfl | rfl | rfl | rfl | rfl | rfl | rfl | rfl := mem
  · exact ⟨_, _, clearCounters_row⟩
  · exact ⟨_, _, portReset_row⟩
  · exact ⟨_, _, portQuiet_row⟩
  · exact ⟨_, _, portWake_row⟩
  · exact ⟨_, _, sendView_row⟩
  · exact ⟨_, _, openGrid_row⟩
  · exact ⟨_, _, start_row⟩
  · exact ⟨_, _, abortStart_row⟩
  · exact ⟨_, _, hold_row⟩
  · exact ⟨_, _, resume_row⟩
  · exact ⟨_, _, close_row⟩
  · exact ⟨_, _, resetRace_row⟩
  · exact ⟨_, _, retireCar_row⟩
  · exact ⟨_, _, moveDirector_row⟩
  · exact ⟨_, _, resetHub_row⟩

theorem exec_directorCode_of_stranger {s : State} {c : Command} {code : Byte} (mem : code ∈ directorCodes)
    (head : s.head = some c) (is : c.payload.head? = some code) (stranger : s.holdsRole c.sender = false) :
    exec (commandRow c) s = .next (answer c .privilege [] s.dropHead) := by
  obtain ⟨row, fits, directed⟩ := directorRow_of_mem mem
  rw [commandRow_of_mem directed.listed is]
  exact directed.privilege head is stranger

/-- The director's command that the layout of its row refuses is answered RANGE (R177, R197). -/
theorem DirectorRow.outOfRange {code : Byte} {row : Instr} {fits : List Byte → Prop} (directed : DirectorRow code row fits)
    {s : State} {c : Command} (head : s.head = some c) (director : s.holdsRole c.sender = true)
    (is : c.payload.head? = some code) (unfit : ¬fits c.payload) :
    commandRow c = row ∧ exec row s = .next (answer c .range [] s.dropHead) :=
  ⟨commandRow_of_mem directed.listed is, directed.range head is director unfit⟩

/-! ### The tables (R179) -/

/-- The nine tables in the order of their codes (R191). -/
def tablesByCode : List Table :=
  [.carTable, .raceParameters, .portTable, .viewOrderLists, .eventRouteTable, .trainingPatterns, .crossingList,
    .classification, .contactPairSet]

theorem tableOf_eq_getElem? (n : Nat) : tableOf n = tablesByCode[n]? := by
  match n with
  | 0 | 1 | 2 | 3 | 4 | 5 | 6 | 7 | 8 => rfl
  | n + 9 => simp [tableOf, tablesByCode]

theorem tableOf_eq_none_iff (n : Nat) : tableOf n = none ↔ 9 ≤ n := by
  rw [tableOf_eq_getElem?, List.getElem?_eq_none_iff]
  rfl

theorem Command.table_eq_none_iff (c : Command) : c.table = none ↔ ∀ b, c.payload[1]? = some b → 9 ≤ b.toNat := by
  simp only [Command.table, Option.bind_eq_none_iff, tableOf_eq_none_iff]

/-! ### READ_STATUS and READ_PORT (R184) -/

theorem exec_readStatus_of_range {s : State} {c : Command} (head : s.head = some c) (is : c.payload.head? = some 0x01)
    (long : c.payload.length ≠ 1) : exec .readStatus s = .next (answer c .range [] s.dropHead) :=
  congrArg _ ((onHead_of_code head is _).trans (if_neg long))

theorem mayReadPort_iff (c : Command) (s : State) :
    mayReadPort c s = true ↔ s.holdsRole c.sender = true ∨ c.payload[1]? = some (portByte c.sender) := by
  rw [mayReadPort, Bool.or_eq_true, decide_eq_true_iff]

theorem exec_readPort_of_stranger {s : State} {c : Command} (head : s.head = some c) (is : c.payload.head? = some 0x02)
    (stranger : mayReadPort c s = false) : exec .readPort s = .next (answer c .privilege [] s.dropHead) := by
  refine congrArg _ ((onHead_of_code head is _).trans ?_)
  simp [stranger]

theorem exec_readPort_of_range {s : State} {c : Command} (head : s.head = some c) (is : c.payload.head? = some 0x02)
    (allowed : mayReadPort c s = true) (unfit : ¬namesPort 0x02 c.payload) :
    exec .readPort s = .next (answer c .range [] s.dropHead) := by
  refine congrArg _ ((onHead_of_code head is _).trans ?_)
  rw [mayReadPort_dropHead, allowed, if_pos rfl]
  split
  next two => rw [portOf_eq_none is two unfit]
  next => rfl

/-! ### READ_ENTRIES and SCAN (R180, R183) -/

theorem mayRead_iff (c : Command) (s : State) :
    mayRead c s = true ↔ s.holdsRole c.sender = true ∨ c.table = some .carTable ∨ c.table = some .crossingList
      ∨ c.table = some .classification := by
  rw [mayRead, Bool.or_eq_true]
  refine or_congr_right ?_
  cases c.table with
  | none => simp
  | some t => cases t <;> simp [Table.isPublic]

/-- A command of `size` bytes that reads a table does `act` on it: what READ_ENTRIES and SCAN share (R178, R197). -/
def readsTable (size : Nat) (act : Command → Table → State → State) (c : Command) (s : State) : State :=
  if mayRead c s then
    match c.table with
    | some t => if c.payload.length = size then act c t s else answer c .range [] s
    | none => answer c .range [] s
  else answer c .privilege [] s

theorem exec_readEntries_eq (s : State) :
    exec .readEntries s = .next (onHead (codeIs 0x10) (readsTable 4 readTable) s) := rfl

theorem exec_scan_eq (s : State) : exec .scan s = .next (onHead (codeIs 0x12) (readsTable 11 scanTable) s) := rfl

theorem readsTable_of_stranger {c : Command} {s : State} (stranger : mayRead c s = false) (size : Nat)
    (act : Command → Table → State → State) : readsTable size act c s = answer c .privilege [] s := by
  simp [readsTable, stranger]

theorem readsTable_of_range {c : Command} {s : State} {size : Nat} (allowed : mayRead c s = true)
    (unfit : c.table = none ∨ c.payload.length ≠ size) (act : Command → Table → State → State) :
    readsTable size act c s = answer c .range [] s := by
  rw [readsTable, allowed, if_pos rfl]
  split
  next t named => exact if_neg (unfit.resolve_left (by simp [named]))
  next => rfl

section
variable {s : State} {c : Command}

theorem exec_reading_of_stranger (head : s.head = some c) (is : c.payload.head? = some 0x10 ∨ c.payload.head? = some 0x12)
    (stranger : mayRead c s = false) : exec (commandRow c) s = .next (answer c .privilege [] s.dropHead) := by
  obtain is | is := is
  · rw [commandRow_of_mem (row := .readEntries) (by decide) is, exec_readEntries_eq, onHead_of_code head is,
      readsTable_of_stranger (s := s.dropHead) stranger]
  · rw [commandRow_of_mem (row := .scan) (by decide) is, exec_scan_eq, onHead_of_code head is,
      readsTable_of_stranger (s := s.dropHead) stranger]

theorem readEntries_outOfRange (head : s.head = some c) (is : c.payload.head? = some 0x10) (allowed : mayRead c s = true)
    (unfit : c.table = none ∨ c.payload.length ≠ 4) :
    commandRow c = .readEntries ∧ exec .readEntries s = .next (answer c .range [] s.dropHead) := by
  refine ⟨commandRow_of_mem (by decide) is, ?_⟩
  rw [exec_readEntries_eq, onHead_of_code head is, readsTable_of_range (s := s.dropHead) allowed unfit]

theorem scan_outOfRange (head : s.head = some c) (is : c.payload.head? = some 0x12) (allowed : mayRead c s = true)
    (unfit : c.table = none ∨ c.payload.length ≠ 11) :
    commandRow c = .scan ∧ exec .scan s = .next (answer c .range [] s.dropHead) := by
  refine ⟨commandRow_of_mem (by decide) is, ?_⟩
  rw [exec_scan_eq, onHead_of_code head is, readsTable_of_range (s := s.dropHead) allowed unfit]

end

/-! ### WRITE_ENTRIES (R178, R181) -/

theorem writeTable_of_stranger {c : Command} {s : State} (stranger : s.holdsRole c.sender = false) (size : Nat)
    (write : Nat → List Byte → State → State × Status) : writeTable size write c s = answerWrite c .privilege 0 s := by
  simp [writeTable, stranger]

theorem writes_iff {t : Table} {c : Command} :
    writes t c = true ↔ c.payload.head? = some 0x11 ∧ c.table = some t := by
  rw [writes, Bool.and_eq_true, codeIs_iff, decide_eq_true_iff]

theorem exec_writes_of_stranger {s : State} {c : Command} {t : Table} {row : Instr} {size : Nat}
    {write : Nat → List Byte → State → State × Status} (head : s.head = some c) (is : c.payload.head? = some 0x11)
    (stranger : s.holdsRole c.sender = false) (named : c.table = some t)
    (runs : exec row s = .next (onHead (writes t) (writeTable size write) s)) :
    exec row s = .next (answerWrite c .privilege 0 s.dropHead) := by
  rw [runs, onHead_of_mine head (writes_iff.mpr ⟨is, named⟩), writeTable_of_stranger (s := s.dropHead) stranger]

theorem exec_writeNoAccessTable {s : State} {c : Command} (head : s.head = some c) (is : c.payload.head? = some 0x11)
    (nowhere : c.table.any Table.isWritable = false) :
    exec .writeNoAccessTable s = .next (if s.holdsRole c.sender ∧ c.table = none
      then answerWrite c .range 0 s.dropHead else answerWrite c .privilege 0 s.dropHead) := by
  have mine : writesNowhere c = true := by rw [writesNowhere, codeIs_iff.mpr is, nowhere]; rfl
  exact congrArg _ (onHead_of_mine head mine _)

/-- A table without write access is refused with PRIVILEGE whoever asks (R178). -/
theorem writeRow_of_noAccess {s : State} {c : Command} {t : Table} (head : s.head = some c)
    (is : c.payload.head? = some 0x11) (named : c.table = some t) (noAccess : t.isWritable = false) :
    writeRow c = .writeNoAccessTable ∧ exec .writeNoAccessTable s = .next (answerWrite c .privilege 0 s.dropHead) := by
  constructor
  · revert noAccess
    cases t <;> simp [writeRow, named, Table.isWritable]
  · rw [exec_writeNoAccessTable head is (by rw [named]; exact noAccess), if_neg (by simp [named])]

theorem writeRow_of_noTable {c : Command} (unnamed : c.table = none) : writeRow c = .writeNoAccessTable := by
  simp only [writeRow, unnamed]

theorem exec_writeNoAccessTable_of_noTable {s : State} {c : Command} (head : s.head = some c)
    (is : c.payload.head? = some 0x11) (unnamed : c.table = none) (director : s.holdsRole c.sender = true) :
    exec .writeNoAccessTable s = .next (answerWrite c .range 0 s.dropHead) := by
  rw [exec_writeNoAccessTable head is (by rw [unnamed]; rfl), if_pos ⟨director, unnamed⟩]

/-- A WRITE_ENTRIES of a sender without the role is refused with PRIVILEGE whatever it names (R178). -/
theorem exec_writeRow_of_stranger {s : State} {c : Command} (head : s.head = some c) (is : c.payload.head? = some 0x11)
    (stranger : s.holdsRole c.sender = false) :
    exec (writeRow c) s = .next (answerWrite c .privilege 0 s.dropHead) := by
  unfold writeRow
  split
  case h_1 named | h_2 named | h_3 named | h_4 named | h_5 named | h_6 named =>
    exact exec_writes_of_stranger head is stranger named rfl
  case h_7 named | h_8 named | h_9 named => exact (writeRow_of_noAccess head is named rfl).2
  case h_10 unnamed =>
    rw [exec_writeNoAccessTable head is (by rw [unnamed]; rfl), if_neg (by simp [stranger])]

/-! ### The refusals together -/

/-- Settles O49: the rows of the director alone refuse by their `DirectorRow`, the rows that anybody may ask for some port or
table by `mayReadPort` and `mayRead`, and a WRITE_ENTRIES by the table it names. -/
theorem rightsChecked : Obligations.RightsChecked := by
  refine ⟨fun n t => by rw [tableOf_eq_getElem?]; rfl, fun s c head =>
    ⟨fun stranger => ⟨?directorOnly, ?readPort, ?reading, ?writing⟩, ?noAccess, ?unknown, ?range⟩⟩
  case directorOnly => exact fun code mem is => exec_directorCode_of_stranger mem head is stranger
  case readPort =>
    intro is other
    rw [commandRow_of_mem (row := .readPort) (by decide) is]
    refine exec_readPort_of_stranger head is (Bool.eq_false_iff.mpr fun allowed => ?_)
    exact ((mayReadPort_iff c s).mp allowed).elim (by simp [stranger]) other
  case reading =>
    intro is notCars notCrossings notClassification
    refine exec_reading_of_stranger head is (Bool.eq_false_iff.mpr fun allowed => ?_)
    simpa [stranger, notCars, notCrossings, notClassification] using (mayRead_iff c s).mp allowed
  case writing =>
    intro is
    rw [commandRow_of_write is]
    exact exec_writeRow_of_stranger head is stranger
  case noAccess =>
    intro is named
    rw [commandRow_of_write is]
    obtain named | named | named := named
    · exact writeRow_of_noAccess head is named rfl
    · exact writeRow_of_noAccess head is named rfl
    · exact writeRow_of_noAccess head is named rfl
  case unknown =>
    exact fun code is unknown => ⟨commandRow_of_unknown is unknown, exec_unknownCommand head is unknown⟩
  case range =>
    intro director is mayReadTable outOfRange alone ported
    have ofPort {code : Byte} {row : Instr} (directed : DirectorRow code row (namesPort code)) : ported code row :=
      fun role has unfit => directed.outOfRange head role has fun ⟨p, names⟩ => unfit p names
    have ofAlone {code : Byte} {row : Instr} (directed : DirectorRow code row isAlone) : alone code row :=
      fun role has long => directed.outOfRange head role has long
    refine ⟨?readStatus, ?readPort, ?clearCounters, ?readEntries, ?scan, ?noTable, ofPort portReset_row,
      ofPort portQuiet_row, ofPort portWake_row, ofPort sendView_row, ofPort moveDirector_row, ?retireCar,
      ofAlone openGrid_row, ofAlone start_row, ofAlone abortStart_row, ofAlone hold_row, ofAlone resume_row,
      ofAlone close_row, ofAlone resetRace_row, ofAlone resetHub_row, c.table_eq_none_iff⟩
    case readStatus => exact fun has long => ⟨commandRow_of_mem (by decide) has, exec_readStatus_of_range head has long⟩
    case readPort =>
      exact fun has allowed unfit => ⟨commandRow_of_mem (by decide) has,
        exec_readPort_of_range head has ((mayReadPort_iff c s).mpr allowed) fun ⟨p, names⟩ => unfit p names⟩
    case clearCounters =>
      exact fun role has unfit =>
        clearCounters_row.outOfRange head role has fun ⟨n, small, names⟩ => unfit n small names
    case readEntries =>
      exact fun has allowed unfit => readEntries_outOfRange head has ((mayRead_iff c s).mpr allowed) unfit
    case scan => exact fun has allowed unfit => scan_outOfRange head has ((mayRead_iff c s).mpr allowed) unfit
    case noTable =>
      exact fun role has unnamed => ⟨(commandRow_of_write has).trans (writeRow_of_noTable unnamed),
        exec_writeNoAccessTable_of_noTable head has unnamed role⟩
    case retireCar =>
      exact fun role has unfit => retireCar_row.outOfRange head role has fun ⟨i, names⟩ => unfit i names

end Sys2Proof.Machine
end

section
/-! PROOFS. Every step keeps the hub sound (R20, R29, R66, R72, R87, R133, R146, R169, R171): the effect of each row, and the
resets, which leave a sound state whatever the state before. -/

namespace Sys2Proof.Machine

theorem StepEffect.sound {s t : State} (effect : StepEffect s t) (ok : s.sound) : t.sound := by
  obtain ⟨⟨within, queue, crossings⟩, contacts, seats, timing⟩ := ok
  refine ⟨⟨fun p => effect.within p (within p), ?_, ?_⟩, effect.contacts contacts, effect.seats seats,
    fun p => effect.timing p (timing p)⟩
  · exact effect.queue.trans (max_le (Nat.le_refl 4) queue)
  · exact effect.crossings.trans (max_le (Nat.le_refl 128) crossings)

/-- A row that has its effect only under a condition. -/
theorem StepEffect.ite {s t : State} (b : Prop) [Decidable b] (h : StepEffect s t) : StepEffect s (if b then t else s) := by
  split
  · exact h
  · exact .refl s

/-! ### The rows that act on the command at the head of the Command Queue -/

theorem readTable_step (c : Command) (t : Table) (s : State) : StepEffect s (readTable c t s) := by
  unfold readTable
  simp only
  split <;> exact answer_step ..

theorem scanTable_step (c : Command) (t : Table) (s : State) : StepEffect s (scanTable c t s) := by
  unfold scanTable
  simp only
  split <;> exact answer_step ..

theorem readsTable_step (size : Nat) {act : Command → Table → State → State} (h : ∀ c t s, StepEffect s (act c t s))
    (c : Command) (s : State) : StepEffect s (readsTable size act c s) := by
  unfold readsTable
  split
  · split
    · split
      · exact h ..
      · exact answer_step ..
    · exact answer_step ..
  · exact answer_step ..

theorem director_step {code : Byte} {work : Command → State → State × Status} (h : ∀ c s, StepEffect s (work c s).1)
    (s : State) : StepEffect s (onHead (codeIs code) (fun c => asDirector (work c) c) s) :=
  onHead_step _ _ (fun c s => asDirector_step _ (h c) c s) s

theorem alone_step {code : Byte} {act : State → State × Status} (h : ∀ s, StepEffect s (act s).1) (s : State) :
    StepEffect s (onHead (codeIs code) (fun c => asDirector (noParams c act) c) s) :=
  director_step (work := fun c => noParams c act) (fun c => noParams_step c act h) s

theorem alone_ok_step {code : Byte} {f : State → State} (h : ∀ s, StepEffect s (f s)) (s : State) :
    StepEffect s (onHead (codeIs code) (fun c => asDirector (noParams c fun s => (f s, .ok)) c) s) := alone_step h s

theorem ported_step {code : Byte} {act : PortNo → State → State × Status} (h : ∀ p s, StepEffect s (act p s).1) (s : State) :
    StepEffect s (onHead (codeIs code) (fun c => asDirector (portParam c act) c) s) :=
  director_step (work := fun c => portParam c act) (fun c => portParam_step c act h) s

theorem slotted_step {code : Byte} {act : Slot → State → State × Status} (h : ∀ i s, StepEffect s (act i s).1) (s : State) :
    StepEffect s (onHead (codeIs code) (fun c => asDirector (slotParam c act) c) s) :=
  director_step (work := fun c => slotParam c act) (fun c => slotParam_step c act h) s

theorem writes_step (t : Table) (size : Nat) {write : Nat → List Byte → State → State × Status}
    (h : ∀ n bs s, StepEffect s (write n bs s).1) (s : State) : StepEffect s (onHead (writes t) (writeTable size write) s) :=
  onHead_step _ _ (writeTable_step size write h) s

theorem exec_readPort_step (s : State) : ∃ t, exec .readPort s = .next t ∧ StepEffect s t := by
  refine ⟨_, rfl, onHead_step _ _ (fun c s => ?_) s⟩
  split
  · split
    · split <;> exact answer_step ..
    · exact answer_step ..
  · exact answer_step ..

theorem exec_moveDirector_step (s : State) : ∃ t, exec .moveDirector s = .next t ∧ StepEffect s t := by
  refine ⟨_, rfl, onHead_step _ _ (fun c s => ?_) s⟩
  split
  · split
    · split
      · exact answer_step ..
      · split
        · split
          · exact answer_step ..
          · exact moveRole_step ..
        · exact answer_step ..
    · exact answer_step ..
  · exact answer_step ..

theorem ite_pair_step {s t : State} (b : Prop) [Decidable b] (st : Status) (h : StepEffect s t) :
    StepEffect s (if b then (t, Status.ok) else (s, st)).1 := by
  split
  · exact h
  · exact .refl s

/-! ### All rows but the resets -/

/-- The rows that touch the race clock or the reset input (R2, R187). -/
def Instr.resets : Instr → Bool
  | .resetNLow | .resetNRelease | .hubResetTakesEffect => true
  | _ => false

/-- The rows that take the command at the head of the Command Queue (R177). -/
def Instr.isCommand : Instr → Bool
  | .unknownCommand | .readStatus | .readPort | .clearCounters | .readEntries | .writeCarAssignment | .writeRaceParameters
  | .writePortTable | .writeViewOrderLists | .writeEventRouteTable | .writeTrainingPatterns | .writeNoAccessTable | .scan
  | .portReset | .portQuiet | .portWake | .sendView | .openGrid | .start | .abortStart | .hold | .resume | .close
  | .resetRace | .retireCar | .moveDirector | .resetHub => true
  | _ => false

theorem exec_command_step (c : Instr) (s : State) (taken : Instr.isCommand c = true) :
    ∃ t, exec c s = .next t ∧ StepEffect s t := by
  cases c with
  | unknownCommand => exact ⟨_, rfl, onHead_step _ _ (fun c s => answer_step ..) s⟩
  | readStatus =>
    refine ⟨_, rfl, onHead_step _ _ (fun c s => ?_) s⟩
    split <;> exact answer_step ..
  | readPort => exact exec_readPort_step s
  | clearCounters =>
    refine ⟨_, rfl, director_step (work := fun c s => if c.payload.length = 2 then clearCounters (numAt c.payload 1 1) s
      else (s, .range)) (fun c s => ?_) s⟩
    split
    · exact clearCounters_step ..
    · exact .refl s
  | readEntries => exact ⟨_, rfl, onHead_step _ _ (readsTable_step 4 readTable_step) s⟩
  | writeCarAssignment => exact ⟨_, rfl, writes_step _ _ (onSlot_step _ writeCar_step) s⟩
  | writeRaceParameters => exact ⟨_, rfl, writes_step _ _ (onNumber_step _ _ writeParam_step) s⟩
  | writePortTable => exact ⟨_, rfl, writes_step _ _ (onPort_step _ fun p bs s => (writePort_effect p bs s).toStepEffect) s⟩
  | writeViewOrderLists =>
    exact ⟨_, rfl, writes_step _ _ (onPort_step _ fun p bs s => (writeViewOrder_effect p bs s).toStepEffect) s⟩
  | writeEventRouteTable => exact ⟨_, rfl, writes_step _ _ (onNumber_step _ _ writeRoute_step) s⟩
  | writeTrainingPatterns => exact ⟨_, rfl, writes_step _ _ (onNumber_step _ _ writePattern_step) s⟩
  | writeNoAccessTable =>
    refine ⟨_, rfl, onHead_step _ _ (fun c s => ?_) s⟩
    split <;> exact answerWrite_step ..
  | scan => exact ⟨_, rfl, onHead_step _ _ (readsTable_step 11 scanTable_step) s⟩
  | portReset => exact ⟨_, rfl, ported_step (fun p s => (portReset_effect p s).toStepEffect) s⟩
  | portQuiet => exact ⟨_, rfl, ported_step (fun p s => (quietPort_effect p s).toStepEffect) s⟩
  | portWake => exact ⟨_, rfl, ported_step (fun p s => (wakePort_effect p s).toStepEffect) s⟩
  | sendView => exact ⟨_, rfl, ported_step (fun p s => (sendView_effect p s).step) s⟩
  | openGrid => exact ⟨_, rfl, alone_step (fun s => (openGrid_effect s).step) s⟩
  | start => exact ⟨_, rfl, alone_step (fun s => (startRace_effect s).step) s⟩
  | abortStart => exact ⟨_, rfl, alone_step (fun s => (abortStart_effect s).step) s⟩
  | hold => exact ⟨_, rfl, alone_step (fun s => (holdRace_effect s).step) s⟩
  | resume => exact ⟨_, rfl, alone_step (fun s => (resumeRace_effect s).step) s⟩
  | close => exact ⟨_, rfl, alone_step (fun s => (closeRace_effect s).step) s⟩
  | resetRace => exact ⟨_, rfl, alone_ok_step resetRace_step s⟩
  | retireCar => exact ⟨_, rfl, slotted_step (fun i s => (retireCar_effect i s).step) s⟩
  | moveDirector => exact exec_moveDirector_step s
  | resetHub => exact ⟨_, rfl, alone_ok_step (fun s => resetPending_step s _) s⟩
  | _ => cases taken

theorem exec_step (c : Instr) (s : State) (sound : ∀ p, (s.port p).timingOk) (plain : Instr.resets c = false) :
    ∃ t, exec c s = .next t ∧ StepEffect s t := by
  cases c with
  | resetNLow | resetNRelease | hubResetTakesEffect => exact absurd plain (by decide)
  | damagedFrame p stamp run =>
    refine ⟨_, rfl, ?_⟩
    split
    · exact .refl s
    · split
      · exact (count_effect ..).step
      · exact (count_effect ..).step
      · exact receiveFrame_effect _ _ _ _ _ _ _ (sound p)
  | unknownKindFrame p stamp kind payload => exact ⟨_, rfl, receiveFrame_effect _ _ _ _ _ _ _ (sound p)⟩
  | trainEcho p stamp payload => exact ⟨_, rfl, (receiveTrainEcho_effect ..).toStepEffect⟩
  | probeReply p stamp payload => exact ⟨_, rfl, (receiveProbeReply_effect ..).toStepEffect⟩
  | car p stamp count payload => exact ⟨_, rfl, receiveCar_effect _ _ _ _ _ (sound p)⟩
  | holdAck p stamp payload => exact ⟨_, rfl, (receiveHoldAck_effect ..).toStepEffect⟩
  | quietAsk p stamp payload => exact ⟨_, rfl, (receiveQuietAsk_effect ..).toStepEffect⟩
  | mgmt p stamp tag payload => exact ⟨_, rfl, receiveMgmt_effect ..⟩
  | transmitEnd p => exact ⟨_, rfl, .ite _ (transmitEnd_effect p s).step⟩
  | linkRateChangeOnLine p => exact ⟨_, rfl, .ite _ (LinkEffect.modPort_plain (by simp) id).toStepEffect⟩
  | trainInvitation p => exact ⟨_, rfl, .ite _ (invite_effect p s).toStepEffect⟩
  | trainingPauseEnd p => exact ⟨_, rfl, .ite _ (startRound_effect p s).toStepEffect⟩
  | echoWaitExpiry p => exact ⟨_, rfl, .ite _ (failRound_effect p s).toStepEffect⟩
  | probeDue p =>
    refine ⟨_, rfl, ?_⟩
    split
    · exact (queueProbe_effect ..).toStepEffect
    · exact .refl s
  | sweepReplyWaitExpiry p =>
    refine ⟨_, rfl, ?_⟩
    split
    · exact (decideSweep_effect ..).toStepEffect
    · exact .refl s
  | coastTimerExpiry i => exact ⟨_, rfl, .ite _ (ageEval_effect i s).step⟩
  | loseTimerExpiry i => exact ⟨_, rfl, .ite _ (ageEval_effect i s).step⟩
  | settleDeadlineExpiry k => exact ⟨_, rfl, .ite _ (evaluate_effect s).step⟩
  | paceTimerExpiry p =>
    have rearmed : StepEffect s (s.modPort p Port.rearmed) :=
      (LinkEffect.modPort_plain (p := p) (f := Port.rearmed) (fun _ => ⟨rfl, rfl, rfl, rfl, rfl, rfl⟩) id).toStepEffect
    exact ⟨_, rfl, .ite _ (rearmed.trans (paceEvent_effect ..).step)⟩
  | linkLoss p => exact ⟨_, rfl, .ite _ (portReset_effect p s).toStepEffect⟩
  | tGreenExpiry => exact ⟨_, rfl, .ite _ (goGreen_effect s).step⟩
  | tHExpiry => exact ⟨_, rfl, .ite _ (ackTest_effect s).step⟩
  | holdTimeout => exact ⟨_, rfl, .ite _ (holdTimeout_effect s _).step⟩
  | tRExpiry => exact ⟨_, rfl, .ite _ (endHold_step s)⟩
  | graceDeadlineExpiry => exact ⟨_, rfl, .ite _ (closeSteps_effect s).step⟩
  | _ => exact exec_command_step _ s rfl

/-! ### The resets and the idle step -/

/-- Soundness reads neither the clock, the input level, the waiting commands nor the count of free values. -/
theorem sound_congr {s t : State} (ports : t.ports = s.ports) (cars : t.cars = s.cars) (crossings : t.crossings = s.crossings)
    (contacts : t.contacts = s.contacts) (mgmt : t.mgmt = s.mgmt) (ok : s.sound) : t.sound := by
  have port (p : PortNo) : t.port p = s.port p := congrArg (·[p]) ports
  have car (i : Slot) : t.car i = s.car i := congrArg (·[i]) cars
  simpa only [State.sound, State.withinCapacity, State.contactsOk, State.seatsOk, State.timingOk, port, car, crossings,
    contacts, mgmt] using ok

theorem idleStep_sound {s : State} (ok : s.sound) : (idleStep s).sound := by
  unfold idleStep
  split
  · exact ok
  · split <;> exact sound_congr rfl rfl rfl rfl rfl ok

theorem exec_sound {c : Instr} {s t : State} (ok : s.sound) (run : exec c s = .next t) : t.sound := by
  cases plain : Instr.resets c with
  | false =>
    obtain ⟨u, eq, effect⟩ := exec_step c s ok.2.2.2 plain
    obtain rfl : u = t := Host.Outcome.next.inj (eq.symm.trans run)
    exact effect.sound ok
  | true =>
    cases c with
    | resetNLow =>
      obtain rfl : { hubReset s with resetLow := true } = t := Host.Outcome.next.inj run
      exact sound_congr (s := hubReset s) rfl rfl rfl rfl rfl (hubReset_sound s)
    | resetNRelease =>
      obtain rfl : (if s.resetLow then { s with resetLow := false, clock := 0 } else s) = t := Host.Outcome.next.inj run
      split
      · exact sound_congr (s := s) rfl rfl rfl rfl rfl ok
      · exact ok
    | hubResetTakesEffect =>
      obtain rfl : (if s.resetDue then hubReset s else s) = t := Host.Outcome.next.inj run
      split
      · exact hubReset_sound s
      · exact ok
    | _ => cases plain

/-- Settles O6: the empty queue leaves everything soundness speaks of, and a waiting command keeps it by `exec_sound`. -/
theorem stepKeepsSound : Obligations.StepKeepsSound := by
  intro s t ok run
  unfold step at run
  split at run
  · obtain rfl : idleStep s = t := Host.Outcome.next.inj run
    exact idleStep_sound ok
  · refine exec_sound ?_ run
    exact sound_congr (s := s) rfl rfl rfl rfl rfl ok

/-- Settles O5: the state after reset is what a hub reset makes of itself, but for nothing that soundness reads. -/
theorem resetIsSound : Obligations.ResetIsSound :=
  sound_congr (s := hubReset { State.reset with ports := perPort fun p => { resetPort p none .r10 with wire := none } })
    rfl rfl rfl rfl rfl (hubReset_sound _)

/-- Settles O2. -/
theorem stepTakesFront : Obligations.StepTakesFront := fun _ _ _ => rfl

end Sys2Proof.Machine
end

section
/-! PROOFS. Taking the command at the head of the Command Queue for a director (R177, R178), and the small facts about ports
that the rows of the links are stated with. -/

namespace Sys2Proof.Machine

/-! ### Changing a port twice -/

theorem State.setPort_setPort (s : State) (p : PortNo) (q r : Port) : (s.setPort p q).setPort p r = s.setPort p r := by
  simp [State.setPort]

theorem State.modPort_modPort (s : State) (p : PortNo) (f g : Port → Port) :
    (s.modPort p f).modPort p g = s.modPort p fun q => g (f q) := by
  simp only [State.modPort, State.port_setPort_self, State.setPort_setPort]

@[simp] theorem State.port_modPort_self (s : State) (p : PortNo) (f : Port → Port) : (s.modPort p f).port p = f (s.port p) :=
  State.port_setPort_self ..

theorem State.port_modPort_of_ne (s : State) {p r : PortNo} (f : Port → Port) (h : r ≠ p) :
    (s.modPort p f).port r = s.port r := State.port_setPort_of_ne s _ h

theorem State.setPort_port (s : State) (p : PortNo) : s.setPort p (s.port p) = s := by
  have same : s.ports.set p (s.port p) = s.ports := Vector.set_getElem_self p.isLt
  simp only [State.setPort, same]

theorem State.modPort_congr {s : State} {p : PortNo} {f g : Port → Port} (h : f (s.port p) = g (s.port p)) :
    s.modPort p f = s.modPort p g := congrArg (s.setPort p) h

theorem State.count_eq_modPort (s : State) (p : PortNo) (f : PortCounters → PortCounters) :
    s.count p f = s.modPort p fun q => { q with counters := f q.counters } := rfl

@[simp] theorem State.dropHead_port (s : State) (p : PortNo) : s.dropHead.port p = s.port p := rfl

@[simp] theorem State.dropHead_car (s : State) (i : Slot) : s.dropHead.car i = s.car i := rfl

theorem mem_allPorts (p : PortNo) : p ∈ allPorts := by
  revert p
  decide

theorem nodup_allPorts : allPorts.Nodup := by decide

@[simp] theorem perPort_port (s : State) (f : PortNo → Port) (p : PortNo) : { s with ports := perPort f }.port p = f p :=
  perPort_get f p

/-! ### A director's command at the head -/

theorem asDirector_of_director {s : State} {c : Command} (director : s.holdsRole c.sender = true)
    (act : State → State × Status) : asDirector act c s = answer c (act s).2 [] (act s).1 := if_pos director

theorem portOf_portByte (p : PortNo) : portOf (portByte p).toNat = some p := by
  revert p
  decide

theorem slotOf_slotByte (i : Slot) : slotOf (slotByte i).toNat = some i := by
  revert i
  decide

section
variable {s : State} {c : Command} {code : Byte} {row : Instr}

theorem exec_alone {act : State → State × Status}
    (runs : ∀ s, exec row s = .next (onHead (codeIs code) (fun c => asDirector (noParams c act) c) s))
    (asks : s.asks c [code]) : exec row s = .next (answer c (act s.dropHead).2 [] (act s.dropHead).1) := by
  obtain ⟨head, payload, director⟩ := asks
  rw [runs, onHead_of_code head (by rw [payload]; rfl), asDirector_of_director (s := s.dropHead) director]
  have fits : noParams c act s.dropHead = act s.dropHead := if_pos (by rw [payload]; rfl)
  rw [fits]

theorem exec_ported {p : PortNo} {act : PortNo → State → State × Status}
    (runs : ∀ s, exec row s = .next (onHead (codeIs code) (fun c => asDirector (portParam c act) c) s))
    (asks : s.asks c [code, portByte p]) :
    exec row s = .next (answer c (act p s.dropHead).2 [] (act p s.dropHead).1) := by
  obtain ⟨head, payload, director⟩ := asks
  rw [runs, onHead_of_code head (by rw [payload]; rfl), asDirector_of_director (s := s.dropHead) director]
  have fits : portParam c act s.dropHead = act p s.dropHead := by
    rw [portParam, if_pos (by rw [payload]; rfl), payload, numAt_param, portOf_portByte]
  rw [fits]

theorem exec_slotted {i : Slot} {act : Slot → State → State × Status}
    (runs : ∀ s, exec row s = .next (onHead (codeIs code) (fun c => asDirector (slotParam c act) c) s))
    (asks : s.asks c [code, slotByte i]) :
    exec row s = .next (answer c (act i s.dropHead).2 [] (act i s.dropHead).1) := by
  obtain ⟨head, payload, director⟩ := asks
  rw [runs, onHead_of_code head (by rw [payload]; rfl), asDirector_of_director (s := s.dropHead) director]
  have fits : slotParam c act s.dropHead = act i s.dropHead := by
    rw [slotParam, if_pos (by rw [payload]; rfl), payload, numAt_param, slotOf_slotByte]
  rw [fits]

/-- The command at the head asks for a row and the row's effect is known. -/
theorem exec_alone_of_eq {act : State → State × Status} {u : State} {st : Status}
    (runs : ∀ s, exec row s = .next (onHead (codeIs code) (fun c => asDirector (noParams c act) c) s))
    (asks : s.asks c [code]) (eq : act s.dropHead = (u, st)) : exec row s = .next (answer c st [] u) := by
  rw [exec_alone runs asks, eq]

theorem exec_ported_of_eq {p : PortNo} {act : PortNo → State → State × Status} {u : State} {st : Status}
    (runs : ∀ s, exec row s = .next (onHead (codeIs code) (fun c => asDirector (portParam c act) c) s))
    (asks : s.asks c [code, portByte p]) (eq : act p s.dropHead = (u, st)) :
    exec row s = .next (answer c st [] u) := by
  rw [exec_ported runs asks, eq]

theorem exec_slotted_of_eq {i : Slot} {act : Slot → State → State × Status} {u : State} {st : Status}
    (runs : ∀ s, exec row s = .next (onHead (codeIs code) (fun c => asDirector (slotParam c act) c) s))
    (asks : s.asks c [code, slotByte i]) (eq : act i s.dropHead = (u, st)) :
    exec row s = .next (answer c st [] u) := by
  rw [exec_slotted runs asks, eq]

end

end Sys2Proof.Machine
end

section
/-! PROOFS. The state after reset, and the frames that only count (R150, R151, R153, R187, R193). -/

namespace Sys2Proof.Machine

theorem State.port_reset (p : PortNo) : State.reset.port p = resetPort p none .r10 := perPort_get ..

theorem State.car_reset (i : Slot) : State.reset.car i = resetCar i := perSlot_get ..

/-- Settles O4. -/
theorem resetValues : Obligations.ResetValues := by
  refine ⟨rfl, rfl, rfl, rfl, rfl, rfl, rfl, fun p => ?ports, fun i => ?cars, rfl, rfl, rfl, rfl, rfl⟩
  case ports =>
    have gates : State.reset.gateOpen p = true := by
      rw [State.gateOpen, State.port_reset]
      split <;> rfl
    rw [State.port_reset]
    exact ⟨rfl, rfl, rfl, rfl, rfl, gates, rfl⟩
  case cars =>
    rw [State.car_reset]
    exact ⟨rfl, rfl, rfl, rfl⟩

/-! ### The row of a received frame -/

theorem exec_frameRow (p : PortNo) (stamp : RaceTime) (kind port flags : Byte) (payload : List Byte) (s : State) :
    exec (frameRow p stamp kind port flags payload) s = .next (receiveFrame p stamp kind port flags payload s) := by
  unfold frameRow receiveFrame
  split_ifs with h1 h2 h3 h4 h5 h6
  case neg =>
    have unknown : receiveFrame p stamp kind 0 0 payload s = receiveUnknown p stamp s := by
      rw [receiveFrame, if_neg h1, if_neg h2, if_neg h3, if_neg h4, if_neg h5, if_neg h6]
    exact congrArg _ unknown
  all_goals rfl

/-- Settles O12: `judgeRun` decides between the three cases, and an empty run is no frame before it. -/
theorem damagedFrames : Obligations.DamagedFrames := by
  intro p stamp run s
  have runs : exec (.damagedFrame p stamp run) s = execDamagedFrame p stamp run s := rfl
  rw [runs, execDamagedFrame]
  have nonempty (h : run ≠ []) : ¬run.isEmpty = true := fun e => h (List.isEmpty_iff.mp e)
  have judged {v : RunVerdict} (h : judgeRun run = v) (hv : v ≠ .framing) : run ≠ [] := fun e =>
    hv (by rw [← h, e]; rfl)
  refine ⟨fun h => by rw [h]; rfl, fun h verdict => ?_, fun verdict => ?_, fun kind port flags payload verdict => ?_⟩
  · rw [if_neg (nonempty h), verdict]
    rfl
  · rw [if_neg (nonempty (judged verdict (by decide))), verdict]
    rfl
  · rw [if_neg (nonempty (judged verdict (by rintro ⟨⟩))), verdict, exec_frameRow]

end Sys2Proof.Machine
end

section
/-! PROOFS. Frames that a port state does not take (R151, R153, R161, R164, R193), and the frames and commands that wake a
port (R156, R157, R166, R176). -/

namespace Sys2Proof.Machine

/-! ### A frame that only counts -/

/-- A port that has received a valid frame (R151, R161). -/
def Port.heard (stamp : RaceTime) (q : Port) : Port :=
  { q with linkBase := q.linkBase.map fun _ => stamp,
           counters := { q.counters with framesRx := bump q.counters.framesRx } }

theorem countValid_eq (p : PortNo) (stamp : RaceTime) (s : State) : countValid p stamp s = s.modPort p (·.heard stamp) := rfl

/-- A port that has received a valid frame it does not take (R153). -/
def Port.refused (stamp : RaceTime) (q : Port) : Port :=
  { q.heard stamp with counters := { q.counters with
      framesRx := bump q.counters.framesRx, outOfState := bump q.counters.outOfState } }

theorem outOfState_countValid (p : PortNo) (stamp : RaceTime) (s : State) :
    outOfState p (countValid p stamp s) = s.modPort p (·.refused stamp) := by
  rw [countValid_eq, outOfState, State.count_eq_modPort, State.modPort_modPort]
  rfl

section
variable (p : PortNo) (stamp : RaceTime) (payload : List Byte) (s : State)

theorem receiveTrainEcho_of_not_taken
    (h : ¬(payload.length = 19 ∧ ((s.port p).phase = .down ∨ (s.port p).phase = .train ∨ (s.port p).phase = .quiet))) :
    receiveTrainEcho p stamp payload s = s.modPort p (·.refused stamp) := by
  rw [← outOfState_countValid]
  simp only [receiveTrainEcho, countValid_phase]
  split <;> simp_all

theorem receiveProbeReply_of_not_taken
    (h : ¬(payload.length = 3 ∧ ((s.port p).phase = .phase ∨ (s.port p).phase = .rate ∨ (s.port p).phase = .active))) :
    receiveProbeReply p stamp payload s = s.modPort p (·.refused stamp) := by
  rw [← outOfState_countValid]
  simp only [receiveProbeReply, countValid_phase]
  split <;> simp_all

/-- A PROBE_REPLY in RATE or ACTIVE is ignored (R11, R153). -/
theorem receiveProbeReply_of_ignored (ph : (s.port p).phase = .rate ∨ (s.port p).phase = .active)
    (fits : payload.length = 3) : receiveProbeReply p stamp payload s = s.modPort p (·.heard stamp) := by
  rw [← countValid_eq]
  simp only [receiveProbeReply, countValid_phase]
  obtain ph | ph := ph <;> simp [ph, fits]

/-- The state in which a CAR frame is taken: it has opened the gate of a port without slots (R164). -/
def State.heardCar (s : State) (p : PortNo) (stamp : RaceTime) : State :=
  s.modPort p fun q => { q.heard stamp with gateCar := true }

theorem countValid_gateCar : ((countValid p stamp s).modPort p fun q => { q with gateCar := true }) = s.heardCar p stamp :=
  State.modPort_modPort ..

theorem receiveCar_of_not_taken (count : Byte)
    (h : ¬(carFits count payload = true ∧ ((s.port p).phase = .rate ∨ (s.port p).phase = .active))) :
    receiveCar p stamp count payload s = s.modPort p fun q => { q.refused stamp with gateCar := true } := by
  have counted : outOfState p (s.heardCar p stamp) = s.modPort p fun q => { q.refused stamp with gateCar := true } := by
    rw [State.heardCar, outOfState, State.count_eq_modPort, State.modPort_modPort]
    rfl
  have phase : ((s.heardCar p stamp).port p).phase = (s.port p).phase := by rw [State.heardCar, State.port_modPort_self]; rfl
  rw [← counted, receiveCar]
  simp only [countValid_gateCar, phase]
  split <;> simp_all

theorem receiveHoldAck_of_not_taken (h : ¬(payload.length = 2 ∧ (s.port p).phase = .active)) :
    receiveHoldAck p stamp payload s = s.modPort p (·.refused stamp) := by
  rw [← outOfState_countValid]
  simp only [receiveHoldAck, countValid_phase]
  exact if_neg fun taken => h taken.symm

theorem receiveQuietAsk_of_not_taken
    (h : ¬((s.port p).phase = .quiet ∨ (payload.length = 1 ∧ (s.port p).phase = .active))) :
    receiveQuietAsk p stamp payload s = s.modPort p (·.refused stamp) := by
  rw [← outOfState_countValid]
  simp only [receiveQuietAsk, countValid_phase]
  split <;> simp_all

/-- A QUIET_ASK in QUIET is ignored (R164). -/
theorem receiveQuietAsk_of_quiet (ph : (s.port p).phase = .quiet) :
    receiveQuietAsk p stamp payload s = s.modPort p (·.heard stamp) := by
  rw [← countValid_eq]
  simp only [receiveQuietAsk, countValid_phase, ph]

theorem receiveMgmt_of_not_taken (tag : Byte)
    (h : ¬(1 ≤ payload.length ∧ payload.length ≤ 124 ∧ ((s.port p).phase = .active ∨ (s.port p).phase = .quiet))) :
    receiveMgmt p stamp tag payload s = s.modPort p (·.refused stamp) := by
  rw [← outOfState_countValid]
  simp only [receiveMgmt, countValid_phase]
  split <;> simp_all

end

/-- Settles O13: each kind's frame that the table of R153 does not take is refused by its own lemma. -/
theorem framesNotTaken : Obligations.FramesNotTaken := by
  intro p stamp kind port flags payload s
  refine ⟨fun untaken => ?_, fun quiet => ?_, fun ph fits => ?_⟩
  · rw [exec_frameRow]
    have plain (h : kind ≠ 0x03) : s.modPort p (·.refused stamp) = s.modPort p fun q =>
        { q.refused stamp with gateCar := q.gateCar || decide (kind = 0x03) } :=
      State.modPort_congr (by rw [decide_eq_false h, Bool.or_false]; rfl)
    unfold takesFrame at untaken
    unfold receiveFrame
    split_ifs at untaken ⊢ with h1 h2 h3 h4 h5 h6
    · rw [receiveTrainEcho_of_not_taken _ _ _ _ (of_decide_eq_false untaken), plain (by rw [h1]; decide)]
      rfl
    · rw [receiveProbeReply_of_not_taken _ _ _ _ (of_decide_eq_false untaken), plain (by rw [h2]; decide)]
      rfl
    · have unfit : ¬(carFits flags payload = true ∧ ((s.port p).phase = .rate ∨ (s.port p).phase = .active)) :=
        fun ⟨fits, ph⟩ => of_decide_eq_false untaken ⟨of_decide_eq_true fits, ph⟩
      rw [receiveCar_of_not_taken _ _ _ _ _ unfit]
      exact congrArg _ (State.modPort_congr (by rw [decide_eq_true h3, Bool.or_true]; rfl))
    · rw [receiveHoldAck_of_not_taken _ _ _ _ (of_decide_eq_false untaken), plain (by rw [h4]; decide)]
      rfl
    · rw [receiveQuietAsk_of_not_taken _ _ _ _ (of_decide_eq_false untaken), plain (by rw [h5]; decide)]
      rfl
    · rw [receiveMgmt_of_not_taken _ _ _ _ _ (of_decide_eq_false untaken), plain (by rw [h6]; decide)]
      rfl
    · rw [receiveUnknown, outOfState_countValid, plain h3]
      rfl
  · exact congrArg _ (receiveQuietAsk_of_quiet p stamp payload s quiet)
  · exact congrArg _ (receiveProbeReply_of_ignored p stamp payload s ph fits)

/-! ### Waking -/

theorem discardCommands_roleFree (s : State) (p : PortNo) : (s.discardCommands p).mgmt
    = { s.mgmt with queue := s.mgmt.queue.filter fun c => decide (c.sender ≠ p) } := rfl

/-- The entry into TRAIN from DOWN or QUIET (R156, R157, R166, R176). -/
theorem enterTrain_eq (p : PortNo) (s : State) : enterTrain p s
    = (if (s.port p).phase = .quiet then s.discardCommands p else s).modPort p (·.toTrain s.clock) := by
  unfold enterTrain
  split <;> rfl

theorem enterTrain_port (p : PortNo) (s : State) : (enterTrain p s).port p = (s.port p).toTrain s.clock := by
  rw [enterTrain_eq, State.port_modPort_self]
  split <;> rfl

theorem enterTrain_woken (p : PortNo) (s : State) : Woken p s (enterTrain p s) := by
  have port := enterTrain_port p s
  have queue (quiet : (s.port p).phase = .quiet) :
      (enterTrain p s).mgmt.queue = s.mgmt.queue.filter fun c => decide (c.sender ≠ p) := by
    rw [enterTrain_eq, if_pos quiet]
    rfl
  have mgmt (down : (s.port p).phase = .down) : (enterTrain p s).mgmt = s.mgmt := by
    rw [enterTrain_eq, if_neg (by rw [down]; decide)]
    rfl
  constructor
  case fromQuiet =>
    intro quiet
    rw [port]
    exact ⟨by simp [Port.toTrain, quiet], by simp [Port.toTrain, quiet], queue quiet⟩
  case fromDown =>
    intro down
    rw [port]
    exact ⟨by simp [Port.toTrain, down], mgmt down⟩
  case others =>
    intro r other
    rw [enterTrain_eq, State.port_modPort_of_ne _ _ other]
    split <;> rfl
  case cars =>
    rw [enterTrain_eq]
    split <;> rfl
  case race =>
    rw [enterTrain_eq]
    split <;> rfl
  case withdrawn => rw [port]; exact ⟨rfl, rfl⟩
  all_goals rw [port]; rfl

theorem enterTrain_counters (p : PortNo) (s : State) : ((enterTrain p s).port p).counters = (s.port p).counters := by
  rw [enterTrain_port]
  rfl

/-- `Woken` reads of the state before nothing that receiving a frame changes. -/
theorem Woken.of_countValid {p : PortNo} {stamp : RaceTime} {s t : State} (h : Woken p (countValid p stamp s) t) :
    Woken p s t := by
  have entry : ((countValid p stamp s).port p).entry = (s.port p).entry := by
    rw [countValid_eq, State.port_modPort_self]
    rfl
  have gate : ((countValid p stamp s).port p).gateSample = (s.port p).gateSample := by
    rw [countValid_eq, State.port_modPort_self]
    rfl
  exact {
    phase := h.phase
    timing := by rw [h.timing, entry]
    failedRounds := h.failedRounds
    pause := h.pause
    linkBase := h.linkBase
    withdrawn := h.withdrawn
    entry := h.entry.trans entry
    fromQuiet := fun quiet => h.fromQuiet ((countValid_phase p p stamp s).trans quiet)
    fromDown := fun down => by
      obtain ⟨sample, mgmt⟩ := h.fromDown ((countValid_phase p p stamp s).trans down)
      exact ⟨sample.trans gate, mgmt⟩
    others := fun r other => by rw [h.others r other, countValid_eq, State.port_modPort_of_ne _ _ other]
    cars := h.cars
    race := h.race }

/-- Settles O14: a TRAIN_ECHO of the right length in DOWN or QUIET, and a PORT_WAKE in QUIET, lead to `enterTrain`. -/
theorem portsWake : Obligations.PortsWake := by
  intro p s
  refine ⟨fun stamp payload ph fits => ⟨enterTrain p (countValid p stamp s), ?_, (enterTrain_woken _ _).of_countValid, ?_⟩,
    fun c asks => ⟨fun quiet => ⟨enterTrain p s.dropHead, ?_, enterTrain_woken _ _, enterTrain_counters _ _⟩, fun other => ?_⟩⟩
  · have runs : receiveTrainEcho p stamp payload s = enterTrain p (countValid p stamp s) := by
      simp only [receiveTrainEcho, countValid_phase]
      obtain ph | ph := ph <;> simp [ph, fits]
    exact congrArg _ runs
  · rw [enterTrain_counters, countValid_eq, State.port_modPort_self]
    rfl
  · exact exec_ported_of_eq (fun _ => rfl) asks (if_pos quiet)
  · exact exec_ported_of_eq (fun _ => rfl) asks (if_neg other)

end Sys2Proof.Machine
end

section
/-! PROOFS. The Transmit Arbiter (R150, R168): what an idle line takes, class by class, and the end of the frame on the wire. -/

namespace Sys2Proof.Machine

/-! ### The director role reads port states alone -/

theorem State.roleHolder_congr {s t : State} (director : t.mgmt.director = s.mgmt.director)
    (phase : ∀ p, (t.port p).phase = (s.port p).phase) : t.roleHolder = s.roleHolder := by
  unfold State.roleHolder
  rw [director]
  cases s.mgmt.director with
  | none => rfl
  | some p =>
    have active : t.isActive p = s.isActive p := by rw [State.isActive, State.isActive, phase]
    simp only [active]

theorem State.holdsRole_congr {s t : State} (director : t.mgmt.director = s.mgmt.director)
    (phase : ∀ p, (t.port p).phase = (s.port p).phase) (p : PortNo) : t.holdsRole p = s.holdsRole p := by
  rw [State.holdsRole, State.holdsRole, State.roleHolder_congr director phase]

theorem State.mkFrame_congr {s t : State} (director : t.mgmt.director = s.mgmt.director)
    (phase : ∀ p, (t.port p).phase = (s.port p).phase) (p : PortNo) (b : FrameBody) : t.mkFrame p b = s.mkFrame p b := by
  rw [State.mkFrame, State.mkFrame, State.holdsRole_congr director phase]

theorem State.phase_modPort {s : State} {p : PortNo} {f : Port → Port} (h : (f (s.port p)).phase = (s.port p).phase)
    (r : PortNo) : ((s.modPort p f).port r).phase = (s.port r).phase := by
  rw [State.port_modPort]
  split
  · next same => rw [h, same]
  · rfl

theorem State.mkFrame_modPort {s : State} {p : PortNo} {f : Port → Port} (h : (f (s.port p)).phase = (s.port p).phase)
    (r : PortNo) (b : FrameBody) : (s.modPort p f).mkFrame r b = s.mkFrame r b :=
  State.mkFrame_congr (s := s) (t := s.modPort p f) rfl (State.phase_modPort h) r b

theorem State.cueFrame_congr {s t : State} {p : PortNo} (director : t.mgmt.director = s.mgmt.director)
    (phase : ∀ p, (t.port p).phase = (s.port p).phase) (clock : t.clock = s.clock) (timing : t.timing p = s.timing p)
    (c : Cue) : t.cueFrame p c = s.cueFrame p c := by
  simp only [State.cueFrame, clock, timing, State.mkFrame_congr director phase]

/-! ### The class that is taken -/

section
variable {s : State} {p : PortNo}

theorem State.chooseFrame_class1 {f : HubFrame} {rest : List HubFrame} (h1 : (s.port p).class1 = f :: rest) :
    s.chooseFrame p = some (f, { s.port p with class1 := rest }) := by
  simp only [State.chooseFrame, h1]

theorem State.chooseFrame_calls {f : HubFrame} {rest : List HubFrame} (h1 : (s.port p).class1 = [])
    (h2 : (s.port p).calls = f :: rest) : s.chooseFrame p = some (f, { s.port p with calls := rest }) := by
  simp only [State.chooseFrame, h1, h2]

theorem State.chooseFrame_cues {c : Cue} {rest : List Cue} (h1 : (s.port p).class1 = []) (h2 : (s.port p).calls = [])
    (h3 : (s.port p).cues = c :: rest) : s.chooseFrame p = some (s.cueFrame p c, { s.port p with cues := rest }) := by
  simp only [State.chooseFrame, h1, h2, h3]

theorem State.chooseFrame_placings {f : HubFrame} {rest : List HubFrame} (h1 : (s.port p).class1 = [])
    (h2 : (s.port p).calls = []) (h3 : (s.port p).cues = []) (h4 : (s.port p).placings = f :: rest) :
    s.chooseFrame p = some (f, { s.port p with placings := rest }) := by
  simp only [State.chooseFrame, h1, h2, h3, h4]

theorem State.chooseFrame_outbox {f : HubFrame} {rest : List HubFrame} (h1 : (s.port p).class1 = [])
    (h2 : (s.port p).calls = []) (h3 : (s.port p).cues = []) (h4 : (s.port p).placings = [])
    (h5 : (s.port p).outbox = f :: rest) : s.chooseFrame p = some (f, { s.port p with outbox := rest }) := by
  simp only [State.chooseFrame, h1, h2, h3, h4, h5]

theorem State.chooseFrame_viewSet {v : ViewSet} {f : HubFrame} {rest : List HubFrame} (h1 : (s.port p).class1 = [])
    (h2 : (s.port p).calls = []) (h3 : (s.port p).cues = []) (h4 : (s.port p).placings = []) (h5 : (s.port p).outbox = [])
    (h6 : (s.port p).viewSet = some v) (h7 : v.unsent = f :: rest) : s.chooseFrame p
      = some (f, { s.port p with viewSet := if rest.isEmpty then none else some { v with unsent := rest } }) := by
  simp only [State.chooseFrame, h1, h2, h3, h4, h5, h6, h7]

theorem State.chooseFrame_none (h1 : (s.port p).class1 = []) (h2 : (s.port p).calls = []) (h3 : (s.port p).cues = [])
    (h4 : (s.port p).placings = []) (h5 : (s.port p).outbox = []) (h6 : (s.port p).viewSet = none) :
    s.chooseFrame p = none := by
  simp only [State.chooseFrame, h1, h2, h3, h4, h5, h6]

/-- The port whose idle line has just taken a frame (R150, R168). -/
def Port.sending (q : Port) (now : RaceTime) (f : HubFrame) : Port :=
  stampSent now f { q with wire := some { frame := f, sent := now, rate := q.entry.linkRate } }

theorem State.arbiterTake_of_idle {f : HubFrame} {q : Port} (idle : (s.port p).wire = none)
    (choice : s.chooseFrame p = some (f, q)) : s.arbiterTake p = s.setPort p (q.sending s.clock f) := by
  rw [State.arbiterTake, if_neg (by rw [idle]; decide), choice]
  rfl

theorem State.arbiterTake_of_none (choice : s.chooseFrame p = none) : s.arbiterTake p = s := by
  unfold State.arbiterTake
  rw [choice]
  split <;> rfl

/-- The frame is neither a TRAIN nor a PROBE, so that its sending is not stamped (R10, R157). -/
def FrameBody.isPlain : FrameBody → Bool
  | .train .. | .probe _ => false
  | _ => true

theorem Port.sending_of_plain (q : Port) (now : RaceTime) {f : HubFrame} (plain : f.body.isPlain = true) :
    q.sending now f = { q with wire := some { frame := f, sent := now, rate := q.entry.linkRate } } := by
  unfold Port.sending stampSent
  cases body : f.body <;> simp_all [FrameBody.isPlain]

/-- The sending of a frame changes the port's wire, and at most what it stamps. -/
theorem Port.sending_eq (q : Port) (now : RaceTime) (f : HubFrame) : ∃ training timing, q.sending now f = { q with
    wire := some { frame := f, sent := now, rate := q.entry.linkRate }, training := training, timing := timing } := by
  unfold Port.sending stampSent
  split
  · split <;> exact ⟨_, _, rfl⟩
  · split <;> exact ⟨_, _, rfl⟩
  · exact ⟨_, _, rfl⟩

theorem Port.sending_train (q : Port) (now : RaceTime) {f : HubFrame} {n : Fin 4} {bs : List Byte}
    (body : f.body = .train n bs) : q.sending now f = { q with
      wire := some { frame := f, sent := now, rate := q.entry.linkRate }
      training := match q.training with
        | .round todo none => .round todo (some now)
        | other => other } := by
  cases training : q.training with
  | round todo sent => cases sent <;> simp only [Port.sending, stampSent, body, training]
  | _ => simp only [Port.sending, stampSent, body, training]

theorem Port.sending_probe (q : Port) (now : RaceTime) {f : HubFrame} {n : Nat} (body : f.body = .probe n) :
    q.sending now f = { q with
      wire := some { frame := f, sent := now, rate := q.entry.linkRate }
      timing := { q.timing with sweep := q.timing.sweep.map fun w => { w with sent := w.sent ++ [now] } } } := by
  unfold Port.sending stampSent
  simp only [body]
  split
  · next w h => rw [h]; rfl
  · next h =>
    have same : { q.timing with sweep := none } = q.timing := by rw [← h]
    rw [h, Option.map_none, same]

end

/-! ### Replies -/

/-- The REPLY that a command with a tag is answered with (R197). -/
def State.replyFrame (s : State) (p : PortNo) (tag code : Byte) (st : Status) (data : List Byte) : HubFrame :=
  { portByte := tag, director := s.holdsRole p, body := .reply code st data }

theorem admitsReplies_iff (ph : PortPhase) : admitsReplies ph = true ↔ ph = .active ∨ ph = .quiet := decide_eq_true_iff

section
variable (s : State) (p : PortNo) (tag code : Byte) (st : Status) (data : List Byte)

theorem State.offerReply_of_room (admits : admitsReplies (s.port p).phase = true) (room : (s.port p).replies.length < 16) :
    s.offerReply p tag code st data
      = (s.modPort p fun q => { q with outbox := q.outbox ++ [s.replyFrame p tag code st data] }).arbiterTake p :=
  if_pos (by rw [admits, Bool.true_and]; exact decide_eq_true room)

theorem State.offerReply_of_lost (lost : admitsReplies (s.port p).phase = false ∨ 16 ≤ (s.port p).replies.length) :
    s.offerReply p tag code st data = s := by
  refine if_neg fun taken => ?_
  obtain ⟨admits, room⟩ := Bool.and_eq_true_iff.mp taken
  obtain closed | full := lost
  · exact Bool.false_ne_true (closed.symm.trans admits)
  · exact absurd (of_decide_eq_true room) (Nat.not_lt.mpr full)

theorem State.offerReply_of_busy (admits : admitsReplies (s.port p).phase = true) (room : (s.port p).replies.length < 16)
    (busy : (s.port p).wire.isSome = true) : s.offerReply p tag code st data
      = s.modPort p fun q => { q with outbox := q.outbox ++ [s.replyFrame p tag code st data] } := by
  rw [State.offerReply_of_room s p tag code st data admits room]
  exact arbiterTake_busy (by rw [State.port_modPort_self]; exact busy)

end

/-- Settles O51: the reply joins class 5, and the arbiter leaves a busy line alone and takes the reply on an idle one with
nothing before it. -/
theorem replyQueued : Obligations.ReplyQueued := by
  intro s p tag code st data t f
  refine ⟨fun state room => ⟨fun busy => ?_, fun idle h1 h2 h3 h4 h5 => ?_⟩, fun lost => ?_⟩
  · exact State.offerReply_of_busy s p tag code st data ((admitsReplies_iff _).mpr state) room busy
  · have eq : t = _ := State.offerReply_of_room s p tag code st data ((admitsReplies_iff _).mpr state) room
    rw [eq, State.arbiterTake_of_idle (f := f) (by rw [State.port_modPort_self]; exact idle)
      (State.chooseFrame_outbox (rest := []) (by simpa using h1) (by simpa using h2) (by simpa using h3) (by simpa using h4)
        (by rw [State.port_modPort_self, h5]; rfl)), State.port_setPort_self, Port.sending_of_plain _ _ rfl,
      State.port_modPort_self]
    exact ⟨rfl, rfl⟩
  · refine State.offerReply_of_lost s p tag code st data (lost.imp_left fun ⟨notActive, notQuiet⟩ => ?_)
    exact decide_eq_false fun state => state.elim notActive notQuiet

/-! ### The end of the frame on the wire -/

/-- The state in which the frame on the wire has ended (R168). -/
def State.lineFree (s : State) (p : PortNo) : State := s.modPort p fun q => { q with wire := none }

section
variable {s : State} {p : PortNo}

@[simp] theorem State.lineFree_port (s : State) (p : PortNo) : (s.lineFree p).port p = { s.port p with wire := none } :=
  State.port_modPort_self ..

theorem exec_transmitEnd_of_busy (busy : (s.port p).wire.isSome = true) :
    exec (.transmitEnd p) s = .next ((s.lineFree p).arbiterTake p) := congrArg _ (if_pos busy)

theorem State.lineFree_cueFrame (s : State) (p : PortNo) (c : Cue) : (s.lineFree p).cueFrame p c = s.cueFrame p c :=
  State.cueFrame_congr (s := s) (t := s.lineFree p) rfl (State.phase_modPort rfl) rfl
    (by rw [State.timing, State.lineFree_port, State.timing]) c

/-- The line that has just fallen free takes the frame the arbiter chooses. -/
theorem State.lineFree_takes {f : HubFrame} {q : Port} (choice : (s.lineFree p).chooseFrame p = some (f, q)) :
    ((s.lineFree p).arbiterTake p).port p = q.sending s.clock f := by
  rw [State.arbiterTake_of_idle (by rw [State.lineFree_port]) choice, State.port_setPort_self]
  rfl

theorem State.lineFree_arbiterTake {f : HubFrame} {q : Port} (choice : (s.lineFree p).chooseFrame p = some (f, q)) :
    (s.lineFree p).arbiterTake p = s.setPort p (q.sending s.clock f) := by
  rw [State.arbiterTake_of_idle (by rw [State.lineFree_port]) choice, State.lineFree, State.modPort, State.setPort_setPort]
  rfl

theorem rateDue_iff (s : State) (p : PortNo) : s.rateDue p = true ↔ (s.port p).lineRate ≠ (s.port p).entry.linkRate
    ∧ ∀ w, (s.port p).wire = some w → w.rate = (s.port p).entry.linkRate := by
  simp only [State.rateDue]
  cases (s.port p).wire with
  | none => simp
  | some w => simp

end

/-- Settles O32: class by class, the frame the arbiter chooses is the first of the highest class that has one waiting. -/
theorem arbiterTakesHighestClass : Obligations.ArbiterTakesHighestClass := by
  intro p s
  refine ⟨fun idle => congrArg _ (if_neg (by rw [idle]; decide)), fun w busy => ?taken, fun differs same => ?rate,
    fun stays => ?noRate⟩
  case rate => exact congrArg _ (if_pos ((rateDue_iff s p).mpr ⟨differs, same⟩))
  case noRate =>
    refine congrArg _ (if_neg fun due => ?_)
    obtain ⟨differs, same⟩ := (rateDue_iff s p).mp due
    obtain eq | ⟨w, wire, other⟩ := stays
    · exact differs eq
    · exact other (same w wire)
  refine ⟨_, exec_transmitEnd_of_busy (by rw [busy]; rfl), ?_⟩
  intro q sends
  have sentBy {f : HubFrame} {r : Port} (port : ((s.lineFree p).arbiterTake p).port p = r)
      (wire : r.wire = some { frame := f, sent := s.clock, rate := (s.port p).entry.linkRate }) : sends f :=
    (congrArg Port.wire port).trans wire
  have waits {α : Type} {g : Port → α} {x : α} (h : g { s.port p with wire := none } = x) : g ((s.lineFree p).port p) = x := by
    rw [State.lineFree_port, h]
  refine ⟨fun f rest h1 => ?class1, fun h1 => ⟨fun f rest h2 => ?calls, fun h2 => ⟨fun c rest h3 => ?cues, fun h3 =>
    ⟨fun f rest h4 => ?placings, fun h4 => ⟨fun f rest h5 => ?outbox, fun h5 => ⟨fun v f rest h6 h7 => ?views,
      fun h6 => ?none⟩⟩⟩⟩⟩⟩
  case class1 =>
    have choice := State.chooseFrame_class1 (s := s.lineFree p) (p := p) (waits h1)
    rw [State.lineFree_port] at choice
    obtain ⟨training, timing, eq⟩ := Port.sending_eq _ s.clock f
    have port := (State.lineFree_takes choice).trans eq
    refine ⟨sentBy port rfl, by rw [port], by rw [port], ?_⟩
    intro sent
    refine ⟨fun n bs body => ?_, fun n body => ?_⟩
    · exact (State.lineFree_arbiterTake choice).trans (congrArg (s.setPort p) (Port.sending_train _ _ body))
    · rw [State.lineFree_arbiterTake choice, Port.sending_probe _ _ body]
  case calls =>
    have choice := State.chooseFrame_calls (s := s.lineFree p) (p := p) (waits h1) (waits h2)
    rw [State.lineFree_port] at choice
    obtain ⟨training, timing, eq⟩ := Port.sending_eq _ s.clock f
    have port := (State.lineFree_takes choice).trans eq
    exact ⟨sentBy port rfl, by rw [port], by rw [port]⟩
  case cues =>
    have choice := State.chooseFrame_cues (s := s.lineFree p) (p := p) (waits h1) (waits h2) (waits h3)
    rw [State.lineFree_port, State.lineFree_cueFrame] at choice
    have port := (State.lineFree_takes choice).trans (Port.sending_of_plain _ _ rfl)
    exact ⟨by rw [port], by rw [port], sentBy port rfl⟩
  case placings =>
    have choice := State.chooseFrame_placings (s := s.lineFree p) (p := p) (waits h1) (waits h2) (waits h3) (waits h4)
    rw [State.lineFree_port] at choice
    obtain ⟨training, timing, eq⟩ := Port.sending_eq _ s.clock f
    have port := (State.lineFree_takes choice).trans eq
    exact ⟨sentBy port rfl, by rw [port], by rw [port]⟩
  case outbox =>
    have choice := State.chooseFrame_outbox (s := s.lineFree p) (p := p) (waits h1) (waits h2) (waits h3) (waits h4) (waits h5)
    rw [State.lineFree_port] at choice
    obtain ⟨training, timing, eq⟩ := Port.sending_eq _ s.clock f
    have port := (State.lineFree_takes choice).trans eq
    exact ⟨sentBy port rfl, by rw [port], by rw [port]⟩
  case views =>
    have choice := State.chooseFrame_viewSet (s := s.lineFree p) (p := p) (waits h1) (waits h2) (waits h3) (waits h4) (waits h5) (waits h6) h7
    rw [State.lineFree_port] at choice
    obtain ⟨training, timing, eq⟩ := Port.sending_eq _ s.clock f
    have port := (State.lineFree_takes choice).trans eq
    exact ⟨sentBy port rfl, by rw [port]; simp only [List.isEmpty_iff]⟩
  case none =>
    refine State.arbiterTake_of_none (State.chooseFrame_none ?_ ?_ ?_ ?_ ?_ ?_)
    all_goals
      rw [State.lineFree_port]
      assumption

end Sys2Proof.Machine
end

section
/-! PROOFS. Work done for one port after another (R101, R116, R118, R123, R143): an offer to a port reads the port itself, the
clock, the port states and the role, and changes no other port, so that every port of a list is served as if it were alone. -/

namespace Sys2Proof.Machine

/-- `t` shows an offer to port `p` what `s` shows it. -/
structure Alike (p : PortNo) (s t : State) : Prop where
  port : t.port p = s.port p
  clock : t.clock = s.clock
  director : t.mgmt.director = s.mgmt.director
  phase : ∀ r, (t.port r).phase = (s.port r).phase

theorem RouteEffect.alike {p : PortNo} {s t : State} (h : RouteEffect s t) (port : t.port p = s.port p) : Alike p s t :=
  ⟨port, h.clock, by rw [h.mgmt], fun r => (h.link r).phase⟩

section
variable {p : PortNo} {s t : State}

theorem Alike.isActive (h : Alike p s t) : t.isActive p = s.isActive p := by rw [State.isActive, State.isActive, h.port]

theorem Alike.timing (h : Alike p s t) : t.timing p = s.timing p := by rw [State.timing, State.timing, h.port]

theorem Alike.mkFrame (h : Alike p s t) (r : PortNo) (b : FrameBody) : t.mkFrame r b = s.mkFrame r b :=
  State.mkFrame_congr h.director h.phase r b

theorem Alike.modPort (h : Alike p s t) {f g : Port → Port} (same : f (s.port p) = g (s.port p)) :
    Alike p (s.modPort p f) (t.modPort p g) where
  port := by rw [State.port_modPort_self, State.port_modPort_self, h.port, same]
  clock := h.clock
  director := h.director
  phase r := by
    rw [State.port_modPort, State.port_modPort, h.port, ← same]
    split
    · rfl
    · exact h.phase r

theorem Alike.chooseFrame (h : Alike p s t) : t.chooseFrame p = s.chooseFrame p := by
  have cue (c : Cue) : t.cueFrame p c = s.cueFrame p c := State.cueFrame_congr h.director h.phase h.clock h.timing c
  simp only [State.chooseFrame, h.port, cue]

theorem Alike.arbiterTake (h : Alike p s t) : (t.arbiterTake p).port p = (s.arbiterTake p).port p := by
  unfold State.arbiterTake
  rw [h.port, h.chooseFrame, h.clock]
  split
  · exact h.port
  · split
    · rw [State.port_setPort_self, State.port_setPort_self]
    · exact h.port

theorem Alike.offerCue (h : Alike p s t) (c : Cue) : (t.offerCue p c).port p = (s.offerCue p c).port p := by
  unfold State.offerCue
  rw [h.isActive, h.port]
  split
  · split
    · exact (h.modPort rfl).arbiterTake
    · exact (h.modPort rfl).port
  · exact h.port

theorem Alike.offerCall (h : Alike p s t) (b : FrameBody) : (t.offerCall p b).port p = (s.offerCall p b).port p := by
  unfold State.offerCall
  rw [h.isActive, h.mkFrame]
  split
  · exact (h.modPort rfl).arbiterTake
  · exact h.port

theorem Alike.offerPlacing (h : Alike p s t) (b : FrameBody) : (t.offerPlacing p b).port p = (s.offerPlacing p b).port p := by
  unfold State.offerPlacing
  rw [h.isActive, h.mkFrame]
  split
  · exact (h.modPort rfl).arbiterTake
  · exact h.port

end

/-! ### An offer changes no other port -/

theorem offered_other (s : State) {p r : PortNo} (f : Port → Port) (h : r ≠ p) :
    ((s.modPort p f).arbiterTake p).port r = s.port r := by
  rw [arbiterTake_other _ h, State.port_modPort_of_ne _ _ h]

theorem State.offerCue_other (s : State) {p r : PortNo} (c : Cue) (h : r ≠ p) : (s.offerCue p c).port r = s.port r := by
  unfold State.offerCue
  split
  · split
    · exact offered_other _ _ h
    · exact State.port_modPort_of_ne _ _ h
  · rfl

theorem State.offerCall_other (s : State) {p r : PortNo} (b : FrameBody) (h : r ≠ p) :
    (s.offerCall p b).port r = s.port r := by
  unfold State.offerCall
  split
  · exact offered_other _ _ h
  · rfl

theorem State.offerPlacing_other (s : State) {p r : PortNo} (b : FrameBody) (h : r ≠ p) :
    (s.offerPlacing p b).port r = s.port r := by
  unfold State.offerPlacing
  split
  · exact offered_other _ _ h
  · rfl

theorem State.offerNotice_other (s : State) {p r : PortNo} (n : Notice) (h : r ≠ p) :
    (s.offerNotice p n).port r = s.port r := by
  unfold State.offerNotice
  split
  · exact offered_other _ _ h
  · rfl

/-! ### One port after another -/

/-- Work that serves one port at a time, reading what `Alike` keeps. -/
structure ServesPort (f : State → PortNo → State) : Prop where
  effect : ∀ s p, RouteEffect s (f s p)
  other : ∀ s p r, r ≠ p → (f s p).port r = s.port r
  reads : ∀ s t p, RouteEffect s t → t.port p = s.port p → (f t p).port p = (f s p).port p

theorem ServesPort.foldl_port {f : State → PortNo → State} (h : ServesPort f) {ps : List PortNo} (nodup : ps.Nodup)
    (s : State) (r : PortNo) : (ps.foldl f s).port r = if r ∈ ps then (f s r).port r else s.port r := by
  induction ps generalizing s with
  | nil => rfl
  | cons p ps ih =>
    obtain ⟨fresh, nodup⟩ := List.nodup_cons.mp nodup
    rw [List.foldl_cons, ih nodup (f s p)]
    by_cases same : r = p
    · subst same
      rw [if_neg fresh, if_pos (List.mem_cons_self ..)]
    · have kept := h.other s p r same
      rw [h.reads s (f s p) r (h.effect s p) kept, kept]
      simp only [List.mem_cons, same, false_or]

theorem ServesPort.allPorts {f : State → PortNo → State} (h : ServesPort f) (s : State) (r : PortNo) :
    (allPorts.foldl f s).port r = (f s r).port r := by
  rw [h.foldl_port nodup_allPorts s r, if_pos (mem_allPorts r)]

theorem servesPort_offerCue (c : State → Cue) (clock : ∀ s t, t.clock = s.clock → c t = c s) :
    ServesPort fun s p => s.offerCue p (c s) where
  effect s p := offerCue_effect s p _
  other s _ _ h := s.offerCue_other _ h
  reads s t _ h port := by
    rw [clock s t h.clock]
    exact (h.alike port).offerCue _

theorem servesPort_offerPlacing (b : FrameBody) : ServesPort fun s p => s.offerPlacing p b where
  effect s p := offerPlacing_effect s p b
  other s _ _ h := s.offerPlacing_other b h
  reads _ _ _ h port := (h.alike port).offerPlacing b

/-! ### What each offer does at its port -/

section
variable {s : State} {p : PortNo}

theorem State.isActive_iff (s : State) (p : PortNo) : s.isActive p = true ↔ (s.port p).phase = .active := decide_eq_true_iff

theorem State.offerCue_of_inactive (c : Cue) (h : (s.port p).phase ≠ .active) : s.offerCue p c = s :=
  if_neg fun active => h ((s.isActive_iff p).mp active)

theorem State.offerCue_of_room (c : Cue) (active : (s.port p).phase = .active) (room : (s.port p).cues.length < 8) :
    s.offerCue p c = (s.modPort p fun q => { q with cues := q.cues ++ [c] }).arbiterTake p := by
  rw [State.offerCue, if_pos ((s.isActive_iff p).mpr active), if_pos room]

theorem State.offerCue_of_full (c : Cue) (active : (s.port p).phase = .active) (full : 8 ≤ (s.port p).cues.length) :
    s.offerCue p c
      = s.modPort p fun q => { q with counters := { q.counters with cueDrop := bump q.counters.cueDrop } } := by
  rw [State.offerCue, if_pos ((s.isActive_iff p).mpr active), if_neg (Nat.not_lt.mpr full)]
  rfl

theorem State.offerCue_of_busy (c : Cue) (active : (s.port p).phase = .active) (room : (s.port p).cues.length < 8)
    (busy : (s.port p).wire.isSome = true) : s.offerCue p c = s.modPort p fun q => { q with cues := q.cues ++ [c] } := by
  rw [State.offerCue_of_room c active room]
  exact arbiterTake_busy (by rw [State.port_modPort_self]; exact busy)

theorem State.cueFrame_modPort {f : Port → Port} (phase : (f (s.port p)).phase = (s.port p).phase)
    (timing : (f (s.port p)).timing = (s.port p).timing) (c : Cue) : (s.modPort p f).cueFrame p c = s.cueFrame p c :=
  State.cueFrame_congr (s := s) (t := s.modPort p f) rfl (State.phase_modPort phase) rfl
    (by rw [State.timing, State.port_modPort_self, timing, State.timing]) c

theorem arbiterTake_counters (s : State) (p : PortNo) : ((s.arbiterTake p).port p).counters = (s.port p).counters := by
  unfold State.arbiterTake
  split
  · rfl
  · split
    · next choice =>
      obtain ⟨_, counters⟩ := chooseFrame_counters choice
      rw [State.port_setPort_self, (stampSent_phase ..).2]
      exact counters
    · rfl

theorem State.offerCue_counters_of_room {c : Cue} (room : (s.port p).cues.length < 8) :
    ((s.offerCue p c).port p).counters = (s.port p).counters := by
  by_cases active : (s.port p).phase = .active
  · rw [State.offerCue_of_room c active room, arbiterTake_counters, State.port_modPort_self]
  · rw [State.offerCue_of_inactive c active]

/-- An idle line with nothing before the cue takes it at once (R146, R168). -/
theorem State.offerCue_of_idle (c : Cue) (active : (s.port p).phase = .active) (idle : (s.port p).wire = none)
    (h1 : (s.port p).class1 = []) (h2 : (s.port p).calls = []) (h3 : (s.port p).cues = []) : s.offerCue p c
      = s.modPort p fun q => { q with wire := some { frame := s.cueFrame p c, sent := s.clock, rate := q.entry.linkRate } } := by
  have formed : (s.modPort p fun q => { q with cues := q.cues ++ [c] }).cueFrame p c = s.cueFrame p c :=
    State.cueFrame_modPort rfl rfl c
  rw [State.offerCue_of_room c active (by rw [h3]; decide), State.arbiterTake_of_idle (by rw [State.port_modPort_self]; exact idle)
    (State.chooseFrame_cues (rest := []) (by rw [State.port_modPort_self]; exact h1) (by rw [State.port_modPort_self]; exact h2)
      (by rw [State.port_modPort_self, h3]; rfl)), formed, Port.sending_of_plain _ _ rfl, State.port_modPort_self,
    State.modPort, State.setPort_setPort, State.modPort, ← h3]
  rfl

theorem State.offerCall_of_busy (b : FrameBody) (active : (s.port p).phase = .active) (room : (s.port p).calls.length < 4)
    (busy : (s.port p).wire.isSome = true) :
    s.offerCall p b = s.modPort p fun q => { q with calls := q.calls ++ [s.mkFrame p b] } := by
  have pushed : pushDropOldest 4 (s.port p).calls (s.mkFrame p b) = (s.port p).calls ++ [s.mkFrame p b] := by
    have none : (s.port p).calls.length + 1 - 4 = 0 := by omega
    rw [pushDropOldest, none, List.drop_zero]
  rw [State.offerCall, if_pos ((s.isActive_iff p).mpr active)]
  refine (arbiterTake_busy (by rw [State.port_modPort_self]; exact busy)).trans (State.modPort_congr ?_)
  rw [pushed]

end

/-! ### Fixed cues (R116, R130, R146) -/

theorem fixedCue_port (code : Byte) (s : State) (p : PortNo) :
    (fixedCue code s).port p = (s.offerCue p { code := code, slots := [], time := s.clock }).port p :=
  (servesPort_offerCue (fun s => { code := code, slots := [], time := s.clock })
    (fun _ _ h => by rw [h])).allPorts s p

theorem fixedCue_race (code : Byte) (s : State) : (fixedCue code s).race = s.race :=
  foldl_race _ _ s fun u p same => (State.offerCue_race u p _).trans same

theorem fixedCue_of_inactive (code : Byte) {s : State} {p : PortNo} (h : (s.port p).phase ≠ .active) :
    (fixedCue code s).port p = s.port p := by
  rw [fixedCue_port, State.offerCue_of_inactive _ h]

theorem fixedCue_of_busy (code : Byte) {s : State} {p : PortNo} (active : (s.port p).phase = .active)
    (room : (s.port p).cues.length < 8) (busy : (s.port p).wire.isSome = true) : (fixedCue code s).port p
      = { s.port p with cues := (s.port p).cues ++ [{ code := code, slots := [], time := s.clock }] } := by
  rw [fixedCue_port, State.offerCue_of_busy _ active room busy, State.port_modPort_self]

end Sys2Proof.Machine
end

section
/-! PROOFS. OPEN_GRID, ABORT_START and RESET_RACE (R113, R116, R130), and the race commands that are refused with STATE. -/

namespace Sys2Proof.Machine

theorem State.anyOverLine_iff (s : State) : s.anyOverLine = true ↔ s.crossings ≠ [] ∨ ∃ i, 0 < (s.car i).lap := by
  simp [State.anyOverLine, mem_allSlots]

/-- Settles O41. -/
theorem gridAndRefusals : Obligations.GridAndRefusals := by
  intro s c refused
  refine ⟨fun asks h => ?_, fun asks h => ?_, fun asks h => ?_, fun asks h1 h2 => ?_, fun asks h => ?_,
    fun asks h1 h2 h3 => ?_, fun asks idle => ⟨fun fits => ?_, fun unfit => ?_⟩,
    fun asks counting => ⟨fun empty still => ?abort, fun moved => ?_⟩⟩
  · exact exec_alone_of_eq (fun _ => rfl) asks (if_neg h)
  · exact exec_alone_of_eq (fun _ => rfl) asks (if_neg h)
  · exact exec_alone_of_eq (fun _ => rfl) asks (if_neg fun taken => h taken.1)
  · exact exec_alone_of_eq (fun _ => rfl) asks (if_neg fun allowed => (of_decide_eq_true allowed).elim h1 h2)
  · exact exec_alone_of_eq (fun _ => rfl) asks (if_neg h)
  · refine exec_alone_of_eq (fun _ => rfl) asks (if_neg fun allowed => ?_)
    obtain h | h | h := of_decide_eq_true allowed
    · exact h1 h
    · exact h2 h
    · exact h3 h
  · exact exec_alone_of_eq (fun _ => rfl) asks ((if_pos idle).trans (if_pos (decide_eq_true fits)))
  · exact exec_alone_of_eq (fun _ => rfl) asks
      ((if_pos idle).trans (if_neg fun fits => Nat.not_lt.mpr unfit (of_decide_eq_true fits)))
  case abort =>
    have free : s.dropHead.anyOverLine = false := by
      refine Bool.eq_false_iff.mpr fun moved => ?_
      obtain held | ⟨i, ahead⟩ := s.dropHead.anyOverLine_iff.mp moved
      · exact held empty
      · exact absurd (still i) (Nat.pos_iff_ne_zero.mp ahead)
    let started : State := { s.dropHead with race := { s.race with state := .grid, tGreen := none } }
    have eq : abortStart s.dropHead = (fixedCue 0xFE started, .ok) := by
      rw [abortStart, if_pos ⟨counting, free⟩]
      rfl
    refine ⟨fixedCue 0xFE started, exec_alone_of_eq (fun _ => rfl) asks eq,
      (RouteEffect.withRace s.dropHead _).trans (fixedCue_effect ..), fixedCue_race .., fun p active busy room => ?_⟩
    rw [fixedCue_of_busy (s := started) 0xFE active room busy]
    rfl
  · exact exec_alone_of_eq (fun _ => rfl) asks
      (if_neg fun taken => Bool.false_ne_true (taken.2.symm.trans (s.dropHead.anyOverLine_iff.mpr moved)))

/-- The state of a race reset before its RACE_RESET cue (R130). -/
def State.raceCleared (s : State) : State :=
  { s with
    race := resetRaceRecord
    ports := perPort fun p => (s.port p).raceReset
    cars := perSlot fun i => (s.car i).raceReset
    crossings := []
    lapTable := emptyLapTable
    classification := []
    contacts := [] }

theorem State.raceCleared_port (s : State) (p : PortNo) : s.raceCleared.port p = (s.port p).raceReset := perPort_get ..

theorem State.raceCleared_car (s : State) (i : Slot) : s.raceCleared.car i = (s.car i).raceReset := perSlot_get ..

theorem lap_of_emptyLapTable {s : State} (h : s.lapTable = emptyLapTable) (k : Nat) : s.lap k = emptyLap := by
  rw [State.lap, h]
  split
  · rfl
  · simp only [emptyLapTable, Vector.toList_replicate, List.getD_eq_getElem?_getD, List.getElem?_replicate]
    split <;> rfl

theorem raceReset_link (q : Port) : SameLink q q.raceReset where
  phase := rfl
  faultReason := rfl
  entry := rfl
  viewOrder := rfl
  lineRate := rfl
  gateSample := rfl
  gateCar := rfl
  linkBase := rfl
  nextInvite := rfl
  failedRounds := rfl
  paceTimer := rfl
  record := rfl
  within h := ⟨h.1, Nat.zero_le _, Nat.zero_le _, Nat.zero_le _, h.2.2.2.2⟩

/-- Settles O46: a race reset clears the race, and its cue goes to every ACTIVE port, each served as if it were alone. -/
theorem raceResetClearsRace : Obligations.RaceResetClearsRace := by
  intro s c asks
  let cleared : State := s.dropHead.raceCleared
  have effect : RouteEffect cleared (fixedCue 0xFF cleared) := fixedCue_effect ..
  refine ⟨fixedCue 0xFF cleared, exec_alone_of_eq (fun _ => rfl) asks rfl, fixedCue_race .., effect.crossings,
    effect.classification, effect.contacts, lap_of_emptyLapTable effect.lapTable, fun i => ?car, effect.clock, effect.params,
    effect.routes, effect.patterns, effect.crossingLost, effect.mgmt, effect.resetLow, effect.free, fun p => ?port⟩
  case car =>
    rw [effect.car, State.raceCleared_car]
    rfl
  have port : cleared.port p = (s.port p).raceReset := State.raceCleared_port ..
  have inactive (h : (s.port p).phase ≠ .active) : (fixedCue 0xFF cleared).port p = (s.port p).raceReset := by
    rw [fixedCue_of_inactive (s := cleared) 0xFF (by rw [port]; exact h), port]
  have busy (active : (s.port p).phase = .active) (h : (s.port p).wire.isSome = true) : (fixedCue 0xFF cleared).port p
      = { (s.port p).raceReset with cues := [{ code := 0xFF, slots := [], time := s.clock }] } := by
    rw [fixedCue_of_busy (s := cleared) 0xFF (by rw [port]; exact active) (by rw [port]; exact Nat.zero_lt_succ 7)
      (by rw [port]; exact h), port]
    rfl
  have idle (active : (s.port p).phase = .active) (wire : (s.port p).wire = none) (h1 : (s.port p).class1 = []) :
      (fixedCue 0xFF cleared).port p = { (s.port p).raceReset with wire := some {
        frame := s.cueFrame p { code := 0xFF, slots := [], time := s.clock }, sent := s.clock,
        rate := (s.port p).entry.linkRate } } := by
    have formed (x : Cue) : cleared.cueFrame p x = s.cueFrame p x :=
      State.cueFrame_congr (s := s) (t := cleared) rfl (fun r => by rw [State.raceCleared_port]; rfl) rfl
        (by rw [State.timing, port]; rfl) x
    rw [fixedCue_port, State.offerCue_of_idle _ (by rw [port]; exact active) (by rw [port]; exact wire)
      (by rw [port]; exact h1) (by rw [port]; rfl) (by rw [port]; rfl), State.port_modPort_self, port, formed]
    rfl
  refine ⟨(raceReset_link (s.port p)).trans (port ▸ effect.link p), ?_, inactive, busy, idle⟩
  rw [fixedCue_port, State.offerCue_counters_of_room (by rw [port]; exact Nat.zero_lt_succ 7), port]
  rfl

end Sys2Proof.Machine
end

section
/-! PROOFS. Events and their routes (R140 to R147), the hold an event or a command calls (R118), START, HOLD and RESUME (R114,
R118, R123). -/

namespace Sys2Proof.Machine

theorem RouteEffect.eq_of_race {s t : State} (h : RouteEffect s t) (race : t.race = s.race) : t = { s with ports := t.ports } := by
  obtain ⟨h1, h2, h3, h4, h5, h6, h7, h8, h9, h10, h11, h12, h13, h14, -⟩ := h
  cases s
  cases t
  simp_all

/-! ### What an event changes at a busy port -/

/-- `r` differs from `q` in the Cue Queue, class 5 and the counters at most. -/
def Port.Routed (q r : Port) : Prop := ∃ cues outbox counters, r = { q with cues := cues, outbox := outbox, counters := counters }

/-- `r` differs from `q` in the waiting calls and what `Routed` allows at most. -/
def Port.Called (q r : Port) : Prop := ∃ calls, Port.Routed { q with calls := calls } r

theorem Port.Routed.refl (q : Port) : q.Routed q := ⟨_, _, _, rfl⟩

theorem Port.Routed.trans {a b c : Port} (h : a.Routed b) (k : b.Routed c) : a.Routed c := by
  obtain ⟨_, _, _, rfl⟩ := h
  obtain ⟨_, _, _, rfl⟩ := k
  exact ⟨_, _, _, rfl⟩

theorem Port.Routed.called {q r : Port} (h : q.Routed r) : q.Called r := ⟨q.calls, h⟩

theorem Port.Called.refl (q : Port) : q.Called q := (Port.Routed.refl q).called

theorem Port.Called.trans {a b c : Port} (h : a.Called b) (k : b.Called c) : a.Called c := by
  obtain ⟨_, _, _, _, rfl⟩ := h
  obtain ⟨_, _, _, _, rfl⟩ := k
  exact ⟨_, _, _, _, rfl⟩

theorem Port.Routed.wire {q r : Port} (h : q.Routed r) : r.wire = q.wire := by
  obtain ⟨_, _, _, rfl⟩ := h
  rfl

theorem Port.Called.wire {q r : Port} (h : q.Called r) : r.wire = q.wire := by
  obtain ⟨_, _, _, _, rfl⟩ := h
  rfl

/-- A time hold_lead ahead: T_h of a hold called now, T_r of a RESUME (R118, R123). -/
def State.holdTime (s : State) : RaceTime := addTime s.clock s.params.holdLead

section
variable {s : State} {r : PortNo}

theorem State.port_offered_of_busy (busy : (s.port r).wire.isSome = true) (p : PortNo) {f : Port → Port}
    (wire : (f (s.port p)).wire = (s.port p).wire) :
    ((s.modPort p f).arbiterTake p).port r = if r = p then f (s.port p) else s.port r := by
  by_cases same : r = p
  · subst same
    rw [if_pos rfl, arbiterTake_busy (by rw [State.port_modPort_self, wire]; exact busy), State.port_modPort_self]
  · rw [if_neg same, offered_other _ _ same]

theorem State.offerCue_routed (busy : (s.port r).wire.isSome = true) (p : PortNo) (c : Cue) :
    (s.port r).Routed ((s.offerCue p c).port r) := by
  unfold State.offerCue
  split
  · split
    · rw [State.port_offered_of_busy busy p rfl]
      split
      · next same => exact ⟨_, _, _, by rw [same]⟩
      · exact .refl _
    · rw [State.count, State.port_modPort]
      split
      · next same => exact ⟨_, _, _, by rw [same]⟩
      · exact .refl _
  · exact .refl _

theorem State.offerNotice_routed (busy : (s.port r).wire.isSome = true) (p : PortNo) (n : Notice) :
    (s.port r).Routed ((s.offerNotice p n).port r) := by
  unfold State.offerNotice
  split
  · rw [State.port_offered_of_busy busy p rfl]
    split
    · next same => exact ⟨_, _, _, by rw [same]⟩
    · exact .refl _
  · exact .refl _

theorem State.noticeToDirector_routed (busy : (s.port r).wire.isSome = true) (n : Notice) :
    (s.port r).Routed ((s.noticeToDirector n).port r) := by
  unfold State.noticeToDirector
  split
  · exact State.offerNotice_routed busy _ n
  · exact .refl _

theorem State.offerCall_called (busy : (s.port r).wire.isSome = true) (p : PortNo) (b : FrameBody) :
    (s.port r).Called ((s.offerCall p b).port r) := by
  unfold State.offerCall
  split
  · rw [State.port_offered_of_busy busy p rfl]
    split
    · next same =>
      subst same
      exact ⟨pushDropOldest 4 (s.port r).calls (s.mkFrame r b), .refl _⟩
    · exact .refl _
  · exact .refl _

theorem foldl_routed {α : Type} (f : State → α → State) (xs : List α)
    (busy : (s.port r).wire.isSome = true)
    (h : ∀ u x, (u.port r).wire.isSome = true → u.race = s.race → (u.port r).Routed ((f u x).port r) ∧ (f u x).race = s.race) :
    (s.port r).Routed ((xs.foldl f s).port r) := by
  refine (List.foldlRecOn xs f (motive := fun u => (s.port r).Routed (u.port r) ∧ u.race = s.race)
    ⟨.refl _, rfl⟩ fun u ⟨so, race⟩ x _ => ?_).1
  obtain ⟨step, race'⟩ := h u x (by rw [so.wire]; exact busy) race
  exact ⟨so.trans step, race'⟩

theorem foldl_called {α : Type} (f : State → α → State) (xs : List α) (busy : (s.port r).wire.isSome = true)
    (h : ∀ (u : State) x, (u.port r).wire.isSome = true → (u.port r).Called ((f u x).port r)) :
    (s.port r).Called ((xs.foldl f s).port r) := by
  refine List.foldlRecOn xs f (motive := fun u => (s.port r).Called (u.port r)) (.refl _) fun u so x _ => ?_
  exact so.trans (h u x (by rw [so.wire]; exact busy))

theorem routeAct_routed (free : holdAllowed s.race.state = false) (busy : (s.port r).wire.isSome = true) (e : Event)
    (x : Route) : (s.port r).Routed ((routeAct e s x).port r) := by
  unfold routeAct
  split
  · exact foldl_routed _ _ busy fun u p still race => ⟨State.offerCue_routed still p _, (State.offerCue_race ..).trans race⟩
  · exact State.noticeToDirector_routed busy _
  · rw [autoHold, if_neg (by rw [free]; exact Bool.false_ne_true)]
    exact .refl _

/-- At a busy port an event that calls no hold adds cues and notices, and drops cues (R143, R144, R146). -/
theorem raise_routed (free : holdAllowed s.race.state = false) (busy : (s.port r).wire.isSome = true) (e : Event) :
    (s.port r).Routed ((raise e s).port r) := by
  refine foldl_routed _ _ busy fun u x still race => ?_
  have free' : holdAllowed u.race.state = false := by rw [race]; exact free
  unfold routeOne
  split
  · exact ⟨routeAct_routed free' still e x, (routeAct_race free' e x).trans race⟩
  · exact ⟨.refl _, race⟩

theorem holdPort_port (tH : RaceTime) (s : State) (p r : PortNo) : (holdPort tH s p).port r
    = (if s.getsHoldCall p then s.offerCall p (.holdCall (inverse (s.timing p) tH)) else s).port r := by
  unfold holdPort
  split <;> rfl

theorem holdPort_called (busy : (s.port r).wire.isSome = true) (tH : RaceTime) (p : PortNo) :
    (s.port r).Called ((holdPort tH s p).port r) := by
  rw [holdPort_port]
  split
  · exact State.offerCall_called busy p _
  · exact .refl _

/-- The state a call of a hold works from (R118). -/
def State.holdCalled (s : State) : State :=
  { s with race := { s.race with tH := some s.holdTime, remembered := some s.race.state, acks := [] } }

theorem callHold_eq (s : State) :
    callHold s = (allPorts.foldl (holdPort s.holdTime) s.holdCalled).setRace .holdPending := rfl

theorem callHold_called (busy : (s.port r).wire.isSome = true) : (s.port r).Called ((callHold s).port r) := by
  rw [callHold_eq, State.port_setRace]
  exact foldl_called (s := s.holdCalled) _ _ busy fun u p still => holdPort_called still _ p

theorem autoHold_called (busy : (s.port r).wire.isSome = true) : (s.port r).Called ((autoHold s).port r) := by
  unfold autoHold
  split
  · exact callHold_called busy
  · exact .refl _

theorem routeAct_called (busy : (s.port r).wire.isSome = true) (e : Event) (x : Route) :
    (s.port r).Called ((routeAct e s x).port r) := by
  unfold routeAct
  split
  · exact foldl_called _ _ busy fun u p still => (State.offerCue_routed still p _).called
  · exact (State.noticeToDirector_routed busy _).called
  · exact autoHold_called busy

theorem raise_called (busy : (s.port r).wire.isSome = true) (e : Event) : (s.port r).Called ((raise e s).port r) := by
  refine foldl_called _ _ busy fun u x still => ?_
  unfold routeOne
  split
  · exact routeAct_called still e x
  · exact .refl _

end

/-! ### The hold that is called (R118) -/

theorem State.getsHoldCall_iff (s : State) (p : PortNo) : s.getsHoldCall p = true ↔ (s.port p).phase = .active
    ∧ ∃ i, s.owns p i = true ∧ ((s.car i).state = .live ∨ (s.car i).state = .coasting) := by
  simp [State.getsHoldCall, State.isActive_iff, State.slotsOf, mem_allSlots]

theorem State.car_congr {s t : State} (cars : t.cars = s.cars) (i : Slot) : t.car i = s.car i := by
  rw [State.car, State.car, cars]

theorem State.isActive_congr {s t : State} {p : PortNo} (phase : (t.port p).phase = (s.port p).phase) :
    t.isActive p = s.isActive p := by
  rw [State.isActive, State.isActive, phase]

theorem State.owns_congr {s t : State} (cars : t.cars = s.cars) (p : PortNo) (i : Slot) : t.owns p i = s.owns p i := by
  rw [State.owns, State.owns, State.car_congr cars]

theorem State.slotsOf_congr {s t : State} (cars : t.cars = s.cars) (p : PortNo) : t.slotsOf p = s.slotsOf p :=
  congrArg (allSlots.filter ·) (funext fun i => State.owns_congr cars p i)

theorem State.getsHoldCall_congr {s t : State} {p : PortNo} (cars : t.cars = s.cars)
    (phase : (t.port p).phase = (s.port p).phase) : t.getsHoldCall p = s.getsHoldCall p := by
  simp only [State.getsHoldCall, State.isActive_congr phase, State.slotsOf_congr cars, State.car_congr cars]

theorem servesPort_holdPort (tH : RaceTime) : ServesPort (holdPort tH) where
  effect := holdPort_effect tH
  other s p r h := by
    rw [holdPort_port]
    split
    · exact State.offerCall_other _ _ h
    · rfl
  reads s t p h port := by
    have alike := h.alike port
    rw [holdPort_port, holdPort_port, State.getsHoldCall_congr h.cars (h.link p).phase, alike.timing]
    split
    · exact alike.offerCall _
    · exact port

@[simp] theorem State.offerCall_race (s : State) (p : PortNo) (b : FrameBody) : (s.offerCall p b).race = s.race := by
  unfold State.offerCall
  split
  · rw [State.arbiterTake_race, State.modPort_race]
  · rfl

/-- The ack set entry of a port that is called (R118). -/
def State.ackEntry (s : State) (tH : RaceTime) (p : PortNo) : AckEntry := ⟨p, inverse (s.timing p) tH, false⟩

theorem holdPort_race (tH : RaceTime) (s : State) (p : PortNo) : (holdPort tH s p).race
    = { s.race with acks := s.race.acks ++ ([p].filter s.getsHoldCall).map (s.ackEntry tH) } := by
  unfold holdPort
  split
  · next gets => simp only [State.offerCall_race, List.filter_cons, gets, if_true, List.filter_nil]; rfl
  · next gets => simp [gets]

theorem holdPorts_race (tH : RaceTime) {ps : List PortNo} (nodup : ps.Nodup) (s : State) : (ps.foldl (holdPort tH) s).race
    = { s.race with acks := s.race.acks ++ (ps.filter s.getsHoldCall).map (s.ackEntry tH) } := by
  induction ps generalizing s with
  | nil => simp
  | cons p ps ih =>
    obtain ⟨fresh, nodup⟩ := List.nodup_cons.mp nodup
    have kept (r : PortNo) (mem : r ∈ ps) : (holdPort tH s p).port r = s.port r :=
      (servesPort_holdPort tH).other s p r fun same => fresh (same ▸ mem)
    have gets : ps.filter (holdPort tH s p).getsHoldCall = ps.filter s.getsHoldCall :=
      List.filter_congr fun r mem => State.getsHoldCall_congr (holdPort_effect tH s p).cars (by rw [kept r mem])
    have entry : (ps.filter s.getsHoldCall).map ((holdPort tH s p).ackEntry tH)
        = (ps.filter s.getsHoldCall).map (s.ackEntry tH) :=
      List.map_congr_left fun r mem => by
        rw [State.ackEntry, State.ackEntry, State.timing, kept r (List.mem_filter.mp mem).1, State.timing]
    have split : (p :: ps).filter s.getsHoldCall = [p].filter s.getsHoldCall ++ ps.filter s.getsHoldCall :=
      List.filter_append [p] ps
    rw [List.foldl_cons, ih nodup, holdPort_race, gets, entry, split, List.map_append, List.append_assoc]

theorem callHold_race (s : State) : (callHold s).race = { s.race with
    state := .holdPending, tH := some s.holdTime, remembered := some s.race.state,
    acks := (allPorts.filter s.getsHoldCall).map (s.ackEntry s.holdTime) } := by
  rw [callHold_eq, State.setRace, holdPorts_race _ nodup_allPorts]
  rfl

theorem callHold_calls {s : State} {p : PortNo} (gets : s.getsHoldCall p = true) (busy : (s.port p).wire.isSome = true)
    (room : (s.port p).calls.length < 4) : ((callHold s).port p).calls
      = (s.port p).calls ++ [s.mkFrame p (.holdCall (inverse (s.timing p) s.holdTime))] := by
  have active : (s.holdCalled.port p).phase = .active := ((s.getsHoldCall_iff p).mp gets).1
  rw [callHold_eq, State.port_setRace, (servesPort_holdPort s.holdTime).allPorts, holdPort_port,
    if_pos (show s.holdCalled.getsHoldCall p = true from gets), State.offerCall_of_busy _ active room busy,
    State.port_modPort_self]
  rfl

theorem holdAllowed_iff (r : RaceState) : holdAllowed r = true ↔ r = .running ∨ r = .finishing := decide_eq_true_iff

/-! ### The routes that act (R142) -/

theorem Route.matches_iff (r : Route) (e : Event) : r.matches e = true
    ↔ r.valid = true ∧ r.kind = e.kind ∧ (∀ i, r.filter = some i → i ∈ e.slots) := by
  unfold Route.matches
  cases r.filter <;> simp [and_assoc]

theorem raise_eq (e : Event) (s : State) : raise e s = (s.routes.toList.filter fun r => r.matches e).foldl (routeAct e) s :=
  List.foldl_filter.symm

theorem raise_of_unmatched {e : Event} {s : State} (none : ∀ r ∈ s.routes.toList, r.matches e = false) : raise e s = s := by
  have empty : (s.routes.toList.filter fun r => r.matches e) = [] :=
    List.filter_eq_nil_iff.mpr fun r mem => Bool.eq_false_iff.mp (none r mem)
  rw [raise_eq, empty, List.foldl_nil]

theorem raise_of_inactive {s : State} {p : PortNo} (e : Event) (h : (s.port p).phase ≠ .active) :
    (raise e s).port p = s.port p := ((raise_work e s).ports p).still h

theorem State.mem_targetPorts (s : State) (r : Route) (e : Event) (p : PortNo) : p ∈ s.targetPorts r e ↔
    r.target = .all ∨ (r.target = .involved ∧ ∃ i ∈ e.slots, (s.car i).owner = p)
      ∨ (r.target = .mask ∧ r.mask.getLsbD p.val = true) := by
  unfold State.targetPorts
  cases target : r.target <;> simp [mem_allPorts]

theorem State.targetPorts_nodup (s : State) (r : Route) (e : Event) : (s.targetPorts r e).Nodup := by
  unfold State.targetPorts
  split
  · exact nodup_allPorts
  · exact nodup_allPorts.filter _
  · exact nodup_allPorts.filter _

/-- The cue a CUE route offers (R143). -/
def Route.cueOf (r : Route) (e : Event) : Cue := { code := r.code, slots := e.slots, time := addTime e.time r.lead }

theorem routeAct_cue {r : Route} (cue : r.action = .cue) (e : Event) (s : State) :
    routeAct e s r = (s.targetPorts r e).foldl (fun s p => s.offerCue p (r.cueOf e)) s := by
  unfold routeAct
  rw [cue]
  rfl

theorem routeAct_cue_race {r : Route} (cue : r.action = .cue) (e : Event) (s : State) : (routeAct e s r).race = s.race := by
  rw [routeAct_cue cue]
  exact foldl_race _ _ s fun u p same => (State.offerCue_race u p _).trans same

theorem routeAct_cue_port {r : Route} (cue : r.action = .cue) (e : Event) (s : State) (p : PortNo) : (routeAct e s r).port p
    = if p ∈ s.targetPorts r e then (s.offerCue p (r.cueOf e)).port p else s.port p := by
  rw [routeAct_cue cue]
  exact (servesPort_offerCue (fun _ => r.cueOf e) fun _ _ _ => rfl).foldl_port (s.targetPorts_nodup r e) s p

theorem routeAct_notify {r : Route} (notify : r.action = .notify) (e : Event) (s : State) :
    routeAct e s r = s.noticeToDirector (.event e) := by
  unfold routeAct
  rw [notify]

theorem routeAct_autoHold {r : Route} (auto : r.action = .autoHold) (e : Event) (s : State) :
    routeAct e s r = autoHold s := by
  unfold routeAct
  rw [auto]

/-! ### Notices (R144, R169) -/

section
variable {s : State} {p : PortNo}

theorem State.offerNotice_of_room (n : Notice) (admits : admitsReplies (s.port p).phase = true)
    (room : (s.port p).notices.length < 16) : s.offerNotice p n
      = (s.modPort p fun q => { q with outbox := q.outbox ++ [s.mkFrame p (.notice n)] }).arbiterTake p :=
  if_pos (by rw [admits, Bool.true_and]; exact decide_eq_true room)

theorem State.offerNotice_of_full (n : Notice) (full : 16 ≤ (s.port p).notices.length) : s.offerNotice p n = s := by
  refine if_neg fun taken => ?_
  obtain ⟨_, room⟩ := Bool.and_eq_true_iff.mp taken
  exact absurd (of_decide_eq_true room) (Nat.not_lt.mpr full)

theorem State.offerNotice_of_busy (n : Notice) (admits : admitsReplies (s.port p).phase = true)
    (room : (s.port p).notices.length < 16) (busy : (s.port p).wire.isSome = true) :
    s.offerNotice p n = s.modPort p fun q => { q with outbox := q.outbox ++ [s.mkFrame p (.notice n)] } := by
  rw [State.offerNotice_of_room n admits room]
  exact arbiterTake_busy (by rw [State.port_modPort_self]; exact busy)

theorem State.offerNotice_of_idle (n : Notice) (admits : admitsReplies (s.port p).phase = true)
    (idle : (s.port p).wire = none) (h1 : (s.port p).class1 = []) (h2 : (s.port p).calls = []) (h3 : (s.port p).cues = [])
    (h4 : (s.port p).placings = []) (h5 : (s.port p).outbox = []) : s.offerNotice p n = s.modPort p fun q =>
      { q with wire := some { frame := s.mkFrame p (.notice n), sent := s.clock, rate := q.entry.linkRate } } := by
  have room : (s.port p).notices.length < 16 := by rw [Port.notices, h5]; decide
  have waits {α : Type} {g : Port → α} {x : α}
      (h : g { s.port p with outbox := (s.port p).outbox ++ [s.mkFrame p (.notice n)] } = x) :
      g ((s.modPort p fun q => { q with outbox := q.outbox ++ [s.mkFrame p (.notice n)] }).port p) = x := by
    rw [State.port_modPort_self, h]
  rw [State.offerNotice_of_room n admits room, State.arbiterTake_of_idle (waits idle)
    (State.chooseFrame_outbox (rest := []) (waits h1) (waits h2) (waits h3) (waits h4) (waits (by rw [h5]; rfl))),
    Port.sending_of_plain _ _ rfl, State.port_modPort_self, State.modPort, State.setPort_setPort, State.modPort, ← h5]
  rfl

end

theorem State.noticeToDirector_of_role {s : State} {d : PortNo} (role : s.roleHolder = some d) (n : Notice) :
    s.noticeToDirector n = s.offerNotice d n := by
  rw [State.noticeToDirector, role]

theorem State.noticeToDirector_of_vacant {s : State} (vacant : s.roleHolder = none) (n : Notice) :
    s.noticeToDirector n = s := by
  rw [State.noticeToDirector, vacant]

/-- Settles O48: `raise` folds the matching routes; of each action one lemma says what it does. -/
theorem eventsRouted : Obligations.EventsRouted := by
  intro e s
  refine ⟨fun r => r.matches_iff e, raise_eq e s, raise_of_unmatched, fun p => raise_of_inactive e, raise_effect e s,
    fun r => ?_⟩
  intro t sends
  refine ⟨fun cue => ⟨(routeAct_effect e s r).eq_of_race (routeAct_cue_race cue e s), fun p => ?cue⟩,
    fun notify => ⟨fun vacant => ?vacant, fun d role => ?notify⟩, fun auto => ⟨fun h1 h2 => ?refused, fun allowed => ?auto⟩⟩
  case cue =>
    intro q targeted cue'
    have port : t.port p = if p ∈ s.targetPorts r e then (s.offerCue p cue').port p else s.port p :=
      routeAct_cue_port cue e s p
    have target : p ∈ s.targetPorts r e ↔ targeted := s.mem_targetPorts r e p
    refine ⟨fun missed => ?_, fun hit active => ⟨fun full => ?_, fun room busy => ?_, fun idle h1 h2 h3 => ?_⟩⟩
    · rw [port]
      split
      · next mem => rw [State.offerCue_of_inactive _ (missed.resolve_left fun out => out (target.mp mem))]
      · rfl
    · rw [port, if_pos (target.mpr hit), State.offerCue_of_full _ active full, State.port_modPort_self]
    · rw [port, if_pos (target.mpr hit), State.offerCue_of_busy _ active room busy, State.port_modPort_self]
    · rw [port, if_pos (target.mpr hit), State.offerCue_of_idle _ active idle h1 h2 h3, State.port_modPort_self]
  case vacant => exact (routeAct_notify notify e s).trans (State.noticeToDirector_of_vacant vacant _)
  case notify =>
    intro q notice
    have admits : admitsReplies (s.port d).phase = true := (admitsReplies_iff _).mpr (.inl (roleHolder_active role))
    have eq : t = s.offerNotice d (.event e) :=
      (routeAct_notify notify e s).trans (State.noticeToDirector_of_role role _)
    refine ⟨fun full => ?_, fun room busy => ?_, fun idle h1 h2 h3 h4 h5 => ?_⟩
    · exact eq.trans (State.offerNotice_of_full _ full)
    · exact eq.trans (State.offerNotice_of_busy _ admits room busy)
    · exact eq.trans (State.offerNotice_of_idle _ admits idle h1 h2 h3 h4 h5)
  case refused =>
    exact (routeAct_autoHold auto e s).trans (if_neg fun allowed => ((holdAllowed_iff _).mp allowed).elim h1 h2)
  case auto =>
    intro tH
    have eq : t = callHold s := (routeAct_autoHold auto e s).trans (if_pos ((holdAllowed_iff _).mpr allowed))
    rw [eq]
    exact ⟨callHold_race s, callHold_effect s, fun p gets busy room => callHold_calls gets busy room⟩

/-! ### START (R114) -/

/-- A START's event under the default routes: a cue for every ACTIVE port, and nothing else (R141, R142). -/
theorem startEvent_port {kind : EventKind} {code : Byte} {s : State} {p : PortNo} (t : RaceTime)
    (routes : s.routes = defaultRoutes)
    (only : (defaultRoutes.toList.filter fun r => r.matches { kind := kind, time := t, slots := [], fault := none })
      = [cueRoute kind code .all 0])
    (active : (s.port p).phase = .active) (busy : (s.port p).wire.isSome = true) (room : (s.port p).cues.length < 8) :
    (startEvent kind t s).port p
      = { s.port p with cues := (s.port p).cues ++ [{ code := code, slots := [], time := t }] } := by
  have now : addTime t (0 : Nat) = t := by simp [addTime]
  rw [startEvent, raise_eq, routes, only, List.foldl_cons, List.foldl_nil, routeAct_cue_port rfl,
    if_pos ((s.mem_targetPorts _ _ p).mpr (.inl rfl)), State.offerCue_of_busy _ active room busy, State.port_modPort_self]
  simp only [Route.cueOf, cueRoute, now]

theorem light_routes (t : RaceTime) :
    (defaultRoutes.toList.filter fun r => r.matches { kind := .light, time := t, slots := [], fault := none })
      = [cueRoute .light 0x01 .all 0] := rfl

theorem green_routes (t : RaceTime) :
    (defaultRoutes.toList.filter fun r => r.matches { kind := .green, time := t, slots := [], fault := none })
      = [cueRoute .green 0x02 .all 0] := rfl

/-- The light cue of the `i`-th light before green (R114). -/
def lightCue (g : RaceTime) (step i : Nat) : Cue := { code := 0x01, slots := [], time := addTime g (-(i * step : Nat)) }

theorem raiseLights_port (g : RaceTime) (step n : Nat) {s : State} {p : PortNo} (routes : s.routes = defaultRoutes)
    (active : (s.port p).phase = .active) (busy : (s.port p).wire.isSome = true) (room : (s.port p).cues.length + n ≤ 8) :
    (raiseLights g step n s).port p
      = { s.port p with cues := (s.port p).cues ++ ((List.range' 1 n).reverse.map (lightCue g step)) } := by
  induction n generalizing s with
  | zero => simp [raiseLights]
  | succ n ih =>
    have port := startEvent_port (addTime g (-((n + 1) * step : Nat))) routes (light_routes _) active busy (by omega)
    have effect : RouteEffect s (startEvent .light (addTime g (-((n + 1) * step : Nat))) s) := raise_effect ..
    rw [raiseLights, ih (effect.routes.trans routes) (by rw [port]; exact active) (by rw [port]; exact busy)
      (by rw [port, List.length_append, List.length_singleton]; omega), port]
    simp only [List.range'_1_concat, List.reverse_append, List.reverse_singleton, List.map_append, List.append_assoc]
    rw [Nat.add_comm 1 n]
    rfl

theorem raiseLights_race (g : RaceTime) (step n : Nat) {s : State} (free : holdAllowed s.race.state = false) :
    (raiseLights g step n s).race = s.race := by
  induction n generalizing s with
  | zero => rfl
  | succ n ih =>
    have race : (startEvent .light (addTime g (-((n + 1) * step : Nat))) s).race = s.race := raise_race free _
    rw [raiseLights, ih (by rw [race]; exact free), race]

/-- Settles O42: each event of the START adds its cue to the Cue Queue of an ACTIVE port and calls no hold. -/
theorem startTaken : Obligations.StartTaken := by
  intro s c asks grid g
  let lit : State := { s.dropHead with race := { s.race with tGreen := some g } }
  have free : holdAllowed lit.race.state = false := by
    rw [show lit.race.state = .grid from grid]
    rfl
  let lights : State := raiseLights g s.params.lightStep s.params.lightCount lit
  have race : lights.race = lit.race := raiseLights_race g _ _ free
  have eq : startRace s.dropHead = ((startEvent .green g lights).setRace .countdown, .ok) := if_pos grid
  have effect : RouteEffect s.dropHead (startRace s.dropHead).1 := startRace_effect _
  rw [eq] at effect
  refine ⟨_, exec_alone_of_eq (fun _ => rfl) asks eq, effect, ?race, fun p routes few active busy empty => ?cues⟩
  case race =>
    have green : (startEvent .green g lights).race = lights.race := raise_race (by rw [race]; exact free) _
    have set : ((startEvent .green g lights).setRace .countdown).race
      = { (startEvent .green g lights).race with state := .countdown } := rfl
    rw [set, green, race]
  case cues =>
    have port : lights.port p = { s.port p with
        cues := (s.port p).cues ++ ((List.range' 1 s.params.lightCount).reverse.map (lightCue g s.params.lightStep)) } :=
      raiseLights_port g _ _ (s := lit) routes active busy (by
        have none : (lit.port p).cues = [] := empty
        rw [none]
        simpa using few.le)
    have litEffect : RouteEffect lit lights := raiseLights_effect ..
    have green := startEvent_port g (litEffect.routes.trans routes) (green_routes g) (s := lights) (p := p)
      (by rw [port]; exact active) (by rw [port]; exact busy) (by rw [port, empty]; simpa using few)
    rw [State.port_setRace, green, port, empty]
    rfl

/-! ### HOLD and RESUME (R118, R123) -/

theorem noticed_of_dropHead {bodies : List FrameBody} {s t : State} (told : Noticed bodies s.dropHead t) :
    Noticed bodies s t := fun d hears => told d ⟨hears.role, hears.busy, hears.room⟩

theorem State.slotsOf_isEmpty_iff (s : State) (p : PortNo) :
    (s.slotsOf p).isEmpty = true ↔ ∀ i, s.owns p i = false := by
  simp [State.slotsOf, mem_allSlots]

theorem servesPort_resumePort (tR : RaceTime) : ServesPort (resumePort tR) where
  effect := resumePort_effect tR
  other s p r h := by
    unfold resumePort
    split
    · exact State.offerCall_other _ _ h
    · rfl
  reads s t p h port := by
    have alike := h.alike port
    rw [resumePort, resumePort, State.isActive_congr (h.link p).phase, State.slotsOf_congr h.cars, alike.timing]
    split
    · exact alike.offerCall _
    · exact port

/-- The state a RESUME sends its calls from, T_r set (R123). -/
def State.resumeCalled (s : State) : State := { s with race := { s.race with tR := some s.holdTime } }

/-- The state after the calls of a RESUME (R123). -/
def resumeCalls (s : State) : State := allPorts.foldl (resumePort s.holdTime) s.resumeCalled

/-- The state after a RESUME, which raises RESUME_BEGIN after its calls (R123). -/
def State.resumed (s : State) : State := (raiseNow .resumeBegin [] (resumeCalls s)).setRace .resumePending

theorem resumeRace_of_hold {s : State} (hold : s.race.state = .hold) :
    resumeRace s = (s.resumed, .ok) := by
  rw [resumeRace, if_pos hold]
  rfl

theorem resumePort_race (tR : RaceTime) (s : State) (p : PortNo) : (resumePort tR s p).race = s.race := by
  unfold resumePort
  split
  · exact State.offerCall_race ..
  · rfl

theorem resumeCalls_race (s : State) : (resumeCalls s).race = { s.race with tR := some s.holdTime } :=
  foldl_race (resumePort s.holdTime) allPorts s.resumeCalled fun u p same => (resumePort_race _ u p).trans same

theorem resumeCalls_effect (s : State) : RouteEffect s (resumeCalls s) :=
  RouteEffect.trans (b := s.resumeCalled) (.withRace s _) (.foldl _ (resumePort_effect _) _ _)

theorem resumeCalls_port (s : State) (p : PortNo) : (resumeCalls s).port p = (resumePort s.holdTime s.resumeCalled p).port p :=
  (servesPort_resumePort s.holdTime).allPorts s.resumeCalled p

theorem resumePort_sent (tR : RaceTime) (s : State) (p : PortNo) : Sent [] s (resumePort tR s p) := by
  unfold resumePort
  split
  · exact offerCall_sent ..
  · exact .refl s

theorem resumeCalls_sent (s : State) : Sent [] s (resumeCalls s) :=
  Sent.after (u := s.resumeCalled)
    (Sent.foldl (resumePort s.holdTime) (fun u p => (resumePort_effect _ u p).race) (resumePort_sent _) allPorts s.resumeCalled)
    (RouteEffect.withRace s _).race rfl

theorem resumePort_called {s : State} {r : PortNo} (busy : (s.port r).wire.isSome = true) (tR : RaceTime) (p : PortNo) :
    (s.port r).Called ((resumePort tR s p).port r) := by
  unfold resumePort
  split
  · exact State.offerCall_called busy p _
  · exact .refl _

section
variable {s : State} {p : PortNo} (active : (s.port p).phase = .active) (busy : (s.port p).wire.isSome = true)
include active

theorem resumePort_of_owner (tR : RaceTime) (owner : ∃ i, s.owns p i = true) :
    resumePort tR s p = s.offerCall p (.resumeCall (inverse (s.timing p) tR)) := by
  obtain ⟨i, owns⟩ := owner
  have some : (s.slotsOf p).isEmpty = false := Bool.eq_false_iff.mpr fun empty =>
    Bool.false_ne_true ((((s.slotsOf_isEmpty_iff p).mp empty) i).symm.trans owns)
  rw [resumePort, if_pos (by rw [s.isActive_iff p |>.mpr active, some]; rfl)]

omit active in
theorem resumePort_of_stranger (tR : RaceTime) (stranger : ∀ i, s.owns p i = false) : resumePort tR s p = s := by
  rw [resumePort, (s.slotsOf_isEmpty_iff p).mpr stranger, Bool.not_true, Bool.and_false]
  rfl

include busy

theorem resumeCalls_of_owner (room : (s.port p).calls.length < 4) (owner : ∃ i, s.owns p i = true) :
    (resumeCalls s).port p = { s.port p with
      calls := (s.port p).calls ++ [s.mkFrame p (.resumeCall (inverse (s.timing p) s.holdTime))] } := by
  rw [resumeCalls_port, resumePort_of_owner (s := s.resumeCalled) active _ owner,
    State.offerCall_of_busy (s := s.resumeCalled) _ active room busy, State.port_modPort_self]
  rfl

end

theorem resumeCalls_of_stranger {s : State} {p : PortNo} (stranger : ∀ i, s.owns p i = false) :
    (resumeCalls s).port p = s.port p := by
  rw [resumeCalls_port, resumePort_of_stranger (s := s.resumeCalled) _ stranger]
  rfl

theorem Sent.setRace {bodies : List FrameBody} {s t : State} (h : Sent bodies s t) (r : RaceState) :
    Sent bodies s (t.setRace r) := ⟨fun d hears => ⟨(h.sends d hears).wire, (h.sends d hears).outbox⟩⟩

theorem resumed_effect (s : State) : RouteEffect s s.resumed :=
  (resumeCalls_effect s).trans ((raise_effect _ (resumeCalls s)).trans (setRace_effect _ _))

theorem resumed_sent (s : State) :
    Sent (s.noticesFor [{ kind := .resumeBegin, time := s.clock, slots := [], fault := none }]) s s.resumed := by
  have effect := (resumeCalls_effect s).race
  have told := raiseNow_sent .resumeBegin [] (resumeCalls s)
  rw [effect.noticesFor, effect.clock] at told
  have all := (resumeCalls_sent s).trans effect told
  rw [List.nil_append] at all
  exact all.setRace .resumePending

section
variable {s : State} (hold : s.race.state = .hold)
include hold

theorem resumeCalls_callsNoHold : holdAllowed (resumeCalls s).race.state = false := by
  rw [resumeCalls_race, show ({ s.race with tR := some s.holdTime } : RaceRecord).state = .hold from hold]
  rfl

theorem resumed_race : s.resumed.race = { s.race with state := .resumePending, tR := some s.holdTime } := by
  rw [State.resumed, State.setRace, raiseNow, raise_race (resumeCalls_callsNoHold hold), resumeCalls_race]

theorem resumed_calls {p : PortNo} (busy : (s.port p).wire.isSome = true) :
    (s.resumed.port p).calls = ((resumeCalls s).port p).calls := by
  have called : (s.port p).Called ((resumeCalls s).port p) :=
    foldl_called (resumePort s.holdTime) allPorts (s := s.resumeCalled) busy fun u r still => resumePort_called still _ r
  have still : ((resumeCalls s).port p).wire.isSome = true := by rw [called.wire]; exact busy
  obtain ⟨_, _, _, routed⟩ := raise_routed (resumeCalls_callsNoHold hold) still
    { kind := .resumeBegin, time := (resumeCalls s).clock, slots := [], fault := none }
  rw [State.resumed, State.port_setRace, raiseNow, routed]

end

/-- Settles O43: the calls of HOLD and RESUME serve each port by itself, and RESUME_BEGIN calls no hold, as the race is in
HOLD. -/
theorem holdAndResumeCalled : Obligations.HoldAndResumeCalled := by
  intro s c lead called
  refine ⟨fun p => s.getsHoldCall_iff p, fun asks from_ => ?hold, fun asks hold => ?resume⟩
  case hold =>
    have eq : holdRace s.dropHead = (callHold s.dropHead, .ok) := if_pos ((holdAllowed_iff _).mpr from_)
    refine ⟨_, exec_alone_of_eq (fun _ => rfl) asks eq, callHold_effect _, callHold_race s.dropHead,
      fun p gets busy room => ?_⟩
    exact callHold_calls (s := s.dropHead) ((s.getsHoldCall_iff p).mpr gets) busy room
  case resume =>
    have calls (p : PortNo) (busy : (s.port p).wire.isSome = true) := resumed_calls (s := s.dropHead) hold (p := p) busy
    refine ⟨s.dropHead.resumed, exec_alone_of_eq (fun _ => rfl) asks (resumeRace_of_hold (s := s.dropHead) hold),
      resumed_effect _, resumed_race (s := s.dropHead) hold, noticed_of_dropHead (resumed_sent _).noticed,
      fun p active busy room => ⟨fun owner => ?_, fun stranger => ?_⟩⟩
    · exact (calls p busy).trans (congrArg Port.calls (resumeCalls_of_owner (s := s.dropHead) active busy room owner))
    · exact (calls p busy).trans (congrArg Port.calls (resumeCalls_of_stranger (s := s.dropHead) stranger))

end Sys2Proof.Machine
end

section
/-! PROOFS. The encodings (R151, R152, R191, R192, R195, R196): flag bytes, numbers in bytes, the judging of a run, the CRC as a
remainder, the frames of the hub, and the status and port records. -/

namespace Sys2Proof.Machine

/-! ### Flag bytes -/

/-- The number whose bit `n` is the `n`-th of the flags. -/
def flagSum : List Bool → Nat
  | [] => 0
  | b :: bs => b.toNat + 2 * flagSum bs

theorem testBit_flagSum (bs : List Bool) (n : Nat) : (flagSum bs).testBit n = bs.getD n false := by
  induction bs generalizing n with
  | nil => simp [flagSum]
  | cons b bs ih =>
    cases n with
    | zero => cases b <;> simp [flagSum, Nat.testBit_zero]
    | succ n =>
      have half : (b.toNat + 2 * flagSum bs) / 2 = flagSum bs := by have := b.toNat_le; omega
      rw [flagSum, Nat.testBit_succ, half, ih, List.getD_cons_succ]

theorem hasFlags_of_flagSum {m : Nat} {bs : List Bool} (eq : m = flagSum bs) (fits : bs.length ≤ 8 := by simp) :
    HasFlags (BitVec.ofNat 8 m) bs := by
  intro n
  rw [BitVec.getLsbD_ofNat, eq, testBit_flagSum]
  by_cases inside : n < 8
  · rw [decide_eq_true inside, Bool.true_and]
  · rw [decide_eq_false inside, Bool.false_and, List.getD_eq_default _ _ (by omega)]

theorem bit_eq (b : Bool) (n : Nat) : bit b n = 2 ^ n * b.toNat := by cases b <;> simp [bit]

theorem portMask_hasFlags (ps : List PortNo) : HasFlags (portMask ps) (allPorts.map fun p => ps.contains p) := by
  refine hasFlags_of_flagSum ?_ (Nat.le_refl 8)
  simp only [allPorts, List.map_cons, List.map_nil, List.sum_cons, List.sum_nil, bit_eq, flagSum]
  change 2 ^ 0 * _ + (2 ^ 1 * _ + (2 ^ 2 * _ + (2 ^ 3 * _ + (2 ^ 4 * _ + (2 ^ 5 * _ + (2 ^ 6 * _ + (2 ^ 7 * _ + 0))))))) = _
  omega

theorem portMask_getLsbD (ps : List PortNo) (p : PortNo) : (portMask ps).getLsbD p.val = ps.contains p := by
  rw [portMask_hasFlags]
  fin_cases p <;> rfl

theorem portMask_iff (ps : List PortNo) (p : PortNo) : (portMask ps).getLsbD p.val = true ↔ p ∈ ps := by
  rw [portMask_getLsbD, List.contains_iff_mem]

theorem viewFlags_hasFlags (e : ViewEntry) :
    HasFlags (viewFlags e) [e.offTrack, e.spun, e.coasting, e.parked, e.finished, e.held, e.stopped, e.jump] :=
  hasFlags_of_flagSum (by simp only [bit_eq, flagSum]; omega)

theorem sampleFlags_hasFlags (x : Sample) : HasFlags (sampleFlags x) [x.offTrack, x.spun] :=
  hasFlags_of_flagSum (by simp only [bit_eq, flagSum]; omega)

theorem carFlags_hasFlags (c : CarRecord) :
    HasFlags (carFlags c) [c.last.isSome, c.prev.isSome, c.gridS.isSome, c.jump, c.unplaced] :=
  hasFlags_of_flagSum (by simp only [bit_eq, flagSum]; omega)

theorem crossingFlags_hasFlags (multi late jump : Bool) : HasFlags (crossingFlags multi late jump) [multi, late, jump] :=
  hasFlags_of_flagSum (by simp only [bit_eq, flagSum]; omega)

theorem classFlags_hasFlags (e : ClassEntry) : HasFlags (classFlags e) [e.unplaced, e.jump] :=
  hasFlags_of_flagSum (by simp only [bit_eq, flagSum]; omega)

theorem statusPresence_hasFlags (r : RaceRecord) (role : Bool) : HasFlags (statusPresence r role)
    [r.tGreen.isSome, r.tH.isSome, r.tR.isSome, r.grace.isSome, r.finishSeen, role] :=
  hasFlags_of_flagSum (by simp only [bit_eq, flagSum]; omega)

/-! ### Numbers in bytes -/

theorem length_beBytes (n v : Nat) : (beBytes n v).length = n := by
  induction n with
  | zero => rfl
  | succ n ih => rw [beBytes, List.length_cons, ih]

theorem shiftRight_bytes (v n : Nat) : v >>> (8 * n) = v / 256 ^ n := by
  rw [Nat.shiftRight_eq_div_pow, Nat.pow_mul]

theorem getElem?_beBytes (n v i : Nat) (inside : i < n) :
    (beBytes n v)[i]? = some (BitVec.ofNat 8 (v / 256 ^ (n - 1 - i))) := by
  induction n generalizing i with
  | zero => omega
  | succ n ih =>
    cases i with
    | zero => rw [beBytes, List.getElem?_cons_zero, shiftRight_bytes]; rfl
    | succ i =>
      have shift : n + 1 - 1 - (i + 1) = n - 1 - i := by omega
      rw [beBytes, List.getElem?_cons_succ, ih i (by omega), shift]

theorem beNat_append_singleton (bs : List Byte) (b : Byte) : beNat (bs ++ [b]) = beNat bs * 256 + b.toNat := by
  rw [beNat, List.foldl_append]
  rfl

theorem beBytes_succ (n v : Nat) : beBytes (n + 1) v = beBytes n (v / 256) ++ [BitVec.ofNat 8 v] := by
  induction n with
  | zero => rfl
  | succ n ih =>
    have shift : v >>> (8 * (n + 1)) = (v / 256) >>> (8 * n) := by
      rw [shiftRight_bytes, shiftRight_bytes, Nat.pow_succ', Nat.div_div_eq_div_mul]
    rw [beBytes, ih, beBytes, shift, List.cons_append]

theorem beNat_beBytes (n v : Nat) : beNat (beBytes n v) = v % 256 ^ n := by
  induction n generalizing v with
  | zero => rw [Nat.pow_zero, Nat.mod_one]; rfl
  | succ n ih =>
    rw [beBytes_succ, beNat_append_singleton, ih, BitVec.toNat_ofNat, Nat.pow_succ' (n := n), Nat.mod_mul, Nat.mul_comm,
      Nat.add_comm]

theorem beNat_beBytes_of_lt {n v : Nat} (fits : v < 256 ^ n) : beNat (beBytes n v) = v := by
  rw [beNat_beBytes, Nat.mod_eq_of_lt fits]

theorem beSigned_eq (n : Nat) (v : Int) : beSigned n v = beBytes n (v % 2 ^ (8 * n)).toNat := by
  rw [beSigned, BitVec.toNat_ofInt]
  norm_cast

theorem timeBytes_eq (t : Option RaceTime) : timeBytes t = timeOrZeros t := by cases t <;> rfl

/-! ### The status and port records (R184, R196) -/

theorem ackMask_iff (s : State) (f : AckEntry → Bool) (p : PortNo) :
    (ackMask s f).getLsbD p.val = true ↔ ∃ a ∈ s.race.acks, f a = true ∧ a.port = p := by
  rw [ackMask, portMask_iff]
  simp [and_assoc]

theorem portMarker_eq (p : Option PortNo) : portMarker p = (p.map fun p => BitVec.ofNat 8 p.val).getD 0xFF := by
  cases p <;> rfl

theorem statusRecord_length (s : State) : (statusRecord s).length = 39 := by
  simp only [statusRecord, timeBytes_eq, timeOrZeros, List.length_append, length_beBytes, List.length_map, List.length_cons,
    List.length_nil, allPorts]

theorem signedMarker_eq (v : Option Int) : signedMarker v = match v with
    | none => [0x80, 0, 0, 0]
    | some v => beSigned 4 v := by cases v <;> rfl

theorem length_signedMarker (v : Option Int) : (signedMarker v).length = 4 := by
  cases v <;> exact length_beBytes ..

theorem portRecord_length (p : PortNo) (s : State) : (portRecord p s).length = 59 := by
  simp only [portRecord, counterList, List.length_append, length_beBytes, length_signedMarker, List.length_cons,
    List.length_nil, List.flatMap_cons, List.flatMap_nil]

theorem State.length_queue_dropHead (s : State) :
    s.dropHead.mgmt.queue.length = s.mgmt.queue.length - 1 := List.length_tail

theorem exec_readStatus {s : State} {c : Command} (head : s.head = some c) (payload : c.payload = [0x01]) :
    exec .readStatus s = .next (answer c .ok (statusRecord s.dropHead) s.dropHead) := by
  have runs : exec .readStatus s = .next (onHead (codeIs 0x01) (fun c s =>
    if c.payload.length = 1 then answer c .ok (statusRecord s) s else answer c .range [] s) s) := rfl
  rw [runs, onHead_of_code head (by rw [payload]; rfl), if_pos (by rw [payload]; rfl)]

theorem exec_readPort {s : State} {c : Command} {p : PortNo} (head : s.head = some c) (payload : c.payload = [0x02, portByte p])
    (allowed : s.holdsRole c.sender = true ∨ p = c.sender) :
    exec .readPort s = .next (answer c .ok (portRecord p s.dropHead) s.dropHead) := by
  have runs : exec .readPort s = .next (onHead (codeIs 0x02) (fun c s =>
    if mayReadPort c s then
      if c.payload.length = 2 then
        match portOf (numAt c.payload 1 1) with
        | some p => answer c .ok (portRecord p s) s
        | none => answer c .range [] s
      else answer c .range [] s
    else answer c .privilege [] s) s) := rfl
  have may : mayReadPort c s = true := (mayReadPort_iff c s).mpr (allowed.imp id fun own => by rw [payload, own]; rfl)
  rw [runs, onHead_of_code head (by rw [payload]; rfl), if_pos (by rw [mayReadPort_dropHead]; exact may),
    if_pos (by rw [payload]; rfl), payload, numAt_param, portOf_portByte]

theorem exec_clearCounters {s : State} {c : Command} {b : Byte} (asks : s.asks c [0x03, b]) :
    exec .clearCounters s
      = .next (answer c (clearCounters b.toNat s.dropHead).2 [] (clearCounters b.toNat s.dropHead).1) := by
  obtain ⟨head, payload, director⟩ := asks
  have runs : exec .clearCounters s = .next (onHead (codeIs 0x03) (fun c => asDirector (fun s =>
    if c.payload.length = 2 then clearCounters (numAt c.payload 1 1) s else (s, .range)) c) s) := rfl
  have fits : c.payload.length = 2 := by rw [payload]; rfl
  rw [runs, onHead_of_code head (by rw [payload]; rfl), asDirector_of_director (s := s.dropHead) director]
  simp only [if_pos fits]
  rw [payload, numAt_param]

theorem clearCounters_port (p : PortNo) (s : State) :
    clearCounters (portByte p).toNat s = (s.modPort p fun q => { q with counters := zeroCounters }, .ok) := by
  have small : (portByte p).toNat ≠ 8 := by fin_cases p <;> decide
  rw [clearCounters, if_neg small, portOf_portByte]

/-- Settles O50. -/
theorem statusReadAndCleared : Obligations.StatusReadAndCleared := by
  intro s c
  refine ⟨fun head payload => ⟨exec_readStatus head payload, statusRecord_length _, ?status⟩,
    fun p head payload allowed => ⟨exec_readPort head payload allowed, portRecord_length p _, ?port⟩,
    fun p asks => ?clear, fun asks => ?clearHub⟩
  case status =>
    refine ⟨_, ackMask s.dropHead fun _ => true, ackMask s.dropHead fun a => a.acked, statusPresence_hasFlags _ _,
      fun p => (ackMask_iff ..).trans ?_, fun p => (ackMask_iff ..).trans ?_, ?_⟩
    · simp [State.dropHead]
    · simp [State.dropHead, and_comm]
    · rw [← s.length_queue_dropHead]
      simp only [statusRecord, timeBytes_eq, portMarker_eq]
      rfl
  case port =>
    intro q k fault signed
    simp only [portRecord, signedMarker_eq, List.flatMap_def]
    rfl
  case clear =>
    rw [exec_clearCounters asks, clearCounters_port]
  case clearHub =>
    exact exec_clearCounters asks

end Sys2Proof.Machine
end

section
/-! PROOFS. The runs of symbols a receiver judges and the CRC they carry (R151, R152, R191). -/

namespace Sys2Proof.Machine

/-! ### Which runs are frames -/

theorem runBytes_eq_some_iff (run : List LineSymbol) (bs : List Byte) :
    runBytes run = some bs ↔ run = bs.map LineSymbol.byte := by
  induction run generalizing bs with
  | nil => cases bs <;> simp [runBytes]
  | cons x run ih =>
    cases x with
    | spoiled => cases bs <;> simp [runBytes]
    | byte b => cases bs <;> simp [runBytes, ih, and_comm]

/-- Header and payload of a frame as received (R191). -/
def frameHead (kind port flags : Byte) (payload : List Byte) : List Byte :=
  [kind, BitVec.ofNat 8 payload.length, port, flags] ++ payload

/-- The run of a frame whose last two bytes are `crc`. -/
def frameRun (kind port flags : Byte) (payload crc : List Byte) : List LineSymbol :=
  (frameHead kind port flags payload ++ crc).map LineSymbol.byte

theorem judgeRun_frameRun (kind port flags : Byte) {payload crc : List Byte} (fits : payload.length ≤ 124)
    (two : crc.length = 2) : judgeRun (frameRun kind port flags payload crc)
      = if crc = crcBytes (frameHead kind port flags payload) then .valid kind port flags payload else .crcError := by
  have len : (BitVec.ofNat 8 payload.length).toNat = payload.length := by
    rw [BitVec.toNat_ofNat, Nat.mod_eq_of_lt (by omega)]
  have bytes : runBytes (frameRun kind port flags payload crc)
      = some (kind :: BitVec.ofNat 8 payload.length :: port :: flags :: (payload ++ crc)) :=
    (runBytes_eq_some_iff ..).mpr rfl
  rw [judgeRun, bytes]
  simp only [len, List.length_append, two, fits, and_self, if_true, List.take_left, List.drop_left]
  rfl

/-- A run that passes the framing check is the run of a frame with some CRC. -/
theorem frameRun_of_judged {run : List LineSymbol} (framed : judgeRun run ≠ .framing) :
    ∃ kind port flags payload crc, payload.length ≤ 124 ∧ crc.length = 2 ∧ run = frameRun kind port flags payload crc := by
  unfold judgeRun at framed
  split at framed
  · next kind len port flags rest bytes =>
    split at framed
    · next fits =>
      obtain ⟨short, long⟩ := fits
      have taken : (rest.take len.toNat).length = len.toNat := by rw [List.length_take]; omega
      refine ⟨kind, port, flags, rest.take len.toNat, rest.drop len.toNat, by omega, by rw [List.length_drop]; omega, ?_⟩
      rw [(runBytes_eq_some_iff ..).mp bytes, frameRun, frameHead, taken, BitVec.ofNat_toNat, BitVec.setWidth_eq,
        List.append_assoc, List.take_append_drop]
      rfl
    · exact absurd rfl framed
  · exact absurd rfl framed

theorem judgeRun_valid_iff (run : List LineSymbol) (kind port flags : Byte) (payload : List Byte) :
    judgeRun run = .valid kind port flags payload ↔ payload.length ≤ 124
      ∧ run = frameRun kind port flags payload (crcBytes (frameHead kind port flags payload)) := by
  constructor
  · intro valid
    obtain ⟨k, p, f, pl, crc, fits, two, rfl⟩ := frameRun_of_judged (run := run) (by rw [valid]; exact RunVerdict.noConfusion)
    rw [judgeRun_frameRun k p f fits two] at valid
    split at valid
    · next right =>
      obtain ⟨rfl, rfl, rfl, rfl⟩ := RunVerdict.valid.inj valid
      exact ⟨fits, by rw [right]⟩
    · cases valid
  · rintro ⟨fits, rfl⟩
    rw [judgeRun_frameRun kind port flags fits (crc := crcBytes _) (length_beBytes ..), if_pos rfl]

theorem judgeRun_crcError_iff (run : List LineSymbol) : judgeRun run = .crcError ↔
    ∃ kind port flags payload crc, payload.length ≤ 124 ∧ crc.length = 2
      ∧ crc ≠ crcBytes (frameHead kind port flags payload) ∧ run = frameRun kind port flags payload crc := by
  constructor
  · intro bad
    obtain ⟨k, p, f, pl, crc, fits, two, rfl⟩ := frameRun_of_judged (run := run) (by rw [bad]; exact RunVerdict.noConfusion)
    rw [judgeRun_frameRun k p f fits two] at bad
    split at bad
    · cases bad
    · next wrong => exact ⟨k, p, f, pl, crc, fits, two, wrong, rfl⟩
  · rintro ⟨k, p, f, pl, crc, fits, two, wrong, rfl⟩
    rw [judgeRun_frameRun k p f fits two, if_neg wrong]

/-! ### The CRC as a remainder (R152) -/

open Polynomial in
/-- The polynomial whose coefficients are some bits, the first the highest. -/
noncomputable def bitPoly (bits : List Bool) : Polynomial (ZMod 2) :=
  bits.foldl (fun f b => f * X + if b then 1 else 0) 0

section
open Polynomial

/-- A bit as a polynomial. -/
noncomputable def bitOne (b : Bool) : Polynomial (ZMod 2) := if b then 1 else 0

theorem bitOne_xor (a b : Bool) : bitOne (a ^^ b) = bitOne a + bitOne b := by
  cases a <;> cases b <;> simp [bitOne, CharTwo.add_self_eq_zero]

theorem bitPoly_append (xs : List Bool) (b : Bool) : bitPoly (xs ++ [b]) = bitPoly xs * X + bitOne b := by
  rw [bitPoly, List.foldl_append]
  rfl

theorem bitPoly_cons (b : Bool) (xs : List Bool) : bitPoly (b :: xs) = bitOne b * X ^ xs.length + bitPoly xs := by
  induction xs using List.reverseRecOn with
  | nil => simp [bitPoly, bitOne]
  | append_singleton xs x ih =>
    rw [← List.cons_append, bitPoly_append, bitPoly_append, ih, List.length_append, List.length_singleton]
    ring

theorem bitPoly_xor {xs ys : List Bool} (same : xs.length = ys.length) :
    bitPoly (List.zipWith xor xs ys) = bitPoly xs + bitPoly ys := by
  induction xs generalizing ys with
  | nil => cases ys <;> simp_all [bitPoly]
  | cons x xs ih =>
    cases ys with
    | nil => cases same
    | cons y ys =>
      have rest : xs.length = ys.length := Nat.succ.inj same
      rw [List.zipWith_cons_cons, bitPoly_cons, bitPoly_cons, bitPoly_cons, ih rest, bitOne_xor, List.length_zipWith, rest,
        Nat.min_self]
      ring

/-- The bits of the CRC register, the most significant first. -/
def regBits (r : BitVec 16) : List Bool := [15, 14, 13, 12, 11, 10, 9, 8, 7, 6, 5, 4, 3, 2, 1, 0].map fun i => r.getLsbD i

/-- The bits of a byte, the most significant first. -/
def byteBits (b : Byte) : List Bool := [7, 6, 5, 4, 3, 2, 1, 0].map fun i => b.getLsbD i

/-- The CRC's polynomial (R152). -/
noncomputable def crcPoly : Polynomial (ZMod 2) := X ^ 16 + X ^ 14 + X ^ 12 + X ^ 11 + X ^ 8 + X ^ 5 + X ^ 4 + X ^ 2 + 1

theorem crcPoly_eq : crcPoly = X ^ 16 + bitPoly (regBits 0x5935#16) := by
  have bits : regBits 0x5935#16 = [false, true, false, true, true, false, false, true, false, false, true, true, false, true,
    false, true] := by decide
  rw [bits, crcPoly]
  simp only [bitPoly, List.foldl_cons, List.foldl_nil, if_true, Bool.false_eq_true, if_false]
  ring

theorem regBits_xor (r c : BitVec 16) : regBits (r ^^^ c) = List.zipWith xor (regBits r) (regBits c) := by
  simp [regBits]

theorem bitPoly_shift (r : BitVec 16) :
    bitPoly (regBits (r <<< 1)) = bitPoly (regBits r) * X + bitOne r.msb * X ^ 16 := by
  have split : regBits r = r.msb :: [14, 13, 12, 11, 10, 9, 8, 7, 6, 5, 4, 3, 2, 1, 0].map fun i => r.getLsbD i := by
    rw [BitVec.msb_eq_getLsbD_last]
    rfl
  have shifted : regBits (r <<< 1)
      = ([14, 13, 12, 11, 10, 9, 8, 7, 6, 5, 4, 3, 2, 1, 0].map fun i => r.getLsbD i) ++ [false] := by
    simp [regBits]
  have twice : bitOne r.msb * X ^ 16 + bitOne r.msb * X ^ 16 = 0 := CharTwo.add_self_eq_zero _
  rw [shifted, bitPoly_append, split, bitPoly_cons, List.length_map, show bitOne false = 0 from rfl]
  simp only [List.length_cons, List.length_nil]
  linear_combination -twice

/-- Feeding a bit multiplies by X and adds the bit at X^16, but for a multiple of the CRC's polynomial. -/
theorem bitPoly_crcBit (r : BitVec 16) (b : Bool) :
    crcPoly ∣ bitPoly (regBits r) * X + bitOne b * X ^ 16 - bitPoly (regBits (crcBit r b)) := by
  have shift := bitPoly_shift r
  have twice : bitPoly (regBits 0x5935#16) + bitPoly (regBits 0x5935#16) = 0 := CharTwo.add_self_eq_zero _
  unfold crcBit
  split
  · next differ =>
    have other : bitOne b = bitOne r.msb + 1 := by
      have flip : b = (r.msb ^^ true) := by cases b <;> cases h : r.msb <;> simp_all
      rw [flip, bitOne_xor]
      rfl
    have sum : bitPoly (regBits (r <<< 1 ^^^ 0x5935#16)) = bitPoly (regBits (r <<< 1)) + bitPoly (regBits 0x5935#16) := by
      have long : (regBits (r <<< 1)).length = (regBits 0x5935#16).length := rfl
      rw [regBits_xor, bitPoly_xor long]
    refine ⟨1, ?_⟩
    rw [sum, shift, other, crcPoly_eq]
    linear_combination -twice
  · next agree =>
    have same : b = r.msb := by cases b <;> cases h : r.msb <;> simp_all
    refine ⟨0, ?_⟩
    rw [shift, same]
    ring

/-- Feeding some bits keeps the register the remainder, whatever stood in it before. -/
theorem bitPoly_crcBits (bits : List Bool) (r : BitVec 16) :
    crcPoly ∣ bitPoly (regBits r) * X ^ bits.length + bitPoly bits * X ^ 16 - bitPoly (regBits (bits.foldl crcBit r)) := by
  induction bits using List.reverseRecOn with
  | nil => exact ⟨0, by simp [bitPoly]⟩
  | append_singleton bits b ih =>
    obtain ⟨q, before⟩ := ih
    obtain ⟨q', fed⟩ := bitPoly_crcBit (bits.foldl crcBit r) b
    refine ⟨q * X + q', ?_⟩
    rw [List.foldl_append, List.foldl_cons, List.foldl_nil, bitPoly_append, List.length_append, List.length_singleton, pow_succ]
    linear_combination X * before + fed

end

theorem crc16_eq (bs : List Byte) : crc16 bs = (bs.flatMap byteBits).foldl crcBit 0xFFFF#16 := by
  rw [List.foldl_flatMap]
  rfl

theorem length_byteBits (bs : List Byte) : (bs.flatMap byteBits).length = 8 * bs.length := by
  induction bs with
  | nil => rfl
  | cons b bs ih => rw [List.flatMap_cons, List.length_append, ih, List.length_cons]; exact (Nat.mul_succ ..).symm ▸ Nat.add_comm ..

theorem crcBytes_eq (bs : List Byte) : crcBytes bs = [(crc16 bs).extractLsb' 8 8, (crc16 bs).extractLsb' 0 8] := rfl

theorem crcBytes_bits (bs : List Byte) : (crcBytes bs).flatMap byteBits = regBits (crc16 bs) := by
  rw [crcBytes_eq]
  simp [byteBits, regBits, BitVec.getLsbD_extractLsb']

/-- Settles O9: a run is taken apart into the bytes of a frame; each bit fed to the CRC register keeps it the remainder. -/
theorem runJudged : Obligations.RunJudged := by
  refine ⟨fun run => ⟨judgeRun_valid_iff run, judgeRun_crcError_iff run⟩, crcBytes_eq, fun bs => ?_⟩
  have divides := bitPoly_crcBits (bs.flatMap byteBits) 0xFFFF#16
  rw [← crc16_eq, ← crcBytes_bits, length_byteBits] at divides
  exact divides

/-! ### The frames of the hub (R191, R195) -/

theorem boolByte_eq (b : Bool) : boolByte b = if b then 1 else 0 := rfl

theorem slotMarker_eq (i : Option Slot) : slotMarker i = (i.map fun j => BitVec.ofNat 8 j.val).getD 0xFF := by
  cases i <;> rfl

theorem toNat_append_byte {w : Nat} (x : BitVec w) (b : Byte) : (x ++ b).toNat = x.toNat * 256 + b.toNat := by
  rw [BitVec.toNat_append, ← Nat.shiftLeft_add_eq_or_of_lt b.isLt, Nat.shiftLeft_eq]

theorem beNat_cons_nil (b : Byte) : beNat [b] = b.toNat := by
  rw [beNat, List.foldl_cons, List.foldl_nil, Nat.zero_mul, Nat.zero_add]

theorem beNat_two (b c : Byte) : beNat [b, c] = (b ++ c).toNat := by
  rw [toNat_append_byte, ← beNat_cons_nil b]
  rfl

theorem beNat_three (b c d : Byte) : beNat [b, c, d] = (b ++ c ++ d).toNat := by
  rw [toNat_append_byte, ← beNat_two]
  rfl

theorem beInt16_two (b c : Byte) : beInt16 [b, c] = (b ++ c).toInt := by
  rw [beInt16, beNat_two, BitVec.ofNat_toNat, BitVec.setWidth_eq]

theorem rawSample_eq (b0 b1 b2 b3 b4 b5 b6 b7 b8 b9 b10 b11 b12 b13 : Byte) :
    rawSample [b0, b1, b2, b3, b4, b5, b6, b7, b8, b9, b10, b11, b12, b13]
      = { seat := b0.toNat, s := (b1 ++ b2 ++ b3).toNat, lap := b4.toNat, d := (b5 ++ b6).toInt, v := (b7 ++ b8).toNat,
          w := (b9 ++ b10).toInt, a := (b11 ++ b12).toInt, offTrack := b13.getLsbD 0, spun := b13.getLsbD 1 } := by
  have flags : BitVec.ofNat 8 (beNat [b13]) = b13 := by rw [beNat_cons_nil, BitVec.ofNat_toNat, BitVec.setWidth_eq]
  simp only [rawSample, field, List.drop_succ_cons, List.drop_zero, List.take_succ_cons, List.take_zero, beNat_cons_nil,
    beNat_two, beNat_three, beInt16_two]
  rw [← beNat_cons_nil b13, flags]

/-- Settles O10: the layouts unfold field by field; the receiver takes the run of a frame that carries its own CRC. -/
theorem hubFramesReadBack : Obligations.HubFramesReadBack := by
  refine ⟨fun f fits => (judgeRun_valid_iff ..).mpr ⟨fits, rfl⟩, fun n v => ⟨length_beBytes n v, getElem?_beBytes n v⟩,
    beSigned_eq, ?phase, ?race, ?car, ?event, ?reason, ?status, ?move, ?pacing, ?mode, ?action, ?target, ?group,
    ?frames, rawSample_eq⟩
  case frames =>
    intro sends byte slot
    refine ⟨fun _ _ => ⟨rfl, rfl⟩, fun _ => ⟨rfl, rfl⟩, fun _ _ _ _ => ⟨rfl, rfl⟩,
      fun e => ⟨_, viewFlags_hasFlags e, rfl⟩, fun _ _ slots _ => ⟨rfl, ?_⟩,
      fun _ _ _ _ multi late jump => ⟨_, crossingFlags_hasFlags multi late jump, rfl, rfl⟩,
      fun _ => ⟨⟨rfl, rfl⟩, rfl, rfl⟩, fun _ _ _ => ⟨rfl, rfl⟩, fun _ _ is => ⟨rfl, ?_⟩, fun _ _ _ _ _ => ⟨rfl, rfl⟩,
      fun _ unacked => ⟨_, portMask_iff unacked, rfl, rfl⟩, fun former _ => ⟨rfl, ?_⟩, fun _ => ⟨rfl, rfl⟩⟩
    · rw [FrameBody.payload, slotMarker_eq, slotMarker_eq, List.head?_eq_getElem?, List.head?_eq_getElem?, List.getElem?_drop]
      rfl
    · rw [FrameBody.payload, noticeBytes, eventTail, slotMarker_eq, slotMarker_eq, List.head?_eq_getElem?,
        List.head?_eq_getElem?, List.getElem?_drop]
    · rw [FrameBody.payload, noticeBytes, portMarker_eq]
  all_goals
    intro x
    cases x <;> rfl

end Sys2Proof.Machine
end

section
/-! PROOFS. The entries of the tables: what their bytes read as (R198, R199), READ_ENTRIES and SCAN (R180, R183, R200). -/

namespace Sys2Proof.Machine

/-! ### Entries written as they were read -/

theorem numAt_byte {bs : List Byte} {off n : Nat} (held : field bs off 1 = [BitVec.ofNat 8 n]) (fits : n < 256) :
    numAt bs off 1 = n := by
  rw [numAt, held, beNat_cons_nil, BitVec.toNat_ofNat, Nat.mod_eq_of_lt fits]

theorem numAt_number {bs : List Byte} {off k n : Nat} (held : field bs off k = beBytes k n) (fits : n < 256 ^ k) :
    numAt bs off k = n := by
  rw [numAt, held, beNat_beBytes_of_lt fits]

theorem numAt_bool {bs : List Byte} {off : Nat} {b : Bool} (held : field bs off 1 = [boolByte b]) :
    boolOf (numAt bs off 1) = some b := by
  rw [numAt, held]
  cases b <;> rfl

theorem numAt_code {bs : List Byte} {off : Nat} {b : Byte} (held : field bs off 1 = [b]) : numAt bs off 1 = b.toNat := by
  rw [numAt, held, beNat_cons_nil]

theorem inRange_of {lo hi n : Nat} (lower : lo ≤ n) (upper : n ≤ hi) : inRange lo hi n = true := decide_eq_true ⟨lower, upper⟩

theorem length_portEntryBytes (e : PortEntry) : (portEntryBytes e).length = 25 := rfl

theorem rateOf_code (r : LinkRate) : rateOf r.code.toNat = some r := by cases r <;> rfl

theorem portEntryOf_portEntryBytes (e : PortEntry) (h1 : 10000 ≤ e.linkTimeout) (h2 : e.linkTimeout ≤ 1000000)
    (h3 : 1280000 ≤ e.pNom) (h4 : e.pNom ≤ 10240000) (h5 : e.tolPpm ≤ 20000)
    (h6 : e.winFrames = 16 ∨ e.winFrames = 32 ∨ e.winFrames = 64 ∨ e.winFrames = 128) (h7 : e.slewMax ≤ 2000)
    (h8 : 100 ≤ e.phaseTol) (h9 : e.phaseTol ≤ 10000) (h10 : 5000 ≤ e.pacePeriod) (h11 : e.pacePeriod ≤ 100000)
    (h12 : e.leadFrames ≤ 8) : portEntryOf (portEntryBytes e) = some e := by
  have enabled : boolOf (numAt (portEntryBytes e) 0 1) = some e.enabled := numAt_bool rfl
  have rate : rateOf (numAt (portEntryBytes e) 1 1) = some e.linkRate := (congrArg rateOf (numAt_code rfl)).trans (rateOf_code _)
  have own : boolOf (numAt (portEntryBytes e) 24 1) = some e.includeOwn := numAt_bool rfl
  have timeout : numAt (portEntryBytes e) 2 4 = e.linkTimeout := numAt_number rfl (by omega)
  have period : numAt (portEntryBytes e) 6 4 = e.pNom := numAt_number rfl (by omega)
  have tol : numAt (portEntryBytes e) 10 2 = e.tolPpm := numAt_number rfl (by omega)
  have win : numAt (portEntryBytes e) 12 1 = e.winFrames := numAt_number rfl (by omega)
  have slew : numAt (portEntryBytes e) 13 2 = e.slewMax := numAt_number rfl (by omega)
  have phase : numAt (portEntryBytes e) 15 2 = e.phaseTol := numAt_number rfl (by omega)
  have pacing : numAt (portEntryBytes e) 17 1 = e.pacing.code.toNat := numAt_code rfl
  have pace : numAt (portEntryBytes e) 18 4 = e.pacePeriod := numAt_number rfl (by omega)
  have lead : numAt (portEntryBytes e) 22 1 = e.leadFrames := numAt_number rfl (by omega)
  have mode : numAt (portEntryBytes e) 23 1 = e.viewMode.code.toNat := numAt_code rfl
  unfold portEntryOf
  simp only [enabled, rate, own, timeout, period, tol, win, slew, phase, pacing, pace, lead, mode, inRange_of h1 h2,
    inRange_of h3 h4, inRange_of (Nat.zero_le _) h5, decide_eq_true h6, inRange_of (Nat.zero_le _) h7, inRange_of h8 h9,
    inRange_of h10 h11, inRange_of (Nat.zero_le _) h12, Bool.and_self, if_true]
  obtain ⟨_, _, _, _, _, _, _, _, pc, _, _, vm, _⟩ := e
  cases pc <;> cases vm <;> rfl

theorem eventKindOf_code (k : EventKind) : eventKindOf k.code.toNat = some k := by cases k <;> rfl

theorem filterOf_marker (f : Option Slot) : filterOf (slotMarker f).toNat = some f := by
  cases f with
  | none => rfl
  | some i => fin_cases i <;> rfl

/-- The fields of a route as its bytes read, but for the code and the lead. -/
theorem routeOf_routeBytes_of_lt (r : Route) (word : r.lead < 2 ^ 32) : routeOf (routeBytes r)
    = if r.code.toNat ≤ 253 ∧ r.lead ≤ 1000000 then some r else none := by
  have valid : boolOf (numAt (routeBytes r) 0 1) = some r.valid := numAt_bool rfl
  have kind : eventKindOf (numAt (routeBytes r) 1 1) = some r.kind :=
    (congrArg eventKindOf (numAt_code rfl)).trans (eventKindOf_code _)
  have filter : filterOf (numAt (routeBytes r) 2 1) = some r.filter :=
    (congrArg filterOf (numAt_code rfl)).trans (filterOf_marker _)
  have action : numAt (routeBytes r) 3 1 = r.action.code.toNat := numAt_code rfl
  have code : numAt (routeBytes r) 4 1 = r.code.toNat := numAt_code rfl
  have target : numAt (routeBytes r) 5 1 = r.target.code.toNat := numAt_code rfl
  have mask : numAt (routeBytes r) 6 1 = r.mask.toNat := numAt_code rfl
  have lead : numAt (routeBytes r) 7 4 = r.lead := numAt_number rfl word
  unfold routeOf
  simp only [valid, kind, filter, action, code, target, mask, lead, BitVec.ofNat_toNat, BitVec.setWidth_eq]
  obtain ⟨_, _, _, act, _, tgt, _, _⟩ := r
  cases act <;> cases tgt <;> rfl

theorem slotsOfBytes_map (l : List Slot) : slotsOfBytes (l.map slotByte) = some l := by
  induction l with
  | nil => rfl
  | cons i l ih => rw [List.map_cons, slotsOfBytes, ih, slotOf_slotByte]

/-- The bytes of a View Order List that fits read as the list, where it names no slot twice. -/
theorem viewOrderOf_viewOrderBytes (l : List Slot) (fits : l.length ≤ 12) :
    viewOrderOf (viewOrderBytes l) = if l.Nodup then some l else none := by
  have count : numAt (viewOrderBytes l) 0 1 = l.length := numAt_byte rfl (by omega)
  have slots : field (viewOrderBytes l) 1 l.length = l.map slotByte := by
    rw [field, viewOrderBytes, List.drop_succ_cons, List.drop_zero, List.take_take, Nat.min_eq_left fits,
      List.take_append_of_le_length (by rw [List.length_map]), List.take_of_length_le (by rw [List.length_map])]
  rw [viewOrderOf]
  simp only [count, if_pos fits, slots, slotsOfBytes_map]

theorem length_viewOrderBytes (l : List Slot) : (viewOrderBytes l).length = 13 := by
  simp [viewOrderBytes]

theorem nodup_slots_length {l : List Slot} (nodup : l.Nodup) : l.length ≤ 12 := by
  simpa using nodup.length_le_card

theorem length_sampleBytes (x : Option Sample) : (sampleBytes x).length = 17 := by cases x <;> rfl

theorem length_carBytes (c : CarRecord) : (carBytes c).length = 44 := by
  simp only [carBytes, List.length_append, length_beBytes, length_sampleBytes, List.length_cons, List.length_nil]

theorem assignmentOf_fields {bs : List Byte} {a : Assignment} (enabled : field bs 0 1 = [boolByte a.enabled])
    (owner : field bs 1 1 = [portByte a.owner]) (seat : field bs 2 1 = [BitVec.ofNat 8 a.seat.val])
    (number : field bs 3 1 = [BitVec.ofNat 8 a.number]) (h1 : 1 ≤ a.number) (h2 : a.number ≤ 99) :
    assignmentOf bs = some a := by
  have e : boolOf (numAt bs 0 1) = some a.enabled := numAt_bool enabled
  have o : portOf (numAt bs 1 1) = some a.owner := (congrArg portOf (numAt_code owner)).trans (portOf_portByte _)
  have s : numAt bs 2 1 = a.seat.val := numAt_byte seat (by omega)
  have n : numAt bs 3 1 = a.number := numAt_byte number (by omega)
  unfold assignmentOf
  simp only [e, o, s, n, a.seat.isLt, dif_pos, inRange_of h1 h2, if_true, Fin.eta]

theorem field_beBytes (k n : Nat) : field (beBytes k n) 0 k = beBytes k n := by
  rw [field, List.drop_zero, List.take_of_length_le (Nat.le_of_eq (length_beBytes k n))]

theorem setIfInBounds_fin {α : Type} {k : Nat} (v : Vector α k) (n : Fin k) (x : α) :
    v.setIfInBounds n x = v.set n x := by
  ext i inside
  simp [Vector.getElem_setIfInBounds, Vector.getElem_set]

theorem writePattern_patternBytes (n : Fin 4) (x : Pattern) (s : State) (long : x.bytes.length = 16) :
    writePattern n (patternBytes x) s = ({ s with patterns := s.patterns.set n x }, .ok) := by
  have enabled : boolOf (numAt (patternBytes x) 0 1) = some x.enabled := numAt_bool rfl
  have bytes : field (patternBytes x) 1 16 = x.bytes := by
    rw [field, patternBytes, List.drop_succ_cons, List.drop_zero, List.take_of_length_le (Nat.le_of_eq long)]
  rw [writePattern, enabled]
  simp only [bytes, setIfInBounds_fin]

/-- Settles O11. -/
theorem entriesReadBack : Obligations.EntriesReadBack := by
  refine ⟨fun e h1 h2 h3 h4 h5 h6 h7 h8 h9 h10 h11 h12 =>
      ⟨length_portEntryBytes e, portEntryOf_portEntryBytes e h1 h2 h3 h4 h5 h6 h7 h8 h9 h10 h11 h12⟩,
    fun r code lead => ⟨rfl, ?route⟩, fun l nodup => ⟨length_viewOrderBytes l, ?list⟩,
    fun c h1 h2 => ⟨length_carBytes c, ?car⟩, fun v word => ⟨length_beBytes 4 v, numAt_number (field_beBytes 4 v) word⟩,
    fun n x s long => ⟨congrArg Nat.succ long, writePattern_patternBytes n x s long⟩⟩
  case route => rw [routeOf_routeBytes_of_lt r (by omega), if_pos ⟨code, lead⟩]
  case list => rw [viewOrderOf_viewOrderBytes l (nodup_slots_length nodup), if_pos nodup]
  case car => exact assignmentOf_fields (a := ⟨c.enabled, c.owner, c.seat, c.number⟩) rfl rfl rfl rfl h1 h2

end Sys2Proof.Machine
end

section
/-! PROOFS. WRITE_ENTRIES (R181, R197): its entries in order up to the first refused one, and the writes of View Order Lists, routes
and training patterns (R68, R141, R163). -/

namespace Sys2Proof.Machine

/-! ### The loop over the entries -/

section
variable {size : Nat} {write : Nat → List Byte → State → State × Status} {n : Nat} {bs : List Byte} {s : State}

theorem writeLoop_succ_of_ok (k : Nat) (ok : (write n (bs.take size) s).2 = .ok) : writeLoop size write (k + 1) n bs s
    = let rest := writeLoop size write k (n + 1) (bs.drop size) (write n (bs.take size) s).1
      (rest.1, rest.2.1, rest.2.2 + 1) := by
  rw [writeLoop]
  exact if_pos ok

theorem writeLoop_succ_of_refused (k : Nat) (refused : (write n (bs.take size) s).2 ≠ .ok) :
    writeLoop size write (k + 1) n bs s = ((write n (bs.take size) s).1, (write n (bs.take size) s).2, 0) := by
  rw [writeLoop]
  exact if_neg refused

variable (size write n bs s)

/-- The number written is the number of entries when all are accepted, and smaller when one is refused. -/
theorem writeLoop_count (k : Nat) : (writeLoop size write k n bs s).2.2 ≤ k
    ∧ ((writeLoop size write k n bs s).2.2 = k ↔ (writeLoop size write k n bs s).2.1 = .ok) := by
  induction k generalizing n bs s with
  | zero => exact ⟨Nat.le_refl 0, by simp [writeLoop]⟩
  | succ k ih =>
    by_cases ok : (write n (bs.take size) s).2 = .ok
    · obtain ⟨le, all⟩ := ih (n + 1) (bs.drop size) (write n (bs.take size) s).1
      rw [writeLoop_succ_of_ok k ok]
      exact ⟨Nat.succ_le_succ le, Nat.succ_inj.trans all⟩
    · rw [writeLoop_succ_of_refused k ok]
      exact ⟨Nat.zero_le _, ⟨fun none => (Nat.succ_ne_zero k none.symm).elim, fun accepted => (ok accepted).elim⟩⟩

/-- The loop up to the refused entry accepts all, and its status is that of the refused entry. -/
theorem writeLoop_refused (k : Nat) (short : (writeLoop size write k n bs s).2.2 < k) :
    ∃ u, writeLoop size write (writeLoop size write k n bs s).2.2 n bs s = (u, .ok, (writeLoop size write k n bs s).2.2)
      ∧ write (n + (writeLoop size write k n bs s).2.2)
          ((bs.drop ((writeLoop size write k n bs s).2.2 * size)).take size) u
        = ((writeLoop size write k n bs s).1, (writeLoop size write k n bs s).2.1) := by
  induction k generalizing n bs s with
  | zero => exact absurd short (Nat.not_lt_zero _)
  | succ k ih =>
    by_cases ok : (write n (bs.take size) s).2 = .ok
    · rw [writeLoop_succ_of_ok k ok] at short ⊢
      obtain ⟨u, before, refused⟩ := ih (n + 1) (bs.drop size) _ (Nat.lt_of_succ_lt_succ short)
      refine ⟨u, ?_, ?_⟩
      · rw [writeLoop_succ_of_ok _ ok, before]
      · rw [List.drop_drop] at refused
        rw [Nat.add_mul, Nat.one_mul, Nat.add_comm _ size, ← refused, Nat.add_right_comm, Nat.add_assoc n]
    · rw [writeLoop_succ_of_refused k ok]
      exact ⟨s, rfl, by rw [Nat.zero_mul]; rfl⟩

/-- A loop whose first entries are accepted goes on with the rest from the state they leave. -/
theorem writeLoop_append (a b : Nat) (ok : (writeLoop size write a n bs s).2.1 = .ok) :
    (writeLoop size write (a + b) n bs s).1
      = (writeLoop size write b (n + a) (bs.drop (a * size)) (writeLoop size write a n bs s).1).1 := by
  induction a generalizing n bs s with
  | zero => simp [writeLoop]
  | succ a ih =>
    by_cases first : (write n (bs.take size) s).2 = .ok
    · rw [writeLoop_succ_of_ok a first] at ok ⊢
      rw [Nat.succ_add, writeLoop_succ_of_ok _ first]
      refine (ih (n + 1) (bs.drop size) _ ok).trans ?_
      rw [List.drop_drop, Nat.succ_mul, Nat.add_comm (a * size), Nat.add_assoc, Nat.add_comm 1]
    · rw [writeLoop_succ_of_refused a first] at ok
      exact absurd ok first

/-- A loop of one entry is that entry's write. -/
theorem writeLoop_one (bs : List Byte) (whole : bs.length = size) : writeLoop size write 1 n bs s
    = ((write n bs s).1, (write n bs s).2, if (write n bs s).2 = .ok then 1 else 0) := by
  have all : bs.take size = bs := List.take_of_length_le (Nat.le_of_eq whole)
  by_cases ok : (write n bs s).2 = .ok
  · rw [writeLoop_succ_of_ok 0 (by rw [all]; exact ok), all, if_pos ok]
    exact Prod.ext rfl (Prod.ext ok.symm rfl)
  · rw [writeLoop_succ_of_refused 0 (by rw [all]; exact ok), all, if_neg ok]

end

/-! ### The rows that write -/

/-- The row writes table `t`, named by the byte `tb`, in entries of `size` bytes. -/
structure WriteRow (row : Instr) (tb : Byte) (size : Nat) (write : Nat → List Byte → State → State × Status) : Prop where
  runs : ∃ t, tableOf tb.toNat = some t ∧ ∀ s, exec row s = .next (onHead (writes t) (writeTable size write) s)

section
variable {row : Instr} {tb : Byte} {size : Nat} {write : Nat → List Byte → State → State × Status} {s : State} {c : Command}
  {bs : List Byte}

theorem WriteRow.exec (h : WriteRow row tb size write) (head : s.head = some c) (named : c.payload = 0x11 :: tb :: bs)
    (director : s.holdsRole c.sender = true) : exec row s = .next
      (if 4 ≤ c.payload.length ∧ c.payload.length = 4 + numAt c.payload 3 1 * size then
        let r := writeLoop size write (numAt c.payload 3 1) (numAt c.payload 2 1) (c.payload.drop 4) s.dropHead
        answerWrite c r.2.1 r.2.2 r.1
      else answerWrite c .range 0 s.dropHead) := by
  obtain ⟨t, code, runs⟩ := h
  have mine : writes t c = true := writes_iff.mpr ⟨by rw [named]; rfl, by rw [Command.table, named]; exact code⟩
  rw [runs, onHead_of_mine head mine, writeTable, if_pos (show s.dropHead.holdsRole c.sender = true from director)]

theorem WriteRow.exec_of_length (h : WriteRow row tb size write) {index count : Byte}
    (asks : s.asks c ([0x11, tb, index, count] ++ bs)) (fits : bs.length = count.toNat * size) :
    Machine.exec row s = .next (answerWrite c (writeLoop size write count.toNat index.toNat bs s.dropHead).2.1
      (writeLoop size write count.toNat index.toNat bs s.dropHead).2.2
      (writeLoop size write count.toNat index.toNat bs s.dropHead).1) := by
  obtain ⟨head, payload, director⟩ := asks
  have i : numAt c.payload 2 1 = index.toNat := numAt_code (by rw [payload]; rfl)
  have k : numAt c.payload 3 1 = count.toNat := numAt_code (by rw [payload]; rfl)
  have long : c.payload.length = 4 + bs.length := by rw [payload, List.length_append]; rfl
  rw [h.exec head payload director, k, if_pos ⟨by omega, by omega⟩, i, payload]
  rfl

theorem WriteRow.exec_of_badLength (h : WriteRow row tb size write) {index count : Byte}
    (asks : s.asks c ([0x11, tb, index, count] ++ bs)) (unfit : bs.length ≠ count.toNat * size) :
    Machine.exec row s = .next (answerWrite c .range 0 s.dropHead) := by
  obtain ⟨head, payload, director⟩ := asks
  have k : numAt c.payload 3 1 = count.toNat := numAt_code (by rw [payload]; rfl)
  have long : c.payload.length = 4 + bs.length := by rw [payload, List.length_append]; rfl
  rw [h.exec head payload director, k, if_neg (by omega)]

theorem WriteRow.exec_of_short (h : WriteRow row tb size write) (asks : s.asks c ([0x11, tb] ++ bs)) (short : bs.length < 2) :
    Machine.exec row s = .next (answerWrite c .range 0 s.dropHead) := by
  obtain ⟨head, payload, director⟩ := asks
  have long : c.payload.length = 2 + bs.length := by rw [payload, List.length_append]; rfl
  rw [h.exec head payload director, if_neg (by omega)]

/-- A WRITE_ENTRIES of one entry (R181). -/
theorem WriteRow.exec_one (h : WriteRow row tb size write) {index : Byte} {u : State} {st : Status}
    (asks : s.asks c ([0x11, tb, index, 1] ++ bs)) (whole : bs.length = size)
    (writes : write index.toNat bs s.dropHead = (u, st)) :
    Machine.exec row s = .next (answerWrite c st (if st = .ok then 1 else 0) u) := by
  rw [h.exec_of_length asks (by rw [whole]; exact (Nat.one_mul _).symm)]
  rw [show (1 : Byte).toNat = 1 from rfl, writeLoop_one _ _ _ _ bs whole, writes]

end

theorem writeCarAssignment_row : WriteRow .writeCarAssignment 0 7 (onSlot writeCar) := ⟨_, rfl, fun _ => rfl⟩

theorem writeRaceParameters_row : WriteRow .writeRaceParameters 1 4 (onNumber 18 writeParam) := ⟨_, rfl, fun _ => rfl⟩

theorem writePortTable_row : WriteRow .writePortTable 2 25 (onPort writePort) := ⟨_, rfl, fun _ => rfl⟩

theorem writeViewOrderLists_row : WriteRow .writeViewOrderLists 3 13 (onPort writeViewOrder) := ⟨_, rfl, fun _ => rfl⟩

theorem writeEventRouteTable_row : WriteRow .writeEventRouteTable 4 11 (onNumber 24 writeRoute) := ⟨_, rfl, fun _ => rfl⟩

theorem writeTrainingPatterns_row : WriteRow .writeTrainingPatterns 5 17 (onNumber 4 writePattern) := ⟨_, rfl, fun _ => rfl⟩

section
variable (n : Nat) (bs : List Byte) (s : State)

theorem onSlot_of_beyond (write : Slot → List Byte → State → State × Status) (beyond : 12 ≤ n) :
    onSlot write n bs s = (s, .index) := by
  rw [onSlot, slotOf, dif_neg (Nat.not_lt.mpr beyond)]

theorem onSlot_val (write : Slot → List Byte → State → State × Status) (i : Slot) : onSlot write i.val bs s = write i bs s := by
  rw [onSlot, slotOf, dif_pos i.isLt]

theorem onPort_of_beyond (write : PortNo → List Byte → State → State × Status) (beyond : 8 ≤ n) :
    onPort write n bs s = (s, .index) := by
  rw [onPort, portOf, dif_neg (Nat.not_lt.mpr beyond)]

theorem onPort_val (write : PortNo → List Byte → State → State × Status) (p : PortNo) :
    onPort write p.val bs s = write p bs s := by
  rw [onPort, portOf, dif_pos p.isLt]

theorem onNumber_of_beyond {size : Nat} (write : Nat → List Byte → State → State × Status) (beyond : size ≤ n) :
    onNumber size write n bs s = (s, .index) := if_neg (Nat.not_lt.mpr beyond)

theorem onNumber_of_lt {size n : Nat} (write : Nat → List Byte → State → State × Status) (inside : n < size) :
    onNumber size write n bs s = write n bs s := if_pos inside

end

/-- Settles O54, by induction on the number of entries and by the row of each table. -/
theorem writesInOrder : Obligations.WritesInOrder := by
  refine ⟨fun s c bs => ?rows, fun size write k n bs s => ?loop⟩
  case rows =>
    intro runs indexed
    have row {r : Instr} {tb : Byte} {size : Nat} {write : Nat → List Byte → State → State × Status}
        (h : WriteRow r tb size write) : runs r tb size write :=
      ⟨fun _ _ asks => ⟨h.exec_of_length asks, h.exec_of_badLength asks⟩, fun short asks => h.exec_of_short asks short⟩
    exact ⟨row writeCarAssignment_row, fun n beyond => onSlot_of_beyond n bs s _ beyond, onSlot_val bs s _,
      row writeRaceParameters_row, fun n beyond => onNumber_of_beyond n bs s _ beyond, fun n => onNumber_of_lt bs s _,
      row writePortTable_row, fun n beyond => onPort_of_beyond n bs s _ beyond, onPort_val bs s _,
      row writeViewOrderLists_row, fun n beyond => onPort_of_beyond n bs s _ beyond, onPort_val bs s _,
      row writeEventRouteTable_row, fun n beyond => onNumber_of_beyond n bs s _ beyond, fun n => onNumber_of_lt bs s _,
      row writeTrainingPatterns_row, fun n beyond => onNumber_of_beyond n bs s _ beyond, fun n => onNumber_of_lt bs s _⟩
  case loop =>
    obtain ⟨le, all⟩ := writeLoop_count size write n bs s k
    exact ⟨le, all, writeLoop_refused size write n bs s k, fun a b sum ok => by
      rw [← writeLoop_append size write n bs s a b ok, ← sum]⟩

theorem portByte_toNat (p : PortNo) : (portByte p).toNat = p.val := by
  rw [portByte, BitVec.toNat_ofNat]
  omega

theorem index_toNat {k : Nat} (n : Fin k) (small : k ≤ 256 := by decide) : (BitVec.ofNat 8 n.val).toNat = n.val := by
  rw [BitVec.toNat_ofNat]
  omega

/-- Settles O58: one entry is written by its row, and its bytes read as the entry. -/
theorem listsWritten : Obligations.ListsWritten := by
  intro s c
  refine ⟨fun p l asks => ⟨fun nodup => ?stored, fun twice fits => ?refused⟩,
    fun n r word asks => ⟨fun code lead => ?routed, fun unfit => ?unrouted⟩, fun n x long asks => ?pattern⟩
  case stored =>
    refine writeViewOrderLists_row.exec_one asks (length_viewOrderBytes l) ?_
    rw [portByte_toNat, onPort_val, writeViewOrder, viewOrderOf_viewOrderBytes l (nodup_slots_length nodup), if_pos nodup]
  case refused =>
    refine writeViewOrderLists_row.exec_one asks (length_viewOrderBytes l) ?_
    rw [portByte_toNat, onPort_val, writeViewOrder, viewOrderOf_viewOrderBytes l fits, if_neg twice]
  case routed =>
    refine writeEventRouteTable_row.exec_one asks rfl ?_
    rw [index_toNat, onNumber_of_lt _ _ _ n.isLt, writeRoute, routeOf_routeBytes_of_lt r word, if_pos ⟨code, lead⟩]
    simp only [setIfInBounds_fin]
    rfl
  case unrouted =>
    refine writeEventRouteTable_row.exec_one asks rfl ?_
    rw [index_toNat, onNumber_of_lt _ _ _ n.isLt, writeRoute, routeOf_routeBytes_of_lt r word, if_neg (by omega)]
  case pattern =>
    refine writeTrainingPatterns_row.exec_one asks (congrArg Nat.succ long) ?_
    rw [index_toNat, onNumber_of_lt _ _ _ n.isLt, writePattern_patternBytes n x _ long]
    rfl

end Sys2Proof.Machine
end

section
/-! PROOFS. READ_ENTRIES and SCAN: the bytes and the fields of every entry, how many entries are read, and where a scan stops
(R180, R183, R198, R200). -/

namespace Sys2Proof.Machine

/-! ### The entries of a table -/

theorem toList_map_getElem? {α β : Type} {k : Nat} (v : Vector α k) (f : α → β) (i : Fin k) :
    (v.toList.map f)[i.val]? = some (f v[i]) := by
  simp

theorem toList_eq_map {α : Type} {k : Nat} (v : Vector α k) : v.toList = (List.finRange k).map fun i => v[i] := by
  apply List.ext_getElem <;> simp

theorem placingMarker_eq (n : Option Nat) : placingMarker n = BitVec.ofNat 8 (n.getD 0) := by cases n <;> rfl

theorem linkRate_code_eq (r : LinkRate) : r.code = if r = .r10 then 10 else 20 := by cases r <;> rfl

theorem sampleRead_sampleBytes (x : Option Sample) : SampleRead x (sampleBytes x) := by
  cases x with
  | none => exact ⟨fun _ => rfl, nofun⟩
  | some x => exact ⟨nofun, fun _ h => by cases h; exact ⟨_, sampleFlags_hasFlags _, rfl⟩⟩

/-- The first 12 of some entries and of fillers behind them, when no more than 12 are there. -/
theorem take_padded {α : Type} {xs : List α} (fits : xs.length ≤ 12) (x : α) :
    (xs ++ List.replicate 12 x).take 12 = xs ++ List.replicate (12 - xs.length) x := by
  rw [List.take_append, List.take_of_length_le fits, List.take_replicate, Nat.min_eq_left (Nat.sub_le ..)]

theorem crossingBytes_eq (x : Crossing) : crossingBytes x = [BitVec.ofNat 8 x.slot.val, BitVec.ofNat 8 x.lap]
    ++ beBytes 4 x.time.toNat ++ beBytes 3 x.rankS
    ++ (match x.status with | .provisional => [0, 0] | .fixed m => [1, BitVec.ofNat 8 m])
    ++ [crossingFlags x.multi x.late x.jump] := by
  rw [crossingBytes]
  cases x.status <;> rfl

theorem entriesLaidOut (s : State) : EntriesLaidOut s where
  cars := by
    refine ⟨by rw [State.tableBytes, List.length_map, Vector.length_toList], fun i => ⟨_, _, _, carFlags_hasFlags _,
      sampleRead_sampleBytes _, sampleRead_sampleBytes _, (toList_map_getElem? s.cars carBytes i).trans ?_⟩⟩
    rw [carBytes, placingMarker_eq]
    rfl
  params := rfl
  ports := by
    refine ⟨by rw [State.tableBytes, List.length_map, Vector.length_toList],
      fun p => (toList_map_getElem? s.ports (fun q => portEntryBytes q.entry) p).trans ?_⟩
    rw [portEntryBytes, linkRate_code_eq]
    rfl
  viewOrders := by
    refine ⟨by rw [State.tableBytes, List.length_map, Vector.length_toList],
      fun p => ?_⟩
    intro l fits
    refine (toList_map_getElem? s.ports (fun q => viewOrderBytes q.viewOrder) p).trans ?_
    rw [viewOrderBytes, take_padded (by rw [List.length_map]; exact fits), List.length_map]
    rfl
  routes := by
    refine ⟨by rw [State.tableBytes, List.length_map, Vector.length_toList],
      fun n => (toList_map_getElem? s.routes routeBytes n).trans ?_⟩
    rw [routeBytes, filterByte, slotMarker_eq]
    rfl
  patterns := ⟨by rw [State.tableBytes, List.length_map, Vector.length_toList],
    fun n => toList_map_getElem? s.patterns patternBytes n⟩
  crossings := by
    refine ⟨List.length_map _, fun n x at_ => ⟨_, crossingFlags_hasFlags _ _ _, ?_⟩⟩
    rw [State.tableBytes, List.getElem?_map, at_]
    exact congrArg some (crossingBytes_eq x)
  classified := by
    refine ⟨List.length_map _, fun n e at_ => ⟨_, classFlags_hasFlags e, ?_⟩⟩
    rw [State.tableBytes, List.getElem?_map, at_, Option.map_some, classBytes, placingMarker_eq, timeBytes_eq]
    rfl
  contacts := rfl

/-! ### READ_ENTRIES -/

theorem tableBytes_size {s : State} (whole : ∀ x ∈ s.patterns.toList, x.bytes.length = 16) (t : Table) :
    ∀ e ∈ s.tableBytes t, e.length = t.readSize := by
  intro e mem
  cases t <;> obtain ⟨x, held, rfl⟩ := List.mem_map.mp mem
  case carTable => exact length_carBytes x
  case raceParameters => exact length_beBytes ..
  case portTable => rfl
  case viewOrderLists => exact length_viewOrderBytes _
  case eventRouteTable => rfl
  case trainingPatterns => exact congrArg Nat.succ (whole x held)
  case crossingList => rfl
  case classification => simp only [classBytes, timeBytes_eq, timeOrZeros, List.length_append, length_beBytes]; rfl
  case contactPairSet => rfl

/-- The number of entries read is the largest that the count, the table's end and the room allow (R180). -/
theorem readCount_spec (t : Table) {size index count : Nat} (inside : index < size) :
    readCount t size index count ≤ count ∧ index + readCount t size index count ≤ size
      ∧ readCount t size index count * t.readSize ≤ 119
      ∧ (readCount t size index count = count ∨ index + readCount t size index count = size
        ∨ 119 < (readCount t size index count + 1) * t.readSize) := by
  unfold readCount
  have room : 119 / t.readSize * t.readSize ≤ 119 := Nat.div_mul_le_self ..
  have full : 119 < (119 / t.readSize + 1) * t.readSize := by cases t <;> decide
  have mono : min count (min (size - index) (119 / t.readSize)) * t.readSize ≤ 119 / t.readSize * t.readSize :=
    Nat.mul_le_mul_right _ ((Nat.min_le_right ..).trans (Nat.min_le_right ..))
  refine ⟨Nat.min_le_left .., by omega, by omega, ?_⟩
  by_cases h1 : min count (min (size - index) (119 / t.readSize)) = count
  · exact .inl h1
  · by_cases h2 : index + min count (min (size - index) (119 / t.readSize)) = size
    · exact .inr (.inl h2)
    · have last : min count (min (size - index) (119 / t.readSize)) = 119 / t.readSize := by omega
      exact .inr (.inr (by rw [last]; exact full))

theorem exec_readEntries {s : State} {c : Command} {t : Table} (head : s.head = some c) (is : c.payload.head? = some 0x10)
    (named : c.table = some t) (allowed : mayRead c s = true) (long : c.payload.length = 4) :
    exec .readEntries s = .next (readTable c t s.dropHead) := by
  have may : mayRead c s.dropHead = true := allowed
  rw [exec_readEntries_eq, onHead_of_code head is, readsTable, if_pos may, named]
  exact congrArg Host.Outcome.next (if_pos long)

theorem mayRead_of_table {c : Command} {s : State} {t : Table} (named : c.table = some t)
    (allowed : s.holdsRole c.sender = true ∨ t.isPublic = true) : mayRead c s = true := by
  rw [mayRead, named, Option.any_some, Bool.or_eq_true]
  exact allowed

/-- Settles O52. -/
theorem entriesRead : Obligations.EntriesRead := by
  refine ⟨entriesLaidOut, fun s c tb ib nb t head payload code allowed whole => ?_⟩
  intro entries
  have named : c.table = some t := by rw [Command.table, payload]; exact code
  have runs := exec_readEntries head (by rw [payload]; rfl) named (mayRead_of_table named allowed) (by rw [payload]; rfl)
  have index : numAt c.payload 2 1 = ib.toNat := numAt_code (by rw [payload]; rfl)
  have count : numAt c.payload 3 1 = nb.toNat := numAt_code (by rw [payload]; rfl)
  have held : s.dropHead.tableBytes t = entries := by cases t <;> rfl
  refine ⟨tableBytes_size whole t, fun beyond => ?_, fun inside => ?_⟩
  · rw [runs, readTable, held, index, if_pos beyond]
  · obtain ⟨h1, h2, h3, h4⟩ := readCount_spec t inside (count := nb.toNat)
    refine ⟨_, h1, h2, h3, h4, ?_⟩
    rw [runs, readTable, held, index, if_neg (Nat.not_le.mpr inside), count, payload, BitVec.ofNat_toNat, BitVec.setWidth_eq]
    rfl

/-! ### The fields of the entries -/

theorem bField_eq (b : Bool) : bField b = if b then some 1 else some 0 := by cases b <;> rfl

theorem bField_num (b : Bool) : bField b = some (BitVec.ofNat 32 (if b then 1 else 0)) := by cases b <;> rfl

theorem rateField (r : LinkRate) : byteField r.code = some (BitVec.ofNat 32 (if r = .r10 then 10 else 20)) := by
  cases r <;> rfl

theorem sampleFields_eq (x : Option Sample) : sampleFields x = match x with
    | none => [none, none, none, none, none, none, none, none]
    | some y => [some y.time, some (BitVec.ofNat 32 y.s), some (BitVec.ofNat 32 y.lap), some (BitVec.ofInt 32 y.d),
        some (BitVec.ofNat 32 y.v), some (BitVec.ofInt 32 y.w), some (BitVec.ofInt 32 y.a),
        some (BitVec.ofNat 32 ((if y.offTrack then 1 else 0) + if y.spun then 2 else 0))] := by
  cases x with
  | none => rfl
  | some y =>
    have flags : (sampleFlags y).toNat = (if y.offTrack then 1 else 0) + if y.spun then 2 else 0 := by
      rw [sampleFlags]
      cases y.offTrack <;> cases y.spun <;> rfl
    rw [sampleFields, byteField, flags]
    rfl

theorem bind_uField (n : Option Nat) : n.bind uField = n.map (BitVec.ofNat 32) := by cases n <;> rfl

theorem toNat_slotMarker (f : Option Slot) : (slotMarker f).toNat = (f.map Fin.val).getD 255 := by
  cases f with
  | none => rfl
  | some i => exact index_toNat i

theorem filterField (r : Route) :
    byteField (filterByte r) = some (BitVec.ofNat 32 ((r.filter.map Fin.val).getD 255)) := by
  rw [byteField, filterByte, toNat_slotMarker]
  rfl

theorem fieldsLaidOut (s : State) : FieldsLaidOut s where
  cars := by
    intro num flag sample
    rw [State.tableFields, toList_eq_map, List.map_map]
    refine List.map_congr_left fun i _ => ?_
    rw [Function.comp_apply, carFields, bField_eq, bField_eq, bField_eq, bind_uField, bind_uField, sampleFields_eq,
      sampleFields_eq]
    rfl
  params := rfl
  ports := by
    intro num
    rw [State.tableFields, toList_eq_map, List.map_map]
    refine List.map_congr_left fun p _ => ?_
    rw [Function.comp_apply, portEntryFields, bField_num, bField_num, rateField]
    rfl
  viewOrders := by
    refine ⟨by rw [State.tableFields, List.length_map, Vector.length_toList],
      fun p => ?_⟩
    intro l fits
    refine (toList_map_getElem? s.ports (fun q => viewOrderFields q.viewOrder) p).trans ?_
    rw [viewOrderFields, take_padded (by rw [List.length_map]; exact fits), List.length_map]
    rfl
  routes := by
    intro num
    refine List.map_congr_left fun r _ => ?_
    rw [routeFields, bField_num, filterField]
    rfl
  patterns := by
    refine List.map_congr_left fun x _ => ?_
    rw [patternFields, bField_eq]
    cases x.enabled <;> rfl
  crossings := by
    intro num flag
    refine List.map_congr_left fun x _ => ?_
    rw [crossingFields, bField_eq, bField_eq, bField_eq, bind_uField]
    cases x.status <;> rfl
  classified := by
    intro num flag
    refine List.map_congr_left fun e _ => ?_
    rw [classFields, bField_eq, bField_eq, bind_uField]
    rfl
  contacts := rfl

/-! ### Where a scan stops (R183) -/

section
variable (fieldNo : Nat) (v : BitVec 32) (whileEqual : Bool)

/-- The field a SCAN compares equals the value. -/
def fieldEquals (e : List Field) : Bool := decide (e.getD fieldNo none = some v)

/-- `r` is the result of a scan of `es` that passes `d` entries from `start` on, `budget` of which may be examined, with a count
of `n`: the entries passed let it go on, and one of the four reasons ends it. -/
structure ScanEnds (budget : Nat) (es : List (List Field)) (start n d : Nat) (r : ScanResult) : Prop where
  index : r.index = start + d
  remaining : r.remaining = n - d
  within : d ≤ n ∧ d ≤ budget ∧ d ≤ es.length
  passed : ∀ j < d, fieldEquals fieldNo v (es.getD j []) = whileEqual
  reason : (r.reason = 0 ∧ d = n ∧ r.matched = false)
    ∨ (r.reason = 3 ∧ d < n ∧ d = es.length ∧ r.matched = false)
    ∨ (r.reason = 2 ∧ d < n ∧ d < es.length ∧ d = budget ∧ r.matched = false)
    ∨ (r.reason = 1 ∧ d < n ∧ d < es.length ∧ d < budget ∧ fieldEquals fieldNo v (es.getD d []) = !whileEqual
      ∧ r.matched = fieldEquals fieldNo v (es.getD d []))

variable {fieldNo v whileEqual}

theorem ScanEnds.succ {budget start n d : Nat} {e : List Field} {es : List (List Field)} {r : ScanResult}
    (goes : fieldEquals fieldNo v e = whileEqual) (h : ScanEnds fieldNo v whileEqual budget es (start + 1) n d r) :
    ScanEnds fieldNo v whileEqual (budget + 1) (e :: es) start (n + 1) (d + 1) r where
  index := by rw [h.index, Nat.add_right_comm, Nat.add_assoc]
  remaining := by rw [h.remaining, Nat.succ_sub_succ]
  within := by
    obtain ⟨h1, h2, h3⟩ := h.within
    exact ⟨Nat.succ_le_succ h1, Nat.succ_le_succ h2, Nat.succ_le_succ h3⟩
  passed := by
    intro j less
    cases j with
    | zero => exact goes
    | succ j => exact h.passed j (Nat.lt_of_succ_lt_succ less)
  reason := by simpa using h.reason

variable (fieldNo v whileEqual)

theorem scanFrom_ends (budget : Nat) (es : List (List Field)) (start n : Nat) :
    ∃ d, ScanEnds fieldNo v whileEqual budget es start n d (scanFrom fieldNo v whileEqual budget es start n) := by
  induction budget, es, start, n using scanFrom.induct fieldNo v whileEqual with
  | case1 budget es start => exact ⟨0, by simp [scanFrom], by simp [scanFrom], by simp, nofun, .inl (by simp [scanFrom])⟩
  | case2 budget start n => exact ⟨0, by simp [scanFrom], by simp [scanFrom], by simp, nofun, .inr (.inl (by simp [scanFrom]))⟩
  | case3 e es start n =>
    exact ⟨0, by simp [scanFrom], by simp [scanFrom], by simp, nofun, .inr (.inr (.inl (by simp [scanFrom])))⟩
  | case4 budget e es start n equal goes ih =>
    obtain ⟨d, ends⟩ := ih
    refine ⟨d + 1, ?_⟩
    rw [scanFrom, if_pos goes]
    exact ends.succ goes
  | case5 budget e es start n equal stops =>
    refine ⟨0, ?_⟩
    rw [scanFrom, if_neg stops]
    have flips : fieldEquals fieldNo v e = !whileEqual := by
      have differ : fieldEquals fieldNo v e ≠ whileEqual := stops
      cases h : fieldEquals fieldNo v e <;> cases whileEqual <;> simp_all
    exact ⟨rfl, rfl, by simp, nofun, .inr (.inr (.inr ⟨rfl, by simp, by simp, by simp, flips, rfl⟩))⟩

end

theorem getD_drop {α : Type} (xs : List α) (k j : Nat) (x : α) : (xs.drop k).getD j x = xs.getD (k + j) x := by
  rw [List.getD_eq_getElem?_getD, List.getElem?_drop, ← List.getD_eq_getElem?_getD]

/-- What the result of a scan says of the entries, in the terms of the table. -/
theorem scanFrom_stops (fieldNo : Nat) (v : BitVec 32) (whileEqual : Bool) (es : List (List Field)) (start n : Nat) :
    let r := scanFrom fieldNo v whileEqual 32 (es.drop start) start n
    let equal (k : Nat) : Bool := fieldEquals fieldNo v (es.getD k [])
    r.index = start + (n - r.remaining) ∧ r.remaining ≤ n ∧ r.index ≤ start + 32
    ∧ (∀ k, start ≤ k → k < r.index → k < es.length ∧ equal k = whileEqual)
    ∧ (r.reason = 0 ↔ r.remaining = 0)
    ∧ (r.reason = 3 ↔ 0 < r.remaining ∧ es.length ≤ r.index)
    ∧ (r.reason = 2 ↔ 0 < r.remaining ∧ r.index < es.length ∧ r.index = start + 32)
    ∧ (r.reason = 1 ↔ 0 < r.remaining ∧ r.index < es.length ∧ r.index < start + 32)
    ∧ (r.reason = 1 → equal r.index = !whileEqual)
    ∧ (r.matched = true ↔ r.reason = 1 ∧ equal r.index = true) := by
  intro r equal
  obtain ⟨d, index, remaining, ⟨h1, h2, h3⟩, passed, reason⟩ := scanFrom_ends fieldNo v whileEqual 32 (es.drop start) start n
  change r.index = start + d at index
  change r.remaining = n - d at remaining
  rw [List.length_drop] at h3
  have passes (k : Nat) (lower : start ≤ k) (upper : k < r.index) : k < es.length ∧ equal k = whileEqual := by
    have same := passed (k - start) (by omega)
    rw [getD_drop, Nat.add_sub_cancel' lower] at same
    exact ⟨by omega, same⟩
  refine ⟨by omega, by omega, by omega, passes, ?_⟩
  simp only [List.length_drop, getD_drop] at reason
  rw [← index] at reason
  change (r.reason = 0 ∧ d = n ∧ r.matched = false)
    ∨ (r.reason = 3 ∧ d < n ∧ d = es.length - start ∧ r.matched = false)
    ∨ (r.reason = 2 ∧ d < n ∧ d < es.length - start ∧ d = 32 ∧ r.matched = false)
    ∨ (r.reason = 1 ∧ d < n ∧ d < es.length - start ∧ d < 32 ∧ equal r.index = (!whileEqual)
      ∧ r.matched = equal r.index) at reason
  rcases reason with ⟨why, h, m⟩ | ⟨why, h, h', m⟩ | ⟨why, h, h', h'', m⟩ | ⟨why, h, h', h'', flips, m⟩
  · simp [why, m]
    omega
  · simp [why, m]
    omega
  · simp [why, m]
    omega
  · simp [why, m, flips]
    omega

theorem exec_scan {s : State} {c : Command} {t : Table} (head : s.head = some c) (is : c.payload.head? = some 0x12)
    (named : c.table = some t) (allowed : mayRead c s = true) (long : c.payload.length = 11) :
    exec .scan s = .next (scanTable c t s.dropHead) := by
  have may : mayRead c s.dropHead = true := allowed
  rw [exec_scan_eq, onHead_of_code head is, readsTable, if_pos may, named]
  exact congrArg Host.Outcome.next (if_pos long)

/-- Settles O53. -/
theorem scanStops : Obligations.ScanStops := by
  refine ⟨fieldsLaidOut, scanFrom_stops, fun s c t tb start n1 n0 f v3 v2 v1 v0 mode head payload code allowed => ?_⟩
  have named : c.table = some t := by rw [Command.table, payload]; exact code
  have runs := exec_scan head (by rw [payload]; rfl) named (mayRead_of_table named allowed) (by rw [payload]; rfl)
  have startAt : numAt c.payload 2 1 = start.toNat := numAt_code (by rw [payload]; rfl)
  have count : numAt c.payload 3 2 = n1.toNat * 256 + n0.toNat := by
    rw [payload, ← toNat_append_byte, ← beNat_two]
    rfl
  have fieldNo : numAt c.payload 5 1 = f.toNat := numAt_code (by rw [payload]; rfl)
  have value : numAt c.payload 6 4 = (v3 ++ v2 ++ v1 ++ v0).toNat := by
    rw [payload, toNat_append_byte, ← beNat_three]
    rfl
  have modeAt : numAt c.payload 10 1 = mode.toNat := numAt_code (by rw [payload]; rfl)
  have held : s.dropHead.tableFields t = s.tableFields t := by cases t <;> rfl
  have modes : mode.toNat ≤ 1 ↔ mode = 0 ∨ mode = 1 := by
    constructor
    · intro small
      have cases : mode.toNat = 0 ∨ mode.toNat = 1 := by omega
      exact cases.imp (fun h => BitVec.eq_of_toNat_eq h) fun h => BitVec.eq_of_toNat_eq h
    · rintro (rfl | rfl) <;> decide
  refine ⟨fun known legal => ?_, fun illegal => ?_⟩
  · have one : decide (mode.toNat = 1) = decide (mode = 1) := by rcases legal with rfl | rfl <;> rfl
    rw [runs, scanTable, startAt, count, fieldNo, value, modeAt, held, BitVec.ofNat_toNat, BitVec.setWidth_eq, one,
      if_pos ⟨known, modes.mpr legal⟩]
    rfl
  · rw [runs, scanTable, fieldNo, modeAt, if_neg]
    rintro ⟨known, small⟩
    rcases illegal with unknown | ⟨not0, not1⟩
    · exact Nat.not_lt.mpr unknown known
    · exact (modes.mp small).elim not0 not1

end Sys2Proof.Machine
end

section
/-! PROOFS. The result of a projection (R56 to R63). -/

namespace Sys2Proof.Machine

/-! ### Laps carried and borrowed -/

section
variable {L lap : Nat} (long : 0 < L) {x : Int}
include long

/-- The ceiling that stage 4 takes is the only number of laps that brings a position behind the line back onto the lap. -/
theorem ceilDiv_unique {q : Int} (lower : (q - 1) * L < x) (upper : x ≤ q * L) : ceilDiv x L = q := by
  have positive : (0 : Int) < L := by exact_mod_cast long
  have floor : -x / (L : Int) = -q := by
    apply Int.le_antisymm
    · exact Int.le_of_lt_add_one ((Int.ediv_lt_iff_lt_mul positive).mpr (by linarith [Int.sub_mul q 1 L, Int.add_mul (-q) 1 L, Int.neg_mul q L]))
    · exact (Int.le_ediv_iff_mul_le positive).mpr (by linarith [Int.neg_mul q L])
  rw [ceilDiv, floor, neg_neg]

theorem ceilDiv_bounds (x : Int) : (ceilDiv x L - 1) * L < x ∧ x ≤ ceilDiv x L * L := by
  have positive : (0 : Int) < L := by exact_mod_cast long
  have lower := Int.ediv_mul_le (-x) (ne_of_gt positive)
  have upper := Int.lt_ediv_add_one_mul_self (-x) positive
  rw [ceilDiv]
  constructor <;> nlinarith

theorem wrapPosition_of_nonneg (nonneg : 0 ≤ x) : ∃ q : Nat, x = q * L + (wrapPosition L lap x).1
    ∧ (wrapPosition L lap x).1 < L ∧ (wrapPosition L lap x).2 = min 255 (lap + q) := by
  have positive : (0 : Int) < L := by exact_mod_cast long
  have quotient : ((x / L).toNat : Int) = x / L := Int.toNat_of_nonneg (Int.ediv_nonneg nonneg positive.le)
  have rest : ((x % L).toNat : Int) = x % L := Int.toNat_of_nonneg (Int.emod_nonneg x (ne_of_gt positive))
  have small := Int.emod_lt_of_pos x positive
  have split := Int.mul_ediv_add_emod x L
  rw [wrapPosition, if_neg (Int.not_lt.mpr nonneg)]
  exact ⟨(x / L).toNat, by rw [quotient, rest]; linarith [Int.mul_comm (x / L) L], by omega, rfl⟩

theorem wrapPosition_of_neg (neg : x < 0) {q : Int} (lower : (q - 1) * L < -x) (upper : -x ≤ q * L) :
    wrapPosition L lap x = if (lap : Int) < q then (0, 0) else ((x + q * L).toNat, ((lap : Int) - q).toNat) := by
  rw [wrapPosition, if_pos neg, ceilDiv_unique long lower upper]

theorem wrapPosition_onLap (x : Int) : (wrapPosition L lap x).1 < L := by
  by_cases nonneg : 0 ≤ x
  · obtain ⟨q, -, onLap, -⟩ := wrapPosition_of_nonneg long (lap := lap) nonneg
    exact onLap
  · obtain ⟨lower, upper⟩ := ceilDiv_bounds long (-x)
    rw [wrapPosition_of_neg long (Int.not_le.mp nonneg) lower upper]
    split
    · exact long
    · rw [Int.sub_mul] at lower
      show (x + ceilDiv (-x) L * L).toNat < L
      omega

theorem wrapPosition_lap_le (x : Int) (small : lap ≤ 255) : (wrapPosition L lap x).2 ≤ 255 := by
  by_cases nonneg : 0 ≤ x
  · obtain ⟨q, -, -, laps⟩ := wrapPosition_of_nonneg long (lap := lap) nonneg
    exact laps ▸ Nat.min_le_left ..
  · obtain ⟨lower, upper⟩ := ceilDiv_bounds long (-x)
    have borrowed : 0 ≤ ceilDiv (-x) L := by
      rw [ceilDiv, neg_neg]
      exact Int.neg_nonneg.mpr (Int.ediv_neg_of_neg_of_pos (Int.not_le.mp nonneg) (by exact_mod_cast long)).le
    rw [wrapPosition_of_neg long (Int.not_le.mp nonneg) lower upper]
    split
    · exact Nat.zero_le _
    · show ((lap : Int) - ceilDiv (-x) L).toNat ≤ 255
      omega

end

theorem wrapPosition_self {L s lap : Nat} (onLap : s < L) (small : lap ≤ 255) : wrapPosition L lap s = (s, lap) := by
  have nonneg : ¬(s : Int) < 0 := by omega
  have rest : ((s : Int) % L).toNat = s := by rw [← Int.natCast_mod, Nat.mod_eq_of_lt onLap]; rfl
  have none : ((s : Int) / L).toNat = 0 := by rw [← Int.natCast_div, Nat.div_eq_of_lt onLap]; rfl
  rw [wrapPosition, if_neg nonneg, rest, none, Nat.add_zero, Nat.min_eq_right small]

/-! ### Speed and offset -/

theorem projectedSpeed_le (v : Nat) (a e : Int) : projectedSpeed v a e ≤ 20000 := by
  have bounds := clamp_bounds (v + roundDiv (a * e) 1000000) (show (0 : Int) ≤ 20000 by decide)
  have eq := projectedSpeed_eq v a e
  omega

/-- A car that comes to rest under a deceleration no sample exceeds stands: what stage 2 leaves of the speed rounds to 0. -/
theorem projectedSpeed_of_rest {v : Nat} {a e : Int} (rest : comesToRest v a e = true) (bound : -8000 ≤ a) :
    projectedSpeed v a (stoppedInterval v a e) = 0 := by
  obtain ⟨braking, -, -⟩ := comesToRest_iff.mp rest
  have positive : 0 < -a := by omega
  have lower := Int.ediv_mul_le ((v : Int) * 1000000) (ne_of_gt positive)
  have upper := Int.lt_ediv_add_one_mul_self ((v : Int) * 1000000) positive
  have nearest := (roundDiv_nearest (a * ((v : Int) * 1000000 / -a)) (d := 1000000) (by decide)).1
  have eq := projectedSpeed_eq v a (stoppedInterval v a e)
  rw [stoppedInterval_of_rest rest] at eq ⊢
  have stands : roundDiv (a * ((v : Int) * 1000000 / -a)) 1000000 = -v := by
    generalize (v : Int) * 1000000 / -a = q at *
    have product : q * -a = -(a * q) := by ring
    have next : (q + 1) * -a = -(a * q) - a := by ring
    rw [product] at lower
    rw [next] at upper
    generalize a * q = m at *
    omega
  rw [stands, Int.add_right_neg, clamp_of_mem (le_refl 0) (by decide)] at eq
  exact_mod_cast eq

theorem projectedSpeed_zero {v : Nat} (a : Int) (slow : v ≤ 20000) : projectedSpeed v a 0 = v := by
  have eq := projectedSpeed_eq v a 0
  have none : roundDiv (a * 0) 1000000 = 0 := by rw [Int.mul_zero]; rfl
  rw [none, Int.add_zero, clamp_of_mem (Int.natCast_nonneg v) (by exact_mod_cast slow)] at eq
  exact_mod_cast eq

theorem distance_zero (v : Nat) (a : Int) : distance v a 0 = 0 := by
  have none : 2000000 * (v : Int) * 0 + a * 0 ^ 2 = 0 := by ring
  rw [distance, none]
  rfl

/-- Settles O28. -/
theorem projectionResult : Obligations.ProjectionResult := by
  refine ⟨fun L lap x long small => ?wrap, fun pr r x t => ?result⟩
  case wrap =>
    intro y
    refine ⟨wrapPosition_onLap long x, wrapPosition_lap_le long x small, fun nonneg => ?_, fun neg q lower upper => ?_⟩
    · obtain ⟨q, split, -, carried⟩ := wrapPosition_of_nonneg long (lap := lap) nonneg
      exact ⟨q, split, carried⟩
    · have eq : y = _ := wrapPosition_of_neg long (lap := lap) neg lower upper
      refine ⟨fun borrows => ?_, fun lacks => eq.trans (if_pos lacks)⟩
      rw [if_neg (Int.not_lt.mpr borrows)] at eq
      rw [eq]
      exact ⟨Int.toNat_of_nonneg (by omega), Int.toNat_of_nonneg (by omega)⟩
  case result =>
    intro y e
    have position : (y.s, y.lap) = wrapPosition pr.lapLength x.lap (x.s + distance x.v x.a e) := rfl
    have bounds := clamp_bounds (x.d + roundDiv (x.w * e) 1000000) (show -(pr.dMax : Int) ≤ pr.dMax by omega)
    refine ⟨fun long => wrapPosition_onLap long _, projectedSpeed_le _ _ _, rfl, bounds.1, bounds.2,
      fun stopped bound => projectedSpeed_of_rest stopped bound, fun none onLap slow small => ?_⟩
    · rw [none, distance_zero, Int.add_zero, wrapPosition_self onLap small] at position
      obtain ⟨s, lap⟩ := Prod.mk.inj position
      refine ⟨s, lap, ?_, ?_⟩
      · have speed : y.v = projectedSpeed x.v x.a e := rfl
        rw [speed, none, projectedSpeed_zero _ slow]
      · have offset : y.d = clamp (-pr.dMax) pr.dMax (x.d + roundDiv (x.w * e) 1000000) := rfl
        have still : roundDiv (x.w * 0) 1000000 = 0 := by rw [Int.mul_zero]; rfl
        rw [offset, none, still, Int.add_zero]

end Sys2Proof.Machine
end

section
/-! PROOFS. The classification (R107, R108) and the crossings a sample reveals (R90 to R93). -/

namespace Sys2Proof.Machine

/-! ### The entries of the classification -/

section
variable (s : State)

/-- The enabled slots in the order of the classification. -/
def State.classSlots : List Slot := sortByKey (fun i => classKey (s.car i) i) (allSlots.filter fun i => (s.car i).enabled)

theorem classEntries_slots (n : Nat) (is : List Slot) : (classEntries s n is).map (fun e => e.slot) = is := by
  induction is generalizing n with
  | nil => rfl
  | cons i is ih => rw [classEntries, List.map_cons, ih]; rfl

theorem length_classEntries (n : Nat) (is : List Slot) : (classEntries s n is).length = is.length := by
  rw [← List.length_map (fun e : ClassEntry => e.slot), classEntries_slots]

theorem classEntries_positions (n : Nat) (is : List Slot) :
    (classEntries s n is).map (fun e => e.position) = List.range' n (classEntries s n is).length := by
  induction is generalizing n with
  | nil => rfl
  | cons i is ih => rw [classEntries, List.map_cons, ih, List.length_cons, List.range'_succ]; rfl

theorem eq_classEntry_of_mem {n : Nat} {is : List Slot} {e : ClassEntry} (mem : e ∈ classEntries s n is) :
    ∃ m, ∃ i ∈ is, e = classEntry s m i := by
  induction is generalizing n with
  | nil => cases mem
  | cons i is ih =>
    rw [classEntries] at mem
    rcases List.mem_cons.mp mem with rfl | later
    · exact ⟨n, i, List.mem_cons_self .., rfl⟩
    · obtain ⟨m, j, held, eq⟩ := ih later
      exact ⟨m, j, List.mem_cons_of_mem i held, eq⟩

theorem pairwise_classEntries {R : ClassEntry → ClassEntry → Prop} (n : Nat) {is : List Slot}
    (h : is.Pairwise fun i j => ∀ m k, R (classEntry s m i) (classEntry s k j)) : (classEntries s n is).Pairwise R := by
  induction is generalizing n with
  | nil => exact .nil
  | cons i is ih =>
    obtain ⟨first, rest⟩ := List.pairwise_cons.mp h
    rw [classEntries]
    refine List.pairwise_cons.mpr ⟨fun e mem => ?_, ih (n + 1) rest⟩
    obtain ⟨k, j, held, rfl⟩ := eq_classEntry_of_mem s mem
    exact first j held n k

theorem State.classSlots_nodup : s.classSlots.Nodup :=
  (sortByKey_perm _ _).symm.nodup (nodup_allSlots.filter _)

theorem State.mem_classSlots (i : Slot) : i ∈ s.classSlots ↔ (s.car i).enabled = true := by
  simp [State.classSlots, mem_allSlots]

theorem State.classSlots_ordered :
    s.classSlots.Pairwise fun i j => classKey (s.car i) i ≤ classKey (s.car j) j ∧ i ≠ j :=
  (sortByKey_keyOrdered _ _).and s.classSlots_nodup

end

/-! ### The order of the groups -/

theorem classGroup_finished_iff (st : CarState) : classGroup st = .finished ↔ st = .finished := by
  cases st <;> simp [classGroup]

theorem classGroup_out_iff (st : CarState) : classGroup st = .out ↔ st = .retired ∨ st = .lost := by
  cases st <;> simp [classGroup]

/-- The key of a car that has not finished (R107). -/
theorem classKey_of_unfinished {c : CarRecord} (i : Slot) (unfinished : classGroup c.state ≠ .finished) : classKey c i
    = [((classGroup c.state).code.toNat : Int), -(c.lap : Int), if c.last.isSome then 0 else 1,
      if c.unplaced then 1 else 0, -((c.last.map Sample.s).getD 0 : Int), i.val] := by
  rw [classKey]
  cases group : classGroup c.state with
  | finished => exact absurd group unfinished
  | running => cases c.last <;> rfl
  | out => cases c.last <;> rfl

theorem classKey_of_finished {c : CarRecord} (i : Slot) (finished : classGroup c.state = .finished) : classKey c i
    = [0, ((c.finishPlacing.getD 0 : Nat) : Int), i.val] := by
  rw [classKey, finished]

/-- The first number of a key is its group's code. -/
theorem classKey_head (c : CarRecord) (i : Slot) :
    ∃ rest, classKey c i = ((classGroup c.state).code.toNat : Int) :: rest := by
  by_cases group : classGroup c.state = .finished
  · exact ⟨_, by rw [classKey_of_finished i group, group]; rfl⟩
  · exact ⟨_, classKey_of_unfinished i group⟩

section
variable {c d : CarRecord} {i j : Slot} (le : classKey c i ≤ classKey d j)
include le

theorem group_le_of_key_le : (classGroup c.state).code.toNat ≤ (classGroup d.state).code.toNat := by
  obtain ⟨_, h⟩ := classKey_head c i
  obtain ⟨_, k⟩ := classKey_head d j
  rw [h, k, ← not_lt] at le
  simp only [List.cons_lt_cons_iff] at le
  omega

theorem finished_order_of_key_le (differ : i ≠ j) (h : classGroup c.state = .finished) (k : classGroup d.state = .finished) :
    c.finishPlacing.getD 0 < d.finishPlacing.getD 0 ∨ (c.finishPlacing.getD 0 = d.finishPlacing.getD 0 ∧ i < j) := by
  rw [classKey_of_finished i h, classKey_of_finished j k, ← not_lt] at le
  simp only [List.cons_lt_cons_iff, lt_irrefl, true_and, false_or] at le
  rw [Fin.lt_def]
  rw [ne_eq, Fin.ext_iff] at differ
  omega

theorem unfinished_lap_of_key_le (same : classGroup c.state = classGroup d.state) (h : classGroup c.state ≠ .finished) :
    d.lap ≤ c.lap := by
  rw [classKey_of_unfinished i h, classKey_of_unfinished j (same ▸ h), same, ← not_lt] at le
  simp only [List.cons_lt_cons_iff, lt_irrefl, true_and, false_or] at le
  omega

theorem unfinished_order_of_key_le (differ : i ≠ j) (same : classGroup c.state = classGroup d.state)
    (h : classGroup c.state ≠ .finished) (lap : c.lap = d.lap) {x y : Sample} (hx : c.last = some x) (hy : d.last = some y) :
    (c.unplaced = false ∧ d.unplaced = true) ∨ (c.unplaced = d.unplaced ∧ (y.s < x.s ∨ (x.s = y.s ∧ i < j))) := by
  rw [classKey_of_unfinished i h, classKey_of_unfinished j (same ▸ h), same, lap, hx, hy, ← not_lt] at le
  simp only [List.cons_lt_cons_iff, lt_irrefl, true_and, false_or, Option.isSome_some, if_true, Option.map_some, Option.getD_some] at le
  rw [Fin.lt_def]
  rw [ne_eq, Fin.ext_iff] at differ
  cases hc : c.unplaced <;> cases hd : d.unplaced <;>
    simp only [hc, hd, Bool.false_eq_true, if_true, if_false, reduceCtorEq, true_and, false_and, false_or, or_false] at le ⊢ <;>
    omega

theorem unfinished_order_of_no_sample (differ : i ≠ j) (same : classGroup c.state = classGroup d.state)
    (h : classGroup c.state ≠ .finished) (lap : c.lap = d.lap) (hc : c.last = none) :
    d.last = none ∧ (c.unplaced = d.unplaced → i < j) := by
  rw [classKey_of_unfinished i h, classKey_of_unfinished j (same ▸ h), same, lap, hc, ← not_lt] at le
  simp only [List.cons_lt_cons_iff, lt_irrefl, true_and, false_or, Option.isSome_none, Bool.false_eq_true, if_false, Option.map_none, Option.getD_none] at le
  rw [ne_eq, Fin.ext_iff] at differ
  cases hd : d.last with
  | some y => simp [hd] at le
  | none =>
    refine ⟨rfl, fun flags => ?_⟩
    rw [Fin.lt_def]
    simp [hd, flags] at le
    omega

end

/-! ### The fields of an entry -/

theorem find?_first {α : Type} {p : α → Bool} {xs pre post : List α} {x : α} (split : xs = pre ++ x :: post) (holds : p x = true)
    (first : ∀ y ∈ pre, p y = false) : xs.find? p = some x := by
  rw [split, List.find?_append, List.find?_eq_none.mpr fun y mem => by rw [first y mem]; exact Bool.false_ne_true,
    Option.none_or, List.find?_cons_of_pos holds]

theorem classEntry_finishTime (s : State) (n : Nat) (i : Slot) :
    ((s.car i).state ≠ .finished → (classEntry s n i).finishTime = none)
    ∧ ((∀ x ∈ s.crossings, ¬(x.slot = i ∧ x.lap = s.params.laps + 1)) → (classEntry s n i).finishTime = none)
    ∧ ∀ pre x post, s.crossings = pre ++ x :: post → (x.slot = i ∧ x.lap = s.params.laps + 1) →
      (∀ y ∈ pre, ¬(y.slot = i ∧ y.lap = s.params.laps + 1)) → (s.car i).state = .finished →
      (classEntry s n i).finishTime = some x.time := by
  have time : (classEntry s n i).finishTime = if (s.car i).state = .finished then
      (s.crossings.find? fun x => decide (x.slot = i ∧ x.lap = s.params.laps + 1)).map fun x => x.time else none := by
    simp only [classEntry, classGroup_finished_iff, decide_eq_true_eq]
  refine ⟨fun unfinished => by rw [time, if_neg unfinished], fun none => ?_, fun pre x post split mine first finished => ?_⟩
  · rw [time, List.find?_eq_none.mpr fun x mem => by simpa using none x mem, Option.map_none, ite_self]
  · rw [time, if_pos finished, find?_first split (decide_eq_true mine) fun y mem => decide_eq_false (first y mem)]
    rfl

/-- Settles O40: the enabled slots, each once, in the order of their keys, which compare as R107 says. -/
theorem classificationOrder : Obligations.ClassificationOrder := by
  intro s
  have slots : (classify s).map (fun e => e.slot) = s.classSlots := classEntries_slots s 1 _
  refine ⟨slots ▸ s.classSlots_nodup, fun i => by rw [slots, s.mem_classSlots], classEntries_positions s 1 _, fun e mem => ?entry,
    pairwise_classEntries s 1 (s.classSlots_ordered.imp ?order)⟩
  case entry =>
    obtain ⟨m, i, -, rfl⟩ := eq_classEntry_of_mem s mem
    refine ⟨rfl, rfl, classGroup_finished_iff _, classGroup_out_iff _, rfl, rfl, rfl, ?_, classEntry_finishTime s m i⟩
    simp only [classEntry, classGroup_finished_iff, decide_eq_true_eq]
  case order =>
    intro i j ⟨le, differ⟩ m k
    refine ⟨group_le_of_key_le le, fun same finished => ?_, fun same unfinished =>
      ⟨unfinished_lap_of_key_le le same unfinished, fun lap x y hx hy =>
        unfinished_order_of_key_le le differ same unfinished lap hx hy⟩,
      fun same unfinished lap none => unfinished_order_of_no_sample le differ same unfinished lap none⟩
    have finished' : classGroup (s.car j).state = .finished := same.symm.trans finished
    have placing (n : Nat) (l : Slot) (h : classGroup (s.car l).state = .finished) :
        (classEntry s n l).finishPlacing = (s.car l).finishPlacing := if_pos (decide_eq_true h)
    rw [placing m i finished, placing k j finished']
    exact finished_order_of_key_le le differ finished finished'

/-! ### The times of the crossings (R91) -/

theorem roundDiv_mono {m n : Int} {d : Nat} (positive : 0 < d) (nonneg : 0 ≤ m) (le : m ≤ n) : roundDiv m d ≤ roundDiv n d := by
  rw [roundDiv, if_pos nonneg, roundDiv, if_pos (nonneg.trans le)]
  exact Int.ediv_le_ediv (by omega) (by omega)

theorem timeDiff_addTime (t : RaceTime) {n : Int} (lower : -2 ^ 31 ≤ n) (upper : n < 2 ^ 31) : timeDiff (addTime t n) t = n := by
  have moved : t + BitVec.ofInt 32 n - t = BitVec.ofInt 32 n := by
    rw [BitVec.add_comm, BitVec.add_sub_cancel]
  rw [timeDiff, addTime, moved, BitVec.toInt_ofInt]
  exact Int.bmod_eq_of_le (by omega) (by omega)

theorem timeDiff_lt (a b : RaceTime) : timeDiff a b < 2 ^ 31 := by
  have := BitVec.toInt_lt (x := a - b)
  exact this

section
variable (i : Slot) {L : Nat} {a b : Sample} (k : Nat)

/-- The distance from a sample to the `j`-th line after it. -/
def toLine (L : Nat) (a : Sample) (j : Nat) : Int := (j * L : Int) - a.s

/-- The offset of crossing `j` from the first sample's time, in exact division rounded (R91). -/
def crossingOffset (L : Nat) (a b : Sample) (k j : Nat) : Int :=
  roundDiv (timeDiff b.time a.time * toLine L a j) (toLine L a k + b.s).toNat

theorem crossingAt_time (j : Nat) :
    (crossingAt i L none a b k j).time = addTime a.time (crossingOffset L a b k j) := by
  have distance : (k * L + b.s : Int) - a.s = toLine L a k + b.s := by rw [toLine]; ring
  rw [crossingAt, distance]
  rfl

theorem toLine_mono {j m : Nat} (le : j ≤ m) : toLine L a j ≤ toLine L a m := by
  have scaled : (j * L : Int) ≤ m * L := by exact_mod_cast Nat.mul_le_mul_right L le
  rw [toLine, toLine]
  omega

variable {k} (behind : a.s < L) (order : 0 ≤ timeDiff b.time a.time)
include behind

theorem toLine_pos {j : Nat} (one : 1 ≤ j) : 0 < toLine L a j := by
  have scaled : (L : Int) ≤ j * L := by exact_mod_cast Nat.le_mul_of_pos_left L one
  rw [toLine]
  omega

include order

theorem crossingOffset_mono {j m : Nat} (one : 1 ≤ j) (le : j ≤ m) (within : m ≤ k) :
    crossingOffset L a b k j ≤ crossingOffset L a b k m := by
  have start := toLine_pos behind one
  have way := toLine_mono (a := a) (L := L) (le.trans within)
  exact roundDiv_mono (by omega) (Int.mul_nonneg order start.le) (Int.mul_le_mul_of_nonneg_left (toLine_mono le) order)

theorem crossingOffset_bounds {j : Nat} (one : 1 ≤ j) (le : j ≤ k) :
    0 ≤ crossingOffset L a b k j ∧ crossingOffset L a b k j ≤ timeDiff b.time a.time := by
  have start := toLine_pos behind one
  have way := toLine_mono (a := a) (L := L) le
  have whole : ((toLine L a k + b.s).toNat : Int) = toLine L a k + b.s := Int.toNat_of_nonneg (by omega)
  have positive : 0 < (toLine L a k + b.s).toNat := by omega
  have product := Int.mul_nonneg order start.le
  constructor
  · have zero : roundDiv 0 (toLine L a k + b.s).toNat = 0 := by
      simpa using roundDiv_mul_self 0 positive
    exact zero ▸ roundDiv_mono positive (le_refl 0) product
  · refine (roundDiv_mono positive product (Int.mul_le_mul_of_nonneg_left (show _ ≤ ((toLine L a k + b.s).toNat : Int) by omega) order)).trans
      (le_of_eq ?_)
    rw [Int.mul_comm]
    exact roundDiv_mul_self _ positive

theorem timeDiff_crossingAt {j : Nat} (one : 1 ≤ j) (le : j ≤ k) :
    timeDiff (crossingAt i L none a b k j).time a.time = crossingOffset L a b k j := by
  obtain ⟨lower, upper⟩ := crossingOffset_bounds (k := k) behind order one le
  have small := timeDiff_lt b.time a.time
  rw [crossingAt_time, timeDiff_addTime a.time (by omega) (by omega)]

omit order in
theorem crossingOffset_nearest {j : Nat} (one : 1 ≤ j) (le : j ≤ k) :
    2 * (crossingOffset L a b k j * (toLine L a k + b.s) - timeDiff b.time a.time * toLine L a j).natAbs
      ≤ (toLine L a k + b.s).natAbs := by
  have start := toLine_pos behind one
  have way := toLine_mono (a := a) (L := L) le
  have whole : ((toLine L a k + b.s).toNat : Int) = toLine L a k + b.s := Int.toNat_of_nonneg (by omega)
  have nearest := (roundDiv_nearest (timeDiff b.time a.time * toLine L a j) (d := (toLine L a k + b.s).toNat) (by omega)).1
  rw [whole, ← crossingOffset, Int.mul_comm _ (crossingOffset L a b k j)] at nearest
  rw [← Int.natAbs_neg, Int.neg_sub]
  omega

end

/-- A crossing is moved to T_green exactly when its own time is earlier (R92). -/
theorem crossingAt_green (i : Slot) (L : Nat) (green : Option RaceTime) (a b : Sample) (k j : Nat) :
    let x := crossingAt i L none a b k j
    let y := crossingAt i L green a b k j
    let early : Prop := ∃ g, green = some g ∧ earlier x.time g = true
    (early → some y.time = green ∧ y.jump = true) ∧ (¬early → y.time = x.time ∧ y.jump = false) := by
  intro x y early
  cases green with
  | none => exact ⟨nofun, fun _ => ⟨rfl, rfl⟩⟩
  | some g =>
    have jump : y.jump = earlier x.time g := rfl
    have time : y.time = if earlier x.time g then g else x.time := rfl
    refine ⟨fun ⟨g', same, before⟩ => ?_, fun notEarly => ?_⟩
    · cases same
      exact ⟨by rw [time, if_pos before], by rw [jump, before]⟩
    · have not : earlier x.time g = false := Bool.eq_false_iff.mpr fun before => notEarly ⟨g, rfl, before⟩
      exact ⟨by rw [time, not]; rfl, by rw [jump, not]⟩

theorem mem_foundCrossings (s : State) (i : Slot) (q x : Sample) (c : Crossing) : c ∈ foundCrossings s i q x ↔
    ∃ j, 1 ≤ j ∧ j ≤ x.lap - q.lap ∧ q.lap + j ≤ s.params.laps + 1
      ∧ c = crossingAt i s.params.lapLength s.race.tGreen q x (x.lap - q.lap) j := by
  unfold foundCrossings
  simp only [List.mem_filter, List.mem_map, List.mem_range'_1, decide_eq_true_eq]
  constructor
  · rintro ⟨⟨j, ⟨one, le⟩, rfl⟩, within⟩
    exact ⟨j, one, by omega, within, rfl⟩
  · rintro ⟨j, one, le, within, rfl⟩
    exact ⟨⟨j, ⟨one, by omega⟩, rfl⟩, within⟩

theorem foundCrossings_ordered (s : State) (i : Slot) (q x : Sample) :
    (foundCrossings s i q x).Pairwise fun c d => c.lap < d.lap := by
  refine List.Pairwise.filter _ (List.pairwise_map.mpr ?_)
  exact (List.pairwise_lt_range' 1).imp fun less => Nat.add_lt_add_left less q.lap

section
variable {s : State} {i : Slot}

theorem enterCrossings_of_finished (finished : (s.car i).state = .finished) (q : Option Sample) (x : Sample) :
    enterCrossings i q x s = s := if_pos finished

variable (unfinished : (s.car i).state ≠ .finished)
include unfinished

theorem enterCrossings_first (x : Sample) :
    enterCrossings i none x s = if x.lap = 0 then s else s.setCar i { s.car i with unplaced := true } := if_neg unfinished

theorem enterCrossings_next (q x : Sample) : enterCrossings i (some q) x s = if x.lap ≤ q.lap then s
    else if q.s < s.params.lapLength then (foundCrossings s i q x).foldl enterCrossing s
    else s.setCar i { s.car i with unplaced := true } := if_neg unfinished

end

/-- Settles O39. -/
theorem crossingTimes : Obligations.CrossingTimes := by
  refine ⟨fun i L a b k behind order => ?times, fun i L green a b k j => ?flags,
    fun s i q x => ⟨mem_foundCrossings s i q x, foundCrossings_ordered s i q x⟩, fun s i q x => ⟨fun none => ?none, fun unfinished =>
      ⟨fun unplaced => ?unplaced, fun y prev risen onLap => ?found⟩⟩⟩
  case times =>
    intro x
    refine ⟨fun j one le => ⟨rfl, rfl, ?_⟩, fun j one le => ?_⟩
    · have distance : (k * L + b.s : Int) - a.s = toLine L a k + b.s := by rw [toLine]; ring
      obtain ⟨lower, upper⟩ := crossingOffset_bounds (k := k) behind order one le
      rw [timeDiff_crossingAt i behind order one le, distance]
      exact ⟨lower, upper, crossingOffset_nearest behind one le⟩
    · rw [timeDiff_crossingAt i behind order one (by omega), timeDiff_crossingAt i behind order (by omega) le]
      exact crossingOffset_mono behind order one (Nat.le_succ j) le
  case flags =>
    obtain ⟨moved, kept⟩ := crossingAt_green i L green a b k j
    exact ⟨rfl, rfl, rfl, rfl, decide_eq_true_iff, rfl, moved, kept⟩
  case none =>
    by_cases finished : (s.car i).state = .finished
    · exact enterCrossings_of_finished finished q x
    · rcases none with is | ⟨rfl, zero⟩ | ⟨y, rfl, same⟩
      · exact absurd is finished
      · rw [enterCrossings_first finished, if_pos zero]
      · rw [enterCrossings_next finished, if_pos same]
  case unplaced =>
    rcases unplaced with ⟨rfl, risen⟩ | ⟨y, rfl, risen, beyond⟩
    · rw [enterCrossings_first unfinished, if_neg (by omega)]
    · rw [enterCrossings_next unfinished, if_neg (by omega), if_neg (by omega)]
  case found =>
    rw [prev, enterCrossings_next unfinished, if_neg (by omega), if_pos onLap]

end Sys2Proof.Machine
end

section
/-! PROOFS. The Contact Monitor's windows (R135 to R137), the checks of a seat sample and what a refused one counts (R41 to R48). -/

namespace Sys2Proof.Machine

/-! ### Contact pairs -/

theorem mem_contacts_iff (s : State) (q : Slot × Slot) : s.contacts.contains q = true ↔ q ∈ s.contacts := List.contains_iff_mem

theorem contactTest_of_absent {s : State} {c o : Slot} (g dd : Int) (absent : mkPair c o ∉ s.contacts) :
    contactTest c o g dd s = if g.natAbs ≤ s.params.proxLong ∧ dd.natAbs ≤ s.params.proxLat then
      raiseNow .contactBegin [c, o] { s with contacts := insertByKey pairKey (mkPair c o) s.contacts } else s :=
  if_neg fun present => absent ((mem_contacts_iff s _).mp present)

theorem contactTest_of_present {s : State} {c o : Slot} (g dd : Int) (present : mkPair c o ∈ s.contacts) :
    contactTest c o g dd s
      = if s.params.proxLong + s.params.hyst < g.natAbs ∨ s.params.proxLat + s.params.hyst < dd.natAbs then
        raiseNow .contactEnd [c, o] { s with contacts := s.contacts.filter fun q => decide (q ≠ mkPair c o) } else s :=
  if_pos ((mem_contacts_iff s _).mpr present)

theorem contactOne_of_passed {stored s : State} {c o : Slot} (x : Sample)
    (passed : o = c ∨ ¬((s.car o).state = .live ∨ (s.car o).state = .coasting) ∨ (stored.car o).last = none) :
    contactOne stored c x s o = s := by
  unfold contactOne
  split
  · next tested =>
    obtain ⟨other, present⟩ := tested
    have none : (stored.car o).last = none := by
      rcases passed with same | away | none
      · exact absurd same other
      · exact absurd (of_decide_eq_true present) away
      · exact none
    rw [State.projected, projectCar, none, Option.map_none]
  · rfl

theorem contactOne_of_tested {stored s : State} {c o : Slot} (x : Sample) {y : Sample} (other : o ≠ c)
    (present : (s.car o).state = .live ∨ (s.car o).state = .coasting) (last : (stored.car o).last = some y) :
    contactOne stored c x s o = contactTest c o (gap x.s (projectSample stored.params stored.race y x.time).s s.params.lapLength)
      (x.d - (projectSample stored.params stored.race y x.time).d) s := by
  have tested : o ≠ c ∧ inContactState (s.car o).state = true := ⟨other, decide_eq_true present⟩
  rw [contactOne, if_pos tested, State.projected_of_last (s := stored) (t := x.time) last]

theorem inContactState_iff (st : CarState) : inContactState st = true ↔ st = .live ∨ st = .coasting := decide_eq_true_iff

/-- The state after the event a change of a car's state raises, where it raises one (R40). -/
def State.told (i : Slot) (event : Option EventKind) (s : State) : State := match event with
  | some k => raiseNow k [i] s
  | none => s

theorem changeCar_of_contact {i : Slot} {new : CarRecord} (event : Option EventKind) (s : State)
    (stays : inContactState new.state = true) : changeCar i new event s = (s.setCar i new).told i event := by
  have gone : s.lostPairs i new = [] := if_pos stays
  have put : s.putCar i new = s.setCar i new := by rw [State.putCar, if_pos stays]; rfl
  unfold changeCar
  rw [gone, put]
  rfl

theorem changeCar_of_leaving {i : Slot} {new : CarRecord} (event : Option EventKind) (s : State)
    (leaves : inContactState new.state = false) : changeCar i new event s
      = (s.contacts.filter (pairHolds i)).foldl (fun u c => raiseNow .contactEnd [i, pairOther i c] u)
        (State.told i event { s.setCar i new with contacts := s.contacts.filter fun c => !pairHolds i c }) := by
  have not : ¬inContactState new.state = true := Bool.eq_false_iff.mp leaves
  have gone : s.lostPairs i new = s.contacts.filter (pairHolds i) := if_neg not
  have put : s.putCar i new = { s.setCar i new with contacts := s.contacts.filter fun c => !pairHolds i c } := by
    rw [State.putCar, if_neg not]
  unfold changeCar
  rw [gone, put]
  rfl

/-- Settles O47. -/
theorem contactWindows : Obligations.ContactWindows := by
  refine ⟨fun c o g dd s => ?test, fun stored c x s => ⟨fun away => if_neg away, fun live => if_pos live, fun o =>
    ⟨contactOne_of_passed x, fun y other present last => contactOne_of_tested x other present last⟩⟩, fun i new event s => ?leave⟩
  case test =>
    intro pair inside outside
    refine ⟨fun absent near => ⟨_, fun q => mem_insertByKey pairKey pair q s.contacts, ?_⟩, fun absent far => ?_,
      fun present far => ⟨s.contacts.filter fun q => decide (q ≠ pair), fun q => ?_, ?_⟩, fun present near => ?_⟩
    · exact (contactTest_of_absent g dd absent).trans (if_pos near)
    · exact (contactTest_of_absent g dd absent).trans (if_neg far)
    · rw [List.mem_filter, decide_eq_true_iff, and_comm]
    · exact (contactTest_of_present g dd present).trans (if_pos far)
    · exact (contactTest_of_present g dd present).trans (if_neg near)
  case leave =>
    intro told
    refine ⟨fun stays => changeCar_of_contact event s ((inContactState_iff _).mpr stays), fun h1 h2 => ?_⟩
    have leaves : inContactState new.state = false :=
      Bool.eq_false_iff.mpr fun stays => ((inContactState_iff _).mp stays).elim h1 h2
    have others : (s.contacts.filter fun c => !pairHolds i c) = s.contacts.filter fun c => decide (c.1 ≠ i ∧ c.2 ≠ i) :=
      List.filter_congr fun c _ => by simp [pairHolds]
    intro mine rest
    rw [changeCar_of_leaving event s leaves, others]
    rfl

/-! ### The checks of a seat sample (R42 to R45) -/

section
variable {s : State} {p : PortNo}

theorem State.owner_of_seatSlot {seat : Nat} {i : Slot} (found : s.seatSlot p seat = some i) :
    s.owns p i = true ∧ (s.car i).seat.val = seat := by
  have holds := List.find?_some found
  obtain ⟨owns, same⟩ := Bool.and_eq_true_iff.mp holds
  exact ⟨owns, of_decide_eq_true same⟩

theorem State.seatSlot_eq_none {seat : Nat} (vacant : ∀ i, s.owns p i = true → (s.car i).seat.val ≠ seat) :
    s.seatSlot p seat = none := by
  refine List.find?_eq_none.mpr fun i _ found => ?_
  obtain ⟨owns, same⟩ := Bool.and_eq_true_iff.mp found
  exact vacant i owns (of_decide_eq_true same)

/-- The race state holds a sample back (R43). -/
def State.Holding (s : State) (t : Option RaceTime) : Prop := s.race.state = .hold ∨ s.race.state = .resumePending
  ∨ (s.race.state = .holdPending ∧ ∃ h u, s.race.tH = some h ∧ t = some u ∧ later u h = true)

theorem State.holdsBack_iff (s : State) (t : Option RaceTime) : s.holdsBack t = true ↔ s.Holding t := by
  unfold State.holdsBack State.Holding
  cases s.race.state <;> cases t <;> cases s.race.tH <;> simp

/-- The car's last sample is not earlier than the time (R44). -/
def CarRecord.Stale (c : CarRecord) (u : RaceTime) : Prop := ∃ y, c.last = some y ∧ later u y.time = false

theorem CarRecord.stale_iff (c : CarRecord) (u : RaceTime) : (c.last.any fun y => !later u y.time) = true ↔ c.Stale u := by
  unfold CarRecord.Stale
  cases c.last <;> simp

section
variable {t : Option RaceTime} {x : RawSample} {i : Slot}

theorem State.checkSample_of_noSlot (vacant : s.seatSlot p x.seat = none) : s.checkSample p t x = .error .noSlot := by
  rw [State.checkSample, vacant]

variable (found : s.seatSlot p x.seat = some i)
include found

theorem State.checkSample_of_retired (retired : (s.car i).state = .retired) : s.checkSample p t x = .error .retired := by
  rw [State.checkSample, found]
  exact if_pos retired

variable (racing : (s.car i).state ≠ .retired)
include racing

theorem State.checkSample_of_held (held : s.Holding t) : s.checkSample p t x = .error .held := by
  rw [State.checkSample, found]
  exact (if_neg racing).trans (if_pos ((s.holdsBack_iff t).mpr held))

theorem State.checkSample_of_noTime (free : ¬s.Holding none) : s.checkSample p none x = .error .outOfWindow := by
  rw [State.checkSample, found]
  exact (if_neg racing).trans (if_neg fun held => free ((s.holdsBack_iff none).mp held))

theorem State.checkSample_of_time {u : RaceTime} (free : ¬s.Holding (some u)) : s.checkSample p (some u) x
    = match s.fieldRefusal (s.car i) u x with
      | some e => .error e
      | none => .ok (i, u) := by
  rw [State.checkSample, found]
  exact (if_neg racing).trans (if_neg fun held => free ((s.holdsBack_iff (some u)).mp held))

end

/-- The race is being set up (R45). -/
def RaceState.Setup (r : RaceState) : Prop := r = .idle ∨ r = .grid

theorem lapRefusal_eq_none_iff (r : RaceState) (last lap : Nat) : lapRefusal r last lap = none ↔
    (r.Setup → lap = 0) ∧ (¬r.Setup → last ≤ lap ∧ lap ≤ last + 3) := by
  unfold lapRefusal RaceState.Setup
  split_ifs <;> simp_all

theorem State.fieldRefusal_of_stale {c : CarRecord} {u : RaceTime} (x : RawSample) (stale : c.Stale u) :
    s.fieldRefusal c u x = some .stale := if_pos ((c.stale_iff u).mpr stale)

theorem State.fieldRefusal_of_badPosition {c : CarRecord} {u : RaceTime} {x : RawSample} (later : ¬c.Stale u)
    (off : s.params.lapLength ≤ x.s) : s.fieldRefusal c u x = some .badPosition :=
  (if_neg fun stale => later ((c.stale_iff u).mp stale)).trans (if_pos off)

theorem State.fieldRefusal_of_onLap {c : CarRecord} {u : RaceTime} {x : RawSample} (later : ¬c.Stale u)
    (on : x.s < s.params.lapLength) : s.fieldRefusal c u x = lapRefusal s.race.state c.lap x.lap :=
  (if_neg fun stale => later ((c.stale_iff u).mp stale)).trans (if_neg (Nat.not_le.mpr on))

theorem State.fieldRefusal_eq_none_iff (c : CarRecord) (u : RaceTime) (x : RawSample) : s.fieldRefusal c u x = none ↔
    ¬c.Stale u ∧ x.s < s.params.lapLength ∧ lapRefusal s.race.state c.lap x.lap = none := by
  by_cases stale : c.Stale u
  · simp [State.fieldRefusal_of_stale x stale, stale]
  · by_cases on : x.s < s.params.lapLength
    · simp [State.fieldRefusal_of_onLap stale on, stale, on]
    · simp [State.fieldRefusal_of_badPosition stale (Nat.not_lt.mp on), on]

theorem State.checkSample_eq_ok_iff (t : Option RaceTime) (x : RawSample) (i : Slot) (u : RaceTime) :
    s.checkSample p t x = .ok (i, u) ↔ s.seatSlot p x.seat = some i ∧ (s.car i).state ≠ .retired ∧ ¬s.Holding t ∧ t = some u
      ∧ s.fieldRefusal (s.car i) u x = none := by
  constructor
  · intro ok
    cases found : s.seatSlot p x.seat with
    | none => rw [State.checkSample_of_noSlot found] at ok; cases ok
    | some j =>
      by_cases retired : (s.car j).state = .retired
      · rw [State.checkSample_of_retired found retired] at ok; cases ok
      · by_cases held : s.Holding t
        · rw [State.checkSample_of_held found retired held] at ok; cases ok
        · cases t with
          | none => rw [State.checkSample_of_noTime found retired held] at ok; cases ok
          | some v =>
            rw [State.checkSample_of_time found retired held] at ok
            cases refusal : s.fieldRefusal (s.car j) v x with
            | some e => simp only [refusal] at ok; cases ok
            | none =>
              simp only [refusal] at ok
              cases ok
              exact ⟨rfl, retired, held, rfl, refusal⟩
  · rintro ⟨found, racing, free, rfl, passes⟩
    rw [State.checkSample_of_time found racing free, passes]

/-- Settles O20: each check by itself, in the order they are made. -/
theorem sampleChecks : Obligations.SampleChecks := by
  intro s p t x setup held
  refine ⟨fun i u => ?passes, fun i found => State.owner_of_seatSlot found,
    fun vacant => State.checkSample_of_noSlot (State.seatSlot_eq_none vacant), fun i found =>
    ⟨State.checkSample_of_retired found, State.checkSample_of_held found, fun racing free =>
      ⟨fun none => ?outOfWindow, fun u time => ?fields⟩⟩⟩
  case passes =>
    rw [State.checkSample_eq_ok_iff, State.fieldRefusal_eq_none_iff, lapRefusal_eq_none_iff]
    have fresh : ¬(s.car i).Stale u ↔ ∀ y, (s.car i).last = some y → later u y.time = true := by
      simp [CarRecord.Stale]
    have notHeld (time : t = some u) : ¬s.Holding t ↔ s.race.state ≠ .hold ∧ s.race.state ≠ .resumePending
        ∧ (s.race.state = .holdPending → ∀ h, s.race.tH = some h → later u h = false) := by
      simp [State.Holding, time]
    have outside : ¬s.race.state.Setup ↔ s.race.state ≠ .idle ∧ s.race.state ≠ .grid := not_or
    rw [outside, fresh]
    constructor
    · rintro ⟨found, racing, free, time, later, on, lap⟩
      obtain ⟨h1, h2, h3⟩ := (notHeld time).mp free
      exact ⟨found, racing, h1, h2, h3, time, later, on, lap⟩
    · rintro ⟨found, racing, h1, h2, h3, time, later, on, lap⟩
      exact ⟨found, racing, (notHeld time).mpr ⟨h1, h2, h3⟩, time, later, on, lap⟩
  case outOfWindow =>
    subst none
    exact State.checkSample_of_noTime found racing free
  case fields =>
    subst time
    have check := State.checkSample_of_time (x := x) found racing free
    intro stale
    refine ⟨fun is => ?_, fun fresh off => ?_, fun fresh on => ⟨fun set lap => ?_, fun racing lap => ?_, fun racing lap => ?_⟩⟩
    · rw [check, State.fieldRefusal_of_stale x is]
    · rw [check, State.fieldRefusal_of_badPosition fresh off]
    · rw [check, State.fieldRefusal_of_onLap fresh on, lapRefusal, if_pos set, if_neg lap]
    · rw [check, State.fieldRefusal_of_onLap fresh on, lapRefusal, if_neg racing, if_pos lap]
    · rw [check, State.fieldRefusal_of_onLap fresh on, lapRefusal, if_neg racing, if_neg (by omega), if_pos lap]

end

/-! ### Refused samples (R48) -/

theorem State.checkSample_congr {s t : State} (cars : t.cars = s.cars) (race : t.race = s.race) (params : t.params = s.params)
    (p : PortNo) (u : Option RaceTime) (x : RawSample) : t.checkSample p u x = s.checkSample p u x := by
  have car (i : Slot) : t.car i = s.car i := State.car_congr cars i
  have slot : t.seatSlot p x.seat = s.seatSlot p x.seat := by
    simp only [State.seatSlot, State.owns_congr cars, car]
  have back : t.holdsBack u = s.holdsBack u := by
    unfold State.holdsBack
    rw [race]
  have fields (c : CarRecord) (v : RaceTime) : t.fieldRefusal c v x = s.fieldRefusal c v x := by
    rw [State.fieldRefusal, State.fieldRefusal, race, params]
  rw [State.checkSample, State.checkSample, slot]
  simp only [car, back, fields]

theorem countRefusal_comm (k : PortCounters) (e e' : SampleRefusal) :
    countRefusal (countRefusal k e) e' = countRefusal (countRefusal k e') e := by
  cases e <;> cases e' <;> rfl

theorem takeSample_of_refused {p : PortNo} {u : Option RaceTime} {acc : State × Bool} {x : RawSample} {e : SampleRefusal}
    (refused : acc.1.checkSample p u x = .error e) :
    takeSample p u acc x = (acc.1.count p fun k => countRefusal k e, acc.2) := by
  rw [takeSample, refused]

/-- Samples that are all refused only count, each under its reason. -/
theorem takeSamples_of_refused {p : PortNo} {u : Option RaceTime} (xs : List (RawSample × SampleRefusal)) {s : State}
    (refused : ∀ x ∈ xs, s.checkSample p u x.1 = .error x.2) : (xs.map Prod.fst).foldl (takeSample p u) (s, false)
      = (s.count p fun k => (xs.map Prod.snd).foldl countRefusal k, false) := by
  induction xs generalizing s with
  | nil => exact Prod.ext (State.modPort_congr (g := id) rfl |>.trans (State.setPort_port s p)).symm rfl
  | cons x xs ih =>
    obtain ⟨x, e⟩ := x
    have first : takeSample p u (s, false) x = (s.count p fun k => countRefusal k e, false) :=
      takeSample_of_refused (refused (x, e) (List.mem_cons_self ..))
    have rest : ∀ y ∈ xs, (s.count p fun k => countRefusal k e).checkSample p u y.1 = .error y.2 := fun y mem => by
      rw [State.checkSample_congr (s := s) (t := s.count p fun k => countRefusal k e) rfl rfl rfl]
      exact refused y (List.mem_cons_of_mem _ mem)
    rw [List.map_cons, List.foldl_cons, first, ih rest, State.count_eq_modPort, State.count_eq_modPort, State.modPort_modPort]
    rfl

theorem insertByKey_two {α : Type} (key : α → List Int) (x y : α) : sortByKey key [x, y] = [x, y] ∨ sortByKey key [x, y] = [y, x] := by
  have sorted : sortByKey key [x, y] = if lexLt (key y) (key x) then [y, x] else [x, y] := rfl
  rw [sorted]
  split
  · exact .inr rfl
  · exact .inl rfl

theorem takeRequest_none (p : PortNo) (named : PortPhase) (s : State) : takeRequest p named .none s = s := ite_self s

section
variable {p : PortNo} {stamp : RaceTime} {payload : List Byte} {s : State}

/-- The frame number of a CAR frame (R192). -/
def carFrame (payload : List Byte) : FrameNum := BitVec.ofNat 16 (beNat (field payload 0 2))

theorem receiveCar_of_taken {count : Byte} (taken : (s.port p).phase = .rate ∨ (s.port p).phase = .active)
    (fits : carFits count payload = true) :
    receiveCar p stamp count payload s = takeCarFrame p stamp payload (s.heardCar p stamp) := by
  have phase : ((s.heardCar p stamp).port p).phase = (s.port p).phase := by rw [State.heardCar, State.port_modPort_self]; rfl
  rw [receiveCar]
  simp only [countValid_gateCar, phase]
  rcases taken with is | is <;> rw [is] <;> exact if_pos fits

/-- What the timing of the frame comes to, in the port's state as it stands (R18). -/
def State.carOutcome (s : State) (p : PortNo) (active : Bool) (stamp : RaceTime) (payload : List Byte) : TimingOutcome :=
  timeFrame active (s.port p).entry (s.timing p) (carFrame payload) stamp

/-- A CAR frame of an ACTIVE port whose samples are refused and which asks nothing of the Link Port (R41, R48). -/
theorem receiveCar_of_refused {count : Byte} (xs : List (RawSample × SampleRefusal)) (active : (s.port p).phase = .active)
    (fits : carFits count payload = true) (samples : frameSamples payload = xs.map Prod.fst)
    (refused : ∀ x ∈ xs, s.checkSample p (forward (s.timing p) (carFrame payload)) x.1 = .error x.2)
    (asks : (s.carOutcome p true stamp payload).request = .none) (hit : (s.carOutcome p true stamp payload).missed = false) :
    receiveCar p stamp count payload s = s.modPort p fun q => { q with
      gateCar := true, linkBase := q.linkBase.map fun _ => stamp, timing := (s.carOutcome p true stamp payload).record,
      counters := (xs.map Prod.snd).foldl countRefusal { q.counters with framesRx := bump q.counters.framesRx } } := by
  have port : (s.heardCar p stamp).port p = { (s.port p).heard stamp with gateCar := true } := State.port_modPort_self ..
  have still : ((s.heardCar p stamp).port p).phase = .active := by rw [port]; exact active
  have outcome : timeFrame true ((s.heardCar p stamp).port p).entry ((s.heardCar p stamp).port p).timing (carFrame payload) stamp
      = s.carOutcome p true stamp payload := by rw [port]; rfl
  have mark : (s.heardCar p stamp).timing p = s.timing p := by rw [State.timing, port]; rfl
  have taken : takeSamples p (carFrame payload) (frameSamples payload) (s.heardCar p stamp)
      = (s.heardCar p stamp).count p fun k => (xs.map Prod.snd).foldl countRefusal k := by
    rw [takeSamples, samples, mark, takeSamples_of_refused xs fun x mem => by
      rw [State.checkSample_congr (s := s) (t := s.heardCar p stamp) rfl rfl rfl]
      exact refused x mem]
    rfl
  rw [receiveCar_of_taken (.inr active) fits, takeCarFrame]
  simp only [still, decide_true, if_true]
  rw [← carFrame, outcome, hit, if_neg Bool.false_ne_true, taken, asks, takeRequest_none, State.count_eq_modPort,
    State.heardCar, State.modPort_modPort, State.modPort_modPort]
  rfl

end

/-- Settles O22: refused samples leave everything but the port's counters, whatever their order. -/
theorem sampleRefused : Obligations.SampleRefused := by
  refine ⟨fun p stamp payload e s => ?one, fun p stamp payload e e' s => ?two,
    fun k => ⟨rfl, rfl, rfl, rfl, rfl, rfl, rfl, rfl, rfl⟩⟩
  case one =>
    intro f o active long refused asks hit
    have samples : frameSamples payload = [rawSample (field payload 2 14)] := if_pos (by omega)
    exact congrArg _ (receiveCar_of_refused [(_, e)] active (decide_eq_true (.inl ⟨long, rfl⟩)) samples
      (List.forall_mem_singleton.mpr refused) asks hit)
  case two =>
    intro f o active long refused refused' asks hit
    have fits : carFits 2 payload = true := decide_eq_true (.inr ⟨long, rfl⟩)
    have samples : frameSamples payload = sortByKey (fun x => [(x.seat : Int)]) [rawSample (field payload 2 14),
      rawSample (field payload 16 14)] := if_neg (by omega)
    rcases insertByKey_two (fun x : RawSample => [(x.seat : Int)]) (rawSample (field payload 2 14))
      (rawSample (field payload 16 14)) with order | order
    · exact congrArg _ (receiveCar_of_refused [(_, e), (_, e')] active fits (samples.trans order)
        (List.forall_mem_cons.mpr ⟨refused, List.forall_mem_singleton.mpr refused'⟩) asks hit)
    · refine congrArg _ ((receiveCar_of_refused [(_, e'), (_, e)] active fits (samples.trans order)
        (List.forall_mem_cons.mpr ⟨refused', List.forall_mem_singleton.mpr refused⟩) asks hit).trans (State.modPort_congr ?_))
      simp only [List.map_cons, List.map_nil, List.foldl_cons, List.foldl_nil]
      rw [countRefusal_comm _ e' e]
      rfl

end Sys2Proof.Machine
end

section
/-! PROOFS. Training and sweeps (R8 to R13, R156 to R160): the frames of class 1, rounds, echoes and the decision of a sweep. -/

namespace Sys2Proof.Machine

/-! ### Class 1 (R168, R169) -/

section
variable {s : State} {p : PortNo}

theorem admitsTraining_iff (ph : PortPhase) : admitsTraining ph = true ↔ ph = .down ∨ ph = .train ∨ ph = .phase :=
  decide_eq_true_iff

theorem State.offerTraining_of_room (b : FrameBody) (admits : admitsTraining (s.port p).phase = true)
    (room : (s.port p).class1.length < 64) : s.offerTraining p b
      = (s.modPort p fun q => { q with class1 := q.class1 ++ [s.mkFrame p b] }).arbiterTake p :=
  if_pos (by rw [admits, Bool.true_and]; exact decide_eq_true room)

theorem State.offerTraining_of_busy (b : FrameBody) (admits : admitsTraining (s.port p).phase = true)
    (room : (s.port p).class1.length < 64) (busy : (s.port p).wire.isSome = true) : s.offerTraining p b
      = s.modPort p fun q => { q with class1 := q.class1 ++ [s.mkFrame p b] } := by
  rw [State.offerTraining_of_room b admits room]
  exact arbiterTake_busy (by rw [State.port_modPort_self]; exact busy)

theorem State.offerTraining_of_idle (b : FrameBody) (admits : admitsTraining (s.port p).phase = true)
    (idle : (s.port p).wire = none) (empty : (s.port p).class1 = []) :
    s.offerTraining p b = s.setPort p ((s.port p).sending s.clock (s.mkFrame p b)) := by
  have same : { s.port p with class1 := [] } = s.port p := by rw [← empty]
  rw [State.offerTraining_of_room b admits (by rw [empty]; decide),
    State.arbiterTake_of_idle (f := s.mkFrame p b) (q := { s.port p with class1 := [] })
      (by rw [State.port_modPort_self]; exact idle)
      ((State.chooseFrame_class1 (rest := []) (by rw [State.port_modPort_self, empty]; rfl)).trans
        (by rw [State.port_modPort_self])), same, State.modPort, State.setPort_setPort]
  rfl

end

/-! ### The TRAIN frames of a port (R156, R157) -/

/-- What the offer of a TRAIN frame reads of the state before it. -/
structure SameLine (p : PortNo) (s t : State) : Prop where
  clock : t.clock = s.clock
  wire : (t.port p).wire = (s.port p).wire
  class1 : (t.port p).class1 = (s.port p).class1
  entry : (t.port p).entry = (s.port p).entry

theorem SameLine.trainFrameQueued {p : PortNo} {f : TrainFrame} {s u t : State} (h : SameLine p s u)
    (frame : u.mkFrame p (.train f.index f.bytes) = s.mkFrame p (.train f.index f.bytes)) (queued : TrainFrameQueued p f u t) :
    TrainFrameQueued p f s t := by
  unfold TrainFrameQueued at queued ⊢
  rwa [h.wire, h.class1, h.clock, h.entry, frame] at queued

theorem SameLine.firstProbeQueued {p : PortNo} {k : Nat} {s u t : State} (h : SameLine p s u) (queued : FirstProbeQueued p k u t) :
    FirstProbeQueued p k s t := by
  unfold FirstProbeQueued at queued ⊢
  rwa [h.wire, h.class1, h.clock, h.entry] at queued

section
variable {s : State} {p : PortNo}

theorem SameLine.modPort {f : Port → Port} (wire : (f (s.port p)).wire = (s.port p).wire)
    (class1 : (f (s.port p)).class1 = (s.port p).class1) (entry : (f (s.port p)).entry = (s.port p).entry) :
    SameLine p s (s.modPort p f) where
  clock := rfl
  wire := by rw [State.port_modPort_self, wire]
  class1 := by rw [State.port_modPort_self, class1]
  entry := by rw [State.port_modPort_self, entry]

theorem offerTraining_trainQueued (f : TrainFrame) (admits : admitsTraining (s.port p).phase = true) :
    TrainFrameQueued p f s (s.offerTraining p (.train f.index f.bytes)) := by
  refine ⟨fun busy room => ?_, fun idle empty => ?_⟩
  · rw [State.offerTraining_of_busy _ admits room busy, State.port_modPort_self]
    exact ⟨rfl, rfl⟩
  · rw [State.offerTraining_of_idle _ admits idle empty, State.port_setPort_self, Port.sending_train _ _ rfl]
    exact ⟨empty, rfl⟩

/-- The frames of a round still to be echoed are put down, before the first is queued (R157). -/
def State.roundOpen (s : State) (p : PortNo) (todo : List TrainFrame) : State :=
  s.modPort p fun q => { q with training := .round todo none }

theorem sendTrain_cons (p : PortNo) (f : TrainFrame) (rest : List TrainFrame) (s : State) :
    sendTrain p (f :: rest) s = (s.roundOpen p (f :: rest)).offerTraining p (.train f.index f.bytes) := rfl

theorem State.roundOpen_port (todo : List TrainFrame) : (s.roundOpen p todo).port p = { s.port p with training := .round todo none } :=
  State.port_modPort_self ..

section
variable (todo : List TrainFrame) (train : (s.port p).phase = .train)
include train

theorem State.roundOpen_admits : admitsTraining ((s.roundOpen p todo).port p).phase = true := by
  rw [State.roundOpen_port, admitsTraining_iff]
  exact .inr (.inl train)

theorem sendTrain_queued (f : TrainFrame) (rest : List TrainFrame) : TrainFrameQueued p f s (sendTrain p (f :: rest) s) := by
  have same : SameLine p s (s.roundOpen p (f :: rest)) := .modPort rfl rfl rfl
  exact same.trainFrameQueued (State.mkFrame_modPort (f := fun q => { q with training := .round (f :: rest) none }) rfl p _)
    (offerTraining_trainQueued f (State.roundOpen_admits _ train))

/-- The first frame of a round on a line with nothing before it awaits its echo from now where the line is idle (R157). -/
theorem sendTrain_training (f : TrainFrame) (rest : List TrainFrame) (empty : (s.port p).class1 = []) :
    ((sendTrain p (f :: rest) s).port p).training
      = .round (f :: rest) (if (s.port p).wire.isSome then none else some s.clock) := by
  have admits := State.roundOpen_admits (f :: rest) train
  have empty' : ((s.roundOpen p (f :: rest)).port p).class1 = [] := by rw [State.roundOpen_port]; exact empty
  rw [sendTrain_cons]
  cases wire : (s.port p).wire with
  | some w =>
    rw [State.offerTraining_of_busy _ admits (by rw [empty']; decide) (by rw [State.roundOpen_port, wire]; rfl),
      State.port_modPort_self, State.roundOpen_port]
    rfl
  | none =>
    rw [State.offerTraining_of_idle _ admits (by rw [State.roundOpen_port]; exact wire) empty', State.port_setPort_self,
      Port.sending_train _ _ rfl, State.roundOpen_port]
    rfl

end

theorem offerTraining_link (p r : PortNo) (b : FrameBody) (s : State) : SameLink (s.port r) ((s.offerTraining p b).port r) :=
  (offerTraining_effect ..).link r

theorem SameLink.echoValues {q r : Port} (h : SameLink q r) : r.timing.echoValues = q.timing.echoValues := by
  have same := congrArg TimingRecord.echoValues h.record
  exact same

theorem sendTrain_link (p : PortNo) (todo : List TrainFrame) (s : State) :
    ((sendTrain p todo s).port p).phase = (s.port p).phase
      ∧ ((sendTrain p todo s).timing p).echoValues = (s.timing p).echoValues := by
  cases todo with
  | nil =>
    have opened : sendTrain p [] s = s.roundOpen p [] := rfl
    rw [opened, State.timing, State.roundOpen_port]
    exact ⟨rfl, rfl⟩
  | cons f rest =>
    have link := offerTraining_link p p (.train f.index f.bytes) (s.roundOpen p (f :: rest))
    rw [sendTrain_cons, link.phase, State.timing, link.echoValues, State.roundOpen_port]
    exact ⟨rfl, rfl⟩

end

/-! ### The patterns that are sent (R157, R163) -/

theorem roundFrames_eq (ps : Vector Pattern 4) : roundFrames ps =
    if (([0, 1, 2, 3] : List (Fin 4)).filter fun i => ps[i].enabled) = [] then List.replicate 4 ⟨0, ps[0].bytes⟩
    else (([0, 1, 2, 3] : List (Fin 4)).filter fun i => ps[i].enabled).flatMap fun i => List.replicate 4 ⟨i, ps[i].bytes⟩ := by
  simp only [roundFrames, List.isEmpty_iff]
  rfl

theorem roundFrames_ne_nil (ps : Vector Pattern 4) : ∃ f rest, roundFrames ps = f :: rest := by
  rw [roundFrames_eq]
  split
  · exact ⟨_, _, rfl⟩
  · next some =>
    obtain ⟨i, rest, on⟩ := List.exists_cons_of_ne_nil some
    rw [on]
    exact ⟨_, _, rfl⟩

theorem flatMap_filter {α β : Type} (p : α → Bool) (f : α → List β) (xs : List α) :
    (xs.filter p).flatMap f = xs.flatMap fun x => if p x then f x else [] := by
  induction xs with
  | nil => rfl
  | cons x xs ih =>
    rw [List.flatMap_cons, ← ih, List.filter_cons]
    split
    · rw [List.flatMap_cons]
    · rw [List.nil_append]

theorem patternsSent (ps : Vector Pattern 4) :
    let frame (n : Fin 4) : TrainFrame := ⟨n, ps[n].bytes⟩
    let four (n : Fin 4) : List TrainFrame := if ps[n].enabled then [frame n, frame n, frame n, frame n] else []
    (∀ n : Fin 4, ps[n].enabled = true → (∀ m < n, ps[m].enabled = false) → invitationPattern ps = frame n)
    ∧ ((∀ n : Fin 4, ps[n].enabled = false) → invitationPattern ps = frame 0
      ∧ roundFrames ps = [frame 0, frame 0, frame 0, frame 0])
    ∧ ((∃ n : Fin 4, ps[n].enabled = true) → roundFrames ps = four 0 ++ four 1 ++ four 2 ++ four 3) := by
  intro frame four
  have invitation : invitationPattern ps = if ps[(0 : Fin 4)].enabled then frame 0 else if ps[(1 : Fin 4)].enabled then frame 1
    else if ps[(2 : Fin 4)].enabled then frame 2 else if ps[(3 : Fin 4)].enabled then frame 3 else frame 0 := rfl
  refine ⟨fun n on off => ?_, fun off => ⟨?_, ?_⟩, fun ⟨n, on⟩ => ?_⟩
  · rw [invitation]
    match n with
    | 0 => rw [if_pos on]
    | 1 => rw [off 0 (by decide), on]; rfl
    | 2 => rw [off 0 (by decide), off 1 (by decide), on]; rfl
    | 3 => rw [off 0 (by decide), off 1 (by decide), off 2 (by decide), on]; rfl
  · rw [invitation, off 0, off 1, off 2, off 3]
    rfl
  · rw [roundFrames_eq, if_pos (List.filter_eq_nil_iff.mpr fun n _ => by rw [off n]; exact Bool.false_ne_true)]
    rfl
  · have some : (([0, 1, 2, 3] : List (Fin 4)).filter fun i => ps[i].enabled) ≠ [] := fun empty =>
      List.filter_eq_nil_iff.mp empty n (by fin_cases n <;> simp) on
    rw [roundFrames_eq, if_neg some, flatMap_filter]
    simp only [List.flatMap_cons, List.flatMap_nil, List.append_nil, ← List.append_assoc]
    rfl

/-! ### Probes (R10) -/

section
variable {s : State} {p : PortNo}

/-- The open sweep of a port is put down before its next PROBE is queued (R10). -/
def State.withSweep (s : State) (p : PortNo) (w : Sweep) : State :=
  s.modPort p fun q => { q with timing := { q.timing with sweep := some w } }

theorem State.withSweep_port (w : Sweep) :
    (s.withSweep p w).port p = { s.port p with timing := { (s.port p).timing with sweep := some w } } := State.port_modPort_self ..

theorem State.withSweep_mkFrame (w : Sweep) (b : FrameBody) : (s.withSweep p w).mkFrame p b = s.mkFrame p b :=
  State.mkFrame_modPort (f := fun q => { q with timing := { q.timing with sweep := some w } }) rfl p b

theorem SameLine.withSweep (w : Sweep) : SameLine p s (s.withSweep p w) := .modPort rfl rfl rfl

section
variable (w : Sweep) (index : Nat) (phase : (s.port p).phase = .phase)
include phase

theorem State.withSweep_admits : admitsTraining ((s.withSweep p w).port p).phase = true := by
  rw [State.withSweep_port, admitsTraining_iff]
  exact .inr (.inr phase)

theorem offerProbe_of_busy (busy : (s.port p).wire.isSome = true) (room : (s.port p).class1.length < 64) :
    ((s.withSweep p w).offerTraining p (.probe index)).port p = { s.port p with
      timing := { (s.port p).timing with sweep := some w }
      class1 := (s.port p).class1 ++ [s.mkFrame p (.probe index)] } := by
  rw [State.offerTraining_of_busy _ (State.withSweep_admits w phase) (by rw [State.withSweep_port]; exact room)
    (by rw [State.withSweep_port]; exact busy), State.port_modPort_self, State.withSweep_port, State.withSweep_mkFrame]

theorem offerProbe_of_idle (idle : (s.port p).wire = none) (empty : (s.port p).class1 = []) :
    ((s.withSweep p w).offerTraining p (.probe index)).port p = { s.port p with
      timing := { (s.port p).timing with sweep := some { w with sent := w.sent ++ [s.clock] } }
      wire := some { frame := s.mkFrame p (.probe index), sent := s.clock, rate := (s.port p).entry.linkRate } } := by
  rw [State.offerTraining_of_idle _ (State.withSweep_admits w phase) (by rw [State.withSweep_port]; exact idle)
    (by rw [State.withSweep_port]; exact empty), State.port_setPort_self, Port.sending_probe _ _ rfl, State.withSweep_port,
    State.withSweep_mkFrame]
  rfl

theorem offerProbe_queued (fresh : w.sent = []) :
    FirstProbeQueued p index s ((s.withSweep p w).offerTraining p (.probe index)) := by
  have frame : ((s.withSweep p w).offerTraining p (.probe index)).mkFrame p (.probe index) = s.mkFrame p (.probe index) :=
    ((offerTraining_effect ..).race.mkFrame p _).trans (State.withSweep_mkFrame w _)
  refine ⟨fun busy room => ?_, fun idle empty => ?_⟩
  · rw [frame, State.timing, offerProbe_of_busy w index phase busy room]
    refine ⟨rfl, rfl, fun v is => ?_⟩
    cases is
    exact fresh
  · rw [frame, State.timing, offerProbe_of_idle w index phase idle empty]
    refine ⟨empty, rfl, fun v is => ?_⟩
    cases is
    exact congrArg (· ++ [s.clock]) fresh

end

/-! ### What the sending of a frame stamps (R10, R157) -/

/-- A frame may have been sent at `now`: a round that awaits nothing awaits its echo, or the sweep has noted a send time. -/
structure Stamped (now : RaceTime) (q r : Port) : Prop where
  training : r.training = q.training ∨ ∃ todo, q.training = .round todo none ∧ r.training = .round todo (some now)
  sweep : r.timing.sweep = q.timing.sweep
    ∨ ∃ w, q.timing.sweep = some w ∧ r.timing.sweep = some { w with sent := w.sent ++ [now] }

theorem Stamped.congr {now : RaceTime} {q q' r : Port} (h : Stamped now q r) (training : q.training = q'.training)
    (sweep : q.timing.sweep = q'.timing.sweep) : Stamped now q' r :=
  ⟨training ▸ h.training, sweep ▸ h.sweep⟩

theorem stampSent_stamped (now : RaceTime) (f : HubFrame) (q : Port) : Stamped now q (stampSent now f q) := by
  unfold stampSent
  split
  · split
    · next todo awaits => exact ⟨.inr ⟨todo, awaits, rfl⟩, .inl rfl⟩
    · exact ⟨.inl rfl, .inl rfl⟩
  · split
    · next w sweep => exact ⟨.inl rfl, .inr ⟨w, sweep, rfl⟩⟩
    · exact ⟨.inl rfl, .inl rfl⟩
  · exact ⟨.inl rfl, .inl rfl⟩

/-- The choice of a frame leaves what sending it stamps. -/
theorem chooseFrame_stamps {f : HubFrame} {q : Port} (choice : s.chooseFrame p = some (f, q)) :
    q.training = (s.port p).training ∧ q.timing = (s.port p).timing := by
  unfold State.chooseFrame at choice
  simp only at choice
  repeat' split at choice
  all_goals cases choice
  all_goals exact ⟨rfl, rfl⟩

theorem arbiterTake_stamped (s : State) (p : PortNo) : Stamped s.clock (s.port p) ((s.arbiterTake p).port p) := by
  unfold State.arbiterTake
  split
  · exact ⟨.inl rfl, .inl rfl⟩
  · split
    · next f q choice =>
      obtain ⟨training, timing⟩ := chooseFrame_stamps choice
      rw [State.port_setPort_self]
      exact (stampSent_stamped ..).congr training (congrArg TimingRecord.sweep timing)
    · exact ⟨.inl rfl, .inl rfl⟩

theorem offerTraining_stamped (s : State) (p : PortNo) (b : FrameBody) :
    Stamped s.clock (s.port p) ((s.offerTraining p b).port p) := by
  unfold State.offerTraining
  split
  · exact (arbiterTake_stamped ..).congr
      (q := (s.modPort p fun q => { q with class1 := q.class1 ++ [s.mkFrame p b] }).port p)
      (by rw [State.port_modPort_self]) (by rw [State.port_modPort_self])
  · exact ⟨.inl rfl, .inl rfl⟩

/-- The sweep a PROBE is offered for stays open, but for a send time (R10). -/
theorem offerProbe_sweep (w : Sweep) (index : Nat) : ∃ v,
    (((s.withSweep p w).offerTraining p (.probe index)).timing p).sweep = some v ∧ v.queued = w.queued
      ∧ v.number = w.number ∧ v.answers = w.answers := by
  obtain ⟨-, same | ⟨v, was, is⟩⟩ := offerTraining_stamped (s.withSweep p w) p (.probe index)
  · rw [State.withSweep_port] at same
    exact ⟨w, same, rfl, rfl, rfl⟩
  · rw [State.withSweep_port] at was
    cases was
    exact ⟨_, is, rfl, rfl, rfl⟩

theorem startSweep_eq (p : PortNo) (n : Nat) (s : State) : startSweep p n s
    = (s.withSweep p { number := n, queued := 1, sent := [], answers := .replicate 64 none }).offerTraining p
        (.probe (64 * (n - 1))) := rfl

/-- The opening of a sweep (R10, R13, R159). -/
theorem startSweep_opens (n : Nat) (phase : (s.port p).phase = .phase) : ∃ v, ((startSweep p n s).port p).phase = .phase
    ∧ ((startSweep p n s).timing p).sweep = some v ∧ v.number = n ∧ v.queued = 1 ∧ v.answers = .replicate 64 none
    ∧ FirstProbeQueued p (64 * (n - 1)) s (startSweep p n s) := by
  rw [startSweep_eq]
  obtain ⟨v, sweep, queued, number, answers⟩ := offerProbe_sweep (s := s) (p := p)
    { number := n, queued := 1, sent := [], answers := .replicate 64 none } (64 * (n - 1))
  have link := offerTraining_link p p (.probe (64 * (n - 1)))
    (s.withSweep p { number := n, queued := 1, sent := [], answers := .replicate 64 none })
  have kept : ((s.withSweep p { number := n, queued := 1, sent := [], answers := .replicate 64 none }).port p).phase = .phase := by
    rw [State.withSweep_port, phase]
  exact ⟨v, link.phase.trans kept, sweep, number, queued, answers, offerProbe_queued _ _ phase rfl⟩

theorem startSweep_keeps (n : Nat) : ((startSweep p n s).timing p).delta = (s.timing p).delta
    ∧ ((startSweep p n s).timing p).echoValues = (s.timing p).echoValues
    ∧ ((s.port p).training = .none → ((startSweep p n s).port p).training = .none) := by
  rw [startSweep_eq]
  have link := offerTraining_link p p (.probe (64 * (n - 1)))
    (s.withSweep p { number := n, queued := 1, sent := [], answers := .replicate 64 none })
  obtain ⟨training, -⟩ := offerTraining_stamped
    (s.withSweep p { number := n, queued := 1, sent := [], answers := .replicate 64 none }) p (.probe (64 * (n - 1)))
  have delta := congrArg TimingRecord.delta link.record
  have echoes := link.echoValues
  rw [State.withSweep_port] at training delta echoes
  refine ⟨delta, echoes, fun none => ?_⟩
  obtain same | ⟨todo, was, -⟩ := training
  · exact same.trans none
  · exact nomatch none.symm.trans was

end

/-! ### The timers of an untrained link (R10, R156, R157) -/

section
variable {s : State} {p : PortNo} {d : RaceTime}

theorem exec_trainInvitation (down : (s.port p).phase = .down) (next : (s.port p).nextInvite = some d)
    (due : atOrAfter s.clock d = true) : exec (.trainInvitation p) s = .next (invite p s) := by
  have is : s.inviteDue p = true := by
    rw [State.inviteDue, down, next]
    exact due
  exact congrArg Host.Outcome.next (if_pos is)

theorem exec_trainingPauseEnd (train : (s.port p).phase = .train) (pause : (s.port p).training = .pause d)
    (due : atOrAfter s.clock d = true) : exec (.trainingPauseEnd p) s = .next (startRound p s) := by
  have is : s.pauseDue p = true := by
    rw [State.pauseDue, train, pause]
    exact due
  exact congrArg Host.Outcome.next (if_pos is)

theorem exec_probeDue {w : Sweep} (phase : (s.port p).phase = .phase) (sweep : (s.timing p).sweep = some w)
    (first : w.sent.head? = some d) (more : w.queued < 64)
    (due : atOrAfter s.clock (addTime d (w.queued * (roundDiv (s.timing p).pNom 16384).toNat : Nat)) = true) :
    exec (.probeDue p) s = .next (queueProbe p w s) := by
  have is : s.dueProbe p = some w := by
    rw [State.dueProbe, if_pos phase]
    simp only [sweep, first]
    exact if_pos ⟨more, due⟩
  have step : exec (.probeDue p) s = .next (match s.dueProbe p with | some w => queueProbe p w s | none => s) := rfl
  rw [step, is]

theorem invite_eq (p : PortNo) (s : State) : invite p s =
    (s.modPort p fun q => { q with nextInvite := some (addTime s.clock 10000) }).offerTraining p
      (.train (invitationPattern s.patterns).index (invitationPattern s.patterns).bytes) := rfl

theorem invite_invites (down : (s.port p).phase = .down) : ((invite p s).port p).phase = .down
    ∧ ((invite p s).port p).nextInvite = some (addTime s.clock 10000)
    ∧ TrainFrameQueued p (invitationPattern s.patterns) s (invite p s) := by
  have same : SameLine p s (s.modPort p fun q => { q with nextInvite := some (addTime s.clock 10000) }) := .modPort rfl rfl rfl
  have port := State.port_modPort_self s p fun q => { q with nextInvite := some (addTime s.clock 10000) }
  have link := offerTraining_link p p (.train (invitationPattern s.patterns).index (invitationPattern s.patterns).bytes)
    (s.modPort p fun q => { q with nextInvite := some (addTime s.clock 10000) })
  rw [invite_eq]
  refine ⟨link.phase.trans (by rw [port, down]), link.nextInvite.trans (by rw [port]),
    same.trainFrameQueued (State.mkFrame_modPort
      (f := fun q => { q with nextInvite := some (addTime s.clock 10000) }) rfl p _)
      (offerTraining_trainQueued _ ((admitsTraining_iff _).mpr (.inl ?_)))⟩
  rw [port, down]

/-- A round begins without echo values (R157). -/
def State.noEchoes (s : State) (p : PortNo) : State :=
  s.modPort p fun q => { q with timing := { q.timing with echoValues := [] } }

theorem State.noEchoes_port (s : State) (p : PortNo) : (s.noEchoes p).port p
    = { s.port p with timing := { (s.port p).timing with echoValues := [] } } := State.port_modPort_self ..

theorem startRound_eq (p : PortNo) (s : State) : startRound p s = sendTrain p (roundFrames s.patterns) (s.noEchoes p) := rfl

theorem startRound_begins (train : (s.port p).phase = .train) : ((startRound p s).port p).phase = .train
    ∧ ((startRound p s).timing p).echoValues = []
    ∧ ((s.port p).class1 = [] → ((startRound p s).port p).training
        = .round (roundFrames s.patterns) (if (s.port p).wire.isSome then none else some s.clock))
    ∧ ∀ f, (roundFrames s.patterns).head? = some f → TrainFrameQueued p f s (startRound p s) := by
  obtain ⟨f, rest, frames⟩ := roundFrames_ne_nil s.patterns
  obtain ⟨phase, echoes⟩ := sendTrain_link p (roundFrames s.patterns) (s.noEchoes p)
  have train' : ((s.noEchoes p).port p).phase = .train := by rw [State.noEchoes_port, train]
  have same : SameLine p s (s.noEchoes p) := .modPort rfl rfl rfl
  rw [startRound_eq]
  refine ⟨phase.trans train', echoes.trans (by rw [State.timing, State.noEchoes_port]), fun empty => ?_, fun g first => ?_⟩
  · have training := sendTrain_training (s := s.noEchoes p) train' f rest (by rw [State.noEchoes_port, empty])
    rw [frames, training, State.noEchoes_port]
    rfl
  · rw [frames] at first ⊢
    cases first
    exact same.trainFrameQueued (State.mkFrame_modPort
      (f := fun q => { q with timing := { q.timing with echoValues := [] } }) rfl p _) (sendTrain_queued train' f rest)

theorem queueProbe_eq (p : PortNo) (w : Sweep) (s : State) : queueProbe p w s
    = (s.withSweep p { w with queued := w.queued + 1 }).offerTraining p (.probe (64 * (w.number - 1) + w.queued)) := rfl

theorem queueProbe_queues (w : Sweep) (phase : (s.port p).phase = .phase) :
    let t := queueProbe p w s
    let x := s.mkFrame p (.probe (64 * (w.number - 1) + w.queued))
    ∃ v, (t.timing p).sweep = some v ∧ v.queued = w.queued + 1 ∧ v.number = w.number ∧ v.answers = w.answers
      ∧ ((s.port p).wire.isSome = true → (s.port p).class1.length < 64 →
        (t.port p).class1 = (s.port p).class1 ++ [x] ∧ (t.port p).wire = (s.port p).wire ∧ v.sent = w.sent)
      ∧ ((s.port p).wire = none → (s.port p).class1 = [] →
        (t.port p).class1 = [] ∧ v.sent = w.sent ++ [s.clock]
          ∧ (t.port p).wire = some { frame := x, sent := s.clock, rate := (s.port p).entry.linkRate }) := by
  intro t x
  obtain ⟨v, sweep, queued, number, answers⟩ := offerProbe_sweep (s := s) (p := p) { w with queued := w.queued + 1 }
    (64 * (w.number - 1) + w.queued)
  refine ⟨v, sweep, queued, number, answers, fun busy room => ?_, fun idle empty => ?_⟩
  · have port := offerProbe_of_busy { w with queued := w.queued + 1 } (64 * (w.number - 1) + w.queued) phase busy room
    rw [State.timing, port] at sweep
    cases sweep
    have class1 := congrArg Port.class1 port
    have wire := congrArg Port.wire port
    exact ⟨class1, wire, rfl⟩
  · have port := offerProbe_of_idle { w with queued := w.queued + 1 } (64 * (w.number - 1) + w.queued) phase idle empty
    rw [State.timing, port] at sweep
    cases sweep
    have class1 := congrArg Port.class1 port
    have wire := congrArg Port.wire port
    exact ⟨class1.trans empty, rfl, wire⟩

end

/-- Settles O19, by the offer of a class 1 frame to a busy and to an idle line. -/
theorem trainingTimers : Obligations.TrainingTimers := by
  refine ⟨patternsSent, fun p s d => ⟨fun down next due => ?_, fun train pause due => ?_, fun w phase sweep first more due => ?_⟩⟩
  · exact ⟨_, exec_trainInvitation down next due, invite_invites down⟩
  · exact ⟨_, exec_trainingPauseEnd train pause due, startRound_begins train⟩
  · obtain ⟨v, queued⟩ := queueProbe_queues w phase
    exact ⟨_, v, exec_probeDue phase sweep first more due, queued⟩

/-! ### A good echo (R8, R9, R157 to R159) -/

section
variable {s : State} {p : PortNo}

theorem countValid_sameLine (stamp : RaceTime) : SameLine p s (countValid p stamp s) := .modPort rfl rfl rfl

theorem SameLine.trans {s t u : State} (h : SameLine p s t) (k : SameLine p t u) : SameLine p s u :=
  ⟨k.clock.trans h.clock, k.wire.trans h.wire, k.class1.trans h.class1, k.entry.trans h.entry⟩

theorem exec_trainEcho_of_train {payload : List Byte} (stamp : RaceTime) (train : (s.port p).phase = .train)
    (fits : payload.length = 19) : exec (.trainEcho p stamp payload) s = .next (roundEcho p stamp (beNat (field payload 0 1))
      (field payload 1 16) (beNat (field payload 17 2)) (countValid p stamp s)) := by
  have phase : ((countValid p stamp s).port p).phase = .train := (countValid_phase p p stamp s).trans train
  have step : exec (.trainEcho p stamp payload) s = .next (receiveTrainEcho p stamp payload s) := rfl
  rw [step, receiveTrainEcho, phase]
  simp only [fits, decide_true, if_true]

theorem roundEcho_of_good {f : TrainFrame} {rest : List TrainFrame} {sent : RaceTime} (stamp : RaceTime) (turnaround : Nat)
    (training : (s.port p).training = .round (f :: rest) (some sent)) :
    roundEcho p stamp f.index.val f.bytes turnaround s = goodEcho p (echoValue stamp sent turnaround) rest s := by
  rw [roundEcho, training]
  exact if_pos ⟨rfl, rfl⟩

/-- The echo value is gathered, before the next frame of the round is sent (R8). -/
def State.withEchoes (s : State) (p : PortNo) (values : List Nat) : State :=
  s.modPort p fun q => { q with timing := { q.timing with echoValues := values } }

theorem State.withEchoes_port (values : List Nat) : (s.withEchoes p values).port p
    = { s.port p with timing := { (s.port p).timing with echoValues := values } } := State.port_modPort_self ..

theorem goodEcho_cons (value : Nat) (g : TrainFrame) (more : List TrainFrame) :
    goodEcho p value (g :: more) s = sendTrain p (g :: more) (s.withEchoes p ((s.timing p).echoValues ++ [value])) := rfl

theorem goodEcho_goes_on (value : Nat) (g : TrainFrame) (more : List TrainFrame) (train : (s.port p).phase = .train) :
    let t := goodEcho p value (g :: more) s
    (t.port p).phase = .train ∧ (t.timing p).echoValues = (s.timing p).echoValues ++ [value]
      ∧ ((s.port p).class1 = [] →
          (t.port p).training = .round (g :: more) (if (s.port p).wire.isSome then none else some s.clock))
      ∧ TrainFrameQueued p g s t := by
  intro t
  have same : SameLine p s (s.withEchoes p ((s.timing p).echoValues ++ [value])) := .modPort rfl rfl rfl
  have train' : ((s.withEchoes p ((s.timing p).echoValues ++ [value])).port p).phase = .train := by
    rw [State.withEchoes_port, train]
  obtain ⟨phase, echoes⟩ := sendTrain_link p (g :: more) (s.withEchoes p ((s.timing p).echoValues ++ [value]))
  refine ⟨phase.trans train', echoes.trans (by rw [State.timing, State.withEchoes_port]), fun empty => ?_,
    same.trainFrameQueued (State.mkFrame_modPort
      (f := fun q => { q with timing := { q.timing with echoValues := (s.timing p).echoValues ++ [value] } }) rfl p _)
      (sendTrain_queued train' g more)⟩
  have training := sendTrain_training train' g more (by rw [State.withEchoes_port, empty])
  rw [State.withEchoes_port] at training
  exact training

/-- The link delay is set and the echo values go, before the port enters PHASE (R9, R159). -/
def State.withDelay (s : State) (p : PortNo) (δ : Nat) : State :=
  s.modPort p fun q => { q with phase := .phase, training := .none, timing := { q.timing with delta := δ, echoValues := [] } }

theorem State.withDelay_port (δ : Nat) : (s.withDelay p δ).port p = { s.port p with
    phase := .phase, training := .none, timing := { (s.port p).timing with delta := δ, echoValues := [] } } :=
  State.port_modPort_self ..

theorem changePhase_of_not_active {ph : PortPhase} (not : (s.port p).phase ≠ .active) :
    changePhase p ph s = s.modPort p fun q => { q with phase := ph } :=
  if_neg fun active => not ((State.isActive_iff ..).mp active)

theorem goodEcho_nil (value : Nat) (train : (s.port p).phase = .train) :
    goodEcho p value [] s = startSweep p 1 (s.withDelay p (linkDelay ((s.timing p).echoValues ++ [value]))) := by
  rw [goodEcho, if_pos List.isEmpty_nil, enterPhase, changePhase_of_not_active (by rw [State.port_modPort_self, train]; decide),
    State.modPort_modPort, State.modPort_modPort]
  rfl

theorem goodEcho_last (value : Nat) (train : (s.port p).phase = .train) :
    let t := goodEcho p value [] s
    let values := (s.timing p).echoValues ++ [value]
    (t.port p).phase = .phase ∧ (t.timing p).echoValues = [] ∧ (t.timing p).delta = values.sum / (2 * values.length)
      ∧ (t.port p).training = .none ∧ FirstProbeQueued p 0 s t
      ∧ ∃ w, (t.timing p).sweep = some w ∧ w.number = 1 ∧ w.queued = 1 ∧ w.answers = Vector.replicate 64 none := by
  intro t values
  have eq : t = startSweep p 1 (s.withDelay p (linkDelay values)) := goodEcho_nil value train
  have same : SameLine p s (s.withDelay p (linkDelay values)) := .modPort rfl rfl rfl
  obtain ⟨v, phase, sweep, number, queued, answers, probe⟩ := startSweep_opens 1
    (s := s.withDelay p (linkDelay values)) (p := p) (by rw [State.withDelay_port])
  obtain ⟨delta, echoes, training⟩ := startSweep_keeps (s := s.withDelay p (linkDelay values)) (p := p) 1
  have record : (s.withDelay p (linkDelay values)).timing p = _ := congrArg Port.timing (State.withDelay_port (p := p) _)
  rw [record] at delta echoes
  rw [eq]
  exact ⟨phase, echoes, delta, training (by rw [State.withDelay_port]), same.firstProbeQueued probe, v, sweep, number, queued, answers⟩

end

/-- Settles O15, by whether frames of the round are left. -/
theorem goodEchoAdvancesRound : Obligations.GoodEchoAdvancesRound := by
  intro p stamp sent payload f rest s train training fits index bytes
  have phase : ((countValid p stamp s).port p).phase = .train := (countValid_phase p p stamp s).trans train
  have port := State.port_modPort_self s p (·.heard stamp)
  have round : ((countValid p stamp s).port p).training = .round (f :: rest) (some sent) := by
    rw [countValid_eq, port]
    exact training
  have same : SameLine p s (countValid p stamp s) := countValid_sameLine stamp
  have echoValues : ((countValid p stamp s).timing p).echoValues = (s.timing p).echoValues := by
    rw [State.timing, countValid_eq, port]
    rfl
  refine ⟨_, exec_trainEcho_of_train stamp train fits, ?_⟩
  rw [index, bytes, roundEcho_of_good stamp _ round]
  refine ⟨fun more => ?_, fun last => ?_⟩
  · obtain ⟨g, rest', rfl⟩ := List.exists_cons_of_ne_nil more
    obtain ⟨phase, echoes, training, queued⟩ := goodEcho_goes_on (echoValue stamp sent (beNat (field payload 17 2))) g rest' phase
    rw [echoValues] at echoes
    rw [same.class1, same.wire] at training
    refine ⟨phase, echoes, training, fun g' more' is => ?_⟩
    cases is
    exact same.trainFrameQueued (State.mkFrame_modPort rfl p _) queued
  · subst last
    obtain ⟨phase, echoes, delta, training, probe, sweep⟩ := goodEcho_last (echoValue stamp sent (beNat (field payload 17 2))) phase
    rw [echoValues] at delta
    exact ⟨phase, echoes, delta, training, same.firstProbeQueued probe, sweep⟩

end Sys2Proof.Machine
end

section
/-! PROOFS. The Management Unit and the rows that are due: the Command Queue (R175), MOVE_DIRECTOR (R174), the hub reset (R187) and the idle step. -/

namespace Sys2Proof.Machine

/-! ### MGMT (R175) -/

section
variable {s : State} {p : PortNo} {tag : Byte} {payload : List Byte}

theorem receiveMgmt_of_taken (stamp : RaceTime) (admits : (s.port p).phase = .active ∨ (s.port p).phase = .quiet)
    (some : 1 ≤ payload.length) (most : payload.length ≤ 124) :
    receiveMgmt p stamp tag payload s = offerCommand p tag payload (countValid p stamp s) := by
  have fits : decide (1 ≤ payload.length ∧ payload.length ≤ 124) = true := decide_eq_true ⟨some, most⟩
  unfold receiveMgmt
  obtain phase | phase := admits <;> simp only [countValid_phase, phase, fits, if_true]

theorem offerCommand_of_room (room : s.mgmt.queue.length < 4) : offerCommand p tag payload s = { s with
    mgmt := { s.mgmt with queue := s.mgmt.queue ++ [{ sender := p, tag := tag, payload := payload }] } } := if_pos room

theorem useFree_mgmt (s : State) : s.useFree.mgmt = s.mgmt := rfl

theorem commandByte_mgmt (payload : List Byte) (n : Nat) (s : State) : (commandByte payload n s).2.mgmt = s.mgmt := by
  unfold commandByte
  split
  · rfl
  · exact useFree_mgmt s

theorem writeData_mgmt (payload : List Byte) (n : Nat) (s : State) : (writeData payload n s).2.mgmt = s.mgmt :=
  (commandByte_mgmt ..).trans (commandByte_mgmt ..)

/-- A command that finds the queue full counts under CMD_BUSY (R175). -/
def State.countBusy (s : State) : State := { s with mgmt := { s.mgmt with cmdBusy := bump s.mgmt.cmdBusy } }

theorem offerCommand_of_full (full : 4 ≤ s.mgmt.queue.length) (plain : payload.head? ≠ some 0x11) :
    offerCommand p tag payload s = s.countBusy.offerReply p tag (payload.headD 0) .busy [] := by
  have code : payload.headD 0 ≠ 0x11 := by
    rw [List.headD_eq_head?_getD]
    cases head : payload.head? with
    | none => decide
    | some b => exact fun same => plain (head.trans (congrArg _ same))
  unfold offerCommand
  rw [if_neg (Nat.not_lt.mpr full)]
  exact if_neg code

theorem offerCommand_mgmt (full : 4 ≤ s.mgmt.queue.length) :
    (offerCommand p tag payload s).mgmt = { s.mgmt with cmdBusy := bump s.mgmt.cmdBusy } := by
  unfold offerCommand
  rw [if_neg (Nat.not_lt.mpr full)]
  simp only
  split
  · exact (offerReply_effect ..).mgmt.trans (writeData_mgmt ..)
  · exact (offerReply_effect ..).mgmt

end

/-- Settles O31, by whether the Command Queue has room. -/
theorem mgmtQueued : Obligations.MgmtQueued := by
  intro p stamp tag payload s admits some most
  have runs : exec (.mgmt p stamp tag payload) s = .next (offerCommand p tag payload (countValid p stamp s)) :=
    congrArg Host.Outcome.next (receiveMgmt_of_taken stamp admits some most)
  refine ⟨fun room => runs.trans (congrArg _ (offerCommand_of_room (s := countValid p stamp s) room)), fun full => ?_⟩
  have mgmt := offerCommand_mgmt (s := countValid p stamp s) (p := p) (tag := tag) (payload := payload) full
  have queue := congrArg MgmtRecord.queue mgmt
  have busy := congrArg MgmtRecord.cmdBusy mgmt
  exact ⟨_, runs, queue, busy,
    fun plain => offerCommand_of_full (s := countValid p stamp s) full plain⟩

/-! ### MOVE_DIRECTOR (R174) -/

section
variable {s : State} {c : Command} {p : PortNo}

theorem exec_moveDirector (asks : s.asks c [0x41, portByte p]) : exec .moveDirector s = .next
    (if s.isActive p then if p = c.sender then answer c .ok [] s.dropHead else moveRole c p s.dropHead
      else answer c .state [] s.dropHead) := by
  obtain ⟨head, payload, director⟩ := asks
  have role : s.dropHead.holdsRole c.sender = true := director
  have runs : exec .moveDirector s = .next (onHead (codeIs 0x41) _ s) := rfl
  rw [runs, onHead_of_code head (by rw [payload]; rfl)]
  simp only [role, payload, numAt_param, portOf_portByte, if_true, List.length_cons, List.length_nil]
  rfl

theorem holdsRole_iff : s.holdsRole p = true ↔ s.mgmt.director = some p ∧ (s.port p).phase = .active := by
  rw [State.holdsRole, decide_eq_true_iff, State.roleHolder]
  cases s.mgmt.director with
  | none => simp
  | some d =>
    simp only [Option.some.injEq, ← State.isActive_iff]
    constructor
    · intro is
      split at is
      · next active => cases is; exact ⟨rfl, active⟩
      · exact nomatch is
    · rintro ⟨rfl, active⟩
      exact if_pos active

theorem offerReply_other (s : State) {p r : PortNo} (tag code : Byte) (st : Status) (d : List Byte) (other : r ≠ p) :
    (s.offerReply p tag code st d).port r = s.port r := by
  unfold State.offerReply
  split
  · exact offered_other s _ other
  · rfl

/-- The role is written before the reply is queued (R174). -/
def State.withDirector (s : State) (p : PortNo) : State := { s with mgmt := { s.mgmt with director := some p } }

theorem moveRole_eq (c : Command) (p : PortNo) (s : State) : moveRole c p s
    = ((answer c .ok [] (s.withDirector p)).offerNotice p (.directorMoved (some c.sender) .move)).discardCommands c.sender := rfl

/-- What the move of the role leaves, and whose commands it discards (R174). -/
structure RoleMoved (c : Command) (p : PortNo) (s t : State) : Prop where
  director : t.mgmt.director = some p
  queue : t.mgmt.queue = s.mgmt.queue.filter fun d => decide (d.sender ≠ c.sender)
  phase : ∀ r, (t.port r).phase = (s.port r).phase
  race : t.race = s.race
  cars : t.cars = s.cars

@[simp] theorem State.offerReply_race (s : State) (p : PortNo) (tag code : Byte) (st : Status) (d : List Byte) :
    (s.offerReply p tag code st d).race = s.race := by
  unfold State.offerReply
  split
  · rw [State.arbiterTake_race, State.modPort_race]
  · rfl

@[simp] theorem State.offerNotice_race (s : State) (p : PortNo) (n : Notice) : (s.offerNotice p n).race = s.race := by
  unfold State.offerNotice
  split
  · rw [State.arbiterTake_race, State.modPort_race]
  · rfl

theorem moveRole_moved (c : Command) (p : PortNo) (s : State) : RoleMoved c p s (moveRole c p s) := by
  have effect : RouteEffect (s.withDirector p)
      ((answer c .ok [] (s.withDirector p)).offerNotice p (.directorMoved (some c.sender) .move)) :=
    (answer_effect ..).trans (offerNotice_effect ..)
  have race : ((answer c .ok [] (s.withDirector p)).offerNotice p (.directorMoved (some c.sender) .move)).race = s.race :=
    (State.offerNotice_race ..).trans (State.offerReply_race ..)
  rw [moveRole_eq]
  exact ⟨congrArg MgmtRecord.director effect.mgmt,
    congrArg (fun m => m.queue.filter fun d => decide (d.sender ≠ c.sender)) effect.mgmt,
    fun r => (effect.link r).phase, race, effect.cars⟩

theorem moveRole_reply (payload : c.payload.headD 0 = 0x41) (role : s.holdsRole c.sender = true) (ne : p ≠ c.sender)
    (busy : (s.port c.sender).wire.isSome = true) (room : (s.port c.sender).replies.length < 16) :
    ∃ f, ((moveRole c p s).port c.sender).outbox = (s.port c.sender).outbox ++ [f] ∧ f.body = .reply 0x41 .ok [] := by
  have admits : admitsReplies ((s.withDirector p).port c.sender).phase = true :=
    (admitsReplies_iff _).mpr (.inl (holdsRole_iff.mp role).2)
  have port : ((moveRole c p s).port c.sender) = ((answer c .ok [] (s.withDirector p)).port c.sender) :=
    State.offerNotice_other _ _ ne.symm
  rw [port, answer, payload, State.offerReply_of_busy (s.withDirector p) c.sender c.tag 0x41 .ok [] admits room busy,
    State.port_modPort_self]
  exact ⟨_, rfl, rfl⟩

theorem moveRole_notice (active : (s.port p).phase = .active) (ne : p ≠ c.sender)
    (busy : (s.port p).wire.isSome = true) (room : (s.port p).notices.length < 16) :
    ∃ f, ((moveRole c p s).port p).outbox = (s.port p).outbox ++ [f] ∧ f.body = .notice (.directorMoved (some c.sender) .move) := by
  have kept : (answer c .ok [] (s.withDirector p)).port p = s.port p := offerReply_other _ _ _ _ _ ne
  have told : (moveRole c p s).port p
      = ((answer c .ok [] (s.withDirector p)).offerNotice p (.directorMoved (some c.sender) .move)).port p := rfl
  rw [told, State.offerNotice_of_busy _ (by rw [kept]; exact (admitsReplies_iff _).mpr (.inl active)) (by rw [kept]; exact room)
    (by rw [kept]; exact busy), State.port_modPort_self, kept]
  exact ⟨_, rfl, rfl⟩

end

/-- Settles O59. -/
theorem directorMoved : Obligations.DirectorMoved := by
  intro s c p asks
  obtain ⟨head, payload, role⟩ := asks
  have runs := exec_moveDirector ⟨head, payload, role⟩
  have isActive : s.isActive p = true ↔ (s.port p).phase = .active := State.isActive_iff s p
  refine ⟨fun inactive => ?_, fun active same => ?_, fun active ne => ?_⟩
  · rwa [if_neg fun is => inactive (isActive.mp is)] at runs
  · rwa [if_pos (isActive.mpr active), if_pos same] at runs
  rw [if_pos (isActive.mpr active), if_neg ne] at runs
  have moved := moveRole_moved c p s.dropHead
  exact ⟨_, runs, moved.director, holdsRole_iff.mpr ⟨moved.director, (moved.phase p).trans active⟩, moved.queue, moved.race,
    moved.cars, moveRole_reply (s := s.dropHead) (by rw [payload]; rfl) role ne, moveRole_notice (s := s.dropHead) active ne⟩

/-! ### The hub reset (R187) -/

theorem hubReset_port (s : State) (p : PortNo) :
    (hubReset s).port p = resetPort p ((s.port p).wire.map (rebase s.clock)) (s.port p).lineRate := perPort_get ..

theorem hubReset_clearsAll (s : State) : AfterHubReset s (hubReset s) where
  clock := rfl
  params := rfl
  race := rfl
  cars := State.car_reset
  crossings := rfl
  laps := lap_of_emptyLapTable rfl
  classification := rfl
  crossingLost := rfl
  contacts := rfl
  routes := rfl
  patterns := rfl
  mgmt := rfl
  phase p := by rw [hubReset_port]; rfl
  entry p := by rw [hubReset_port]; rfl
  viewOrder p := by rw [hubReset_port]; rfl
  timing p := by rw [hubReset_port]; rfl
  gates p := by rw [hubReset_port]; exact ⟨rfl, rfl⟩
  counters p := by rw [hubReset_port]; rfl
  waiting p := by rw [hubReset_port]; exact ⟨rfl, rfl, rfl, rfl, rfl⟩
  timers p := by rw [hubReset_port]; exact ⟨rfl, rfl, rfl⟩
  idleLine p idle := by rw [hubReset_port, idle]; exact ⟨rfl, rfl⟩
  busyLine p w busy := by rw [hubReset_port, busy]; exact ⟨⟨_, rfl, rfl, rfl⟩, rfl⟩

theorem resetDue_of_pending {s : State} {d : RaceTime} (pending : s.mgmt.resetPending = some d) :
    s.resetDue = (atOrAfter s.clock d || !s.resetReplyWaits) := by
  simp only [State.resetDue, pending]

/-- Settles O8. -/
theorem hubResetClearsAll : Obligations.HubResetClearsAll := by
  intro s
  refine ⟨⟨_, rfl, ?_, rfl⟩, fun low => congrArg _ (if_pos low), fun high => congrArg _ (if_neg (by rw [high]; decide)),
    fun c asks => exec_alone_of_eq (fun _ => rfl) asks rfl, fun none => congrArg _ (if_neg ?_), fun d pending => ⟨fun ⟨early, waits⟩ => ?_,
      fun due => ⟨hubReset s, congrArg _ (if_pos ?_), hubReset_clearsAll s, rfl⟩⟩⟩
  · exact { hubReset_clearsAll s with }
  · simp only [State.resetDue, none, Bool.false_eq_true, not_false_eq_true]
  · refine congrArg _ (if_neg ?_)
    rw [resetDue_of_pending pending, early, waits]
    decide
  · rw [resetDue_of_pending pending]
    obtain reached | answered := due
    · rw [reached]; rfl
    · rw [answered, Bool.not_false, Bool.or_true]

/-! ### The rows that are due -/

section
variable {s : State}

theorem mem_dueIf {b : Bool} {c d : Instr} : c ∈ dueIf b d ↔ b = true ∧ c = d := by
  unfold dueIf
  split
  · next is => simp [is]
  · next is => simp [is]

theorem State.reached_iff (d : Option RaceTime) : s.reached d = true ↔ Reached s d := by
  cases d with
  | none => exact ⟨nofun, fun ⟨_, is, _⟩ => nomatch is⟩
  | some t => exact ⟨fun reached => ⟨t, rfl, reached⟩, fun ⟨_, is, reached⟩ => Option.some.inj is ▸ reached⟩

theorem State.passed_iff (d : Option RaceTime) : s.passed d = true ↔ Expired s d := by
  cases d with
  | none => exact ⟨nofun, fun ⟨_, is, _⟩ => nomatch is⟩
  | some t => exact ⟨fun passed => ⟨t, rfl, passed⟩, fun ⟨_, is, passed⟩ => Option.some.inj is ▸ passed⟩

theorem State.mem_raceLaps (k : Nat) : k ∈ s.raceLaps ↔ 1 ≤ k ∧ k ≤ s.params.laps + 1 := by
  rw [State.raceLaps, List.mem_range'_1]
  omega

theorem mem_dueCommand {c : Instr} : c ∈ dueCommand s ↔ ∃ d, s.head = some d ∧ c = commandRow d := by
  unfold dueCommand
  split
  · next d head => simp [head]
  · next head => simp [head]

theorem mem_duePort {c : Instr} {p : PortNo} : c ∈ duePort s p ↔
    (s.wireDue p = true ∧ c = .transmitEnd p) ∨ (s.rateDue p = true ∧ c = .linkRateChangeOnLine p)
    ∨ (s.inviteDue p = true ∧ c = .trainInvitation p) ∨ (s.pauseDue p = true ∧ c = .trainingPauseEnd p)
    ∨ (s.echoDue p = true ∧ c = .echoWaitExpiry p) ∨ ((s.dueProbe p).isSome = true ∧ c = .probeDue p)
    ∨ ((s.overdueSweep p).isSome = true ∧ c = .sweepReplyWaitExpiry p) ∨ (s.paceDue p = true ∧ c = .paceTimerExpiry p)
    ∨ (s.lossDue p = true ∧ c = .linkLoss p) := by
  simp only [duePort, List.mem_append, mem_dueIf, or_assoc]

theorem mem_dueRace {c : Instr} : c ∈ dueRace s ↔
    (s.greenDue = true ∧ c = .tGreenExpiry) ∨ ((s.holdReached = true ∧ s.allAcked = true) ∧ c = .tHExpiry)
    ∨ (s.holdOverdue = true ∧ c = .holdTimeout) ∨ (s.resumeDue = true ∧ c = .tRExpiry)
    ∨ (s.graceDue = true ∧ c = .graceDeadlineExpiry) := by
  simp only [dueRace, List.mem_append, mem_dueIf, or_assoc, Bool.and_eq_true]

theorem mem_dueRows {c : Instr} : c ∈ dueRows s ↔ (∃ p, c ∈ duePort s p)
    ∨ (∃ i, (s.coastDue i = true ∧ c = .coastTimerExpiry i) ∨ (s.loseDue i = true ∧ c = .loseTimerExpiry i))
    ∨ (∃ k ∈ s.raceLaps, s.settleDue k = true ∧ c = .settleDeadlineExpiry k) ∨ c ∈ dueRace s
    ∨ (∃ d, s.head = some d ∧ c = commandRow d) ∨ (s.resetDue = true ∧ c = .hubResetTakesEffect) := by
  simp only [dueRows, dueCar, List.mem_append, List.mem_flatMap, mem_dueIf, or_assoc, mem_dueCommand, mem_allPorts, mem_allSlots,
    true_and]

end

/-- The row takes the head of the Command Queue: its code, where it takes one alone (R177, R196). -/
def codeOfRow : Instr → Option (Option Byte)
  | .unknownCommand => some none
  | .readStatus => some (some 0x01)
  | .readPort => some (some 0x02)
  | .clearCounters => some (some 0x03)
  | .readEntries => some (some 0x10)
  | .writeCarAssignment | .writeRaceParameters | .writePortTable | .writeViewOrderLists | .writeEventRouteTable
  | .writeTrainingPatterns | .writeNoAccessTable => some (some 0x11)
  | .scan => some (some 0x12)
  | .portReset => some (some 0x20)
  | .portQuiet => some (some 0x21)
  | .portWake => some (some 0x22)
  | .sendView => some (some 0x23)
  | .openGrid => some (some 0x30)
  | .start => some (some 0x31)
  | .abortStart => some (some 0x32)
  | .hold => some (some 0x33)
  | .resume => some (some 0x34)
  | .close => some (some 0x35)
  | .resetRace => some (some 0x36)
  | .retireCar => some (some 0x40)
  | .moveDirector => some (some 0x41)
  | .resetHub => some (some 0x42)
  | _ => none

theorem codeOfRow_codeRows : ∀ r ∈ codeRows, codeOfRow r.2 = some (some r.1) := by decide

theorem codeOfRow_writeRow (c : Command) : codeOfRow (writeRow c) = some (some 0x11) := by
  unfold writeRow
  split <;> rfl

/-- The row of a command has the command's code, or is that of the unknown ones (R177). -/
theorem codeOfRow_commandRow (c : Command) : codeOfRow (commandRow c)
    = some (if c.payload.headD 0 ∈ knownCodes then some (c.payload.headD 0) else none) := by
  unfold commandRow
  simp only
  split
  · next write =>
    rw [codeOfRow_writeRow, write]
    rfl
  · next noWrite =>
    split
    · next r found =>
      have code : r.1 = c.payload.headD 0 := by simpa using List.find?_some found
      have listed := List.mem_of_find?_eq_some found
      rw [codeOfRow_codeRows r listed, code, if_pos (code ▸ codeRows_known r listed)]
    · next missing =>
      have unknown : c.payload.headD 0 ∉ knownCodes := fun known =>
        have all : ∀ b ∈ knownCodes, b = 0x11 ∨ ∃ r ∈ codeRows, r.1 = b := by decide
        (all _ known).elim noWrite fun ⟨r, listed, is⟩ =>
          absurd (decide_eq_true is) (List.find?_eq_none.mp missing r listed)
      rw [if_neg unknown]
      rfl

section
variable {s : State} {c : Instr}

theorem headD_known (bs : List Byte) : bs.headD 0 ∈ knownCodes ↔ ∃ b ∈ knownCodes, bs.head? = some b := by
  cases bs with
  | nil => simp [knownCodes]
  | cons b bs => simp

/-- A row of no command is due through its own condition. -/
theorem not_dueCommand (own : codeOfRow c = none) : (∃ d, s.head = some d ∧ c = commandRow d) ↔ False := by
  refine ⟨fun ⟨d, _, is⟩ => ?_, False.elim⟩
  rw [is, codeOfRow_commandRow] at own
  exact nomatch own

/-- A row of a command is due at the head of the Command Queue alone. -/
theorem mem_dueRows_of_command {b : Option Byte} (own : codeOfRow c = some b) :
    c ∈ dueRows s ↔ ∃ d, s.head = some d ∧ c = commandRow d := by
  rw [mem_dueRows]
  refine ⟨fun due => ?_, fun head => .inr (.inr (.inr (.inr (.inl head))))⟩
  obtain ⟨p, due⟩ | ⟨i, due⟩ | ⟨k, _, _, rfl⟩ | due | head | ⟨_, rfl⟩ := due
  · rw [mem_duePort] at due
    obtain ⟨_, rfl⟩ | ⟨_, rfl⟩ | ⟨_, rfl⟩ | ⟨_, rfl⟩ | ⟨_, rfl⟩ | ⟨_, rfl⟩ | ⟨_, rfl⟩ | ⟨_, rfl⟩ | ⟨_, rfl⟩ := due
    all_goals exact nomatch own
  · obtain ⟨_, rfl⟩ | ⟨_, rfl⟩ := due
    all_goals exact nomatch own
  · exact nomatch own
  · rw [mem_dueRace] at due
    obtain ⟨_, rfl⟩ | ⟨_, rfl⟩ | ⟨_, rfl⟩ | ⟨_, rfl⟩ | ⟨_, rfl⟩ := due
    all_goals exact nomatch own
  · exact head
  · exact nomatch own

theorem State.head_eq_some {d : Command} : s.head = some d ↔ s.mgmt.resetPending = none ∧ s.mgmt.queue.head? = some d := by
  unfold State.head
  split
  · next t pending => simp [pending]
  · next none => simp [none]

theorem dueRows_of_code {code : Byte} (listed : (code, c) ∈ codeRows) : c ∈ dueRows s ↔ HeadHasCode s code := by
  have own := codeOfRow_codeRows _ listed
  have known := codeRows_known _ listed
  rw [mem_dueRows_of_command own]
  constructor
  · rintro ⟨d, head, is⟩
    obtain ⟨noReset, head⟩ := State.head_eq_some.mp head
    refine ⟨noReset, d, head, ?_⟩
    rw [is, codeOfRow_commandRow] at own
    split at own
    · next isKnown =>
      obtain ⟨b, _, first⟩ := (headD_known _).mp isKnown
      rw [List.headD_eq_head?_getD, first] at own
      cases own
      exact first
    · exact nomatch own
  · rintro ⟨noReset, d, head, first⟩
    exact ⟨d, State.head_eq_some.mpr ⟨noReset, head⟩, (commandRow_of_mem listed first).symm⟩

theorem commandRow_unknown_iff (d : Command) :
    Instr.unknownCommand = commandRow d ↔ ∀ b, d.payload.head? = some b → b ∉ knownCodes := by
  refine ⟨fun is b first known => ?_, fun unknown => ?_⟩
  · have own := codeOfRow_commandRow d
    rw [← is, if_pos ((headD_known _).mpr ⟨b, known, first⟩)] at own
    exact nomatch own
  · cases first : d.payload.head? with
    | some b => exact (commandRow_of_unknown first (unknown b first)).symm
    | none =>
      have code : d.payload.headD 0 = 0 := by rw [List.headD_eq_head?_getD, first]; rfl
      unfold commandRow
      rw [code]
      rfl

theorem dueRows_of_unknown : Instr.unknownCommand ∈ dueRows s ↔ RowDue s .unknownCommand := by
  rw [mem_dueRows_of_command rfl]
  simp only [State.head_eq_some, commandRow_unknown_iff]
  exact ⟨fun ⟨d, ⟨noReset, head⟩, unknown⟩ => ⟨noReset, d, head, unknown⟩,
    fun ⟨noReset, d, head, unknown⟩ => ⟨d, ⟨noReset, head⟩, unknown⟩⟩

theorem commandRow_write_iff {d : Command} (own : codeOfRow c = some (some 0x11)) :
    c = commandRow d ↔ d.payload.head? = some 0x11 ∧ c = writeRow d := by
  constructor
  · intro is
    have code := codeOfRow_commandRow d
    rw [← is, own] at code
    have first : d.payload.head? = some 0x11 := by
      split at code
      · next known =>
        obtain ⟨b, _, first⟩ := (headD_known _).mp known
        rw [List.headD_eq_head?_getD, first] at code
        cases code
        exact first
      · exact nomatch code
    exact ⟨first, is.trans (commandRow_of_write first)⟩
  · rintro ⟨first, is⟩
    exact is.trans (commandRow_of_write first).symm

theorem dueRows_of_write {table : Option Byte → Prop} (own : codeOfRow c = some (some 0x11))
    (of : ∀ d : Command, c = writeRow d ↔ table (d.payload[1]?)) : c ∈ dueRows s ↔ HeadWrites s table := by
  rw [mem_dueRows_of_command own]
  simp only [State.head_eq_some, commandRow_write_iff own, of]
  exact ⟨fun ⟨d, ⟨noReset, head⟩, code, names⟩ => ⟨noReset, d, head, code, names⟩,
    fun ⟨noReset, d, head, code, names⟩ => ⟨d, ⟨noReset, head⟩, code, names⟩⟩

/-- The byte that names a table (R198). -/
def tableByte : Table → Byte
  | .carTable => 0
  | .raceParameters => 1
  | .portTable => 2
  | .viewOrderLists => 3
  | .eventRouteTable => 4
  | .trainingPatterns => 5
  | .crossingList => 6
  | .classification => 7
  | .contactPairSet => 8

theorem tableOf_toNat {b : Byte} {t : Table} : tableOf b.toNat = some t ↔ b = tableByte t := by
  constructor
  · unfold tableOf
    intro is
    split_ifs at is
    all_goals cases is
    all_goals exact BitVec.eq_of_toNat_eq ‹_›
  · rintro rfl
    cases t <;> rfl

theorem Command.table_eq_some {d : Command} {t : Table} : d.table = some t ↔ d.payload[1]? = some (tableByte t) := by
  unfold Command.table
  cases d.payload[1]? with
  | none => simp
  | some b => simp [tableOf_toNat]

/-- The row that writes a table, or finds it closed (R179). -/
def rowOfTable : Option Table → Instr
  | some .carTable => .writeCarAssignment
  | some .raceParameters => .writeRaceParameters
  | some .portTable => .writePortTable
  | some .viewOrderLists => .writeViewOrderLists
  | some .eventRouteTable => .writeEventRouteTable
  | some .trainingPatterns => .writeTrainingPatterns
  | _ => .writeNoAccessTable

theorem writeRow_eq (d : Command) : writeRow d = rowOfTable d.table := by
  unfold writeRow
  split
  all_goals next h => rw [h]; rfl

theorem rowOfTable_eq_iff {t : Table} (writable : rowOfTable (some t) ≠ .writeNoAccessTable) (u : Option Table) :
    rowOfTable (some t) = rowOfTable u ↔ u = some t := by
  cases u with
  | none => exact ⟨fun same => absurd same writable, nofun⟩
  | some u =>
    cases t <;> cases u <;> simp_all [rowOfTable]

theorem dueRows_of_table {t : Table} (writable : rowOfTable (some t) ≠ .writeNoAccessTable)
    (own : codeOfRow (rowOfTable (some t)) = some (some 0x11)) :
    rowOfTable (some t) ∈ dueRows s ↔ HeadWrites s (· = some (tableByte t)) :=
  dueRows_of_write own fun d => by rw [writeRow_eq, rowOfTable_eq_iff writable, Command.table_eq_some]

theorem writeRow_noAccess_iff (d : Command) :
    Instr.writeNoAccessTable = writeRow d ↔ ∀ n, d.payload[1]? = some n → 6 ≤ n.toNat := by
  have row : Instr.writeNoAccessTable = rowOfTable d.table ↔ ∀ t, d.table = some t → 6 ≤ (tableByte t).toNat := by
    cases d.table with
    | none => simp [rowOfTable]
    | some t => cases t <;> simp [rowOfTable, tableByte]
  rw [writeRow_eq, row]
  constructor
  · intro high n second
    by_contra low
    have listed : ∃ t, n = tableByte t := by
      have codes : ∀ m < 6, (tableOf m).isSome = true := by decide
      obtain ⟨t, is⟩ := Option.isSome_iff_exists.mp (codes n.toNat (by omega))
      exact ⟨t, tableOf_toNat.mp is⟩
    obtain ⟨t, rfl⟩ := listed
    exact low (high t (Command.table_eq_some.mpr second))
  · intro high t is
    exact high _ (Command.table_eq_some.mp is)

end

/-! ### The conditions of the timers -/

section
variable {s : State} {p : PortNo}

theorem wireDue_iff : s.wireDue p = true ↔ RowDue s (.transmitEnd p) := by
  rw [State.wireDue, State.reached_iff]
  have time (w : WireFrame) : wireTime w
      = (if w.rate = .r10 then w.frame.bytes.length + 1 else (w.frame.bytes.length + 1 + 1) / 2) := by
    unfold wireTime
    cases w.rate <;> rfl
  cases wire : (s.port p).wire with
  | none => simp [Reached, RowDue, wire]
  | some w => simp [Reached, RowDue, wire, time]

theorem inviteDue_iff : s.inviteDue p = true ↔ RowDue s (.trainInvitation p) := by
  rw [State.inviteDue, Bool.and_eq_true, decide_eq_true_iff, State.reached_iff]
  rfl

theorem pauseDue_iff : s.pauseDue p = true ↔ RowDue s (.trainingPauseEnd p) := by
  rw [State.pauseDue, Bool.and_eq_true, decide_eq_true_iff]
  refine and_congr_right fun _ => ?_
  split
  · next t training => simp [training]
  · next other =>
    exact ⟨nofun, fun ⟨d, is, _⟩ => absurd is (other d)⟩

theorem echoDue_iff : s.echoDue p = true ↔ RowDue s (.echoWaitExpiry p) := by
  rw [State.echoDue, Bool.and_eq_true, decide_eq_true_iff]
  refine and_congr_right fun _ => ?_
  split
  · next todo sent training => simp [training]
  · next other =>
    exact ⟨nofun, fun ⟨todo, sent, is, _⟩ => absurd is (other todo sent)⟩

theorem dueProbe_iff : (s.dueProbe p).isSome = true ↔ RowDue s (.probeDue p) := by
  unfold State.dueProbe
  split
  · next phase =>
    simp only [RowDue, phase, true_and]
    cases sweep : (s.timing p).sweep with
    | none => simp
    | some w =>
      cases first : w.sent.head? with
      | none => simp [first]
      | some t0 => simp [first, probeStep]
  · next other => exact ⟨nofun, fun ⟨is, _⟩ => absurd is other⟩

theorem overdueSweep_iff : (s.overdueSweep p).isSome = true ↔ RowDue s (.sweepReplyWaitExpiry p) := by
  unfold State.overdueSweep
  split
  · next phase =>
    simp only [RowDue, phase, true_and]
    cases sweep : (s.timing p).sweep with
    | none => simp
    | some w =>
      cases last : w.sent[63]? with
      | none => simp [last]
      | some t63 => simp [last]
  · next other => exact ⟨nofun, fun ⟨is, _⟩ => absurd is other⟩

theorem paceDue_iff : s.paceDue p = true ↔ RowDue s (.paceTimerExpiry p) := by
  rw [State.paceDue, Bool.and_eq_true, Bool.and_eq_true, decide_eq_true_iff, State.reached_iff, State.isActive_iff, and_assoc]
  rfl

theorem lossDue_iff : s.lossDue p = true ↔ RowDue s (.linkLoss p) := by
  rw [State.lossDue, Bool.and_eq_true, State.reached_iff, lossTimerRuns, decide_eq_true_iff]
  simp [RowDue, Reached]

theorem coastDue_iff {i : Slot} : s.coastDue i = true ↔ RowDue s (.coastTimerExpiry i) := by
  rw [State.coastDue, Bool.and_eq_true, State.passed_iff, Bool.not_eq_true']
  rfl

theorem loseDue_iff {i : Slot} : s.loseDue i = true ↔ RowDue s (.loseTimerExpiry i) := by
  rw [State.loseDue, Bool.and_eq_true, State.passed_iff, Bool.not_eq_true']
  rfl

theorem settleDue_iff {k : Nat} : (k ∈ s.raceLaps ∧ s.settleDue k = true) ↔ RowDue s (.settleDeadlineExpiry k) := by
  rw [State.mem_raceLaps, State.settleDue, Bool.and_eq_true, State.reached_iff, Bool.not_eq_true', and_assoc]
  rfl

theorem greenDue_iff : s.greenDue = true ↔ RowDue s .tGreenExpiry := by
  rw [State.greenDue, Bool.and_eq_true, decide_eq_true_iff, State.reached_iff]
  rfl

theorem holdReached_acked_iff : (s.holdReached = true ∧ s.allAcked = true) ↔ RowDue s .tHExpiry := by
  rw [State.holdReached, Bool.and_eq_true, decide_eq_true_iff, State.reached_iff, State.allAcked_iff, and_assoc]
  rfl

theorem State.not_allAcked_iff : (!s.allAcked) = true ↔ ∃ a ∈ s.race.acks, a.acked = false := by
  rw [Bool.not_eq_true', ← Bool.not_eq_true, State.allAcked_iff]
  simp only [not_forall, Bool.not_eq_true, exists_prop]

theorem holdOverdue_iff : s.holdOverdue = true ↔ RowDue s .holdTimeout := by
  rw [State.holdOverdue, Bool.and_eq_true, Bool.and_eq_true, decide_eq_true_iff, State.reached_iff, State.not_allAcked_iff, and_assoc]
  rfl

theorem resumeDue_iff : s.resumeDue = true ↔ RowDue s .tRExpiry := by
  rw [State.resumeDue, Bool.and_eq_true, decide_eq_true_iff, State.reached_iff]
  rfl

theorem graceDue_iff : s.graceDue = true ↔ RowDue s .graceDeadlineExpiry := by
  rw [State.graceDue, Bool.and_eq_true, decide_eq_true_iff, State.reached_iff]
  rfl

theorem resetDue_iff : s.resetDue = true ↔ RowDue s .hubResetTakesEffect := by
  unfold State.resetDue
  split
  · next d pending =>
    have onWire (p : PortNo) : (s.port p).wire.any (fun w => isResetReply w.frame) = false
        ↔ ∀ w, (s.port p).wire = some w → isResetReply w.frame = false := by
      cases (s.port p).wire <;> simp
    simp [RowDue, pending, State.resetReplyWaits, mem_allPorts, onWire]
  · next none => simp [RowDue, none]

end

section
variable {s : State}

/-- A row of no command is due through the condition that names it. -/
theorem dueRows_of_timer {c : Instr} (own : codeOfRow c = none) : c ∈ dueRows s ↔ (∃ p, c ∈ duePort s p)
    ∨ (∃ i, (s.coastDue i = true ∧ c = .coastTimerExpiry i) ∨ (s.loseDue i = true ∧ c = .loseTimerExpiry i))
    ∨ (∃ k ∈ s.raceLaps, s.settleDue k = true ∧ c = .settleDeadlineExpiry k) ∨ c ∈ dueRace s
    ∨ (s.resetDue = true ∧ c = .hubResetTakesEffect) := by
  rw [mem_dueRows, not_dueCommand own, false_or]

/-- The rows that are due, row by row (R177). -/
theorem mem_dueRows_iff (c : Instr) : c ∈ dueRows s ↔ RowDue s c := by
  cases c
  case unknownCommand => exact dueRows_of_unknown
  case readStatus | readPort | clearCounters | readEntries | scan | portReset | portQuiet | portWake | sendView | openGrid
      | start | abortStart | hold | resume | close | resetRace | retireCar | moveDirector | resetHub =>
    exact dueRows_of_code (by decide)
  case writeCarAssignment => exact dueRows_of_table (t := .carTable) (by decide) rfl
  case writeRaceParameters => exact dueRows_of_table (t := .raceParameters) (by decide) rfl
  case writePortTable => exact dueRows_of_table (t := .portTable) (by decide) rfl
  case writeViewOrderLists => exact dueRows_of_table (t := .viewOrderLists) (by decide) rfl
  case writeEventRouteTable => exact dueRows_of_table (t := .eventRouteTable) (by decide) rfl
  case writeTrainingPatterns => exact dueRows_of_table (t := .trainingPatterns) (by decide) rfl
  case writeNoAccessTable => exact dueRows_of_write (table := fun b => ∀ n, b = some n → 6 ≤ n.toNat) rfl writeRow_noAccess_iff
  case resetNLow | resetNRelease | damagedFrame | unknownKindFrame | trainEcho | probeReply | car | holdAck | quietAsk | mgmt =>
    rw [dueRows_of_timer rfl]
    simp [mem_duePort, mem_dueRace, RowDue]
  case transmitEnd | linkRateChangeOnLine | trainInvitation | trainingPauseEnd | echoWaitExpiry | probeDue
      | sweepReplyWaitExpiry | paceTimerExpiry | linkLoss =>
    rw [dueRows_of_timer rfl]
    simp [mem_duePort, mem_dueRace, wireDue_iff, rateDue_iff, inviteDue_iff, pauseDue_iff, echoDue_iff, dueProbe_iff,
      overdueSweep_iff, paceDue_iff, lossDue_iff, RowDue]
  case coastTimerExpiry | loseTimerExpiry =>
    rw [dueRows_of_timer rfl]
    simp [mem_duePort, mem_dueRace, coastDue_iff, loseDue_iff]
  case settleDeadlineExpiry k =>
    rw [dueRows_of_timer rfl]
    simp [mem_duePort, mem_dueRace, settleDue_iff]
  all_goals
    rw [dueRows_of_timer rfl]
    simp [mem_duePort, mem_dueRace, greenDue_iff, holdReached_acked_iff, holdOverdue_iff, resumeDue_iff, graceDue_iff, resetDue_iff]

end

/-- Settles O3: `idleStep` by the rows that are due, and those by `mem_dueRows_iff`. -/
theorem stepIdles : Obligations.StepIdles := by
  intro s empty
  have steps : step s = .next (idleStep s) := by
    unfold step
    rw [empty]
  rw [steps]
  refine ⟨fun low => congrArg _ (if_pos low), fun high none => congrArg _ ?_, fun high some => ?_, mem_dueRows_iff⟩
  · rw [idleStep, if_neg (by rw [high]; decide), none]
  · unfold idleStep
    rw [if_neg (by rw [high]; decide)]
    match rows : dueRows s with
    | [] => exact absurd rows some
    | [c] => exact ⟨c, .head _, _, rfl, rfl⟩
    | c :: d :: cs =>
      refine ⟨(c :: d :: cs).getD (Config.eventChoice s.free % (cs.length + 2)) c, ?_, _, rfl, rfl⟩
      have inside : Config.eventChoice s.free % (cs.length + 2) < (c :: d :: cs).length := Nat.mod_lt _ (by simp)
      rw [List.getD_eq_getElem _ _ inside]
      exact List.getElem_mem inside

end Sys2Proof.Machine
end

section
/-! PROOFS. What the fixing of a record writes (R100 to R102, R126): a record, its lap and at most one car are written, and all
else is the work of events. -/

namespace Sys2Proof.Machine

/-! ### The race's record under events (R118, R145) -/

/-- No event calls a hold: none is allowed, or no valid route asks for one (R118, R145). -/
def State.Calm (s : State) : Prop :=
  holdAllowed s.race.state = false ∨ ∀ r ∈ s.routes.toList, r.valid = true → r.action ≠ .autoHold

theorem State.Calm.congr {s t : State} (calm : s.Calm) (race : t.race = s.race) (routes : t.routes = s.routes) : t.Calm := by
  unfold State.Calm at calm ⊢
  rwa [race, routes]

theorem routeAct_race_of_noHold {r : Route} (act : r.action ≠ .autoHold) (e : Event) (s : State) :
    (routeAct e s r).race = s.race := by
  unfold routeAct
  split
  · exact foldl_race _ _ s fun u p same => (State.offerCue_race u p _).trans same
  · exact State.noticeToDirector_race ..
  · exact absurd ‹_› act

theorem raise_race_of_calm {s : State} (calm : s.Calm) (e : Event) : (raise e s).race = s.race := by
  obtain free | noHold := calm
  · exact raise_race free e
  · rw [raise_eq]
    refine List.foldlRecOn _ (routeAct e) (motive := fun u => u.race = s.race) rfl fun u same r mem => ?_
    obtain ⟨listed, matches_⟩ := List.mem_filter.mp mem
    obtain ⟨valid, -⟩ := (r.matches_iff e).mp matches_
    exact (routeAct_race_of_noHold (noHold r listed valid) e u).trans same

/-- What events and fixings do to the race's record as far as holds go: a hold that stands or is called stays, and one may be
called whose T_h lies ahead (R118, R126). -/
structure Steady (s t : State) : Prop where
  clock : t.clock = s.clock
  params : t.params = s.params
  tR : t.race.tR = s.race.tR
  holding : s.race.state.Holds → t.race.state = s.race.state ∧ t.race.tH = s.race.tH ∧ t.race.acks = s.race.acks
  free : ¬s.race.state.Holds → t.race.state ≠ .hold ∧ t.race.state ≠ .resumePending
    ∧ (s.params.holdLead ≤ 1000000 → t.suspended = false)

theorem State.suspended_of_free {s : State} (free : ¬s.race.state.Holds) : s.suspended = false := by
  unfold RaceState.Holds at free
  unfold State.suspended
  cases state : s.race.state <;> simp_all

theorem State.suspended_congr {s t : State} (state : t.race.state = s.race.state) (tH : t.race.tH = s.race.tH)
    (clock : t.clock = s.clock) : t.suspended = s.suspended := by
  unfold State.suspended
  rw [state, tH, clock]

theorem Steady.suspended {s t : State} (h : Steady s t) (lead : s.params.holdLead ≤ 1000000) : t.suspended = s.suspended := by
  by_cases holds : s.race.state.Holds
  · obtain ⟨state, tH, -⟩ := h.holding holds
    exact State.suspended_congr state tH h.clock
  · rw [State.suspended_of_free holds, (h.free holds).2.2 lead]

theorem Steady.of_race {s t : State} (clock : t.clock = s.clock) (params : t.params = s.params) (race : t.race = s.race) :
    Steady s t where
  clock := clock
  params := params
  tR := by rw [race]
  holding _ := by rw [race]; exact ⟨rfl, rfl, rfl⟩
  free free := by
    have free' : ¬t.race.state.Holds := by rwa [race]
    refine ⟨?_, ?_, fun _ => State.suspended_of_free free'⟩
    · exact fun is => free' (.inr (.inl is))
    · exact fun is => free' (.inr (.inr is))

theorem Steady.refl (s : State) : Steady s s := .of_race rfl rfl rfl

theorem Steady.trans {s u t : State} (h : Steady s u) (k : Steady u t) : Steady s t where
  clock := k.clock.trans h.clock
  params := k.params.trans h.params
  tR := k.tR.trans h.tR
  holding holds := by
    obtain ⟨state, tH, acks⟩ := h.holding holds
    obtain ⟨state', tH', acks'⟩ := k.holding (state ▸ holds)
    exact ⟨state'.trans state, tH'.trans tH, acks'.trans acks⟩
  free free := by
    obtain ⟨noHold, noResume, lead⟩ := h.free free
    by_cases holds : u.race.state.Holds
    · obtain ⟨state, tH, -⟩ := k.holding holds
      exact ⟨by rwa [state], by rwa [state], fun within => (State.suspended_congr state tH k.clock).trans (lead within)⟩
    · obtain ⟨noHold, noResume, lead⟩ := k.free holds
      exact ⟨noHold, noResume, fun within => lead (h.params ▸ within)⟩

theorem Steady.foldl {α : Type} (f : State → α → State) (h : ∀ s x, Steady s (f s x)) (xs : List α) (s : State) :
    Steady s (xs.foldl f s) := by
  induction xs generalizing s with
  | nil => exact .refl s
  | cons x xs ih => exact (h s x).trans (ih _)

theorem RouteEffect.steady {s t : State} (h : RouteEffect s t) (race : t.race = s.race) : Steady s t :=
  .of_race h.clock h.params race

/-- A hold that is called suspends nothing yet (R34, R118). -/
theorem callHold_steady {s : State} (allowed : holdAllowed s.race.state = true) : Steady s (callHold s) where
  clock := (callHold_effect s).clock
  params := (callHold_effect s).params
  tR := by rw [callHold_race]
  holding holds := by
    unfold RaceState.Holds at holds
    obtain is | is := (holdAllowed_iff _).mp allowed <;> simp [is] at holds
  free _ := by
    refine ⟨by rw [callHold_race]; nofun, by rw [callHold_race]; nofun, fun within => ?_⟩
    have pending : (callHold s).race.state = .holdPending := by rw [callHold_race]
    have tH : (callHold s).race.tH = some (addTime s.clock s.params.holdLead) := by rw [callHold_race]; rfl
    have ahead : later s.clock (addTime s.clock s.params.holdLead) = false := by
      have diff : timeDiff (addTime s.clock s.params.holdLead) s.clock = s.params.holdLead := by
        simp only [timeDiff, addTime, add_sub_cancel_left]
        rw [BitVec.toInt_ofInt]
        exact Int.bmod_eq_of_le (by omega) (by omega)
      rw [later, diff]
      simp
    unfold State.suspended
    rw [pending, tH, (callHold_effect s).clock]
    exact ahead

theorem autoHold_steady (s : State) : Steady s (autoHold s) := by
  unfold autoHold
  split
  · exact callHold_steady ‹_›
  · exact .refl s

theorem routeAct_steady (e : Event) (s : State) (r : Route) : Steady s (routeAct e s r) := by
  by_cases act : r.action = .autoHold
  · have eq : routeAct e s r = autoHold s := by unfold routeAct; rw [act]
    rw [eq]
    exact autoHold_steady s
  · exact (routeAct_effect e s r).steady (routeAct_race_of_noHold act e s)

theorem raise_steady (e : Event) (s : State) : Steady s (raise e s) := by
  refine .foldl _ (fun u r => ?_) _ _
  unfold routeOne
  split
  · exact routeAct_steady e u r
  · exact .refl u

/-! ### Cars that change, as far as events leave what they read -/

theorem changeCar_route (i : Slot) (new : CarRecord) (event : Option EventKind) (s : State) :
    RouteEffect (s.putCar i new) (changeCar i new event s) := by
  have told : RouteEffect (s.putCar i new) ((s.putCar i new).told i event) := by
    unfold State.told
    split
    · exact raiseNow_effect ..
    · exact .refl _
  exact told.trans (.foldl _ (fun u c => raiseNow_effect ..) _ _)

theorem State.told_steady (i : Slot) (event : Option EventKind) (s : State) : Steady s (s.told i event) := by
  unfold State.told
  split
  · exact raise_steady ..
  · exact .refl s

theorem changeCar_steady (i : Slot) (new : CarRecord) (event : Option EventKind) (s : State) :
    Steady s (changeCar i new event s) := by
  have put : Steady s (s.putCar i new) := .of_race rfl rfl rfl
  exact put.trans
    ((State.told_steady i event _).trans (.foldl (fun u c => raiseNow .contactEnd [i, pairOther i c] u)
      (fun u c => raise_steady ..) (s.lostPairs i new) _))

theorem State.car_putCar (s : State) (i j : Slot) (c : CarRecord) : (s.putCar i c).car j = if j = i then c else s.car j :=
  State.car_setCar ..

theorem changeCar_car (i j : Slot) (new : CarRecord) (event : Option EventKind) (s : State) :
    (changeCar i new event s).car j = if j = i then new else s.car j :=
  ((changeCar_route i new event s).car j).trans (s.car_putCar i j new)

theorem RouteEffect.putCar {s t : State} (h : RouteEffect s t) (i : Slot) (c : CarRecord) :
    RouteEffect (s.putCar i c) (t.putCar i c) where
  resetLow := h.resetLow
  clock := h.clock
  cars := by simp only [State.putCar, State.setCar, h.cars]
  params := h.params
  crossings := h.crossings
  lapTable := h.lapTable
  classification := h.classification
  crossingLost := h.crossingLost
  contacts := by simp only [State.putCar, h.contacts]
  routes := h.routes
  patterns := h.patterns
  mgmt := h.mgmt
  free := h.free
  pending := h.pending
  link := h.link

/-! ### The finish of a car (R38, R102) -/

/-- The car, where its slot is enabled, FINISHED with a placing (R38). -/
def State.finishCar (s : State) (i : Slot) (place : Nat) : State :=
  if (s.car i).enabled then s.putCar i ((s.car i).finished place) else s

theorem RouteEffect.finishCar {s t : State} (h : RouteEffect s t) (i : Slot) (place : Nat) :
    RouteEffect (s.finishCar i place) (t.finishCar i place) := by
  unfold State.finishCar
  rw [h.car i]
  split
  · exact h.putCar i _
  · exact h

theorem State.finishCar_car (s : State) (i j : Slot) (place : Nat) : (s.finishCar i place).car j
    = if j = i ∧ (s.car i).enabled = true then (s.car i).finished place else s.car j := by
  unfold State.finishCar
  split
  · next enabled => rw [State.car_putCar]; simp [enabled]
  · next disabled => simp [disabled]

/-- The record of the race at the first-finish report (R126). -/
def State.firstFinished (s : State) : RaceRecord := (firstFinish s).race

section
variable {s : State}

/-- The deadline of grace runs from the earlier of now and T_h where a hold stands (R126). -/
def State.finishBase (s : State) : RaceTime := match s.race.tH with
  | some h => if earlier h s.clock then h else s.clock
  | none => s.clock

theorem firstFinish_of_running (is : s.race.state = .running) : firstFinish s = { s with race := { s.race with
    finishSeen := true, state := .finishing, grace := some (addTime s.clock s.params.grace) } } := by
  simp only [firstFinish, is]

theorem firstFinish_of_holds (holds : s.race.state.Holds) : firstFinish s = { s with race := { s.race with
    finishSeen := true, remembered := some .finishing, grace := some (addTime s.finishBase s.params.grace) } } := by
  obtain is | is | is := holds <;> simp only [firstFinish, is] <;> rfl

theorem firstFinish_of_other (noRun : s.race.state ≠ .running) (free : ¬s.race.state.Holds) :
    firstFinish s = { s with race := { s.race with finishSeen := true } } := by
  unfold RaceState.Holds at free
  cases is : s.race.state <;> simp_all [firstFinish]

theorem firstFinish_eq : firstFinish s = { s with race := s.firstFinished } := by
  unfold State.firstFinished
  by_cases run : s.race.state = .running
  · rw [firstFinish_of_running run]
  by_cases holds : s.race.state.Holds
  · rw [firstFinish_of_holds holds]
  · rw [firstFinish_of_other run holds]

theorem firstFinish_steady (s : State) : Steady s (firstFinish s) := by
  by_cases run : s.race.state = .running
  · rw [firstFinish_of_running run]
    refine ⟨rfl, rfl, rfl, fun holds => ?_, fun _ => ⟨nofun, nofun, fun _ => State.suspended_of_free ?_⟩⟩
    · unfold RaceState.Holds at holds
      simp [run] at holds
    · simp [RaceState.Holds]
  by_cases holds : s.race.state.Holds
  · rw [firstFinish_of_holds holds]
    exact ⟨rfl, rfl, rfl, fun _ => ⟨rfl, rfl, rfl⟩, fun free => absurd holds free⟩
  · rw [firstFinish_of_other run holds]
    exact ⟨rfl, rfl, rfl, fun holds' => absurd holds' holds, fun _ => ⟨fun is => holds (.inr (.inl is)),
      fun is => holds (.inr (.inr is)), fun _ => State.suspended_of_free holds⟩⟩

end

/-- The car's change and FINISH_FIXED, before the first-finish report (R102). -/
def finishTold (i : Slot) (place : Nat) (s : State) : State :=
  raiseNow .finishFixed [i] (if (s.car i).enabled then changeCar i ((s.car i).finished place) none s else s)

theorem fixFinish_eq (i : Slot) (place : Nat) (s : State) : fixFinish i place s
    = if place = 1 ∧ (finishTold i place s).race.state ≠ .closed then firstFinish (finishTold i place s)
      else finishTold i place s := rfl

theorem finishTold_route (i : Slot) (place : Nat) (s : State) : RouteEffect (s.finishCar i place) (finishTold i place s) := by
  unfold State.finishCar finishTold
  split
  · exact (changeCar_route ..).trans (raiseNow_effect ..)
  · exact raiseNow_effect ..

theorem finishTold_steady (i : Slot) (place : Nat) (s : State) : Steady s (finishTold i place s) := by
  unfold finishTold
  split
  · exact (changeCar_steady ..).trans (raise_steady ..)
  · exact raise_steady ..

theorem fixFinish_route (i : Slot) (place : Nat) (s : State) : RouteEffect (s.finishCar i place) (fixFinish i place s) := by
  rw [fixFinish_eq]
  split
  · rw [firstFinish_eq]
    exact (finishTold_route ..).trans (.withRace _ _)
  · exact finishTold_route ..

theorem fixFinish_steady (i : Slot) (place : Nat) (s : State) : Steady s (fixFinish i place s) := by
  rw [fixFinish_eq]
  split
  · exact (finishTold_steady ..).trans (firstFinish_steady _)
  · exact finishTold_steady ..

/-! ### The fixing of a record (R100) -/

theorem raiseLeadChange_route (k : Nat) (i : Slot) (s : State) : RouteEffect s (raiseLeadChange k i s) := by
  unfold raiseLeadChange
  split
  · exact raiseNow_effect ..
  · exact .refl s

theorem raiseLeadChange_steady (k : Nat) (i : Slot) (s : State) : Steady s (raiseLeadChange k i s) := by
  unfold raiseLeadChange
  split
  · exact raise_steady ..
  · exact .refl s

/-- LAP_FIXED and LEAD_CHANGE (R102). -/
def leadEvents (x : Crossing) (place : Nat) (s : State) : State :=
  if place = 1 then raiseLeadChange x.lap x.slot (raiseNow .lapFixed [x.slot] s) else raiseNow .lapFixed [x.slot] s

theorem leadEvents_route (x : Crossing) (place : Nat) (s : State) : RouteEffect s (leadEvents x place s) := by
  unfold leadEvents
  split
  · exact (raiseNow_effect ..).trans (raiseLeadChange_route ..)
  · exact raiseNow_effect ..

theorem leadEvents_steady (x : Crossing) (place : Nat) (s : State) : Steady s (leadEvents x place s) := by
  unfold leadEvents
  split
  · exact (raise_steady ..).trans (raiseLeadChange_steady ..)
  · exact raise_steady ..

/-- The events of a fixing before that of a finish (R102). -/
def lapEvents (x : Crossing) (place : Nat) (s : State) : State :=
  if place = 1 ∧ x.lap = s.params.laps then raiseNow .lastLap [x.slot] (leadEvents x place s) else leadEvents x place s

theorem lapEvents_route (x : Crossing) (place : Nat) (s : State) : RouteEffect s (lapEvents x place s) := by
  unfold lapEvents
  split
  · exact (leadEvents_route ..).trans (raiseNow_effect ..)
  · exact leadEvents_route ..

theorem lapEvents_steady (x : Crossing) (place : Nat) (s : State) : Steady s (lapEvents x place s) := by
  unfold lapEvents
  split
  · exact (leadEvents_steady ..).trans (raise_steady ..)
  · exact leadEvents_steady ..

theorem fixEvents_eq (x : Crossing) (place : Nat) (s : State) : fixEvents x place s
    = if x.lap = s.params.laps + 1 then fixFinish x.slot place (lapEvents x place s) else lapEvents x place s := by
  have eq : fixEvents x place s
      = if x.lap = (lapEvents x place s).params.laps + 1 then fixFinish x.slot place (lapEvents x place s)
        else lapEvents x place s := by
    unfold lapEvents
    rw [← (leadEvents_route x place s).params]
    rfl
  rw [eq, (lapEvents_route x place s).params]

/-- The car of a finish crossing, where its slot is enabled, FINISHED (R38). -/
def State.finishedBy (s : State) (x : Crossing) (place : Nat) : State :=
  if x.lap = s.params.laps + 1 then s.finishCar x.slot place else s

theorem fixEvents_route (x : Crossing) (place : Nat) (s : State) : RouteEffect (s.finishedBy x place) (fixEvents x place s) := by
  rw [fixEvents_eq]
  unfold State.finishedBy
  split
  · exact ((lapEvents_route x place s).finishCar ..).trans (fixFinish_route ..)
  · exact lapEvents_route ..

theorem fixEvents_steady (x : Crossing) (place : Nat) (s : State) : Steady s (fixEvents x place s) := by
  rw [fixEvents_eq]
  split
  · exact (lapEvents_steady ..).trans (fixFinish_steady ..)
  · exact lapEvents_steady ..

/-- The record as its fixing leaves it (R100). -/
def State.fixedRecord (s : State) (x : Crossing) (late : Bool) : Crossing :=
  { x with status := .fixed ((s.lap x.lap).count + 1), late := late || x.late }

/-- The Crossing List, the lap and its settle deadline as a fixing writes them (R100, R103). -/
def State.recordFixed (s : State) (x : Crossing) (late : Bool) : State :=
  { s.setLap x.lap ((s.lap x.lap).afterFix x late) with
    crossings := fixInList x (s.fixedRecord x late) late s.crossings }.setDeadline x.lap

theorem fixRecord_eq (x : Crossing) (late : Bool) (s : State) : fixRecord x late s
    = fixEvents (s.fixedRecord x late) ((s.lap x.lap).count + 1)
        (sendPlacing (s.fixedRecord x late) ((s.lap x.lap).count + 1) (s.recordFixed x late)) := by
  unfold fixRecord State.recordFixed
  simp only [State.setLap_crossings]
  rfl

theorem sendPlacing_route (x : Crossing) (n : Nat) (s : State) : RouteEffect s (sendPlacing x n s) :=
  .foldl _ (fun _ _ => offerPlacing_effect ..) _ _

theorem State.offerPlacing_race (s : State) (p : PortNo) (b : FrameBody) : (s.offerPlacing p b).race = s.race := by
  unfold State.offerPlacing
  split
  · rw [State.arbiterTake_race, State.modPort_race]
  · rfl

theorem sendPlacing_race (x : Crossing) (n : Nat) (s : State) : (sendPlacing x n s).race = s.race :=
  foldl_race _ _ s fun u p same => (u.offerPlacing_race p _).trans same

theorem State.recordFixed_race (s : State) (x : Crossing) (late : Bool) : (s.recordFixed x late).race = s.race := by
  unfold State.recordFixed State.setDeadline
  rw [State.setLap_race]
  exact State.setLap_race ..

/-- What a fixing writes besides ports and the race's record. -/
def State.fixed (s : State) (x : Crossing) (late : Bool) : State :=
  (s.recordFixed x late).finishedBy x ((s.lap x.lap).count + 1)

theorem RouteEffect.finishedBy {s t : State} (h : RouteEffect s t) (x : Crossing) (place : Nat) :
    RouteEffect (s.finishedBy x place) (t.finishedBy x place) := by
  unfold State.finishedBy
  rw [h.params]
  split
  · exact h.finishCar ..
  · exact h

theorem fixRecord_route (x : Crossing) (late : Bool) (s : State) : RouteEffect (s.fixed x late) (fixRecord x late s) := by
  rw [fixRecord_eq]
  exact ((sendPlacing_route ..).finishedBy (s.fixedRecord x late) _).trans (fixEvents_route ..)

theorem State.recordFixed_steady (s : State) (x : Crossing) (late : Bool) : Steady s (s.recordFixed x late) := by
  refine .of_race ?_ ?_ (s.recordFixed_race x late)
  · unfold State.recordFixed State.setDeadline
    rw [State.setLap_clock]
    exact State.setLap_clock ..
  · unfold State.recordFixed State.setDeadline
    rw [State.setLap_params]
    exact State.setLap_params ..

theorem fixRecord_steady (x : Crossing) (late : Bool) (s : State) : Steady s (fixRecord x late s) := by
  rw [fixRecord_eq]
  have placing := sendPlacing_route (s.fixedRecord x late) ((s.lap x.lap).count + 1) (s.recordFixed x late)
  exact (s.recordFixed_steady x late).trans ((placing.steady (sendPlacing_race ..)).trans (fixEvents_steady ..))

end Sys2Proof.Machine
end

section
/-! PROOFS. The fixing of a record (R87, R94 to R103, R126): its place in the list, its lap, the PLACING frames, the notices and the
race's record. -/

namespace Sys2Proof.Machine

/-! ### Busy ports under the events of a fixing -/

section
variable {s : State} {p : PortNo}

theorem changeCar_called (busy : (s.port p).wire.isSome = true) (i : Slot) (new : CarRecord) (event : Option EventKind) :
    (s.port p).Called ((changeCar i new event s).port p) := by
  have told : (s.port p).Called (((s.putCar i new).told i event).port p) := by
    unfold State.told
    split
    · exact raise_called (s := s.putCar i new) busy _
    · exact .refl _
  exact told.trans (foldl_called _ (s.lostPairs i new) (by rw [told.wire]; exact busy) fun u c still => raise_called still _)

theorem fixFinish_called (busy : (s.port p).wire.isSome = true) (i : Slot) (place : Nat) :
    (s.port p).Called ((fixFinish i place s).port p) := by
  have told : (s.port p).Called ((finishTold i place s).port p) := by
    unfold finishTold
    split
    · have changed := changeCar_called busy i ((s.car i).finished place) none
      exact changed.trans (raise_called (by rw [changed.wire]; exact busy) _)
    · exact raise_called busy _
  rw [fixFinish_eq]
  split
  · rw [firstFinish_eq]
    exact told
  · exact told

theorem lapEvents_called (busy : (s.port p).wire.isSome = true) (x : Crossing) (place : Nat) :
    (s.port p).Called ((lapEvents x place s).port p) := by
  have lead : (s.port p).Called ((leadEvents x place s).port p) := by
    have fixed : (s.port p).Called ((raiseNow .lapFixed [x.slot] s).port p) := raise_called busy _
    unfold leadEvents
    split
    · unfold raiseLeadChange
      split
      · exact fixed.trans (raise_called (by rw [fixed.wire]; exact busy) _)
      · exact fixed
    · exact fixed
  unfold lapEvents
  split
  · exact lead.trans (raise_called (by rw [lead.wire]; exact busy) _)
  · exact lead

/-- At a busy port the events of a fixing add calls, cues and notices only (R143, R144, R145). -/
theorem fixEvents_called (busy : (s.port p).wire.isSome = true) (x : Crossing) (place : Nat) :
    (s.port p).Called ((fixEvents x place s).port p) := by
  have lap := lapEvents_called busy x place
  rw [fixEvents_eq]
  split
  · exact lap.trans (fixFinish_called (by rw [lap.wire]; exact busy) _ _)
  · exact lap

theorem Port.Called.placings {q r : Port} (h : q.Called r) : r.placings = q.placings := by
  obtain ⟨_, _, _, _, rfl⟩ := h
  rfl

/-! ### PLACING frames (R101) -/

theorem State.offerPlacing_of_inactive (b : FrameBody) (inactive : (s.port p).phase ≠ .active) : s.offerPlacing p b = s :=
  if_neg fun active => inactive ((s.isActive_iff p).mp active)

theorem State.offerPlacing_of_busy (b : FrameBody) (active : (s.port p).phase = .active)
    (room : (s.port p).placings.length < 128) (busy : (s.port p).wire.isSome = true) :
    s.offerPlacing p b = s.modPort p fun q => { q with placings := q.placings ++ [s.mkFrame p b] } := by
  have taken : s.offerPlacing p b = (s.modPort p fun q => { q with placings := pushDropOldest 128 q.placings (s.mkFrame p b) }).arbiterTake p :=
    if_pos ((s.isActive_iff p).mpr active)
  have all : pushDropOldest 128 (s.port p).placings (s.mkFrame p b) = (s.port p).placings ++ [s.mkFrame p b] := by
    rw [pushDropOldest, Nat.sub_eq_zero_of_le (by omega), List.drop_zero]
  rw [taken, arbiterTake_busy (by rw [State.port_modPort_self]; exact busy)]
  exact State.modPort_congr (by rw [all])

/-- An idle line with nothing before the PLACING takes it at once (R101, R168). -/
theorem State.offerPlacing_wire_of_idle (b : FrameBody) (active : (s.port p).phase = .active) (idle : (s.port p).wire = none)
    (h1 : (s.port p).class1 = []) (h2 : (s.port p).calls = []) (h3 : (s.port p).cues = []) (h4 : (s.port p).placings = []) :
    ((s.offerPlacing p b).port p).wire
      = some { frame := s.mkFrame p b, sent := s.clock, rate := (s.port p).entry.linkRate } := by
  have taken : s.offerPlacing p b = (s.modPort p fun q => { q with placings := pushDropOldest 128 q.placings (s.mkFrame p b) }).arbiterTake p :=
    if_pos ((s.isActive_iff p).mpr active)
  rw [taken, State.arbiterTake_of_idle (by rw [State.port_modPort_self]; exact idle)
    (State.chooseFrame_placings (f := s.mkFrame p b) (rest := []) (by rw [State.port_modPort_self]; exact h1)
      (by rw [State.port_modPort_self]; exact h2) (by rw [State.port_modPort_self]; exact h3)
      (by rw [State.port_modPort_self, h4]; rfl)), State.port_setPort_self, State.port_modPort_self]
  obtain ⟨training, timing, eq⟩ := Port.sending_eq { s.port p with placings := [] } s.clock (s.mkFrame p b)
  exact congrArg Port.wire eq

/-- The PLACING frame of a record (R101). -/
def placingBody (x : Crossing) (place : Nat) : FrameBody := .placing x.lap place x.slot x.time x.multi x.late x.jump

theorem sendPlacing_port (x : Crossing) (place : Nat) (s : State) (p : PortNo) :
    (sendPlacing x place s).port p = (s.offerPlacing p (placingBody x place)).port p :=
  (servesPort_offerPlacing (placingBody x place)).allPorts s p

theorem State.recordFixed_port (s : State) (x : Crossing) (late : Bool) (p : PortNo) : (s.recordFixed x late).port p = s.port p := by
  unfold State.recordFixed State.setDeadline
  rw [State.port_setLap]
  exact State.port_setLap ..

theorem State.recordFixed_mkFrame (s : State) (x : Crossing) (late : Bool) (p : PortNo) (b : FrameBody) :
    (s.recordFixed x late).mkFrame p b = s.mkFrame p b := by
  have mgmt : (s.recordFixed x late).mgmt = s.mgmt := by
    unfold State.recordFixed State.setDeadline
    rw [State.setLap_mgmt]
    exact State.setLap_mgmt ..
  exact State.mkFrame_congr (by rw [mgmt]) (fun r => by rw [State.recordFixed_port]) p b

end

/-- What the fixing of a record does to a port (R101). -/
theorem fixRecord_port (x : Crossing) (late : Bool) (s : State) (p : PortNo) :
    let t := fixRecord x late s
    let placing := s.mkFrame p (placingBody (s.fixedRecord x late) ((s.lap x.lap).count + 1))
    ((s.port p).phase ≠ .active → t.port p = s.port p)
    ∧ ((s.port p).phase = .active → (s.port p).wire.isSome = true → (s.port p).placings.length < 128 →
      (t.port p).placings = (s.port p).placings ++ [placing])
    ∧ ((s.port p).phase = .active → (s.port p).wire = none → (s.port p).class1 = [] → (s.port p).calls = [] →
      (s.port p).cues = [] → (s.port p).placings = [] →
      (t.port p).wire = some { frame := placing, sent := s.clock, rate := (s.port p).entry.linkRate }) := by
  intro t placing
  have same := s.recordFixed_port x late p
  have sends := sendPlacing_port (s.fixedRecord x late) ((s.lap x.lap).count + 1) (s.recordFixed x late) p
  have eq : t = fixEvents (s.fixedRecord x late) ((s.lap x.lap).count + 1)
      (sendPlacing (s.fixedRecord x late) ((s.lap x.lap).count + 1) (s.recordFixed x late)) := fixRecord_eq x late s
  have frame := s.recordFixed_mkFrame x late p (placingBody (s.fixedRecord x late) ((s.lap x.lap).count + 1))
  have work := (fixEvents_work (s.fixedRecord x late) ((s.lap x.lap).count + 1)
    (sendPlacing (s.fixedRecord x late) ((s.lap x.lap).count + 1) (s.recordFixed x late))).ports p
  rw [← eq] at work
  refine ⟨fun inactive => ((fixRecord_work x late s).ports p).still inactive, fun active busy room => ?_,
    fun active idle h1 h2 h3 h4 => ?_⟩
  · rw [State.offerPlacing_of_busy _ (by rw [same]; exact active) (by rw [same]; exact room) (by rw [same]; exact busy),
      State.port_modPort_self, same, frame] at sends
    have called := fixEvents_called (p := p)
      (s := sendPlacing (s.fixedRecord x late) ((s.lap x.lap).count + 1) (s.recordFixed x late))
      (by rw [sends]; exact busy) (s.fixedRecord x late) ((s.lap x.lap).count + 1)
    rw [eq, called.placings, sends]
  · have wire := State.offerPlacing_wire_of_idle (p := p) (s := s.recordFixed x late)
      (placingBody (s.fixedRecord x late) ((s.lap x.lap).count + 1)) (by rw [same]; exact active) (by rw [same]; exact idle)
      (by rw [same]; exact h1) (by rw [same]; exact h2) (by rw [same]; exact h3) (by rw [same]; exact h4)
    rw [← sends, frame, same, (s.recordFixed_steady x late).clock] at wire
    exact (work.busy (by rw [wire]; rfl)).1.trans wire

/-! ### The notices of a fixing (R102, R137) -/

/-- An event of no slot but those named, raised now (R139). -/
def State.nowEvent (s : State) (kind : EventKind) (slots : List Slot) : Event :=
  { kind := kind, time := s.clock, slots := slots, fault := none }

/-- `es` have been raised, and the work between them sends no notice. -/
structure Tells (es : List Event) (s t : State) : Prop where
  effect : RaceEffect s t
  sent : Sent (s.noticesFor es) s t

theorem Tells.refl (s : State) : Tells [] s s := ⟨.refl s, .refl s⟩

theorem Tells.trans {xs ys : List Event} {s u t : State} (h : Tells xs s u) (k : Tells ys u t) : Tells (xs ++ ys) s t := by
  refine ⟨h.effect.trans k.effect, ?_⟩
  rw [noticesFor_append, ← h.effect.noticesFor ys]
  exact h.sent.trans h.effect k.sent

theorem Tells.silent {s t : State} (effect : RaceEffect s t) (sent : Sent [] s t) : Tells [] s t := ⟨effect, sent⟩

theorem raise_tells (e : Event) (s : State) : Tells [e] s (raise e s) := ⟨(raise_effect e s).race, raise_sent e s⟩

theorem raiseNow_tells {s u : State} (kind : EventKind) (slots : List Slot) (clock : u.clock = s.clock) :
    Tells [s.nowEvent kind slots] u (raiseNow kind slots u) := by
  rw [State.nowEvent, ← clock]
  exact raise_tells ..

/-- The events that end the pairs a car loses, in the set's order (R137). -/
def State.partings (s : State) (i : Slot) : List Event :=
  (s.contacts.filter (pairHolds i)).map fun c => s.nowEvent .contactEnd [i, pairOther i c]

theorem raise_partings (s : State) (i : Slot) (cs : List (Slot × Slot)) {u : State} (clock : u.clock = s.clock) :
    Tells (cs.map fun c => s.nowEvent .contactEnd [i, pairOther i c]) u
      (cs.foldl (fun u c => raiseNow .contactEnd [i, pairOther i c] u) u) := by
  induction cs generalizing u with
  | nil => exact .refl u
  | cons c cs ih =>
    have first := raiseNow_tells (s := s) .contactEnd [i, pairOther i c] clock
    exact first.trans (ih (first.effect.clock.trans clock))

theorem finished_sameCar (c : CarRecord) (place : Nat) : SameCar c (c.finished place) := ⟨rfl, rfl, rfl, rfl, rfl, rfl, rfl⟩

/-- A car that becomes FINISHED loses its pairs (R137). -/
theorem finishChange_tells (s : State) (i : Slot) (place : Nat) :
    Tells (s.partings i) s (changeCar i ((s.car i).finished place) none s) := by
  have put : Tells [] s (s.putCar i ((s.car i).finished place)) :=
    .silent (putCar_effect (finished_sameCar ..)) (.of_ports rfl)
  exact put.trans (raise_partings s i (s.contacts.filter (pairHolds i)) rfl)

section
variable (x : Crossing) (place : Nat) (s : State)

/-- LEAD_CHANGE, where placing 1 of a lap raises it (R102). -/
def State.leadEvent (k : Nat) (i : Slot) : List Event := match leadChange s k i with
  | some slots => [s.nowEvent .leadChange slots]
  | none => []

/-- The events of a fixing but those of a finish (R102). -/
def State.lapFixing : List Event := [s.nowEvent .lapFixed [x.slot]] ++ (if place = 1 then s.leadEvent x.lap x.slot else [])
  ++ (if place = 1 ∧ x.lap = s.params.laps then [s.nowEvent .lastLap [x.slot]] else [])

/-- The events of a finish (R102, R137). -/
def State.finishing (i : Slot) : List Event :=
  (if (s.car i).enabled = true then s.partings i else []) ++ [s.nowEvent .finishFixed [i]]

theorem leadChange_congr {s t : State} (lapTable : t.lapTable = s.lapTable) (k : Nat) (i : Slot) :
    leadChange t k i = leadChange s k i := by
  unfold leadChange State.lap
  rw [lapTable]

theorem raiseLeadChange_tells {s u : State} (route : RouteEffect s u) (k : Nat) (i : Slot) :
    Tells (s.leadEvent k i) u (raiseLeadChange k i u) := by
  unfold raiseLeadChange State.leadEvent
  rw [leadChange_congr route.lapTable]
  cases leadChange s k i with
  | some slots => exact raiseNow_tells _ _ route.clock
  | none => exact .refl u

theorem lapEvents_tells : Tells (s.lapFixing x place) s (lapEvents x place s) := by
  have fixed : Tells [s.nowEvent .lapFixed [x.slot]] s (raiseNow .lapFixed [x.slot] s) := raiseNow_tells _ _ rfl
  have lead : Tells ([s.nowEvent .lapFixed [x.slot]] ++ (if place = 1 then s.leadEvent x.lap x.slot else [])) s
      (leadEvents x place s) := by
    unfold leadEvents
    by_cases first : place = 1
    · rw [if_pos first, if_pos first]
      exact fixed.trans (raiseLeadChange_tells (raiseNow_effect ..) ..)
    · rwa [if_neg first, if_neg first, List.append_nil]
  unfold lapEvents State.lapFixing
  by_cases last : place = 1 ∧ x.lap = s.params.laps
  · rw [if_pos last, if_pos last]
    exact lead.trans (raiseNow_tells _ _ lead.effect.clock)
  · rwa [if_neg last, if_neg last, List.append_nil]

theorem partings_congr {s t : State} (route : RouteEffect s t) (i : Slot) : t.partings i = s.partings i := by
  unfold State.partings State.nowEvent
  rw [route.contacts, route.clock]

theorem finishTold_tells {s u : State} (route : RouteEffect s u) (i : Slot) :
    Tells (s.finishing i) u (finishTold i place u) := by
  unfold finishTold State.finishing
  rw [← partings_congr route, ← route.car i]
  by_cases enabled : (u.car i).enabled = true
  · rw [if_pos enabled, if_pos enabled]
    have changed := finishChange_tells u i place
    exact changed.trans (raiseNow_tells _ _ (changed.effect.clock.trans route.clock))
  · rw [if_neg enabled, if_neg enabled]
    exact raiseNow_tells _ _ route.clock

theorem fixFinish_tells {s u : State} (route : RouteEffect s u) (i : Slot) : Tells (s.finishing i) u (fixFinish i place u) := by
  have told := finishTold_tells place route i
  rw [fixFinish_eq]
  by_cases first : place = 1 ∧ (finishTold i place u).race.state ≠ .closed
  · rw [if_pos first, firstFinish_eq, ← List.append_nil (s.finishing i)]
    exact told.trans (.silent (.withRace _ _) (.of_ports rfl))
  · rwa [if_neg first]

theorem fixEvents_tells : Tells (s.lapFixing x place ++ if x.lap = s.params.laps + 1 then s.finishing x.slot else []) s
    (fixEvents x place s) := by
  have lap := lapEvents_tells x place s
  rw [fixEvents_eq]
  by_cases finish : x.lap = s.params.laps + 1
  · rw [if_pos finish, if_pos finish]
    exact lap.trans (fixFinish_tells place (lapEvents_route x place s) x.slot)
  · rwa [if_neg finish, if_neg finish, List.append_nil]

end

/-! ### The race's record (R126) -/

section
variable {s : State}

theorem State.told_race {i : Slot} {event : Option EventKind} (calm : s.Calm) : (s.told i event).race = s.race := by
  unfold State.told
  split
  · exact raise_race_of_calm calm _
  · rfl

theorem State.Calm.route {s t : State} (calm : s.Calm) (h : RouteEffect s t) (race : t.race = s.race) : t.Calm :=
  calm.congr race h.routes

/-- Events one after another keep the race's record where they call no hold. -/
theorem foldl_raise_race {α : Type} (kind : EventKind) (slots : α → List Slot) (xs : List α) (calm : s.Calm) :
    (xs.foldl (fun u c => raiseNow kind (slots c) u) s).race = s.race := by
  have all : (xs.foldl (fun u c => raiseNow kind (slots c) u) s).race = s.race
      ∧ (xs.foldl (fun u c => raiseNow kind (slots c) u) s).routes = s.routes := by
    refine List.foldlRecOn xs _ (motive := fun u : State => u.race = s.race ∧ u.routes = s.routes) ⟨rfl, rfl⟩
      fun u ⟨race, routes⟩ c _ => ?_
    exact ⟨(raise_race_of_calm (calm.congr race routes) _).trans race, (raise_effect ..).routes.trans routes⟩
  exact all.1

theorem changeCar_race (calm : s.Calm) (i : Slot) (new : CarRecord) (event : Option EventKind) :
    (changeCar i new event s).race = s.race := by
  have put : (s.putCar i new).Calm := calm.congr rfl rfl
  have told : ((s.putCar i new).told i event).race = s.race := State.told_race put
  have routes : ((s.putCar i new).told i event).routes = s.routes := by
    unfold State.told
    split
    · exact (raise_effect ..).routes
    · rfl
  exact (foldl_raise_race _ _ _ (calm.congr told routes)).trans told

theorem lapEvents_race (calm : s.Calm) (x : Crossing) (place : Nat) : (lapEvents x place s).race = s.race := by
  have fixed : (raiseNow .lapFixed [x.slot] s).race = s.race := raise_race_of_calm calm _
  have lead : (leadEvents x place s).race = s.race := by
    unfold leadEvents
    split
    · unfold raiseLeadChange
      split
      · exact (raise_race_of_calm (calm.congr fixed (raise_effect ..).routes) _).trans fixed
      · exact fixed
    · exact fixed
  unfold lapEvents
  split
  · exact (raise_race_of_calm (calm.route (leadEvents_route ..) lead) _).trans lead
  · exact lead

theorem finishTold_race (calm : s.Calm) (i : Slot) (place : Nat) : (finishTold i place s).race = s.race := by
  unfold finishTold
  split
  · have changed := changeCar_race calm i ((s.car i).finished place) none
    exact (raise_race_of_calm (calm.congr changed (changeCar_route ..).routes) _).trans changed
  · exact raise_race_of_calm calm _

theorem State.firstFinished_congr {s t : State} (race : t.race = s.race) (clock : t.clock = s.clock)
    (params : t.params = s.params) : t.firstFinished = s.firstFinished := by
  unfold State.firstFinished firstFinish
  simp only [race, clock, params]
  split <;> rfl

theorem fixEvents_race (calm : s.Calm) (x : Crossing) (place : Nat) : (fixEvents x place s).race
    = if x.lap = s.params.laps + 1 ∧ place = 1 ∧ s.race.state ≠ .closed then s.firstFinished else s.race := by
  have lap := lapEvents_race calm x place
  have route := lapEvents_route x place s
  have told := finishTold_race (calm.route route lap) x.slot place
  have steady := finishTold_steady x.slot place (lapEvents x place s)
  rw [fixEvents_eq]
  by_cases finish : x.lap = s.params.laps + 1
  · rw [if_pos finish, fixFinish_eq, told, lap]
    simp only [finish, true_and]
    split
    · exact State.firstFinished_congr (told.trans lap) (steady.clock.trans route.clock) (steady.params.trans route.params)
    · exact told.trans lap
  · rw [if_neg finish, if_neg fun h => finish h.1]
    exact lap

theorem fixRecord_race (calm : s.Calm) (x : Crossing) (late : Bool) : (fixRecord x late s).race
    = if x.lap = s.params.laps + 1 ∧ (s.lap x.lap).count = 0 ∧ s.race.state ≠ .closed then s.firstFinished else s.race := by
  have written := s.recordFixed_race x late
  have steady := s.recordFixed_steady x late
  have sends := sendPlacing_route (s.fixedRecord x late) ((s.lap x.lap).count + 1) (s.recordFixed x late)
  have race := (sendPlacing_race (s.fixedRecord x late) ((s.lap x.lap).count + 1) (s.recordFixed x late)).trans written
  have routes : (s.recordFixed x late).routes = s.routes := by
    unfold State.recordFixed State.setDeadline
    rw [State.setLap_routes]
    exact State.setLap_routes ..
  rw [fixRecord_eq, fixEvents_race (calm.congr race (sends.routes.trans routes)), race, sends.params, steady.params,
    State.firstFinished_congr race (sends.clock.trans steady.clock) (sends.params.trans steady.params)]
  simp only [State.fixedRecord, Nat.add_eq_right]

end

/-! ### The fixing as a whole -/

section
variable (x : Crossing) (late : Bool) (s : State)

theorem State.recordFixed_keeps : (s.recordFixed x late).contacts = s.contacts ∧ (s.recordFixed x late).cars = s.cars
    ∧ (s.recordFixed x late).routes = s.routes := by
  unfold State.recordFixed State.setDeadline
  rw [State.setLap_contacts, State.setLap_cars, State.setLap_routes]
  exact ⟨State.setLap_contacts .., State.setLap_cars .., State.setLap_routes ..⟩

/-- The state in which the events of a fixing are raised (R101, R102). -/
def State.placed : State := sendPlacing (s.fixedRecord x late) ((s.lap x.lap).count + 1) (s.recordFixed x late)

theorem State.placed_route : RouteEffect (s.recordFixed x late) (s.placed x late) := sendPlacing_route ..

theorem State.lap_recordFixed_of_ne {k : Nat} (ne : k ≠ x.lap) : (s.recordFixed x late).lap k = s.lap k := by
  by_cases zero : k = 0
  · rw [State.lap, State.lap, if_pos zero, if_pos zero]
  have one : 1 ≤ k := Nat.one_le_iff_ne_zero.mpr zero
  unfold State.recordFixed State.setDeadline
  rw [State.lap_setLap_of_ne _ _ ne one]
  exact State.lap_setLap_of_ne _ _ ne one

theorem State.leadEvent_placed (first : 1 ≤ x.lap) : (s.placed x late).leadEvent x.lap x.slot = s.leadEvent x.lap x.slot := by
  have lap : (s.recordFixed x late).lap (x.lap - 1) = s.lap (x.lap - 1) := s.lap_recordFixed_of_ne x late (by omega)
  have same : leadChange (s.placed x late) x.lap x.slot = leadChange s x.lap x.slot := by
    rw [leadChange_congr (s.placed_route x late).lapTable]
    unfold leadChange
    rw [lap]
  unfold State.leadEvent State.nowEvent
  rw [same, (s.placed_route x late).clock, (s.recordFixed_steady x late).clock]

theorem State.recordFixed_tells : Tells ((s.placed x late).lapFixing (s.fixedRecord x late) ((s.lap x.lap).count + 1)
    ++ if x.lap = s.params.laps + 1 then (s.placed x late).finishing x.slot else []) (s.recordFixed x late)
    (fixRecord x late s) := by
  have sends : Tells [] (s.recordFixed x late) (s.placed x late) := .silent (sendPlacing_effect ..) (sendPlacing_sent ..)
  have events := fixEvents_tells (s.fixedRecord x late) ((s.lap x.lap).count + 1) (s.placed x late)
  rw [(s.placed_route x late).params, (s.recordFixed_steady x late).params] at events
  rw [fixRecord_eq]
  exact sends.trans events

theorem Noticed.of_ports {bodies : List FrameBody} {u t : State} (told : Noticed bodies u t) (ports : ∀ d, u.port d = s.port d)
    (director : u.mgmt.director = s.mgmt.director) : Noticed bodies s t := by
  intro d hears
  have role : u.roleHolder = s.roleHolder := State.roleHolder_congr director fun r => by rw [ports]
  have frame : u.mkFrame d = s.mkFrame d := funext fun b => State.mkFrame_congr director (fun r => by rw [ports]) d b
  have sent := told d ⟨role.trans hears.role, by rw [ports]; exact hears.busy, by rw [ports]; exact hears.room⟩
  rwa [ports, frame] at sent

theorem State.placed_nowEvent : (s.placed x late).nowEvent = s.nowEvent := by
  funext kind slots
  unfold State.nowEvent
  rw [(s.placed_route x late).clock, (s.recordFixed_steady x late).clock]

theorem State.placed_partings (i : Slot) : (s.placed x late).partings i = s.partings i := by
  unfold State.partings
  rw [s.placed_nowEvent, (s.placed_route x late).contacts, (s.recordFixed_keeps x late).1]

theorem State.placed_car (i : Slot) : (s.placed x late).car i = s.car i := by
  rw [(s.placed_route x late).car, State.car, (s.recordFixed_keeps x late).2.1, State.car]

/-- The events of the fixing of a record, as they stand in the state before (R102). -/
def State.fixingEvents : List Event :=
  s.lapFixing x ((s.lap x.lap).count + 1) ++ if x.lap = s.params.laps + 1 then s.finishing x.slot else []

theorem fixRecord_noticed (first : 1 ≤ x.lap) : Noticed (s.noticesFor (s.fixingEvents x)) s (fixRecord x late s) := by
  have told := (s.recordFixed_tells x late).sent.noticed
  have params : (s.placed x late).params = s.params :=
    (s.placed_route x late).params.trans (s.recordFixed_steady x late).params
  have lap : (s.placed x late).lapFixing (s.fixedRecord x late) ((s.lap x.lap).count + 1)
      = s.lapFixing x ((s.lap x.lap).count + 1) := by
    have lead : (s.placed x late).leadEvent (s.fixedRecord x late).lap (s.fixedRecord x late).slot
        = s.leadEvent x.lap x.slot := s.leadEvent_placed x late first
    unfold State.lapFixing
    rw [s.placed_nowEvent, params, lead]
    rfl
  have finish : (s.placed x late).finishing x.slot = s.finishing x.slot := by
    unfold State.finishing
    rw [s.placed_nowEvent, s.placed_partings, s.placed_car]
  have routes : (s.recordFixed x late).noticesFor = s.noticesFor := by
    funext es
    unfold State.noticesFor
    rw [(s.recordFixed_keeps x late).2.2]
  have director : (s.recordFixed x late).mgmt = s.mgmt := by
    unfold State.recordFixed State.setDeadline
    rw [State.setLap_mgmt]
    exact State.setLap_mgmt ..
  rw [lap, finish, routes] at told
  exact told.of_ports s (s.recordFixed_port x late) (by rw [director])

theorem fixRecord_car (i : Slot) : (fixRecord x late s).car i
    = if i = x.slot ∧ x.lap = s.params.laps + 1 ∧ (s.car x.slot).enabled = true
      then (s.car x.slot).finished ((s.lap x.lap).count + 1) else s.car i := by
  have car (j : Slot) : (s.recordFixed x late).car j = s.car j := by
    rw [State.car, (s.recordFixed_keeps x late).2.1, State.car]
  rw [(fixRecord_route x late s).car i, State.fixed, State.finishedBy, (s.recordFixed_steady x late).params]
  by_cases finish : x.lap = s.params.laps + 1
  · rw [if_pos finish, State.finishCar_car, car, car]
    simp only [finish, true_and]
  · rw [if_neg finish, car, if_neg fun h => finish h.2.1]

theorem State.finishedBy_keeps (y : Crossing) (place : Nat) : (s.finishedBy y place).crossings = s.crossings
    ∧ (s.finishedBy y place).lapTable = s.lapTable ∧ (s.finishedBy y place).params = s.params := by
  unfold State.finishedBy State.finishCar
  split_ifs <;> exact ⟨rfl, rfl, rfl⟩

theorem fixRecord_crossings : (fixRecord x late s).crossings = fixInList x (s.fixedRecord x late) late s.crossings := by
  rw [(fixRecord_route x late s).crossings, State.fixed, (State.finishedBy_keeps ..).1]
  unfold State.recordFixed State.setDeadline
  rw [State.setLap_crossings]

theorem fixRecord_params : (fixRecord x late s).params = s.params := (fixRecord_steady x late s).params

theorem fixRecord_lapTable : (fixRecord x late s).lapTable = (s.recordFixed x late).lapTable := by
  rw [(fixRecord_route x late s).lapTable, State.fixed, (State.finishedBy_keeps ..).2.1]

theorem State.lap_congr {t : State} (lapTable : t.lapTable = s.lapTable) (k : Nat) : t.lap k = s.lap k := by
  rw [State.lap, lapTable, State.lap]

theorem fixRecord_lap_of_ne {k : Nat} (ne : k ≠ x.lap) : (fixRecord x late s).lap k = s.lap k :=
  ((s.recordFixed x late).lap_congr (fixRecord_lapTable x late s) k).trans (s.lap_recordFixed_of_ne x late ne)

/-- The fixed record's lap (R100, R103). -/
theorem fixRecord_lap (first : 1 ≤ x.lap) (last : x.lap ≤ 100) : (fixRecord x late s).lap x.lap
    = { (s.lap x.lap).afterFix x late with
        deadline := ((fixRecord x late s).firstProvisional x.lap).map fun y => addTime y.time s.params.settle } := by
  have provisional : (fixRecord x late s).firstProvisional x.lap
      = (fixInList x (s.fixedRecord x late) late s.crossings).find? fun y => decide (y.lap = x.lap) && y.isProvisional := by
    unfold State.firstProvisional
    rw [fixRecord_crossings]
  rw [(s.recordFixed x late).lap_congr (fixRecord_lapTable x late s), provisional]
  unfold State.recordFixed State.setDeadline
  rw [State.lap_setLap_self _ _ first last]
  have written : ({ s.setLap x.lap ((s.lap x.lap).afterFix x late) with
      crossings := fixInList x (s.fixedRecord x late) late s.crossings } : State).lap x.lap
      = (s.lap x.lap).afterFix x late := State.lap_setLap_self s _ first last
  rw [written]
  unfold State.firstProvisional
  have params : (s.setLap x.lap ((s.lap x.lap).afterFix x late)).params = s.params := State.setLap_params ..
  rw [← params]

end

end Sys2Proof.Machine
end

section
/-! PROOFS. The Crossing List (R87, R94 to R97): its order, the room for one more record, and how a crossing is entered. -/

namespace Sys2Proof.Machine

/-! ### The order of the list (R87, R94) -/

theorem insertCrossing_split (x : Crossing) (xs : List Crossing) : ∃ pre post, xs = pre ++ post
    ∧ insertCrossing x xs = pre ++ x :: post ∧ (∀ y ∈ pre, x.before y = false)
    ∧ (∀ y, post.head? = some y → x.before y = true) := by
  induction xs with
  | nil => exact ⟨[], [], rfl, rfl, nofun, nofun⟩
  | cons y ys ih =>
    unfold insertCrossing
    split
    · next before =>
      refine ⟨[], y :: ys, rfl, rfl, nofun, fun z is => ?_⟩
      cases is
      exact before
    · next after =>
      obtain ⟨pre, post, rfl, inserted, passed, stops⟩ := ih
      refine ⟨y :: pre, post, rfl, by rw [inserted, List.cons_append], fun z mem => ?_, stops⟩
      obtain rfl | mem := List.mem_cons.mp mem
      · exact Bool.eq_false_iff.mpr after
      · exact passed z mem

theorem Crossing.isProvisional_iff (x : Crossing) : x.isProvisional = true ↔ x.status = .provisional := decide_eq_true_iff

theorem Crossing.before_iff (x y : Crossing) : x.before y = true ↔ x.lap < y.lap ∨ (x.lap = y.lap ∧
    ((∃ m n, x.status = .fixed m ∧ y.status = .fixed n ∧ m < n)
    ∨ (x.isProvisional = false ∧ y.isProvisional = true)
    ∨ (x.isProvisional = true ∧ y.isProvisional = true ∧ (earlier x.time y.time = true
      ∨ (x.time = y.time ∧ (y.rankS < x.rankS ∨ (x.rankS = y.rankS ∧ x.slot < y.slot))))))) := by
  unfold Crossing.before
  cases hx : x.status <;> cases hy : y.status <;> simp [Crossing.isProvisional, Crossing.tieBefore, hx, hy]

/-! ### The leading lap (R96) -/

theorem foldl_max_spec {α : Type} (f : α → Option Nat) (xs : List α) (m : Nat) :
    let r := xs.foldl (fun m x => match f x with | some n => max m n | none => m) m
    m ≤ r ∧ (∀ x ∈ xs, ∀ n, f x = some n → n ≤ r) ∧ (r ≠ m → ∃ x ∈ xs, f x = some r) := by
  induction xs generalizing m with
  | nil => exact ⟨Nat.le_refl m, nofun, fun ne => absurd rfl ne⟩
  | cons x xs ih =>
    intro r
    cases fx : f x with
    | none =>
      have step : r = xs.foldl (fun m x => match f x with | some n => max m n | none => m) m := by
        simp only [r, List.foldl_cons, fx]
      obtain ⟨least, bound, reached⟩ := ih m
      rw [← step] at least bound reached
      refine ⟨least, fun y mem n is => ?_, fun ne => ?_⟩
      · obtain rfl | mem := List.mem_cons.mp mem
        · exact nomatch fx.symm.trans is
        · exact bound y mem n is
      · obtain ⟨y, mem, is⟩ := reached ne
        exact ⟨y, .tail _ mem, is⟩
    | some k =>
      have step : r = xs.foldl (fun m x => match f x with | some n => max m n | none => m) (max m k) := by
        simp only [r, List.foldl_cons, fx]
      obtain ⟨least, bound, reached⟩ := ih (max m k)
      rw [← step] at least bound reached
      refine ⟨by omega, fun y mem n is => ?_, fun ne => ?_⟩
      · obtain rfl | mem := List.mem_cons.mp mem
        · cases fx.symm.trans is
          omega
        · exact bound y mem n is
      · by_cases top : r = max m k
        · exact ⟨x, .head _, by rw [fx, top]; congr 1; omega⟩
        · obtain ⟨y, mem, is⟩ := reached top
          exact ⟨y, .tail _ mem, is⟩

theorem State.leaderLap_eq (s : State) : s.leaderLap = allSlots.foldl (fun m i =>
    match (s.car i).last.map fun x => x.lap with | some n => max m n | none => m) 0 := by
  unfold State.leaderLap
  congr 1
  funext m i
  cases (s.car i).last <;> rfl

theorem State.le_leaderLap {s : State} {i : Slot} {y : Sample} (last : (s.car i).last = some y) : y.lap ≤ s.leaderLap := by
  rw [State.leaderLap_eq]
  exact (foldl_max_spec (fun i => (s.car i).last.map fun x => x.lap) allSlots 0).2.1 i (mem_allSlots i) y.lap (by rw [last]; rfl)

theorem State.exists_leaderLap {s : State} (led : s.leaderLap ≠ 0) : ∃ i y, (s.car i).last = some y ∧ y.lap = s.leaderLap := by
  rw [State.leaderLap_eq] at led ⊢
  obtain ⟨i, -, is⟩ := (foldl_max_spec (fun i => (s.car i).last.map fun x => x.lap) allSlots 0).2.2 led
  obtain ⟨y, last, lap⟩ := Option.map_eq_some_iff.mp is
  exact ⟨i, y, last, lap⟩

/-! ### Entering a crossing (R95, R96) -/

section
variable {s : State} {x : Crossing}

theorem removable_iff (n laps : Nat) (y : Crossing) :
    removable n laps y = true ↔ y.isProvisional = false ∧ y.lap + 1 < n ∧ y.lap < laps + 1 := by
  simp [removable, and_assoc]

theorem removeFirst_of_none {α : Type} {p : α → Bool} {xs : List α} (none : ∀ x ∈ xs, ¬p x = true) :
    removeFirst p xs = .none := by
  induction xs with
  | nil => rfl
  | cons x xs ih =>
    unfold removeFirst
    rw [if_neg (none x (.head _)), ih fun y mem => none y (.tail _ mem)]
    rfl

theorem removeFirst_of_first {α : Type} {p : α → Bool} {pre post : List α} {y : α} (goes : p y = true)
    (passed : ∀ z ∈ pre, ¬p z = true) : removeFirst p (pre ++ y :: post) = some (pre ++ post) := by
  induction pre with
  | nil => exact if_pos goes
  | cons z pre ih =>
    rw [List.cons_append, removeFirst, if_neg (passed z (.head _)), ih fun w mem => passed w (.tail _ mem)]
    rfl

theorem isLate_iff (r : LapRecord) (x : Crossing) : isLate r x = true ↔ ∃ t, r.time = some t ∧ earlier x.time t = true := by
  unfold isLate
  cases r.time <;> simp

theorem enterCrossing_of_full (full : s.makeRoom = none) : enterCrossing s x
    = { s.modCar x.slot fun c => { c with unplaced := true } with crossingLost := bump s.crossingLost } := by
  unfold enterCrossing
  rw [full]

theorem enterCrossing_of_room {xs : List Crossing} (room : s.makeRoom = some xs) : enterCrossing s x
    = if isLate (s.lap x.lap) x then fixRecord x true { s with crossings := xs }
      else ({ s with crossings := insertCrossing x xs } : State).setDeadline x.lap := by
  unfold enterCrossing
  rw [room]
  rfl

end

section
variable (x : Crossing) (s : State)

/-- The events of a fixing, with the leader of the lap before and the pairs of the car written out (R102, R137). -/
theorem State.fixingEvents_eq :
    let now (kind : EventKind) (slots : List Slot) : Event := { kind := kind, time := s.clock, slots := slots, fault := none }
    let count := (s.lap x.lap).count
    let finish : Prop := x.lap = s.params.laps + 1
    s.fixingEvents x = [now .lapFixed [x.slot]]
      ++ (if count = 0 then (match (s.lap (x.lap - 1)).leader with
        | none => [now .leadChange [x.slot]]
        | some f => if f = x.slot then [] else [now .leadChange [x.slot, f]]) else [])
      ++ (if count = 0 ∧ x.lap = s.params.laps then [now .lastLap [x.slot]] else [])
      ++ (if finish ∧ (s.car x.slot).enabled = true then
        (s.contacts.filter fun y => decide (y.1 = x.slot ∨ y.2 = x.slot)).map fun y =>
          now .contactEnd [x.slot, if y.1 = x.slot then y.2 else y.1] else [])
      ++ (if finish then [now .finishFixed [x.slot]] else []) := by
  intro now count finish
  have lead : s.leadEvent x.lap x.slot = (match (s.lap (x.lap - 1)).leader with
        | none => [now .leadChange [x.slot]]
        | some f => if f = x.slot then [] else [now .leadChange [x.slot, f]]) := by
    unfold State.leadEvent leadChange
    cases (s.lap (x.lap - 1)).leader with
    | none => rfl
    | some f =>
      by_cases own : f = x.slot
      · simp only [own, if_true]
      · simp only [own, if_false]
        rfl
  have first : count + 1 = 1 ↔ count = 0 := by omega
  unfold State.fixingEvents State.lapFixing State.finishing
  simp only [lead, count] at first ⊢
  simp only [first]
  by_cases done : x.lap = s.params.laps + 1
  · simp only [done, true_and, if_true, finish, List.append_assoc]
    rfl
  · simp only [done, false_and, if_false, finish, List.append_nil]
    rfl

theorem State.mayGo_of_makeRoom {xs : List Crossing}
    (room : (s.crossings.length < 128 ∧ xs = s.crossings) ∨ (128 ≤ s.crossings.length ∧ ∃ pre y post, s.crossings = pre ++ y :: post
      ∧ removable s.leaderLap s.params.laps y = true ∧ (∀ z ∈ pre, ¬removable s.leaderLap s.params.laps z = true)
      ∧ xs = pre ++ post)) : s.makeRoom = some xs := by
  unfold State.makeRoom
  obtain ⟨few, rfl⟩ | ⟨full, pre, y, post, list, goes, passed, rfl⟩ := room
  · exact if_pos few
  · rw [if_neg (Nat.not_lt.mpr full), list, removeFirst_of_first goes passed]

theorem State.makeRoom_of_none (full : 128 ≤ s.crossings.length)
    (none : ∀ y ∈ s.crossings, ¬removable s.leaderLap s.params.laps y = true) : s.makeRoom = .none := by
  unfold State.makeRoom
  rw [if_neg (Nat.not_lt.mpr full), removeFirst_of_none none]

end

/-- Settles O36: the fixing writes a record, its lap and at most one car before its events are raised, and these write no more
than ports and the race's record. -/
theorem recordFixed : Obligations.RecordFixed := by
  refine ⟨fun x late s first last => ?lap, fun x late s first last => ⟨fun p => fixRecord_port x late s p, ?told, fun i => ?car,
      fun noHold => ?race⟩,
    insertCrossing_split, Crossing.before_iff, fun s => ⟨fun _ _ => State.le_leaderLap, State.exists_leaderLap⟩, fun x s => ?enter⟩
  case lap =>
    have lap := fixRecord_lap x late s first last
    have count := congrArg LapRecord.count lap
    have time := congrArg LapRecord.time lap
    have leader := congrArg LapRecord.leader lap
    have deadline := congrArg LapRecord.deadline lap
    exact ⟨count, time, leader, deadline, fun k ne => fixRecord_lap_of_ne x late s ne, fixRecord_crossings x late s⟩
  case told =>
    have told := fixRecord_noticed x late s first
    rwa [s.fixingEvents_eq x] at told
  case car => exact fixRecord_car x late s i
  case race =>
    have race := fixRecord_race (s := s) (.inr noHold) x late
    intro won
    have state (is : won) : (fixRecord x late s).race = s.firstFinished := race.trans (if_pos is)
    refine ⟨fun not => race.trans (if_neg not), fun is running => ?_, fun is countdown => ?_, fun h is holds tH => ?_⟩
    · rw [state is, State.firstFinished, firstFinish_of_running running]
    · rw [state is, State.firstFinished, firstFinish_of_other (by rw [countdown]; decide) (by simp [RaceState.Holds, countdown])]
    · have holding : s.race.state.Holds := by simpa [RaceState.Holds] using holds
      rw [state is, State.firstFinished, firstFinish_of_holds holding]
      simp only [State.finishBase, tH]
  case enter =>
    intro mayGo late room
    have goes (y : Crossing) : mayGo y ↔ removable s.leaderLap s.params.laps y = true := (removable_iff ..).symm
    have made {xs : List Crossing} (is : room xs) : s.makeRoom = some xs := by
      simp only [room, goes] at is
      exact s.mayGo_of_makeRoom is
    have isLate : isLate (s.lap x.lap) x = true ↔ late := isLate_iff ..
    refine ⟨fun full none => ?_, fun xs is => fun lost => ?_, fun xs is inTime => ?_⟩
    · exact enterCrossing_of_full (s.makeRoom_of_none full fun y mem => fun out => none y mem ((goes y).mpr out))
    · rw [enterCrossing_of_room (made is), if_pos (isLate.mpr lost)]
    · refine ⟨_, rfl, ?_⟩
      rw [enterCrossing_of_room (made is), if_neg fun yes => inTime (isLate.mp yes)]
      rfl

end Sys2Proof.Machine
end

section
/-! PROOFS. Fixing evaluations (R98, R99, R126, R127): whatever records they fix, they leave the FIXED ones, finish cars alone and
suspend nothing; and the close, which fixes every record. -/

namespace Sys2Proof.Machine

/-! ### The Crossing List after a fixing in place (R100) -/

section
variable {x fixed : Crossing} {xs : List Crossing}

theorem mem_fixInList {y : Crossing} : y ∈ fixInList x fixed false xs ↔ (y ∈ xs ∧ y ≠ x) ∨ (x ∈ xs ∧ y = fixed) := by
  simp only [fixInList, Bool.false_eq_true, if_false, List.mem_map]
  constructor
  · rintro ⟨z, mem, is⟩
    split at is
    · next same => exact .inr ⟨same ▸ mem, is.symm⟩
    · next other => exact .inl ⟨is ▸ mem, is ▸ other⟩
  · rintro (⟨mem, other⟩ | ⟨mem, rfl⟩)
    · exact ⟨y, mem, if_neg other⟩
    · exact ⟨x, mem, if_pos rfl⟩

/-- A fixing leaves fewer PROVISIONAL records. -/
theorem provisional_fixInList (mem : x ∈ xs) (provisional : x.isProvisional = true) (now : fixed.isProvisional = false) :
    (fixInList x fixed false xs).countP Crossing.isProvisional < xs.countP Crossing.isProvisional := by
  have least (ys : List Crossing) :
      (fixInList x fixed false ys).countP Crossing.isProvisional ≤ ys.countP Crossing.isProvisional := by
    simp only [fixInList, Bool.false_eq_true, if_false, List.countP_map]
    refine List.countP_mono_left fun y _ is => ?_
    simp only [Function.comp_apply] at is
    split at is
    · exact absurd is (Bool.eq_false_iff.mp now)
    · exact is
  induction xs with
  | nil => exact nomatch mem
  | cons y ys ih =>
    have step : fixInList x fixed false (y :: ys) = (if y = x then fixed else y) :: fixInList x fixed false ys := rfl
    rw [step, List.countP_cons, List.countP_cons]
    by_cases same : y = x
    · rw [if_pos same, now, same, provisional]
      have := least ys
      simp
      omega
    · obtain rfl | mem := List.mem_cons.mp mem
      · exact absurd rfl same
      · rw [if_neg same]
        have := ih mem
        omega

end

/-! ### What every fixing evaluation keeps -/

/-- The record of a lap is as it was, or more records of the lap are FIXED. -/
def LapGrown (r r' : LapRecord) : Prop := r.count < r'.count ∨ (r'.count = r.count ∧ r'.time = r.time)

theorem LapGrown.refl (r : LapRecord) : LapGrown r r := .inr ⟨rfl, rfl⟩

theorem LapGrown.trans {a b c : LapRecord} (h : LapGrown a b) (k : LapGrown b c) : LapGrown a c := by
  obtain h | ⟨count, time⟩ := h
  · obtain k | ⟨count', -⟩ := k
    · exact .inl (Nat.lt_trans h k)
    · exact .inl (by omega)
  · obtain k | ⟨count', time'⟩ := k
    · exact .inl (by omega)
    · exact .inr ⟨count'.trans count, time'.trans time⟩

/-- What the fixing of records does to a state: no record appears, PROVISIONAL ones may become FIXED, and only a car with such a
finish crossing becomes FINISHED (R38, R100). -/
structure Fixing (s t : State) : Prop where
  effect : RaceEffect s t
  steady : Steady s t
  fresh : ∀ x ∈ t.crossings, x.isProvisional = true → x ∈ s.crossings
  records : ∀ x ∈ s.crossings, ∃ st, { x with status := st } ∈ t.crossings ∧ (x.isProvisional = false → st = x.status)
  laps : ∀ k, LapGrown (s.lap k) (t.lap k)
  cars : ∀ i, t.car i = s.car i ∨ (FinishedSince i s t ∧ (s.car i).enabled = true)
  finishes : ∀ x ∈ s.crossings, x.isProvisional = true → x.lap = s.params.laps + 1 → (s.car x.slot).enabled = true →
    x ∈ t.crossings ∨ (t.car x.slot).state = .finished

theorem Fixing.of_keeps {s t : State} (effect : RaceEffect s t) (steady : Steady s t) (crossings : t.crossings = s.crossings)
    (laps : ∀ k, LapGrown (s.lap k) (t.lap k)) (cars : t.cars = s.cars) : Fixing s t where
  effect := effect
  steady := steady
  fresh x mem _ := crossings ▸ mem
  records x mem := ⟨x.status, by rw [crossings]; exact mem, fun _ => rfl⟩
  laps := laps
  cars i := .inl (by rw [State.car, cars, State.car])
  finishes x mem _ _ _ := .inl (by rw [crossings]; exact mem)

theorem Fixing.refl (s : State) : Fixing s s := .of_keeps (.refl s) (.refl s) rfl (fun _ => .refl _) rfl

theorem Fixing.trans {s u t : State} (h : Fixing s u) (k : Fixing u t) : Fixing s t where
  effect := h.effect.trans k.effect
  steady := h.steady.trans k.steady
  fresh x mem provisional := h.fresh x (k.fresh x mem provisional) provisional
  records x mem := by
    obtain ⟨st, mem', keeps⟩ := h.records x mem
    obtain ⟨st', mem'', keeps'⟩ := k.records _ mem'
    refine ⟨st', mem'', fun fixed => ?_⟩
    have same := keeps fixed
    subst same
    exact keeps' fixed
  laps j := (h.laps j).trans (k.laps j)
  cars i := by
    have enabled := (h.effect.cars i).enabled
    obtain same | ⟨⟨⟨x, mem, provisional, slot, lap⟩, state, coast, lose⟩, on⟩ := k.cars i
    · obtain same' | ⟨⟨may, state, coast, lose⟩, on⟩ := h.cars i
      · exact .inl (same.trans same')
      · exact .inr ⟨⟨may, by rwa [same], by rwa [same], by rwa [same]⟩, on⟩
    · exact .inr ⟨⟨⟨x, h.fresh x mem provisional, provisional, slot, by rw [lap, h.effect.params]⟩, state, coast, lose⟩,
        enabled.symm.trans on⟩
  finishes x mem provisional lap on := by
    obtain still | done := h.finishes x mem provisional lap on
    · exact k.finishes x still provisional (by rw [lap, h.effect.params]) ((h.effect.cars x.slot).enabled.trans on)
    · obtain same | ⟨⟨-, state, -⟩, -⟩ := k.cars x.slot
      · exact .inr (by rwa [same])
      · exact .inr state

theorem RouteEffect.fixing {s t : State} (h : RouteEffect s t) (steady : Steady s t) : Fixing s t :=
  .of_keeps h.race steady h.crossings (fun k => by rw [s.lap_congr h.lapTable]; exact .refl _) h.cars

theorem raise_fixing (e : Event) (s : State) : Fixing s (raise e s) := (raise_effect e s).fixing (raise_steady e s)

/-! ### Laps beyond the Lap Table -/

theorem State.setLap_beyond (s : State) {k : Nat} (r : LapRecord) (beyond : k = 0 ∨ 100 < k) : s.setLap k r = s := by
  unfold State.setLap
  obtain zero | far := beyond
  · exact if_pos zero
  · have out : s.lapTable.setIfInBounds (k - 1) r = s.lapTable := by
      apply Vector.ext
      intro i inside
      rw [Vector.getElem_setIfInBounds, if_neg (by omega)]
    rw [out]
    split <;> rfl

theorem setDeadline_laps (s : State) (j k : Nat) : LapGrown (s.lap k) ((s.setDeadline j).lap k) := by
  unfold State.setDeadline
  by_cases beyond : j = 0 ∨ 100 < j
  · rw [State.setLap_beyond s _ beyond]
    exact .refl _
  by_cases same : k = j
  · subst same
    rw [State.lap_setLap_self _ _ (by omega) (by omega)]
    exact .inr ⟨rfl, rfl⟩
  · by_cases zero : k = 0
    · subst zero
      exact .refl _
    · rw [State.lap_setLap_of_ne _ _ same (by omega)]
      exact .refl _

theorem setDeadline_fixing (s : State) (k : Nat) : Fixing s (s.setDeadline k) :=
  .of_keeps (setDeadline_effect s k) (.of_race (State.setLap_clock ..) (State.setLap_params ..) (State.setLap_race ..))
    (State.setLap_crossings ..) (setDeadline_laps s k) (State.setLap_cars ..)

theorem setAllDeadlines_fixing (s : State) : Fixing s s.setAllDeadlines := by
  unfold State.setAllDeadlines
  induction s.raceLaps generalizing s with
  | nil => exact .refl s
  | cons k ks ih => exact (setDeadline_fixing s k).trans (ih _)

/-! ### The fixing of one record -/

section
variable {x : Crossing} {s : State}

theorem fixedRecord_isProvisional (late : Bool) : (s.fixedRecord x late).isProvisional = false := by
  simp [State.fixedRecord, Crossing.isProvisional]

theorem mem_fixRecord {y : Crossing} : y ∈ (fixRecord x false s).crossings
    ↔ (y ∈ s.crossings ∧ y ≠ x) ∨ (x ∈ s.crossings ∧ y = s.fixedRecord x false) := by
  rw [fixRecord_crossings, mem_fixInList]

theorem fixRecord_laps (late : Bool) (k : Nat) : LapGrown (s.lap k) ((fixRecord x late s).lap k) := by
  by_cases same : k = x.lap
  · by_cases beyond : x.lap = 0 ∨ 100 < x.lap
    · have none : (s.recordFixed x late).lapTable = s.lapTable := by
        unfold State.recordFixed State.setDeadline
        rw [State.setLap_beyond _ _ beyond]
        have same := congrArg State.lapTable (s.setLap_beyond ((s.lap x.lap).afterFix x late) beyond)
        exact same
      rw [s.lap_congr ((fixRecord_lapTable x late s).trans none)]
      exact .refl _
    · subst same
      rw [fixRecord_lap x late s (by omega) (by omega)]
      exact .inl (Nat.lt_succ_self _)
  · rw [fixRecord_lap_of_ne x late s same]
    exact .refl _

theorem fixRecord_fixing (mem : x ∈ s.crossings) (provisional : x.isProvisional = true) : Fixing s (fixRecord x false s) where
  effect := fixRecord_provisional_effect x s
  steady := fixRecord_steady x false s
  fresh y mem' still := by
    obtain ⟨is, -⟩ | ⟨-, rfl⟩ := mem_fixRecord.mp mem'
    · exact is
    · exact absurd still (Bool.eq_false_iff.mp (fixedRecord_isProvisional false))
  records y mem' := by
    by_cases same : y = x
    · subst same
      exact ⟨_, mem_fixRecord.mpr (.inr ⟨mem, rfl⟩), fun fixed => absurd provisional (Bool.eq_false_iff.mp fixed)⟩
    · exact ⟨y.status, mem_fixRecord.mpr (.inl ⟨mem', same⟩), fun _ => rfl⟩
  laps := fixRecord_laps false
  cars i := by
    have car := fixRecord_car x false s i
    by_cases finished : i = x.slot ∧ x.lap = s.params.laps + 1 ∧ (s.car x.slot).enabled = true
    · rw [if_pos finished] at car
      obtain ⟨rfl, lap, on⟩ := finished
      exact .inr ⟨⟨⟨x, mem, provisional, rfl, lap⟩, by rw [car]; rfl, by rw [car]; rfl, by rw [car]; rfl⟩, on⟩
    · rw [if_neg finished] at car
      exact .inl car
  finishes y mem' _ lap on := by
    by_cases same : y = x
    · subst same
      right
      rw [fixRecord_car, if_pos ⟨rfl, lap, on⟩]
      rfl
    · exact .inl (mem_fixRecord.mpr (.inl ⟨mem', same⟩))

end

/-! ### Passes (R99) -/

theorem State.firstProvisional_spec {s : State} {k : Nat} {x : Crossing} (first : s.firstProvisional k = some x) :
    x ∈ s.crossings ∧ x.lap = k ∧ x.isProvisional = true := by
  have holds := List.find?_some first
  simp only [Bool.and_eq_true, decide_eq_true_eq] at holds
  exact ⟨List.mem_of_find?_eq_some first, holds.1, holds.2⟩

theorem fixLap_fixing (k fuel : Nat) (s : State) : Fixing s (fixLap k fuel s) := by
  induction fuel generalizing s with
  | zero => exact .refl s
  | succ n ih =>
    unfold fixLap
    split
    · next x first =>
      obtain ⟨mem, -, provisional⟩ := State.firstProvisional_spec first
      split
      · exact (fixRecord_fixing mem provisional).trans (ih _)
      · exact .refl s
    · exact .refl s

theorem fixPass_fixing (s : State) : Fixing s (fixPass s) := by
  unfold fixPass
  induction s.raceLaps generalizing s with
  | nil => exact .refl s
  | cons k ks ih => exact (fixLap_fixing k _ s).trans (ih _)

theorem fixPasses_fixing (fuel : Nat) (s : State) : Fixing s (fixPasses fuel s) := by
  induction fuel generalizing s with
  | zero => exact .refl s
  | succ n ih =>
    unfold fixPasses
    simp only
    split
    · exact fixPass_fixing s
    · exact (fixPass_fixing s).trans (ih _)

theorem fixAll_fixing (fuel : Nat) (s : State) : Fixing s (fixAll fuel s) := by
  induction fuel generalizing s with
  | zero => exact .refl s
  | succ n ih =>
    unfold fixAll
    split
    · next x first => exact (fixRecord_fixing (List.mem_of_find?_eq_some first) (List.find?_some first)).trans (ih _)
    · exact .refl s

/-! ### Age evaluations without their report (R32) -/

section
variable (s : State) (i : Slot)

theorem State.setCar_self : s.setCar i (s.car i) = s := by
  unfold State.setCar State.car
  congr 1
  exact Vector.set_getElem_self ..

/-- A car that is neither LIVE nor COASTING, or has no sample, does not age (R32). -/
theorem ageStep_of_ageless (ageless : (s.car i).last = none ∨ ((s.car i).state ≠ .live ∧ (s.car i).state ≠ .coasting)) :
    ageStep i s = s ∧ s.agedState i = (s.car i).state ∧ s.agedCar i = s.car i := by
  cases last : (s.car i).last with
  | none => simp only [ageStep, State.agedState, State.agedCar, last, and_self]
  | some x =>
    have still : (s.car i).state ≠ .live ∧ (s.car i).state ≠ .coasting := by simpa [last] using ageless
    refine ⟨?_, ?_, ?_⟩
    · obtain ⟨notLive, notCoasting⟩ := still
      cases state : (s.car i).state <;> simp_all [ageStep]
    · simp only [State.agedState, last, still, or_self, false_and, if_false]
    · simp only [State.agedCar, last]
      exact if_pos still

section
variable {s : State} {i : Slot} {x : Sample} (last : (s.car i).last = some x)
include last

theorem ageStep_of_old (old : (s.params.loseAfter : Int) < timeDiff s.clock x.time)
    (ages : (s.car i).state = .live ∨ (s.car i).state = .coasting) :
    ageStep i s = changeCar i (s.car i).lost (some .carLost) s ∧ s.agedState i = .lost ∧ s.agedCar i = (s.car i).lost := by
  have state : s.agedState i = .lost := by
    simp only [State.agedState, last]
    exact if_pos ⟨ages, old⟩
  refine ⟨?_, state, ?_⟩
  · obtain is | is := ages <;> simp only [ageStep, last, is, old, if_true]
  · simp only [State.agedCar, last, state]
    have aging : ¬((s.car i).state ≠ .live ∧ (s.car i).state ≠ .coasting) := fun still => ages.elim still.1 still.2
    rw [if_neg aging, CarRecord.lost, last]

theorem ageStep_of_late (young : timeDiff s.clock x.time ≤ s.params.loseAfter) (live : (s.car i).state = .live)
    (late : (s.params.coastAfter : Int) < timeDiff s.clock x.time) :
    ageStep i s = changeCar i (s.coasting (s.car i)) (some .carCoasting) s ∧ s.agedState i = .coasting
      ∧ s.agedCar i = s.coasting (s.car i) := by
  have young' : ¬(s.params.loseAfter : Int) < timeDiff s.clock x.time := Int.not_lt.mpr young
  have state : s.agedState i = .coasting := by
    simp only [State.agedState, last, live, young', late, and_false, if_false, and_self, if_true]
  refine ⟨?_, state, ?_⟩
  · simp only [ageStep, last, live, young', late, if_false, if_true]
  · simp only [State.agedCar, last, state, live]
    simp [State.coasting, last, State.loseDeadline]

theorem ageStep_of_fresh (young : timeDiff s.clock x.time ≤ s.params.loseAfter) (live : (s.car i).state = .live)
    (fresh : timeDiff s.clock x.time ≤ s.params.coastAfter) :
    ageStep i s = s.setCar i { s.car i with coastTimer := some (addTime x.time s.params.coastAfter) } ∧ s.agedState i = .live
      ∧ s.agedCar i = { s.car i with coastTimer := some (addTime x.time s.params.coastAfter) } := by
  have young' : ¬(s.params.loseAfter : Int) < timeDiff s.clock x.time := Int.not_lt.mpr young
  have fresh' : ¬(s.params.coastAfter : Int) < timeDiff s.clock x.time := Int.not_lt.mpr fresh
  have state : s.agedState i = .live := by
    simp only [State.agedState, last, live, young', fresh', and_false, if_false]
  refine ⟨?_, state, ?_⟩
  · simp only [ageStep, last, live, young', fresh', if_false]
    rfl
  · simp only [State.agedCar, last, state, live]
    simp

theorem ageStep_of_coasting (young : timeDiff s.clock x.time ≤ s.params.loseAfter) (coasting : (s.car i).state = .coasting) :
    ageStep i s = s.setCar i { s.car i with loseTimer := some (addTime x.time s.params.loseAfter) } ∧ s.agedState i = .coasting
      ∧ s.agedCar i = { s.car i with loseTimer := some (addTime x.time s.params.loseAfter) } := by
  have young' : ¬(s.params.loseAfter : Int) < timeDiff s.clock x.time := Int.not_lt.mpr young
  have state : s.agedState i = .coasting := by
    simp only [State.agedState, last, coasting, young', and_false, if_false, reduceCtorEq, false_and]
  refine ⟨?_, state, ?_⟩
  · simp only [ageStep, last, coasting, young', if_false]
    rfl
  · simp only [State.agedCar, last, state, coasting]
    simp

end

/-- An age evaluation that keeps the car's state sets its timer anew; another changes the car with its event (R32). -/
theorem ageStep_eq : (s.agedState i = (s.car i).state ∧ ageStep i s = s.setCar i (s.agedCar i))
    ∨ (s.agedState i ≠ (s.car i).state ∧ inContactState (s.car i).state = true
      ∧ ageStep i s = changeCar i (s.agedCar i) (some (if s.agedState i = .lost then .carLost else .carCoasting)) s) := by
  by_cases ages : (s.car i).state = .live ∨ (s.car i).state = .coasting
  · cases last : (s.car i).last with
    | none =>
      obtain ⟨step, state, car⟩ := ageStep_of_ageless s i (.inl last)
      exact .inl ⟨state, by rw [step, car, State.setCar_self]⟩
    | some x =>
      by_cases old : (s.params.loseAfter : Int) < timeDiff s.clock x.time
      · obtain ⟨step, state, car⟩ := ageStep_of_old last old ages
        refine .inr ⟨?_, (inContactState_iff _).mpr ages, by rw [step, state, car, if_pos rfl]⟩
        rw [state]
        obtain is | is := ages <;> rw [is] <;> decide
      · obtain live | coasting := ages
        · by_cases late : (s.params.coastAfter : Int) < timeDiff s.clock x.time
          · obtain ⟨step, state, car⟩ := ageStep_of_late last (by omega) live late
            exact .inr ⟨by rw [state, live]; decide, (inContactState_iff _).mpr (.inl live),
              by rw [step, state, car, if_neg (by decide)]⟩
          · obtain ⟨step, state, car⟩ := ageStep_of_fresh last (by omega) live (by omega)
            exact .inl ⟨by rw [state, live], by rw [step, car]⟩
        · obtain ⟨step, state, car⟩ := ageStep_of_coasting last (by omega) coasting
          exact .inl ⟨by rw [state, coasting], by rw [step, car]⟩
  · obtain ⟨step, state, car⟩ := ageStep_of_ageless s i (.inr (not_or.mp ages))
    exact .inl ⟨state, by rw [step, car, State.setCar_self]⟩

theorem State.agedCar_state : (s.agedCar i).state = s.agedState i := by
  by_cases ages : (s.car i).state = .live ∨ (s.car i).state = .coasting
  · cases last : (s.car i).last with
    | none =>
      obtain ⟨-, state, car⟩ := ageStep_of_ageless s i (.inl last)
      rw [car, state]
    | some x =>
      by_cases old : (s.params.loseAfter : Int) < timeDiff s.clock x.time
      · obtain ⟨-, state, car⟩ := ageStep_of_old last old ages
        rw [car, state]
        rfl
      · obtain live | coasting := ages
        · by_cases late : (s.params.coastAfter : Int) < timeDiff s.clock x.time
          · obtain ⟨-, state, car⟩ := ageStep_of_late last (by omega) live late
            rw [car, state]
            rfl
          · obtain ⟨-, state, car⟩ := ageStep_of_fresh last (by omega) live (by omega)
            rw [car, state]
            exact live
        · obtain ⟨-, state, car⟩ := ageStep_of_coasting last (by omega) coasting
          rw [car, state]
          exact coasting
  · obtain ⟨-, state, car⟩ := ageStep_of_ageless s i (.inr (not_or.mp ages))
    rw [car, state]

theorem ageStep_car (j : Slot) : (ageStep i s).car j = if j = i then s.agedCar i else s.car j := by
  obtain ⟨-, step⟩ | ⟨-, -, step⟩ := ageStep_eq s i
  · rw [step]
    exact State.car_setCar ..
  · rw [step]
    exact changeCar_car ..

end

/-! ### The close (R106, R128) -/

section
variable (s : State)

theorem ageStep_race {u : State} (calm : u.Calm) (i : Slot) : (ageStep i u).race = u.race := by
  obtain ⟨-, step⟩ | ⟨-, -, step⟩ := ageStep_eq u i
  · rw [step]
    rfl
  · rw [step]
    exact changeCar_race calm ..

theorem ageStep_crossings (u : State) (i : Slot) : (ageStep i u).crossings = u.crossings := by
  obtain ⟨-, step⟩ | ⟨-, -, step⟩ := ageStep_eq u i
  · rw [step]
    rfl
  · rw [step]
    exact (changeCar_route ..).crossings

/-- The age of a car is read from its record, the clock and the Race Parameters (R32). -/
theorem State.agedCar_congr {s t : State} {i : Slot} (car : t.car i = s.car i) (clock : t.clock = s.clock)
    (params : t.params = s.params) : t.agedCar i = s.agedCar i := by
  unfold State.agedCar State.agedState
  rw [car, clock, params]

/-- Age evaluations of several cars, one after another, are those of each alone (R33). -/
theorem foldl_ageStep_car {is : List Slot} (nodup : is.Nodup) (u : State) (j : Slot) :
    (is.foldl (fun u i => ageStep i u) u).car j = if j ∈ is then u.agedCar j else u.car j := by
  induction is generalizing u with
  | nil => rfl
  | cons i is ih =>
    obtain ⟨fresh, nodup⟩ := List.nodup_cons.mp nodup
    have step := ageStep_car u i j
    rw [List.foldl_cons, ih nodup]
    by_cases same : j = i
    · subst same
      rw [if_neg fresh, step, if_pos rfl, if_pos (.head _)]
    · rw [if_neg same] at step
      rw [State.agedCar_congr step (ageStep_effect i u).clock (ageStep_effect i u).params, step]
      simp only [List.mem_cons, same, false_or]

/-- The race's record as a close leaves it (R128). -/
def State.closedRace : RaceRecord := { s.race with
  state := .closed, grace := none,
  tH := if s.race.state = .hold then none else s.race.tH,
  remembered := if s.race.state = .hold then none else s.race.remembered }

/-- The close ages every car where the race was in HOLD (R128). -/
def State.closeAged : State :=
  if s.race.state = .hold then allSlots.foldl (fun u i => ageStep i u) { s with race := s.closedRace }
  else { s with race := s.closedRace }

/-- The close fixes every record (R106). -/
def State.closeFixed : State := (fixAll s.closeAged.crossings.length s.closeAged).setAllDeadlines

/-- The classification is formed from the state as it stands (R107). -/
def State.classified : State := { s with classification := classify s }

theorem closeSteps_eq : closeSteps s = raiseNow .raceClosed [] s.closeFixed.classified := by
  have hold : (decide (s.race.state = .hold) = true) = (s.race.state = .hold) := decide_eq_true_eq
  unfold closeSteps State.closeFixed State.closeAged State.closedRace State.classified
  simp only [hold]

/-- In a closed race no event calls a hold (R145). -/
theorem State.calm_of_closed {s : State} (closed : s.race.state = .closed) : s.Calm :=
  .inl (by rw [closed]; rfl)

theorem foldl_ageStep_race (is : List Slot) {u : State} (closed : u.race.state = .closed) :
    (is.foldl (fun u i => ageStep i u) u).race = u.race :=
  foldl_race _ is u fun v i same => (ageStep_race (State.calm_of_closed (by rw [same, closed])) i).trans same

theorem State.closeAged_race : s.closeAged.race = s.closedRace := by
  unfold State.closeAged
  split
  · exact foldl_ageStep_race allSlots rfl
  · rfl

theorem State.closeAged_crossings : s.closeAged.crossings = s.crossings := by
  unfold State.closeAged
  split
  · exact List.foldlRecOn allSlots _ (motive := fun u : State => u.crossings = s.crossings) rfl
      fun u same i _ => (ageStep_crossings u i).trans same
  · rfl

theorem State.closeAged_effect : RaceEffect s s.closeAged := by
  unfold State.closeAged
  split
  · exact (RaceEffect.withRace s _).trans (.foldl _ (fun u i => ageStep_effect i u) _ _)
  · exact .withRace s _

theorem State.closeAged_car (i : Slot) : s.closeAged.car i = if s.race.state = .hold then s.agedCar i else s.car i := by
  unfold State.closeAged
  split
  · have aged := foldl_ageStep_car nodup_allSlots { s with race := s.closedRace } i
    rw [if_pos (mem_allSlots i)] at aged
    exact aged.trans (State.agedCar_congr rfl rfl rfl)
  · rfl

theorem fixAll_race {u : State} (closed : u.race.state = .closed) (fuel : Nat) : (fixAll fuel u).race = u.race := by
  induction fuel generalizing u with
  | zero => rfl
  | succ n ih =>
    unfold fixAll
    split
    · next x _ =>
      have race := fixRecord_race (State.calm_of_closed closed) x false
      rw [if_neg fun h => h.2.2 closed] at race
      exact (ih (by rw [race, closed])).trans race
    · rfl

/-- With fuel for each PROVISIONAL record, all are fixed (R106). -/
theorem fixAll_fixes {fuel : Nat} {u : State} (enough : u.crossings.countP Crossing.isProvisional ≤ fuel) :
    ∀ x ∈ (fixAll fuel u).crossings, x.isProvisional = false := by
  induction fuel generalizing u with
  | zero =>
    intro x mem
    exact Bool.eq_false_iff.mpr (List.countP_eq_zero.mp (Nat.le_zero.mp enough) x mem)
  | succ n ih =>
    unfold fixAll
    split
    · next x first =>
      refine ih ?_
      have fewer := provisional_fixInList (List.mem_of_find?_eq_some first) (List.find?_some first)
        (fixedRecord_isProvisional (s := u) (x := x) false)
      rw [fixRecord_crossings]
      omega
    · next none =>
      intro x mem
      exact Bool.eq_false_iff.mpr (List.find?_eq_none.mp none x mem)

theorem fixAll_of_fixed (fuel : Nat) {u : State} (fixed : ∀ x ∈ u.crossings, x.isProvisional = false) : fixAll fuel u = u := by
  cases fuel with
  | zero => rfl
  | succ n =>
    have none : u.crossings.find? Crossing.isProvisional = .none :=
      List.find?_eq_none.mpr fun x mem => Bool.eq_false_iff.mp (fixed x mem)
    unfold fixAll
    rw [none]

theorem setAllDeadlines_keeps (u : State) : u.setAllDeadlines.race = u.race ∧ u.setAllDeadlines.crossings = u.crossings
    ∧ u.setAllDeadlines.ports = u.ports ∧ u.setAllDeadlines.cars = u.cars := by
  refine List.foldlRecOn u.raceLaps _ (motive := fun v : State => v.race = u.race ∧ v.crossings = u.crossings
    ∧ v.ports = u.ports ∧ v.cars = u.cars) ⟨rfl, rfl, rfl, rfl⟩ fun v ⟨race, crossings, ports, cars⟩ k _ => ?_
  exact ⟨(State.setLap_race ..).trans race, (State.setLap_crossings ..).trans crossings,
    (State.setLap_ports ..).trans ports, (State.setLap_cars ..).trans cars⟩

theorem State.closeFixed_fixing : Fixing s.closeAged s.closeFixed :=
  (fixAll_fixing ..).trans (setAllDeadlines_fixing _)

theorem State.closeFixed_race : s.closeFixed.race = s.closedRace := by
  have closed : s.closeAged.race.state = .closed := by rw [s.closeAged_race]; rfl
  unfold State.closeFixed
  rw [(setAllDeadlines_keeps _).1, fixAll_race closed, s.closeAged_race]

theorem State.closeFixed_allFixed : ∀ x ∈ s.closeFixed.crossings, x.isProvisional = false := by
  unfold State.closeFixed
  rw [(setAllDeadlines_keeps _).2.1]
  exact fixAll_fixes (List.countP_le_length ..)

/-- The classification reads cars, crossings and Race Parameters (R107, R108). -/
theorem classify_congr {s t : State} (cars : t.cars = s.cars) (crossings : t.crossings = s.crossings)
    (params : t.params = s.params) : classify t = classify s := by
  have entries (n : Nat) (is : List Slot) : classEntries t n is = classEntries s n is := by
    induction is generalizing n with
    | nil => rfl
    | cons i is ih =>
      unfold classEntries
      rw [ih]
      unfold classEntry State.car
      rw [cars, crossings, params]
  have car : t.car = s.car := funext fun i => by rw [State.car, cars, State.car]
  unfold classify
  rw [entries, car]

theorem closeSteps_route : RouteEffect s.closeFixed.classified (closeSteps s) := by
  rw [closeSteps_eq]
  exact raiseNow_effect ..

theorem closeSteps_race : (closeSteps s).race = s.closedRace := by
  have calm : s.closeFixed.classified.Calm := State.calm_of_closed
    (s := s.closeFixed.classified) (congrArg RaceRecord.state s.closeFixed_race)
  rw [closeSteps_eq, raiseNow, raise_race_of_calm calm]
  exact s.closeFixed_race

theorem closeSteps_closed : RaceClosed (closeSteps s) := by
  have route := closeSteps_route s
  have race := closeSteps_race s
  refine ⟨by rw [race]; rfl, by rw [race]; rfl, fun x mem => ?_, ?_⟩
  · rw [route.crossings] at mem
    exact s.closeFixed_allFixed x mem
  · rw [route.classification, classify_congr route.cars route.crossings route.params]
    exact (classify_congr (s := s.closeFixed) (t := s.closeFixed.classified) rfl rfl rfl).symm

end

section
variable (s : State)

/-- A car with a PROVISIONAL finish crossing is FINISHED by the close (R38, R106). -/
theorem closeSteps_car (i : Slot) : ((closeSteps s).car i).state =
    if (s.car i).enabled = true ∧ ∃ x ∈ s.crossings, x.isProvisional = true ∧ x.slot = i ∧ x.lap = s.params.laps + 1 then .finished
    else if s.race.state = .hold then s.agedState i else (s.car i).state := by
  have effect := s.closeAged_effect
  have fixing := s.closeFixed_fixing
  have enabled : (s.closeAged.car i).enabled = (s.car i).enabled := (effect.cars i).enabled
  have route : (closeSteps s).car i = s.closeFixed.car i := (closeSteps_route s).car i
  rw [route]
  split
  · next may =>
    obtain ⟨on, x, mem, provisional, rfl, lap⟩ := may
    obtain still | done := fixing.finishes x (by rw [s.closeAged_crossings]; exact mem) provisional
      (by rw [lap, effect.params]) (by rw [enabled]; exact on)
    · exact absurd provisional (Bool.eq_false_iff.mp (s.closeFixed_allFixed x still))
    · exact done
  · next not =>
    obtain same | ⟨⟨⟨x, mem, provisional, slot, lap⟩, -⟩, on⟩ := fixing.cars i
    · rw [same, s.closeAged_car]
      split
      · exact s.agedCar_state i
      · rfl
    · rw [s.closeAged_crossings] at mem
      rw [effect.params] at lap
      exact absurd ⟨enabled ▸ on, x, mem, provisional, slot, lap⟩ not

theorem closeSteps_taken : CloseTaken s (closeSteps s) where
  race := closeSteps_race s
  cars := closeSteps_car s
  raised := by
    have clock : s.closeFixed.classified.clock = s.clock :=
      (s.closeAged_effect.trans s.closeFixed_fixing.effect).clock
    refine ⟨s.closeFixed.classified, ?_, ?_, fun free fixed => ?_⟩
    · rw [closeSteps_eq, raiseNow, clock]
    · rw [closeSteps_race]
      exact s.closeFixed_race
    · have aged : s.closeAged = { s with race := s.closedRace } := if_neg free
      have closeFixed : s.closeFixed = s.closeAged.setAllDeadlines := by
        unfold State.closeFixed
        rw [fixAll_of_fixed]
        rw [s.closeAged_crossings]
        exact fixed
      have ports : s.closeFixed.ports = s.ports := by
        rw [closeFixed, (setAllDeadlines_keeps _).2.2.1, aged]
      exact ports

theorem State.fieldDone_iff : s.fieldDone = true
    ↔ ∀ i, (s.car i).enabled = true → (s.car i).state ∈ [CarState.finished, .retired, .lost] := by
  unfold State.fieldDone
  simp only [List.all_eq_true, mem_allSlots, true_implies, Bool.or_eq_true, Bool.not_eq_true', decide_eq_true_eq,
    List.mem_cons, List.not_mem_nil, or_false]
  refine forall_congr' fun i => ?_
  cases (s.car i).enabled <;> simp

end

theorem exec_close {s : State} {c : Command} (asks : s.asks c [0x35])
    (runs : s.race.state = .running ∨ s.race.state = .finishing ∨ s.race.state = .hold) :
    exec .close s = .next (answer c .ok [] (closeSteps s.dropHead)) :=
  exec_alone_of_eq (fun _ => rfl) asks (if_pos (decide_eq_true runs))

theorem CloseTaken.of_dropHead {s t : State} (h : CloseTaken s.dropHead t) : CloseTaken s t := ⟨h.race, h.cars, h.raised⟩

section
variable {s : State}

theorem exec_graceDeadlineExpiry_of_due {g : RaceTime} (finishing : s.race.state = .finishing) (grace : s.race.grace = some g)
    (due : atOrAfter s.clock g = true) : exec .graceDeadlineExpiry s = .next (closeSteps s) :=
  congrArg Host.Outcome.next (if_pos (graceDue_iff.mpr ⟨finishing, g, grace, due⟩))

theorem exec_graceDeadlineExpiry_of_waiting (waits : ¬(s.race.state = .finishing ∧ Reached s s.race.grace)) :
    exec .graceDeadlineExpiry s = .next s :=
  congrArg Host.Outcome.next (if_neg fun due => waits (graceDue_iff.mp due))

/-- The closing tests hold (R115, R127). -/
theorem closingTests_iff : (s.reached s.race.grace || s.fieldDone) = true ↔ Reached s s.race.grace ∨ s.fieldDone = true := by
  rw [Bool.or_eq_true, State.reached_iff]

theorem fieldTest_of_closing (finishing : s.race.state = .finishing) (done : s.fieldDone = true) : fieldTest s = closeSteps s :=
  if_pos ⟨finishing, done⟩

theorem fieldTest_of_open (goes : s.race.state ≠ .finishing ∨ ¬s.fieldDone = true) : fieldTest s = s :=
  if_neg fun ⟨finishing, done⟩ => goes.elim (fun h => h finishing) fun h => h done

theorem closingTests_of_closing (finishing : s.race.state = .finishing) (due : Reached s s.race.grace ∨ s.fieldDone = true) :
    closingTests s = closeSteps s := if_pos ⟨finishing, closingTests_iff.mpr due⟩

theorem closingTests_of_open (goes : s.race.state ≠ .finishing ∨ ¬(Reached s s.race.grace ∨ s.fieldDone = true)) :
    closingTests s = s :=
  if_neg fun ⟨finishing, due⟩ => goes.elim (fun h => h finishing) fun h => h (closingTests_iff.mp due)

end

/-- Settles O38. -/
theorem raceCloses : Obligations.RaceCloses := by
  intro s
  refine ⟨fun c asks runs => ?_, fun g finishing grace => ⟨fun due => ?_, fun early => ?_⟩, fun other => ?_, ?_⟩
  · exact ⟨_, exec_close asks runs, closeSteps_closed _, (closeSteps_taken _).of_dropHead, closeSteps_effect _⟩
  · exact ⟨_, exec_graceDeadlineExpiry_of_due finishing grace due, closeSteps_closed s, closeSteps_taken s, closeSteps_effect s⟩
  · refine exec_graceDeadlineExpiry_of_waiting fun ⟨_, d, is, due⟩ => ?_
    cases grace.symm.trans is
    exact Bool.false_ne_true (early.symm.trans due)
  · refine exec_graceDeadlineExpiry_of_waiting fun ⟨finishing, d, is, _⟩ => ?_
    exact other.elim (fun h => h finishing) fun none => nomatch none.symm.trans is
  · intro out reached
    have done : s.fieldDone = true ↔ out := s.fieldDone_iff
    have due : reached ∨ out ↔ Reached s s.race.grace ∨ s.fieldDone = true := or_congr_right done.symm
    refine ⟨done, fun finishing is => ?_, fun goes => ?_, fun finishing is => ?_, fun goes => ?_⟩
    · rw [fieldTest_of_closing finishing (done.mpr is)]
      exact ⟨closeSteps_closed s, closeSteps_taken s⟩
    · exact fieldTest_of_open (goes.imp_right fun not is => not (done.mp is))
    · rw [closingTests_of_closing finishing (due.mp is)]
      exact ⟨closeSteps_closed s, closeSteps_taken s⟩
    · exact closingTests_of_open (goes.imp_right fun ⟨notReached, notOut⟩ is => (due.mpr is).elim notReached notOut)

end Sys2Proof.Machine
end

section
/-! PROOFS. Fixing evaluations with the tests they lead to (R98, R99, R103, R126, R127), and the race's own timers (R115, R119). -/

namespace Sys2Proof.Machine

/-! ### Evaluations keep what fixings keep -/

section
variable {s : State}

theorem closeSteps_fixing (finishing : s.race.state = .finishing) : Fixing s (closeSteps s) := by
  have steady : Steady s { s with race := s.closedRace } := by
    refine ⟨rfl, rfl, rfl, fun holds => ?_, fun _ => ⟨nofun, nofun, fun _ => rfl⟩⟩
    unfold RaceState.Holds at holds
    simp [finishing] at holds
  have closed : Fixing s { s with race := s.closedRace } :=
    .of_keeps (.withRace s _) steady rfl (fun _ => .refl _) rfl
  have aged : s.closeAged = { s with race := s.closedRace } := if_neg (by rw [finishing]; decide)
  have fixed := s.closeFixed_fixing
  rw [aged] at fixed
  have classified : Fixing s.closeFixed s.closeFixed.classified :=
    .of_keeps (classified_effect _ _) (.of_race rfl rfl rfl) rfl (fun _ => .refl _) rfl
  rw [closeSteps_eq]
  exact closed.trans (fixed.trans (classified.trans (raise_fixing _ _)))

theorem fieldTest_fixing (s : State) : Fixing s (fieldTest s) := by
  unfold fieldTest
  split
  · next due => exact closeSteps_fixing due.1
  · exact .refl s

theorem closingTests_fixing (s : State) : Fixing s (closingTests s) := by
  unfold closingTests
  split
  · next due => exact closeSteps_fixing due.1
  · exact .refl s

theorem evaluate_fixing (s : State) : Fixing s (evaluate s) := by
  unfold evaluate
  split
  · have passes := fixPasses_fixing 13 s
    simp only
    split
    · exact passes.trans (closingTests_fixing _)
    · split
      · exact passes.trans (fieldTest_fixing _)
      · exact passes
  · exact .refl s

theorem afterChange_fixing (s : State) : Fixing s (afterChange s) := (evaluate_fixing s).trans (fieldTest_fixing _)

theorem fixingState_iff (r : RaceState) : fixingState r = true ↔ r ≠ .idle ∧ r ≠ .grid ∧ r ≠ .closed := decide_eq_true_iff

theorem evaluate_of_idle (idle : fixingState s.race.state = false) : evaluate s = s :=
  if_neg (Bool.eq_false_iff.mp idle)

/-- Outside a race nothing follows a change (R99, R127). -/
theorem afterChange_of_idle (idle : fixingState s.race.state = false) : afterChange s = s := by
  have runsOn : s.race.state ≠ .finishing := fun is => by rw [is] at idle; exact absurd idle (by decide)
  unfold afterChange
  rw [evaluate_of_idle idle, fieldTest_of_open (.inl runsOn)]

end

/-! ### The conditions of fixing (R98) -/

section
variable {s : State} {x : Crossing}

theorem settled_iff : s.settled x = true
    ↔ s.suspended = false ∧ atOrAfter s.clock (addTime x.time s.params.settle) = true := by
  unfold State.settled
  rw [Bool.and_eq_true, Bool.not_eq_true']

theorem proven_iff : s.proven x = true ↔ ∀ i, i ≠ x.slot → (s.car i).state ∈ [CarState.live, .coasting, .parked] →
    ∀ y, (s.car i).last = some y → y.lap < x.lap → later y.time x.time = true := by
  unfold State.proven
  simp only [List.all_eq_true, mem_allSlots, true_implies]
  refine forall_congr' fun i => ?_
  unfold passedBy
  have states : (s.car i).state ∈ [CarState.live, .coasting, .parked]
      ↔ (s.car i).state = .live ∨ (s.car i).state = .coasting ∨ (s.car i).state = .parked := by simp
  rw [states]
  by_cases own : i = x.slot
  · simp [own]
  by_cases held : (s.car i).state = .live ∨ (s.car i).state = .coasting ∨ (s.car i).state = .parked
  · cases last : (s.car i).last with
    | none => simp [own]
    | some y => simp [own, or_iff_not_imp_left]
  · simp [own, held]

theorem State.firstProvisional_iff {k : Nat} : s.firstProvisional k = some x ↔ ∃ pre post, s.crossings = pre ++ x :: post ∧ x.lap = k
    ∧ x.isProvisional = true ∧ ∀ y ∈ pre, y.lap = k → y.isProvisional = false := by
  unfold State.firstProvisional
  rw [List.find?_eq_some_iff_append]
  simp only [Bool.and_eq_true, decide_eq_true_eq, Bool.not_eq_true', Bool.and_eq_false_iff, decide_eq_false_iff_not]
  constructor
  · rintro ⟨⟨lap, provisional⟩, pre, post, list, passed⟩
    exact ⟨pre, post, list, lap, provisional, fun y mem is => (passed y mem).resolve_left fun not => not is⟩
  · rintro ⟨pre, post, list, lap, provisional, passed⟩
    exact ⟨⟨lap, provisional⟩, pre, post, list, fun y mem => or_iff_not_imp_left.mpr fun is => passed y mem (not_not.mp is)⟩

theorem fixLap_of_none {k : Nat} (n : Nat) (none : s.firstProvisional k = none) : fixLap k n s = s := by
  cases n with
  | zero => rfl
  | succ n =>
    unfold fixLap
    rw [none]

theorem fixLap_of_waiting {k : Nat} (n : Nat) (first : s.firstProvisional k = some x) (unsettled : ¬s.settled x = true)
    (unproven : ¬s.proven x = true) : fixLap k n s = s := by
  cases n with
  | zero => rfl
  | succ n =>
    unfold fixLap
    rw [first]
    exact if_neg fun due => ((Bool.or_eq_true ..).mp due).elim unsettled unproven

theorem fixLap_of_due {k : Nat} (n : Nat) (first : s.firstProvisional k = some x) (due : s.settled x = true ∨ s.proven x = true) :
    fixLap k (n + 1) s = fixLap k n (fixRecord x false s) := by
  have step : fixLap k (n + 1) s = match s.firstProvisional k with
      | some x => if s.settled x || s.proven x then fixLap k n (fixRecord x false s) else s
      | none => s := rfl
  rw [step, first]
  exact if_pos ((Bool.or_eq_true ..).mpr due)

end

/-! ### Passes (R99) -/

theorem fixPasses_spec (fuel : Nat) (s : State) : ∃ n ≤ fuel, fixPasses fuel s = fixPass^[n] s ∧ (1 ≤ fuel → 1 ≤ n)
    ∧ (n < fuel → (fixPass^[n] s).finishes = (fixPass^[n - 1] s).finishes)
    ∧ ∀ m, m + 1 < n → (fixPass^[m + 1] s).finishes ≠ (fixPass^[m] s).finishes := by
  induction fuel generalizing s with
  | zero => exact ⟨0, Nat.le_refl 0, rfl, nofun, nofun, nofun⟩
  | succ fuel ih =>
    have step : fixPasses (fuel + 1) s
        = if (fixPass s).finishes = s.finishes then fixPass s else fixPasses fuel (fixPass s) := rfl
    by_cases same : (fixPass s).finishes = s.finishes
    · rw [if_pos same] at step
      exact ⟨1, by omega, step, fun _ => Nat.le_refl 1, fun _ => same, fun m few => by omega⟩
    · rw [if_neg same] at step
      obtain ⟨n, most, passes, least, stops, goesOn⟩ := ih (fixPass s)
      refine ⟨n + 1, by omega, step.trans passes, fun _ => by omega, fun few => ?_, fun m few => ?_⟩
      · have one := least (by omega)
        obtain ⟨n, rfl⟩ := Nat.exists_eq_add_of_le' one
        exact stops (by omega)
      · cases m with
        | zero => exact same
        | succ m => exact goesOn m (by omega)

/-- An evaluation is some passes and then the tests its fixings ask for (R99, R126, R127). -/
theorem evaluate_eq {s : State} (fixes : fixingState s.race.state = true) : evaluate s
    = if s.race.state ≠ .finishing ∧ (fixPasses 13 s).race.state = .finishing then closingTests (fixPasses 13 s)
      else if (fixPasses 13 s).finishes = s.finishes then fixPasses 13 s else fieldTest (fixPasses 13 s) := by
  have eq : evaluate s = if fixingState s.race.state then
      (if s.race.state ≠ .finishing ∧ (fixPasses 13 s).race.state = .finishing then closingTests (fixPasses 13 s)
        else if (fixPasses 13 s).finishes ≠ s.finishes then fieldTest (fixPasses 13 s) else fixPasses 13 s) else s := rfl
  rw [eq, if_pos fixes]
  by_cases same : (fixPasses 13 s).finishes = s.finishes
  · simp only [same, ne_eq, not_true_eq_false, if_false, if_true]
  · simp only [same, ne_eq, not_false_eq_true, if_true, if_false]

/-- After the passes come tests alone (R127). -/
theorem evaluate_after_passes {s : State} (fixes : fixingState s.race.state = true) : Fixing (fixPasses 13 s) (evaluate s) := by
  rw [evaluate_eq fixes]
  split_ifs
  · exact closingTests_fixing _
  · exact .refl _
  · exact fieldTest_fixing _

theorem fixPasses_after_pass (fuel : Nat) (s : State) : Fixing (fixPass s) (fixPasses (fuel + 1) s) := by
  unfold fixPasses
  simp only
  split
  · exact .refl _
  · exact fixPasses_fixing ..

/-- Where no lap has a record to fix, an evaluation does nothing (R99). -/
theorem evaluate_of_waiting {s : State} (waits : ∀ k ∈ s.raceLaps, ∀ n, fixLap k n s = s) : evaluate s = s := by
  by_cases fixes : fixingState s.race.state = true
  · have pass : fixPass s = s := by
      unfold fixPass
      generalize s.raceLaps = ks at waits
      induction ks with
      | nil => rfl
      | cons k ks ih =>
        rw [List.foldl_cons, waits k (.head _)]
        exact ih fun j mem => waits j (.tail _ mem)
    have passes : fixPasses 13 s = s := by
      unfold fixPasses
      rw [pass]
      exact if_pos rfl
    rw [evaluate_eq fixes, passes, if_neg fun h => h.1 h.2, if_pos rfl]
  · exact if_neg fixes

/-- The race that comes to FINISHING by an evaluation has had its closing tests (R126, R127). -/
theorem evaluate_open {s : State} (running : s.race.state = .running) (finishing : (evaluate s).race.state = .finishing) :
    ¬(Reached (evaluate s) (evaluate s).race.grace ∨ (evaluate s).fieldDone = true) := by
  have eq := evaluate_eq (s := s) (by rw [running]; rfl)
  by_cases came : (fixPasses 13 s).race.state = .finishing
  · rw [if_pos ⟨by rw [running]; decide, came⟩] at eq
    by_cases due : Reached (fixPasses 13 s) (fixPasses 13 s).race.grace ∨ (fixPasses 13 s).fieldDone = true
    · rw [eq, closingTests_of_closing came due, (closeSteps_closed _).state] at finishing
      exact nomatch finishing
    · rw [closingTests_of_open (.inr due)] at eq
      rwa [eq]
  · rw [if_neg fun h => came h.2, fieldTest_of_open (.inl came), ite_self] at eq
    rw [eq] at finishing
    exact absurd finishing came

/-! ### The first PROVISIONAL record of a lap (R99) -/

section
variable {s : State} {x : Crossing}

theorem firstProvisional_fixRecord_of_ne {y : Crossing} {k : Nat} (ne : y.lap ≠ k) :
    (fixRecord y false s).firstProvisional k = s.firstProvisional k := by
  unfold State.firstProvisional
  rw [fixRecord_crossings]
  simp only [fixInList, Bool.false_eq_true, if_false]
  induction s.crossings with
  | nil => rfl
  | cons z zs ih =>
    rw [List.map_cons, List.find?_cons, List.find?_cons, ih]
    by_cases same : z = y
    · subst same
      have fixedLap : (s.fixedRecord z false).lap ≠ k := ne
      simp only [if_true, fixedLap, ne, decide_false, Bool.false_and]
    · simp only [same, if_false]

theorem firstProvisional_fixLap_of_ne {j k : Nat} (ne : j ≠ k) (n : Nat) (s : State) :
    (fixLap j n s).firstProvisional k = s.firstProvisional k := by
  induction n generalizing s with
  | zero => rfl
  | succ n ih =>
    unfold fixLap
    split
    · next y first =>
      obtain ⟨-, lap, -⟩ := State.firstProvisional_spec first
      split
      · rw [ih, firstProvisional_fixRecord_of_ne (lap ▸ ne)]
      · rfl
    · rfl

/-- A record that settle or the proof lets go stays so while others are fixed (R98). -/
theorem Fixing.due {t : State} (h : Fixing s t) (lead : s.params.holdLead ≤ 1000000)
    (due : s.settled x = true ∨ s.proven x = true) : t.settled x = true ∨ t.proven x = true := by
  rw [settled_iff, proven_iff] at due ⊢
  obtain ⟨runs, settled⟩ | proven := due
  · left
    rw [h.steady.suspended lead, h.effect.clock, h.effect.params]
    exact ⟨runs, settled⟩
  · right
    intro i other held y last behind
    obtain same | ⟨⟨-, state, -⟩, -⟩ := h.cars i
    · rw [same] at held last
      exact proven i other held y last behind
    · rw [state] at held
      simp at held

theorem fixLap_fixes {k n : Nat} (first : s.firstProvisional k = some x) (due : s.settled x = true ∨ s.proven x = true) :
    x ∉ (fixLap k (n + 1) s).crossings ∧ ∃ m, { x with status := .fixed m } ∈ (fixLap k (n + 1) s).crossings := by
  obtain ⟨mem, -, provisional⟩ := State.firstProvisional_spec first
  have rest := fixLap_fixing k n (fixRecord x false s)
  rw [fixLap_of_due n first due]
  refine ⟨fun still => ?_, ?_⟩
  · obtain ⟨-, other⟩ | ⟨-, same⟩ := mem_fixRecord.mp (rest.fresh x still provisional)
    · exact other rfl
    · rw [same, fixedRecord_isProvisional] at provisional
      exact Bool.false_ne_true provisional
  · obtain ⟨st, mem', keeps⟩ := rest.records (s.fixedRecord x false) (mem_fixRecord.mpr (.inr ⟨mem, rfl⟩))
    have same := keeps (fixedRecord_isProvisional false)
    subst same
    exact ⟨_, mem'⟩

/-- What one evaluation has fixed stays FIXED. -/
theorem Fixing.fixed {t : State} (h : Fixing s t) (provisional : x.isProvisional = true)
    (fixed : x ∉ s.crossings ∧ ∃ m, { x with status := .fixed m } ∈ s.crossings) :
    x ∉ t.crossings ∧ ∃ m, { x with status := .fixed m } ∈ t.crossings := by
  obtain ⟨gone, m, mem⟩ := fixed
  refine ⟨fun back => gone (h.fresh x back provisional), m, ?_⟩
  obtain ⟨st, mem', keeps⟩ := h.records _ mem
  have same := keeps (by simp [Crossing.isProvisional])
  subst same
  exact mem'

/-- One pass fixes the first PROVISIONAL record of a lap of the race that settle or the proof lets go (R99). -/
theorem fixPass_fixes {k : Nat} (first : s.firstProvisional k = some x) (due : s.settled x = true ∨ s.proven x = true)
    (lap : k ∈ s.raceLaps) (lead : s.params.holdLead ≤ 1000000) :
    x ∉ (fixPass s).crossings ∧ ∃ m, { x with status := .fixed m } ∈ (fixPass s).crossings := by
  obtain ⟨pre, post, laps⟩ := List.append_of_mem lap
  have nodup : (pre ++ k :: post).Nodup := by
    rw [← laps]
    exact List.nodup_range'
  have fresh : k ∉ pre := fun mem => (List.nodup_append.mp nodup).2.2 k mem k (.head _) rfl
  have provisional := (State.firstProvisional_spec first).2.2
  have before (u : State) (js : List Nat) (others : k ∉ js) : Fixing u (js.foldl (fun v j => fixLap j v.crossings.length v) u)
      ∧ (js.foldl (fun v j => fixLap j v.crossings.length v) u).firstProvisional k = u.firstProvisional k := by
    induction js generalizing u with
    | nil => exact ⟨.refl u, rfl⟩
    | cons j js ih =>
      obtain ⟨fixing, same⟩ := ih (fixLap j u.crossings.length u) fun mem => others (.tail _ mem)
      exact ⟨(fixLap_fixing ..).trans fixing,
        same.trans (firstProvisional_fixLap_of_ne (fun is => others (List.mem_cons.mpr (.inl is.symm))) _ _)⟩
  have after (u : State) (js : List Nat) : Fixing u (js.foldl (fun v j => fixLap j v.crossings.length v) u) := by
    induction js generalizing u with
    | nil => exact .refl u
    | cons j js ih => exact (fixLap_fixing ..).trans (ih _)
  unfold fixPass
  rw [laps, List.foldl_append, List.foldl_cons]
  obtain ⟨fixing, same⟩ := before s pre fresh
  generalize pre.foldl (fun v j => fixLap j v.crossings.length v) s = u at fixing same ⊢
  have first' := same.trans first
  have some : 0 < u.crossings.length := List.length_pos_of_mem (State.firstProvisional_spec first').1
  obtain ⟨n, length⟩ := Nat.exists_eq_add_of_le' some
  have done := fixLap_fixes (n := n) first' (fixing.due lead due)
  rw [length]
  exact (after _ post).fixed provisional done

end

theorem Fixing.keeps_fixed {s t : State} (h : Fixing s t) {y : Crossing} (mem : y ∈ s.crossings) (fixed : y.isProvisional = false) :
    y ∈ t.crossings := by
  obtain ⟨st, mem', keeps⟩ := h.records y mem
  have same := keeps fixed
  subst same
  exact mem'

theorem exec_settleDeadlineExpiry (k : Nat) (s : State) :
    exec (.settleDeadlineExpiry k) s = .next (if s.settleDue k then evaluate s else s) := rfl

theorem State.settleDue_iff (s : State) (k : Nat) : s.settleDue k = true ↔ s.suspended = false ∧ Reached s (s.lap k).deadline := by
  rw [State.settleDue, Bool.and_eq_true, State.reached_iff, Bool.not_eq_true']

/-- Settles O37. -/
theorem settleDeadline : Obligations.SettleDeadline := by
  unfold Obligations.SettleDeadline
  intro settles proves
  have isSettled (s : State) (x : Crossing) : s.settled x = true ↔ settles s x := settled_iff
  have isProven (s : State) (x : Crossing) : s.proven x = true ↔ proves s x := proven_iff
  refine ⟨fun k n s x => ⟨State.firstProvisional_iff, fixLap_of_none n, fun first unsettled unproven => ?_, fun first due => ?_⟩,
    fun s => ⟨fun idle => ?_, fun racing => ?_⟩, fun k s => ⟨fun waits => ?_, fun d is early => ?_, fun d is runs due => ?_⟩⟩
  · exact fixLap_of_waiting n first (fun is => unsettled ((isSettled s x).mp is)) fun is => unproven ((isProven s x).mp is)
  · exact fixLap_of_due n first (due.imp (isSettled s x).mpr (isProven s x).mpr)
  · refine evaluate_of_idle (Bool.eq_false_iff.mpr fun fixes => ?_)
    obtain ⟨notIdle, notGrid, notClosed⟩ := (fixingState_iff _).mp fixes
    simp [notIdle, notGrid, notClosed] at idle
  · have fixes : fixingState s.race.state = true := by
      simp only [List.mem_cons, List.not_mem_nil, or_false, not_or] at racing
      exact (fixingState_iff _).mpr racing
    obtain ⟨n, most, passes, least, stops, goesOn⟩ := fixPasses_spec 13 s
    refine ⟨n, most, ⟨least (by decide), stops, goesOn⟩, ?_⟩
    have eq := evaluate_eq fixes
    rwa [passes] at eq
  · rw [exec_settleDeadlineExpiry, if_neg]
    rw [State.settleDue_iff]
    rintro ⟨runs, d, is, -⟩
    exact waits.elim (fun suspended => Bool.false_ne_true (runs.symm.trans suspended)) fun none => nomatch none.symm.trans is
  · rw [exec_settleDeadlineExpiry, if_neg]
    rw [State.settleDue_iff]
    rintro ⟨-, d', is', due⟩
    cases is.symm.trans is'
    exact Bool.false_ne_true (early.symm.trans due)
  · have fixing := evaluate_fixing s
    refine ⟨evaluate s, ?_, fixing.effect, fun y mem fixed => fixing.keeps_fixed mem fixed, fun running finishing => ?_,
      fun waits => ?_, fun x first due low high lead notIdle notGrid notClosed => ?_⟩
    · rw [exec_settleDeadlineExpiry, if_pos ((s.settleDue_iff k).mpr ⟨runs, d, is, due⟩)]
    · have runsOn := evaluate_open running finishing
      refine ⟨Bool.eq_false_iff.mpr fun done => runsOn (.inr done), fun g grace => Bool.eq_false_iff.mpr fun reached => ?_⟩
      exact runsOn (.inl ⟨g, grace, reached⟩)
    · refine evaluate_of_waiting fun j lap n => ?_
      obtain ⟨low, high⟩ := (State.mem_raceLaps j).mp lap
      cases first : s.firstProvisional j with
      | none => exact fixLap_of_none n first
      | some x =>
        obtain ⟨unsettled, unproven⟩ := waits j x low high first
        exact fixLap_of_waiting n first (fun is => unsettled ((isSettled s x).mp is)) fun is => unproven ((isProven s x).mp is)
    · have fixes : fixingState s.race.state = true := (fixingState_iff _).mpr ⟨notIdle, notGrid, notClosed⟩
      have provisional := (State.firstProvisional_spec first).2.2
      have pass := fixPass_fixes first (due.imp (isSettled s x).mpr (isProven s x).mpr) ((State.mem_raceLaps k).mpr ⟨low, high⟩) lead
      exact ((fixPasses_after_pass 12 s).trans (evaluate_after_passes fixes)).fixed provisional pass

/-! ### The race's own timers (R115, R119) -/

section
variable {s : State}

theorem exec_tGreenExpiry (s : State) : exec .tGreenExpiry s = .next (if s.greenDue then goGreen s else s) := rfl

theorem exec_tHExpiry (s : State) : exec .tHExpiry s = .next (if s.holdReached then ackTest s else s) := rfl

theorem exec_holdTimeout (s : State) : exec .holdTimeout s
    = .next (if s.holdOverdue then enterHold (s.noticeToDirector (.holdIncomplete (s.race.tH.getD 0) s.unacked)) else s) := rfl

theorem goGreen_of_unseen (unseen : s.race.finishSeen = false) : goGreen s = { s with race := { s.race with state := .running } } :=
  if_neg (Bool.eq_false_iff.mp unseen)

/-- Green with the finish seen: FINISHING, its grace from T_green (R115). -/
def State.greenFinishing (s : State) : State :=
  { s with race := { s.race with state := .finishing, grace := s.race.tGreen.map (addTime · s.params.grace) } }

theorem goGreen_of_seen (seen : s.race.finishSeen = true) : goGreen s = closingTests s.greenFinishing := if_pos seen

/-- What HOLD_TIMEOUT does: the NOTICE HOLD_INCOMPLETE, and then the entry into HOLD (R119). -/
theorem holdTimeout_tells (n : Notice) :
    let t := enterHold (s.noticeToDirector n)
    let begun : Event := { kind := .holdBegin, time := s.clock, slots := [], fault := none }
    t.race = { s.race with state := .hold, acks := [] } ∧ RouteEffect s t
      ∧ Noticed (.notice n :: s.noticesFor [begun]) s t := by
  have notice := noticeToDirector_effect s n
  have told := noticeToDirector_sent s n
  have race : (s.noticeToDirector n).race = s.race := State.noticeToDirector_race ..
  have entered := enterHold_sent (s.noticeToDirector n)
  rw [notice.race.noticesFor, notice.clock] at entered
  refine ⟨by rw [enterHold_race, race], notice.trans (enterHold_effect _), ?_⟩
  exact (told.trans notice.race entered).noticed

/-- While the role is vacant an event that calls no hold leaves class 5 of every busy port as it is (R144). -/
theorem raise_outbox_of_vacant {p : PortNo} (free : holdAllowed s.race.state = false) (vacant : s.roleHolder = none)
    (busy : (s.port p).wire.isSome = true) (e : Event) : ((raise e s).port p).outbox = (s.port p).outbox := by
  have all : Sends p [] s (raise e s) ∧ (raise e s).race = s.race ∧ (raise e s).roleHolder = none := by
    refine List.foldlRecOn s.routes.toList (routeOne e)
      (motive := fun u : State => Sends p [] s u ∧ u.race = s.race ∧ u.roleHolder = none)
      ⟨.refl p s, rfl, vacant⟩ fun u ⟨sends, race, vacant⟩ r _ => ?_
    have still : (u.port p).wire.isSome = true := by rw [sends.wire]; exact busy
    have free' : holdAllowed u.race.state = false := by rw [race]; exact free
    have role : (routeAct e u r).roleHolder = none := (routeAct_effect e u r).race.roleHolder.trans vacant
    have one : Sends p [] u (routeAct e u r) := by
      unfold routeAct
      split
      · refine List.foldlRecOn _ _ (motive := fun v : State => Sends p [] u v) (.refl p u) fun v sends r _ => ?_
        exact sends.trans (offerCue_keeps v r _ (by rw [sends.wire]; exact still))
      · rw [State.noticeToDirector_of_vacant vacant]
        exact .refl p u
      · rw [autoHold, if_neg (by rw [free']; exact Bool.false_ne_true)]
        exact .refl p u
    unfold routeOne
    split
    · exact ⟨sends.trans one, (routeAct_race free' e r).trans race, role⟩
    · exact ⟨sends, race, vacant⟩
  rw [all.1.outbox, List.append_nil]

theorem holdTimeout_outbox_of_vacant {p : PortNo} (n : Notice) (vacant : s.roleHolder = none)
    (busy : (s.port p).wire.isSome = true) : ((enterHold (s.noticeToDirector n)).port p).outbox = (s.port p).outbox := by
  rw [State.noticeToDirector_of_vacant vacant n]
  exact raise_outbox_of_vacant (s := { s with race := { s.race with state := .hold, acks := [] } }) rfl vacant busy _

end

/-- Settles O44, timer by timer. -/
theorem raceTimersExpire : Obligations.RaceTimersExpire := by
  intro s
  refine ⟨fun g countdown tGreen => ⟨fun early => ?_, fun due unseen => ?_, fun due seen => ?_⟩, fun h pending tH => ?_⟩
  · rw [exec_tGreenExpiry, if_neg]
    rw [greenDue_iff]
    rintro ⟨-, d, is, due⟩
    cases tGreen.symm.trans is
    exact Bool.false_ne_true (early.symm.trans due)
  · rw [exec_tGreenExpiry, if_pos (greenDue_iff.mpr ⟨countdown, g, tGreen, due⟩), goGreen_of_unseen unseen]
  · have runs : exec .tGreenExpiry s = .next (closingTests s.greenFinishing) := by
      rw [exec_tGreenExpiry, if_pos (greenDue_iff.mpr ⟨countdown, g, tGreen, due⟩), goGreen_of_seen seen]
    have written : s.greenFinishing
        = { s with race := { s.race with state := .finishing, grace := some (addTime g s.params.grace) } } := by
      unfold State.greenFinishing
      rw [tGreen]
      rfl
    have finishing : s.greenFinishing.race.state = .finishing := rfl
    have grace : s.greenFinishing.race.grace = some (addTime g s.params.grace) := by rw [written]
    refine ⟨fun early stillOpen => ?_, fun closes => ⟨_, runs, ?_⟩⟩
    · rw [runs, closingTests_of_open (.inr ?_), written]
      rintro (⟨d, is, reached⟩ | done)
      · cases grace.symm.trans is
        exact Bool.false_ne_true (early.symm.trans reached)
      · exact Bool.false_ne_true (stillOpen.symm.trans done)
    · rw [closingTests_of_closing finishing (closes.imp_left fun reached => ⟨_, grace, reached⟩)]
      exact ⟨closeSteps_closed _, (RaceEffect.withRace s _).trans (closeSteps_effect _)⟩
  · intro latest begun
    have reached : s.reached s.race.tH = atOrAfter s.clock h := by rw [tH]; rfl
    have overdue : s.holdOverdue = true ↔ atOrAfter s.clock latest = true ∧ ∃ a ∈ s.race.acks, a.acked = false := by
      rw [holdOverdue_iff]
      simp [RowDue, Reached, pending, tH, latest]
    have unacked : s.unacked = (s.race.acks.filter fun a => decide (a.acked = false)).map fun a => a.port := by
      unfold State.unacked
      congr 2
      funext a
      cases a.acked <;> rfl
    refine ⟨fun early => ?_, fun due acked => ?_, fun waits => ?_, fun noTimeout => ?_, fun due waits => ?_⟩
    · rw [exec_tHExpiry, if_neg]
      rw [State.holdReached, reached, early, Bool.and_false]
      exact Bool.false_ne_true
    · have due' : s.reached s.race.tH = true := reached.trans due
      have isDue : s.holdReached = true := by rw [State.holdReached, due', decide_eq_true pending]; rfl
      refine ⟨enterHold s, ?_, enterHold_race s, enterHold_effect s, (enterHold_sent s).noticed⟩
      rw [exec_tHExpiry, if_pos isDue, ackTest_of_complete pending due' acked]
    · rw [exec_tHExpiry, ackTest_of_incomplete (.inr waits), ite_self]
    · rw [exec_holdTimeout, if_neg]
      rw [overdue]
      rintro ⟨reached, a, mem, stillOpen⟩
      obtain early | acked := noTimeout
      · exact Bool.false_ne_true (early.symm.trans reached)
      · exact Bool.false_ne_true (stillOpen.symm.trans (acked a mem))
    · have runs : exec .holdTimeout s = .next (enterHold (s.noticeToDirector (.holdIncomplete h s.unacked))) := by
        rw [exec_holdTimeout, if_pos (overdue.mpr ⟨due, waits⟩), tH]
        rfl
      rw [unacked] at runs
      obtain ⟨race, effect, told⟩ := holdTimeout_tells (s := s)
        (.holdIncomplete h ((s.race.acks.filter fun a => decide (a.acked = false)).map fun a => a.port))
      exact ⟨_, runs, race, effect, told, fun vacant p busy => holdTimeout_outbox_of_vacant _ vacant busy⟩

end Sys2Proof.Machine
end

section
/-! PROOFS. Cars that change one after another (R31 to R40): what each change does to its own car and to the others, and the notices
its events send. -/

namespace Sys2Proof.Machine

/-! ### What a busy port hears -/

/-- Port `d` keeps what is on its wire, and class 5 grows at its tail, by the frames among others where it ends with room for a
notice (R144, R169). -/
structure Heard (d : PortNo) (frames : List HubFrame) (s t : State) : Prop where
  wire : (t.port d).wire = (s.port d).wire
  grows : ∃ added, (t.port d).outbox = (s.port d).outbox ++ added ∧ ((t.port d).notices.length < 16 → frames.Sublist added)

theorem Heard.of_work {d : PortNo} {s t : State} (work : PortWork (s.port d) (t.port d)) (busy : (s.port d).wire.isSome = true) :
    Heard d [] s t := by
  obtain ⟨wire, -, -, -, -, added, outbox⟩ := work.busy busy
  exact ⟨wire, added, outbox.symm, fun _ => List.nil_sublist _⟩

theorem Heard.of_port {d : PortNo} {s t : State} (same : t.port d = s.port d) : Heard d [] s t :=
  ⟨by rw [same], [], by rw [same, List.append_nil], fun _ => List.nil_sublist _⟩

theorem Heard.trans {d : PortNo} {fs gs : List HubFrame} {s u t : State} (h : Heard d fs s u) (k : Heard d gs u t) :
    Heard d (fs ++ gs) s t := by
  obtain ⟨wire, added, outbox, sub⟩ := h
  obtain ⟨wire', added', outbox', sub'⟩ := k
  refine ⟨wire'.trans wire, added ++ added', by rw [outbox', outbox, List.append_assoc], fun room => ?_⟩
  exact (sub (Nat.lt_of_le_of_lt (notices_grow outbox') room)).append (sub' room)

/-- The director with a busy line hears the notices of an event (R144). -/
theorem raise_heard {d : PortNo} {s : State} (e : Event) (role : s.roleHolder = some d) (busy : (s.port d).wire.isSome = true) :
    Heard d ((s.noticesFor [e]).map (s.mkFrame d)) s (raise e s) := by
  obtain ⟨wire, added, outbox, all⟩ := (raise_adds e s).adds d role busy
  exact ⟨wire, added, outbox, fun room => by rw [all room]⟩

/-- The first notices of class 5, sent before other work. -/
theorem NoticedFirst.of_sent {bodies : List FrameBody} {s u t : State} (sent : Sent bodies s u) (work : Work u t) :
    NoticedFirst bodies s t := by
  intro d hears
  have sends := sent.sends d hears
  rw [← sends.outbox]
  obtain ⟨-, -, -, -, -, more⟩ := (work.ports d).busy (by rw [sends.wire]; exact hears.busy)
  exact more

/-! ### Work that changes some cars -/

/-- The race's work that changes only the cars of `js`, but that a fixing may finish a car (R38, R99). -/
structure Touching (js : List Slot) (s t : State) : Prop where
  effect : RaceEffect s t
  steady : Steady s t
  work : Work s t
  fresh : ∀ x ∈ t.crossings, x.isProvisional = true → x ∈ s.crossings
  cars : ∀ i ∉ js, t.car i = s.car i ∨ FinishedSince i s t

theorem FinishedSince.after {i : Slot} {s u t : State} (fresh : ∀ x ∈ u.crossings, x.isProvisional = true → x ∈ s.crossings)
    (params : u.params = s.params) (h : FinishedSince i u t) : FinishedSince i s t := by
  obtain ⟨⟨x, mem, provisional, slot, lap⟩, rest⟩ := h
  exact ⟨⟨x, fresh x mem provisional, provisional, slot, by rw [lap, params]⟩, rest⟩

theorem FinishedSince.congr {i : Slot} {s u t : State} (h : FinishedSince i s u) (car : t.car i = u.car i) : FinishedSince i s t := by
  obtain ⟨may, rest⟩ := h
  exact ⟨may, by rwa [car]⟩

theorem Touching.trans {js ks : List Slot} {s u t : State} (h : Touching js s u) (k : Touching ks u t) :
    Touching (js ++ ks) s t where
  effect := h.effect.trans k.effect
  steady := h.steady.trans k.steady
  work := h.work.trans k.work
  fresh x mem provisional := h.fresh x (k.fresh x mem provisional) provisional
  cars i other := by
    rw [List.mem_append, not_or] at other
    obtain same | finished := k.cars i other.2
    · obtain same' | finished := h.cars i other.1
      · exact .inl (same.trans same')
      · exact .inr (finished.congr same)
    · exact .inr (finished.after h.fresh h.effect.params)

theorem Touching.mono {js ks : List Slot} {s t : State} (h : Touching js s t) (sub : ∀ i ∈ js, i ∈ ks) : Touching ks s t :=
  ⟨h.effect, h.steady, h.work, h.fresh, fun i other => h.cars i fun mem => other (sub i mem)⟩

theorem Fixing.touching {s t : State} (h : Fixing s t) (work : Work s t) : Touching [] s t :=
  ⟨h.effect, h.steady, work, h.fresh, fun i _ => (h.cars i).imp_right fun f => f.1⟩

theorem Touching.refl (s : State) : Touching [] s s := (Fixing.refl s).touching (.refl s)

theorem afterChange_touching (s : State) : Touching [] s (afterChange s) := (afterChange_fixing s).touching (afterChange_work s)

theorem changeCar_touching {i : Slot} {new : CarRecord} {s : State} (event : Option EventKind) (same : SameCar (s.car i) new) :
    Touching [i] s (changeCar i new event s) where
  effect := changeCar_effect event same
  steady := changeCar_steady i new event s
  work := changeCar_work i new event s
  fresh x mem _ := by
    rw [(changeCar_route i new event s).crossings] at mem
    exact mem
  cars j other := by
    left
    rw [changeCar_car, if_neg fun is => other (List.mem_singleton.mpr is)]

theorem ageStep_touching (i : Slot) (s : State) : Touching [i] s (ageStep i s) where
  effect := ageStep_effect i s
  steady := by
    obtain ⟨-, step⟩ | ⟨-, -, step⟩ := ageStep_eq s i
    · rw [step]
      exact .of_race rfl rfl rfl
    · rw [step]
      exact changeCar_steady ..
  work := ageStep_work i s
  fresh x mem _ := by
    rw [ageStep_crossings] at mem
    exact mem
  cars j other := by
    left
    rw [ageStep_car, if_neg fun is => other (List.mem_singleton.mpr is)]

/-- A change that may be followed by a fixing leaves the car as changed, or finishes it (R40, R99). -/
theorem Touching.car_after {js : List Slot} {s u t : State} {i : Slot} (h : Touching js s u) (k : Touching [] u t) :
    t.car i = u.car i ∨ FinishedSince i s t :=
  (k.cars i (List.not_mem_nil)).imp_right (FinishedSince.after h.fresh h.effect.params)

/-! ### Work on one car after another -/

/-- Work on several cars, each changing its own alone. -/
theorem foldl_touching {f : State → Slot → State} (one : ∀ s i, Touching [i] s (f s i)) (is : List Slot) (s : State) :
    Touching is s (is.foldl f s) := by
  induction is generalizing s with
  | nil => exact .refl s
  | cons i is ih => exact (one s i).trans (ih _)

/-- What the work on one of several cars does, seen from the whole. -/
theorem foldl_touching_split {f : State → Slot → State} (one : ∀ s i, Touching [i] s (f s i)) {is : List Slot} (nodup : is.Nodup)
    {i : Slot} (mem : i ∈ is) (s : State) : ∃ js ks u, i ∉ js ∧ i ∉ ks ∧ Touching js s u ∧ Touching ks (f u i) (is.foldl f s) := by
  obtain ⟨js, ks, rfl⟩ := List.append_of_mem mem
  have fresh : i ∉ js := fun mem => (List.nodup_append.mp nodup).2.2 i mem i (.head _) rfl
  have fresh' : i ∉ ks := (List.nodup_cons.mp (List.nodup_append.mp nodup).2.1).1
  refine ⟨js, ks, js.foldl f s, fresh, fresh', foldl_touching one js s, ?_⟩
  rw [List.foldl_append, List.foldl_cons]
  exact foldl_touching one ks _

/-! ### A change with its event (R40) -/

section
variable {s : State} {i : Slot} {new : CarRecord} (kind : EventKind) (same : SameCar (s.car i) new)
include same

/-- The event of a change goes out before that of any pair it ends and before what the report leads to (R40, R137). -/
theorem changeCar_noticedFirst {t : State} (work : Work (changeCar i new (some kind) s) t) :
    NoticedFirst (s.noticesFor [s.carEvent kind i]) s t := by
  have put : RaceEffect s (s.putCar i new) := putCar_effect same
  have told := raiseNow_sent kind [i] (s.putCar i new)
  rw [put.noticesFor, put.clock] at told
  have pairs : Work (raiseNow kind [i] (s.putCar i new)) (changeCar i new (some kind) s) :=
    .foldl _ (fun u c => raiseNow_work ..) (s.lostPairs i new) _
  exact .of_sent (told.after put rfl) (pairs.trans work)

theorem changeCar_heard {d : PortNo} (role : s.roleHolder = some d) (busy : (s.port d).wire.isSome = true) :
    Heard d ((s.noticesFor [s.carEvent kind i]).map (s.mkFrame d)) s (changeCar i new (some kind) s) := by
  have put : RaceEffect s (s.putCar i new) := putCar_effect same
  have told : Heard d _ (s.putCar i new) (raiseNow kind [i] (s.putCar i new)) :=
    raise_heard _ (put.roleHolder.trans role) busy
  have frames : (s.putCar i new).mkFrame d = s.mkFrame d := funext (put.mkFrame d)
  rw [put.noticesFor, put.clock, frames] at told
  have pairs : Work (raiseNow kind [i] (s.putCar i new)) (changeCar i new (some kind) s) :=
    .foldl _ (fun u c => raiseNow_work ..) (s.lostPairs i new) _
  have rest := Heard.of_work (pairs.ports d) (by rw [told.wire]; exact busy)
  have all := (Heard.of_port (s := s) (t := s.putCar i new) (d := d) rfl).trans (told.trans rest)
  rwa [List.nil_append, List.append_nil] at all

end

/-! ### RETIRE_CAR (R39, R40) -/

/-- The record of a car that is retired (R39). -/
def CarRecord.retired (c : CarRecord) : CarRecord := { c with state := .retired, coastTimer := none, loseTimer := none }

theorem retireCar_of_retirable {s : State} {i : Slot} (free : (s.car i).state ≠ .free) (finished : (s.car i).state ≠ .finished)
    (retired : (s.car i).state ≠ .retired) :
    retireCar i s = (afterChange (changeCar i (s.car i).retired none s), .ok) := by
  refine if_pos ?_
  cases state : (s.car i).state <;> simp_all [retirable]

theorem retireCar_of_refused {s : State} {i : Slot}
    (refused : (s.car i).state = .free ∨ (s.car i).state = .finished ∨ (s.car i).state = .retired) : retireCar i s = (s, .state) := by
  refine if_neg ?_
  obtain is | is | is := refused <;> rw [is] <;> decide

/-- Settles O26. -/
theorem retireCarTaken : Obligations.RetireCarTaken := by
  intro c i s asks
  refine ⟨fun free finished retired => ?_, fun refused => ?_⟩
  · have changed : Touching [i] s.dropHead (changeCar i (s.car i).retired none s.dropHead) :=
      changeCar_touching none ⟨rfl, rfl, rfl, rfl, rfl, rfl, rfl⟩
    have after := afterChange_touching (changeCar i (s.car i).retired none s.dropHead)
    refine ⟨_, exec_slotted_of_eq (fun _ => rfl) asks (retireCar_of_retirable (s := s.dropHead) free finished retired), ?_⟩
    have car : (changeCar i (s.car i).retired none s.dropHead).car i = (s.car i).retired := by
      rw [changeCar_car, if_pos rfl]
    have cars := (changed.effect.trans after.effect).cars
    obtain same | ⟨-, state, coast, lose⟩ := changed.car_after (i := i) after
    · rw [car] at same
      exact ⟨.inl (congrArg CarRecord.state same), congrArg CarRecord.coastTimer same, congrArg CarRecord.loseTimer same, cars⟩
    · exact ⟨.inr state, coast, lose, cars⟩
  · exact exec_slotted_of_eq (fun _ => rfl) asks (retireCar_of_refused (s := s.dropHead) refused)

/-! ### Age evaluations (R31, R32, R40) -/

section
variable {s : State} {i : Slot}

theorem ageEval_of_changed {new : CarRecord} {event : Option EventKind} (step : ageStep i s = changeCar i new event s)
    (changes : new.state ≠ (s.car i).state) : ageEval i s = afterChange (changeCar i new event s) := by
  have eq : ageEval i s = if ((ageStep i s).car i).state = (s.car i).state then ageStep i s else afterChange (ageStep i s) := rfl
  rw [eq, step, changeCar_car, if_pos rfl, if_neg changes]

theorem ageEval_of_kept {c : CarRecord} (step : ageStep i s = s.setCar i c) (keeps : c.state = (s.car i).state) :
    ageEval i s = s.setCar i c := by
  have eq : ageEval i s = if ((ageStep i s).car i).state = (s.car i).state then ageStep i s else afterChange (ageStep i s) := rfl
  rw [eq, step, State.car_setCar, if_pos rfl, if_pos keeps]

theorem ageEval_of_ageless (ageless : (s.car i).last = none ∨ ((s.car i).state ≠ .live ∧ (s.car i).state ≠ .coasting)) :
    ageEval i s = s := by
  have step := (ageStep_of_ageless s i ageless).1
  have eq : ageEval i s = if ((ageStep i s).car i).state = (s.car i).state then ageStep i s else afterChange (ageStep i s) := rfl
  rw [eq, step, if_pos rfl]

theorem ageEval_touching (i : Slot) (s : State) : Touching [i] s (ageEval i s) := by
  have eq : ageEval i s = if ((ageStep i s).car i).state = (s.car i).state then ageStep i s else afterChange (ageStep i s) := rfl
  rw [eq]
  split
  · exact ageStep_touching i s
  · exact ((ageStep_touching i s).trans (afterChange_touching _)).mono fun j mem => by rwa [List.append_nil] at mem

theorem exec_carTimer {c : Instr} (due : c = .coastTimerExpiry i ∧ s.coastDue i = true ∨ c = .loseTimerExpiry i ∧ s.loseDue i = true) :
    exec c s = .next (ageEval i s) := by
  obtain ⟨rfl, due⟩ | ⟨rfl, due⟩ := due
  · exact congrArg Host.Outcome.next (if_pos due)
  · exact congrArg Host.Outcome.next (if_pos due)

end

section
variable {s : State} {i : Slot} {x : Sample} (last : (s.car i).last = some x)
include last

/-- Beyond lose_after the car is LOST, with CAR_LOST before what follows (R32, R40). -/
theorem ageEval_of_old (ages : (s.car i).state = .live ∨ (s.car i).state = .coasting)
    (old : (s.params.loseAfter : Int) < timeDiff s.clock x.time) :
    (((ageEval i s).car i = (s.car i).lost) ∨ FinishedSince i s (ageEval i s))
      ∧ NoticedFirst (s.noticesFor [s.carEvent .carLost i]) s (ageEval i s) := by
  have same : SameCar (s.car i) (s.car i).lost := ⟨rfl, rfl, rfl, rfl, rfl, rfl, rfl⟩
  have changes : (s.car i).lost.state ≠ (s.car i).state := by
    obtain is | is := ages <;> (rw [is]; exact nofun)
  rw [ageEval_of_changed (ageStep_of_old last old ages).1 changes]
  have changed := changeCar_touching (s := s) (i := i) (some .carLost) same
  have after := afterChange_touching (changeCar i (s.car i).lost (some .carLost) s)
  refine ⟨?_, changeCar_noticedFirst .carLost same (afterChange_work _)⟩
  have car := changed.car_after (i := i) after
  rwa [changeCar_car, if_pos rfl] at car

theorem ageEval_of_late (live : (s.car i).state = .live) (young : timeDiff s.clock x.time ≤ s.params.loseAfter)
    (late : (s.params.coastAfter : Int) < timeDiff s.clock x.time) :
    (((ageEval i s).car i = s.coasting (s.car i)) ∨ FinishedSince i s (ageEval i s))
      ∧ NoticedFirst (s.noticesFor [s.carEvent .carCoasting i]) s (ageEval i s) := by
  have same : SameCar (s.car i) (s.coasting (s.car i)) := ⟨rfl, rfl, rfl, rfl, rfl, rfl, rfl⟩
  have changes : (s.coasting (s.car i)).state ≠ (s.car i).state := by
    rw [live]
    exact nofun
  rw [ageEval_of_changed (ageStep_of_late last young live late).1 changes]
  have changed := changeCar_touching (s := s) (i := i) (some .carCoasting) same
  have after := afterChange_touching (changeCar i (s.coasting (s.car i)) (some .carCoasting) s)
  refine ⟨?_, changeCar_noticedFirst .carCoasting same (afterChange_work _)⟩
  have car := changed.car_after (i := i) after
  rwa [changeCar_car, if_pos rfl] at car

end

/-- Settles O25. -/
theorem timersAgeCars : Obligations.TimersAgeCars := by
  refine ⟨fun i s => ⟨fun idle => congrArg _ (if_neg (Bool.eq_false_iff.mp idle)),
    fun idle => congrArg _ (if_neg (Bool.eq_false_iff.mp idle)), coastDue_iff, loseDue_iff⟩, fun i x s c last due => ?_⟩
  intro age
  refine ⟨ageEval i s, exec_carTimer due, (ageEval_touching i s).effect.cars, fun ages old => ?_, fun live young late => ?_,
    fun live young fresh => ?_, fun coasting young => ?_⟩
  · obtain ⟨car, told⟩ := ageEval_of_old last ages old
    obtain same | ⟨-, state, coast, lose⟩ := car
    · exact ⟨.inl (congrArg CarRecord.state same), congrArg CarRecord.coastTimer same, congrArg CarRecord.loseTimer same, told⟩
    · exact ⟨.inr state, coast, lose, told⟩
  · obtain ⟨car, told⟩ := ageEval_of_late last live young late
    obtain same | ⟨-, state, -⟩ := car
    · refine ⟨.inl ⟨congrArg CarRecord.state same, (congrArg CarRecord.loseTimer same).trans ?_⟩, told⟩
      simp only [State.coasting, last]
      rfl
    · exact ⟨.inr state, told⟩
  · exact ageEval_of_kept (ageStep_of_fresh last young live fresh).1 rfl
  · exact ageEval_of_kept (ageStep_of_coasting last young coasting).1 rfl

end Sys2Proof.Machine
end

section
/-! PROOFS. The cars of a port that leaves ACTIVE (R35), and PARKED cars that return (R37): what each change does, and the
notices the director is sent among others. -/

namespace Sys2Proof.Machine

/-! ### What the holder of the role hears -/

/-- The race's work, in which the holder of the role on a busy line is sent these notices among others. -/
structure Informs (bodies : List FrameBody) (s t : State) : Prop where
  effect : RaceEffect s t
  heard : ∀ d, s.roleHolder = some d → (s.port d).wire.isSome = true → Heard d (bodies.map (s.mkFrame d)) s t

theorem Informs.of_work {s t : State} (effect : RaceEffect s t) (work : Work s t) : Informs [] s t :=
  ⟨effect, fun d _ busy => .of_work (work.ports d) busy⟩

theorem Informs.trans {bs cs : List FrameBody} {s u t : State} (h : Informs bs s u) (k : Informs cs u t) :
    Informs (bs ++ cs) s t := by
  refine ⟨h.effect.trans k.effect, fun d role busy => ?_⟩
  have first := h.heard d role busy
  have second := k.heard d (h.effect.roleHolder.trans role) (by rw [first.wire]; exact busy)
  rw [funext (h.effect.mkFrame d)] at second
  rw [List.map_append]
  exact first.trans second

theorem Informs.between {bs : List FrameBody} {s u v t : State} (effect : RaceEffect s u) (work : Work s u) (h : Informs bs u v)
    (effect' : RaceEffect v t) (work' : Work v t) : Informs bs s t := by
  have all := (Informs.of_work effect work).trans (h.trans (.of_work effect' work'))
  rwa [List.nil_append, List.append_nil] at all

theorem raise_informs (e : Event) (s : State) : Informs (s.noticesFor [e]) s (raise e s) :=
  ⟨(raise_effect e s).race, fun _ role busy => raise_heard e role busy⟩

theorem RaceEffect.carEvent {s t : State} (h : RaceEffect s t) (kind : EventKind) (i : Slot) :
    t.carEvent kind i = s.carEvent kind i := by rw [State.carEvent, State.carEvent, h.clock]

theorem changeCar_informs {s : State} {i : Slot} {new : CarRecord} (kind : EventKind) (same : SameCar (s.car i) new) :
    Informs (s.noticesFor [s.carEvent kind i]) s (changeCar i new (some kind) s) :=
  ⟨changeCar_effect _ same, fun _ role busy => changeCar_heard kind same role busy⟩

/-- Whoever ends up with the role has, on a busy line, only been sent frames at the tail of class 5. -/
def RoleHeard (s t : State) : Prop := ∀ d, t.roleHolder = some d → (s.port d).wire.isSome = true → Heard d [] s t

theorem Informs.noticedWithin {bs : List FrameBody} {s u v t : State} (before : RoleHeard s u) (h : Informs bs u v)
    (after : RoleHeard v t) (role : t.roleHolder = v.roleHolder) : NoticedWithin bs s t := by
  intro d holds busy room
  have holds' : u.roleHolder = some d := by rw [← h.effect.roleHolder, ← role, holds]
  have first := before d holds' busy
  have second := h.heard d holds' (by rw [first.wire]; exact busy)
  have third := after d holds (by rw [second.wire, first.wire]; exact busy)
  obtain ⟨-, added, outbox, all⟩ := first.trans (second.trans third)
  refine ⟨added, outbox, ?_⟩
  have frames : t.mkFrame d = u.mkFrame d := by
    funext b
    rw [State.mkFrame, State.mkFrame, State.holdsRole, State.holdsRole, role, h.effect.roleHolder]
  rw [frames]
  have told := all room
  rwa [List.nil_append, List.append_nil] at told

/-! ### Before and after the cars change -/

/-- The cars and what their changes turn on are as they were. -/
structure SameRace (s t : State) : Prop where
  clock : t.clock = s.clock
  params : t.params = s.params
  routes : t.routes = s.routes
  race : t.race = s.race
  cars : t.cars = s.cars
  crossings : t.crossings = s.crossings

theorem SameRace.car {s t : State} (h : SameRace s t) (i : Slot) : t.car i = s.car i := by rw [State.car, State.car, h.cars]

theorem SameRace.owns {s t : State} (h : SameRace s t) (p : PortNo) (i : Slot) : t.owns p i = s.owns p i := by
  rw [State.owns, State.owns, h.car]

theorem SameRace.noticesFor {s t : State} (h : SameRace s t) (es : List Event) : t.noticesFor es = s.noticesFor es := by
  rw [State.noticesFor, State.noticesFor, h.routes]

theorem SameRace.carEvent {s t : State} (h : SameRace s t) (kind : EventKind) (i : Slot) :
    t.carEvent kind i = s.carEvent kind i := by rw [State.carEvent, State.carEvent, h.clock]

theorem SameRace.suspended {s t : State} (h : SameRace s t) : t.suspended = s.suspended :=
  State.suspended_congr (by rw [h.race]) (by rw [h.race]) h.clock

theorem SameRace.finishedSince {i : Slot} {s u t : State} (h : SameRace s u) (finished : FinishedSince i u t) :
    FinishedSince i s t := finished.after (fun _ mem _ => h.crossings ▸ mem) h.params

theorem SameRace.coastingSince {i : Slot} {s u t : State} (h : SameRace s u) (coasting : CoastingSince i u t) :
    CoastingSince i s t := by
  obtain ⟨state, coast, lose⟩ := coasting
  exact ⟨state, coast, by rw [lose, h.car, h.params]⟩

theorem SameRace.trans {s u t : State} (h : SameRace s u) (k : SameRace u t) : SameRace s t :=
  ⟨k.clock.trans h.clock, k.params.trans h.params, k.routes.trans h.routes, k.race.trans h.race, k.cars.trans h.cars,
    k.crossings.trans h.crossings⟩

theorem CoastingSince.congr {i : Slot} {s t v : State} (h : CoastingSince i s t) (car : v.car i = t.car i) :
    CoastingSince i s v := by
  unfold CoastingSince at *
  rwa [car]

theorem coastingSince_of_coasting {i : Slot} {s t : State} (car : t.car i = s.coasting (s.car i)) : CoastingSince i s t := by
  unfold CoastingSince
  rw [car]
  exact ⟨rfl, rfl, rfl⟩

/-! ### One car after another -/

section
variable {f : State → Slot → State} {P : CarState → Prop} (one : ∀ s i, Touching [i] s (f s i))
  (skip : ∀ s i, ¬P (s.car i).state → f s i = s) (still : ¬P .finished)
include one skip still

/-- Of the cars worked on, one that the work skips stays as it was, unless a fixing finishes it. -/
theorem foldl_skipped {is : List Slot} (nodup : is.Nodup) {s : State} {i : Slot} (skipped : i ∈ is → ¬P (s.car i).state) :
    (is.foldl f s).car i = s.car i ∨ FinishedSince i s (is.foldl f s) := by
  by_cases mem : i ∈ is
  · obtain ⟨js, ks, u, before, after, first, second⟩ := foldl_touching_split one nodup mem s
    have none : ¬P (u.car i).state := by
      obtain same | finished := first.cars i before
      · rw [same]
        exact skipped mem
      · rw [finished.2.1]
        exact still
    rw [skip u i none] at second
    exact (first.trans second).cars i fun mem => (List.mem_append.mp mem).elim before after
  · exact (foldl_touching one is s).cars i mem

/-- A car worked on has stayed as it was until its turn, unless a fixing has finished it. -/
theorem foldl_worked {is : List Slot} (nodup : is.Nodup) (s : State) {i : Slot} (mem : i ∈ is) :
    FinishedSince i s (is.foldl f s) ∨ ∃ js ks u, i ∉ ks ∧ Touching js s u ∧ u.car i = s.car i
      ∧ Touching ks (f u i) (is.foldl f s) := by
  obtain ⟨js, ks, u, before, after, first, second⟩ := foldl_touching_split one nodup mem s
  obtain same | finished := first.cars i before
  · exact .inr ⟨js, ks, u, after, first, same, second⟩
  · left
    have none : ¬P (u.car i).state := by
      rw [finished.2.1]
      exact still
    rw [skip u i none] at second
    obtain same | finished' := second.cars i after
    · exact finished.congr same
    · exact finished'.after first.fresh first.effect.params

end

theorem mem_slotsOf {s : State} {p : PortNo} {i : Slot} : i ∈ s.slotsOf p ↔ s.owns p i = true := by
  rw [State.slotsOf, List.mem_filter, and_iff_right (mem_allSlots i)]

theorem nodup_slotsOf (s : State) (p : PortNo) : (s.slotsOf p).Nodup := nodup_allSlots.filter _

/-! ### A port that leaves ACTIVE (R35) -/

/-- A change that is reported, seen as work on its car. -/
theorem reported_touching {s : State} {i : Slot} {new : CarRecord} (event : Option EventKind) (same : SameCar (s.car i) new) :
    Touching [i] s (afterChange (changeCar i new event s)) :=
  ((changeCar_touching event same).trans (afterChange_touching _)).mono fun j mem => by rwa [List.append_nil] at mem

theorem reported_car {s : State} {i : Slot} {new : CarRecord} (event : Option EventKind) (same : SameCar (s.car i) new) :
    (afterChange (changeCar i new event s)).car i = new ∨ FinishedSince i s (afterChange (changeCar i new event s)) := by
  have car := (changeCar_touching event same).car_after (i := i) (afterChange_touching (changeCar i new event s))
  rwa [changeCar_car, if_pos rfl] at car

theorem reported_informs {s : State} {i : Slot} {new : CarRecord} (kind : EventKind) (same : SameCar (s.car i) new) :
    Informs (s.noticesFor [s.carEvent kind i]) s (afterChange (changeCar i new (some kind) s)) := by
  have all := (changeCar_informs kind same).trans (.of_work (afterChange_effect _) (afterChange_work _))
  rwa [List.append_nil] at all

section
variable (s : State) (i : Slot)

theorem coasting_sameCar : SameCar (s.car i) (s.coasting (s.car i)) := ⟨rfl, rfl, rfl, rfl, rfl, rfl, rfl⟩

/-- The record of a car whose port goes QUIET (R36). -/
def CarRecord.parked (c : CarRecord) : CarRecord := { c with state := .parked, coastTimer := none, loseTimer := none }

theorem leaveCar_of_live (live : (s.car i).state = .live) :
    leaveCar false s i = afterChange (changeCar i (s.coasting (s.car i)) (some .carCoasting) s) := if_pos live

theorem leaveCar_of_other (other : (s.car i).state ≠ .live) : leaveCar false s i = s := if_neg other

theorem leaveCar_parks (contact : inContactState (s.car i).state = true) :
    leaveCar true s i = afterChange (changeCar i (s.car i).parked none s) := if_pos contact

theorem leaveCar_of_away (away : inContactState (s.car i).state ≠ true) : leaveCar true s i = s := if_neg away

end

theorem leaveCar_touching (quiet : Bool) (s : State) (i : Slot) : Touching [i] s (leaveCar quiet s i) := by
  have still : Touching [i] s s := (Touching.refl s).mono nofun
  cases quiet with
  | true =>
    by_cases contact : inContactState (s.car i).state = true
    · rw [leaveCar_parks s i contact]
      exact reported_touching none ⟨rfl, rfl, rfl, rfl, rfl, rfl, rfl⟩
    · rwa [leaveCar_of_away s i contact]
  | false =>
    by_cases live : (s.car i).state = .live
    · rw [leaveCar_of_live s i live]
      exact reported_touching _ (coasting_sameCar s i)
    · rwa [leaveCar_of_other s i live]

/-- The LIVE cars of a port become COASTING with CAR_COASTING, and no other car changes but by a fixing (R35). -/
structure Coasts (p : PortNo) (s t : State) : Prop where
  live : ∀ i, s.owns p i = true → (s.car i).state = .live → FinishedSince i s t
    ∨ (CoastingSince i s t ∧ Informs (s.noticesFor [s.carEvent .carCoasting i]) s t)
  others : ∀ i, (s.owns p i = true → (s.car i).state ≠ .live) → t.car i = s.car i ∨ FinishedSince i s t

theorem leaveCars_coasts (p : PortNo) (s : State) : Coasts p s ((s.slotsOf p).foldl (leaveCar false) s) where
  live i owns live := by
    obtain finished | ⟨js, ks, u, after, first, same, second⟩ := foldl_worked (P := (· = .live)) (leaveCar_touching false)
      (fun s i => leaveCar_of_other s i) nofun (nodup_slotsOf s p) s (mem_slotsOf.mpr owns)
    · exact .inl finished
    have live' : (u.car i).state = .live := by rw [same, live]
    have car := reported_car (some .carCoasting) (coasting_sameCar u i)
    have told := reported_informs .carCoasting (coasting_sameCar u i)
    have step := leaveCar_touching false u i
    rw [leaveCar_of_live u i live'] at second step
    rw [first.effect.noticesFor, first.effect.carEvent] at told
    obtain kept | finished := second.cars i after
    · obtain car | finished := car
      · obtain ⟨state, coast, lose⟩ := coastingSince_of_coasting (kept.trans car)
        rw [same, first.effect.params] at lose
        exact .inr ⟨⟨state, coast, lose⟩, told.between first.effect first.work second.effect second.work⟩
      · exact .inl ((finished.congr kept).after first.fresh first.effect.params)
    · exact .inl ((finished.after step.fresh step.effect.params).after first.fresh first.effect.params)
  others i other := foldl_skipped (P := (· = .live)) (leaveCar_touching false) (fun s i => leaveCar_of_other s i) nofun
    (nodup_slotsOf s p) fun mem => other (mem_slotsOf.mp mem)

theorem RaceEffect.owns {s t : State} (h : RaceEffect s t) (p : PortNo) (i : Slot) : t.owns p i = s.owns p i := by
  rw [State.owns, State.owns, (h.cars i).enabled, (h.cars i).owner]

/-- The cars of a port that has left ACTIVE, seen from before the port's own changes and after the work that follows. -/
theorem Coasts.liveCoasted {p : PortNo} {js : List Slot} {s u v t : State} (coasts : Coasts p u v) (touching : Touching js u v)
    (same : SameRace s u) (before : RoleHeard s u)
    (cars : ∀ i, (v.owns p i = true → (v.car i).state ≠ .parked) → t.car i = v.car i ∨ FinishedSince i v t)
    (after : RoleHeard v t) (role : t.roleHolder = v.roleHolder) : LiveCoasted p s t := by
  have late : ∀ i, FinishedSince i v t → FinishedSince i s t := fun i finished =>
    same.finishedSince (finished.after touching.fresh touching.effect.params)
  have owned : ∀ i, v.owns p i = s.owns p i := fun i => (touching.effect.owns p i).trans (same.owns p i)
  refine ⟨fun i owns live => ?_, fun i other => ?_⟩
  · obtain finished | ⟨coasting, told⟩ := coasts.live i ((same.owns p i).trans owns) (by rw [same.car, live])
    · obtain kept | late' := cars i fun _ => by rw [finished.2.1]; exact nofun
      · exact .inl (same.finishedSince (finished.congr kept))
      · exact .inl (late i late')
    · obtain kept | late' := cars i fun _ => by rw [coasting.1]; exact nofun
      · rw [same.noticesFor, same.carEvent] at told
        exact .inr ⟨same.coastingSince (coasting.congr kept), told.noticedWithin before after role⟩
      · exact .inl (late i late')
  · have untouched := coasts.others i fun owns => by
      rw [same.car]
      exact (other (by rwa [same.owns] at owns)).1
    obtain same' | finished := untouched
    · rw [same.car] at same'
      obtain kept | late' := cars i fun owns => by rw [same']; exact (other (by rwa [owned] at owns)).2
      · exact .inr (congrArg CarRecord.state (kept.trans same'))
      · exact .inl (late i late')
    · obtain kept | late' := cars i fun _ => by rw [finished.2.1]; exact nofun
      · exact .inl (same.finishedSince (finished.congr kept))
      · exact .inl (late i late')

/-! ### PARKED cars that return (R37) -/

/-- The record of a car that returns and is LOST at once carries its timers idle. -/
def LostSince (i : Slot) (t : State) : Prop :=
  (t.car i).state = .lost ∧ (t.car i).coastTimer = none ∧ (t.car i).loseTimer = none

theorem LostSince.congr {i : Slot} {t v : State} (h : LostSince i t) (car : v.car i = t.car i) : LostSince i v := by
  unfold LostSince at *
  rwa [car]

/-- The car's last sample is older than lose_after, and ageing is not suspended (R32, R34). -/
def State.overAge (s : State) (i : Slot) : Prop := s.suspended = false
  ∧ ∃ x, (s.car i).last = some x ∧ (s.params.loseAfter : Int) < timeDiff s.clock x.time

/-- A PARKED car that returns (R37). -/
def ReturnedSince (i : Slot) (s t : State) : Prop := FinishedSince i s t
  ∨ (¬s.overAge i ∧ CoastingSince i s t ∧ Informs (s.noticesFor [s.carEvent .carCoasting i]) s t)
  ∨ (s.overAge i ∧ LostSince i t ∧ Informs (s.noticesFor [s.carEvent .carCoasting i, s.carEvent .carLost i]) s t)

theorem unparkCar_of_other {s : State} {i : Slot} (other : ¬(s.car i).state = .parked) : unparkCar s i = s := if_neg other

/-- The car of a PARKED record after the report of its return. -/
def State.returned (s : State) (i : Slot) : State := afterChange (changeCar i (s.coasting (s.car i)) (some .carCoasting) s)

theorem unparkCar_of_parked {s : State} {i : Slot} (parked : (s.car i).state = .parked) :
    unparkCar s i = if (s.returned i).suspended then s.returned i else ageEval i (s.returned i) := if_pos parked

theorem State.returned_touching (s : State) (i : Slot) : Touching [i] s (s.returned i) := reported_touching _ (coasting_sameCar s i)

theorem unparkCar_touching (s : State) (i : Slot) : Touching [i] s (unparkCar s i) := by
  by_cases parked : (s.car i).state = .parked
  · rw [unparkCar_of_parked parked]
    have first := s.returned_touching i
    by_cases suspended : (s.returned i).suspended = true
    · rwa [if_pos suspended]
    · rw [if_neg suspended]
      exact (first.trans (ageEval_touching i _)).mono fun j mem => by simpa using mem
  · rw [unparkCar_of_other parked]
    exact (Touching.refl s).mono nofun

section
variable {s : State} {i : Slot}

/-- The age evaluation of a car that is COASTING by its own record (R32). -/
theorem ageEval_of_returned (coasting : s.car i = s.coasting (s.car i)) (awake : s.suspended = false) :
    (¬s.overAge i ∧ (ageEval i s).car i = s.car i ∧ Informs [] s (ageEval i s))
    ∨ (s.overAge i ∧ (LostSince i (ageEval i s) ∨ FinishedSince i s (ageEval i s))
        ∧ Informs (s.noticesFor [s.carEvent .carLost i]) s (ageEval i s)) := by
  have state : (s.car i).state = .coasting := by rw [coasting]; rfl
  cases last : (s.car i).last with
  | none =>
    left
    rw [ageEval_of_ageless (.inl last)]
    refine ⟨fun old => ?_, rfl, .of_work (.refl s) (.refl s)⟩
    obtain ⟨-, x, some', -⟩ := old
    rw [last] at some'
    exact nomatch some'
  | some x =>
    by_cases old : (s.params.loseAfter : Int) < timeDiff s.clock x.time
    · right
      have step := (ageStep_of_old last old (.inr state)).1
      have changes : (s.car i).lost.state ≠ (s.car i).state := by rw [state]; exact nofun
      have car := reported_car (s := s) (i := i) (new := (s.car i).lost) (some .carLost) ⟨rfl, rfl, rfl, rfl, rfl, rfl, rfl⟩
      have told := reported_informs (s := s) (i := i) (new := (s.car i).lost) .carLost ⟨rfl, rfl, rfl, rfl, rfl, rfl, rfl⟩
      rw [ageEval_of_changed step changes]
      refine ⟨⟨awake, x, last, old⟩, car.imp_left fun car => ?_, told⟩
      unfold LostSince
      rw [car]
      exact ⟨rfl, rfl, rfl⟩
    · left
      have step := (ageStep_of_coasting last (Int.not_lt.mp old) state).1
      have eval := ageEval_of_kept step rfl
      refine ⟨fun older => ?_, ?_, .of_work (ageEval_touching i s).effect (ageEval_touching i s).work⟩
      · obtain ⟨-, y, last', old'⟩ := older
        rw [last] at last'
        cases last'
        exact old old'
      · rw [eval, State.car_setCar, if_pos rfl]
        have lose := congrArg CarRecord.loseTimer coasting
        simp only [State.coasting, last, Option.map_some] at lose
        show { s.car i with loseTimer := some (s.loseDeadline x) } = s.car i
        rw [← lose]

theorem RaceEffect.overAge {t : State} (h : RaceEffect s t) (suspended : t.suspended = s.suspended) : t.overAge i ↔ s.overAge i := by
  unfold State.overAge
  rw [suspended, (h.cars i).last, h.params, h.clock]

theorem ageEval_of_finished (finished : (s.car i).state = .finished) : ageEval i s = s :=
  ageEval_of_ageless (.inr ⟨by rw [finished]; exact nofun, by rw [finished]; exact nofun⟩)

theorem unparkCar_returns (lead : s.params.holdLead ≤ 1000000) (parked : (s.car i).state = .parked) :
    ReturnedSince i s (unparkCar s i) := by
  have first := s.returned_touching i
  have car : (s.returned i).car i = s.coasting (s.car i) ∨ FinishedSince i s (s.returned i) :=
    reported_car _ (coasting_sameCar s i)
  have told : Informs (s.noticesFor [s.carEvent .carCoasting i]) s (s.returned i) := reported_informs _ (coasting_sameCar s i)
  have suspended := first.steady.suspended lead
  rw [unparkCar_of_parked parked]
  by_cases sleeps : (s.returned i).suspended = true
  · rw [if_pos sleeps]
    obtain car | finished := car
    · refine .inr (.inl ⟨fun old => ?_, coastingSince_of_coasting car, told⟩)
      have awake := old.1
      rw [← suspended, sleeps] at awake
      exact nomatch awake
    · exact .inl finished
  · rw [if_neg sleeps]
    obtain car | finished := car
    · have own : (s.returned i).car i = (s.returned i).coasting ((s.returned i).car i) := by
        have deadline : (s.returned i).loseDeadline = s.loseDeadline := by
          funext x
          rw [State.loseDeadline, State.loseDeadline, first.effect.params]
        rw [car]
        simp only [State.coasting, deadline]
      have evaluated := ageEval_of_returned own (Bool.eq_false_iff.mpr sleeps)
      rw [first.effect.overAge suspended, first.effect.noticesFor, first.effect.carEvent] at evaluated
      obtain ⟨young, kept, told'⟩ | ⟨old, lost | finished, told'⟩ := evaluated
      · have both := told.trans told'
        rw [List.append_nil] at both
        exact .inr (.inl ⟨young, coastingSince_of_coasting (kept.trans car), both⟩)
      · have both := told.trans told'
        rw [← noticesFor_append] at both
        exact .inr (.inr ⟨old, lost, both⟩)
      · exact .inl (finished.after first.fresh first.effect.params)
    · rw [ageEval_of_finished finished.2.1]
      exact .inl finished

end

/-- The PARKED cars of a port return, and no other car changes but by a fixing (R37). -/
structure Unparks (p : PortNo) (s t : State) : Prop where
  parked : s.params.holdLead ≤ 1000000 → ∀ i, s.owns p i = true → (s.car i).state = .parked → ReturnedSince i s t
  others : ∀ i, (s.owns p i = true → (s.car i).state ≠ .parked) → t.car i = s.car i ∨ FinishedSince i s t

theorem ReturnedSince.between {js ks : List Slot} {i : Slot} {s u v t : State} (first : Touching js s u) (car : u.car i = s.car i)
    (step : Touching [i] u v) (returned : ReturnedSince i u v) (second : Touching ks v t) (after : i ∉ ks)
    (suspended : u.suspended = s.suspended) : ReturnedSince i s t := by
  unfold ReturnedSince at *
  rw [first.effect.overAge suspended, first.effect.noticesFor, first.effect.noticesFor, first.effect.carEvent,
    first.effect.carEvent] at returned
  obtain kept | finished := second.cars i after
  · obtain finished | ⟨young, ⟨state, coast, lose⟩, told⟩ | ⟨old, lost, told⟩ := returned
    · exact .inl ((finished.congr kept).after first.fresh first.effect.params)
    · rw [car, first.effect.params] at lose
      refine .inr (.inl ⟨young, CoastingSince.congr (t := v) ⟨state, coast, lose⟩ kept, ?_⟩)
      exact told.between first.effect first.work second.effect second.work
    · exact .inr (.inr ⟨old, lost.congr kept, told.between first.effect first.work second.effect second.work⟩)
  · exact .inl ((finished.after step.fresh step.effect.params).after first.fresh first.effect.params)

theorem unparkCars_unparks (p : PortNo) (s : State) : Unparks p s (unparkCars p s) where
  parked lead i owns parked := by
    obtain finished | ⟨js, ks, u, after, first, same, second⟩ := foldl_worked (P := (· = .parked)) unparkCar_touching
      (fun _ _ => unparkCar_of_other) nofun (nodup_slotsOf s p) s (mem_slotsOf.mpr owns)
    · exact .inl finished
    have returned := unparkCar_returns (s := u) (i := i) (by rw [first.effect.params]; exact lead) (by rw [same, parked])
    exact .between first same (unparkCar_touching u i) returned second after (first.steady.suspended lead)
  others i other := foldl_skipped (P := (· = .parked)) unparkCar_touching (fun _ _ => unparkCar_of_other) nofun
    (nodup_slotsOf s p) fun mem => other (mem_slotsOf.mp mem)

theorem unparkCars_touching (p : PortNo) (s : State) : Touching (s.slotsOf p) s (unparkCars p s) :=
  foldl_touching unparkCar_touching _ s

theorem Unparks.parkedReturned {p : PortNo} {s u v t : State} (unparks : Unparks p u v)
    (same : SameRace s u) (before : RoleHeard s u) (cars : ∀ i, t.car i = v.car i)
    (after : RoleHeard v t) (role : t.roleHolder = v.roleHolder) : ParkedReturned p s t := by
  refine ⟨fun lead i owns parked => ?_, fun i other => ?_⟩
  · have returned := unparks.parked (by rw [same.params]; exact lead) i ((same.owns p i).trans owns) (by rw [same.car, parked])
    have age : u.overAge i ↔ s.overAge i := by
      unfold State.overAge
      rw [same.suspended, same.car, same.params, same.clock]
    unfold ReturnedSince at returned
    rw [age, same.noticesFor, same.noticesFor, same.carEvent, same.carEvent] at returned
    obtain finished | ⟨young, coasting, told⟩ | ⟨old, lost, told⟩ := returned
    · exact .inl (same.finishedSince (finished.congr (cars i)))
    · exact .inr (.inl ⟨young, same.coastingSince (coasting.congr (cars i)), told.noticedWithin before after role⟩)
    · obtain ⟨state, coast, lose⟩ := lost.congr (cars i)
      exact .inr (.inr ⟨old, state, coast, lose, told.noticedWithin before after role⟩)
  · have untouched := unparks.others i fun owns => by
      rw [same.car]
      exact other (by rwa [same.owns] at owns)
    obtain kept | finished := untouched
    · exact .inr (congrArg CarRecord.state ((cars i).trans (kept.trans (same.car i))))
    · exact .inl (same.finishedSince (finished.congr (cars i)))

end Sys2Proof.Machine
end

section
/-! PROOFS. A port that leaves ACTIVE (R162): what it loses, who takes the role, the hold test without its entry, and what later work
keeps of it. -/

namespace Sys2Proof.Machine

/-! ### Work beside a port -/

/-- Every other port on a busy line is only sent frames at the tail of class 5. -/
structure Beside (p : PortNo) (s t : State) : Prop where
  heard : ∀ d, d ≠ p → (s.port d).wire.isSome = true → Heard d [] s t

section
variable {p : PortNo} {s u t : State}

theorem Beside.refl (p : PortNo) (s : State) : Beside p s s := ⟨fun _ _ _ => .of_port rfl⟩

theorem Beside.trans (h : Beside p s u) (k : Beside p u t) : Beside p s t := ⟨fun d other busy =>
  (h.heard d other busy).trans (k.heard d other (by rw [(h.heard d other busy).wire]; exact busy))⟩

theorem Beside.of_work (work : Work s t) : Beside p s t := ⟨fun d _ busy => .of_work (work.ports d) busy⟩

theorem Beside.of_ports (same : ∀ d, d ≠ p → t.port d = s.port d) : Beside p s t := ⟨fun d other _ => .of_port (same d other)⟩

theorem Beside.roleHeard (h : Beside p s t) (away : t.roleHolder ≠ some p) : RoleHeard s t := fun d holds busy =>
  h.heard d (fun is => away (is ▸ holds)) busy

theorem roleHolder_ne_of_phase (away : (s.port p).phase ≠ .active) : s.roleHolder ≠ some p := fun is =>
  away (holdsRole_iff.mp (decide_eq_true is)).2

end

/-! ### The port's own changes -/

/-- The port with its set in flight abandoned (R83). -/
def Port.abandoned (q : Port) : Port := match q.viewSet with
  | some _ => { q with viewSet := none, counters := { q.counters with viewAbandoned := bump q.counters.viewAbandoned } }
  | none => q

theorem abandonViewSet_port (s : State) (p : PortNo) : (s.abandonViewSet p).port p = (s.port p).abandoned := by
  unfold State.abandonViewSet Port.abandoned
  cases (s.port p).viewSet with
  | some w => exact State.port_modPort_self ..
  | none => rfl

theorem abandonViewSet_port_of_ne (s : State) {p d : PortNo} (other : d ≠ p) : (s.abandonViewSet p).port d = s.port d := by
  unfold State.abandonViewSet
  cases (s.port p).viewSet with
  | some w => exact State.port_modPort_of_ne _ _ other
  | none => rfl

theorem abandonViewSet_race (s : State) (p : PortNo) : (s.abandonViewSet p).race = s.race := by
  unfold State.abandonViewSet
  cases (s.port p).viewSet <;> rfl

/-- What abandoning the set in flight leaves of the port. -/
theorem Port.abandoned_keeps (q : Port) : q.abandoned.viewSet = none
    ∧ q.abandoned.counters.viewAbandoned = (if q.viewSet.isSome then bump q.counters.viewAbandoned else q.counters.viewAbandoned)
    ∧ q.abandoned = { q with viewSet := none, counters := q.abandoned.counters } := by
  cases view : q.viewSet with
  | some w => exact ⟨by simp [Port.abandoned, view], by simp [Port.abandoned, view], by simp [Port.abandoned, view]⟩
  | none =>
    have same : q.abandoned = q := by simp [Port.abandoned, view]
    rw [same]
    refine ⟨view, rfl, ?_⟩
    rw [← view]

/-- The port's record as it leaves ACTIVE (R162). -/
def Port.left (q : Port) (new : PortPhase) : Port := q.abandoned.departed new

/-- The hub with the record of a port that leaves ACTIVE, before the role, the cars and the ack set follow. -/
def State.departs (s : State) (p : PortNo) (new : PortPhase) : State := (s.abandonViewSet p).modPort p (·.departed new)

theorem State.departs_port (s : State) (p : PortNo) (new : PortPhase) : (s.departs p new).port p = (s.port p).left new := by
  rw [State.departs, State.port_modPort_self, abandonViewSet_port, Port.left]

theorem State.departs_port_of_ne (s : State) {p d : PortNo} (new : PortPhase) (other : d ≠ p) :
    (s.departs p new).port d = s.port d := by
  rw [State.departs, State.port_modPort_of_ne _ _ other, abandonViewSet_port_of_ne _ other]

theorem State.departs_sameRace (s : State) (p : PortNo) (new : PortPhase) : SameRace s (s.departs p new) := by
  have route := abandonViewSet_effect s p
  exact ⟨route.clock, route.params, route.routes, abandonViewSet_race s p, route.cars, route.crossings⟩

theorem State.departs_mgmt (s : State) (p : PortNo) (new : PortPhase) : (s.departs p new).mgmt = s.mgmt :=
  (abandonViewSet_effect s p).mgmt

/-! ### The role passed on (R172, R173) -/

section
variable {p : PortNo} {s : State}

/-- The first port in port order that is ACTIVE takes the role. -/
def State.withRole (s : State) (p : PortNo) : State :=
  ({ s with mgmt := { s.mgmt with director := allPorts.find? s.isActive } } : State).discardCommands p

theorem handOver_of_none (none_ : allPorts.find? s.isActive = none) : handOver p s = s.withRole p := by
  simp only [handOver, none_, State.withRole]

theorem handOver_of_some {n : PortNo} (next : allPorts.find? s.isActive = some n) :
    handOver p s = (s.withRole p).offerNotice n (.directorMoved (some p) .handOver) := by
  simp only [handOver, next, State.withRole]

theorem active_of_find {n : PortNo} (next : allPorts.find? s.isActive = some n) : (s.port n).phase = .active :=
  s.isActive_iff n |>.mp (List.find?_some next)

theorem handOver_mgmt (p : PortNo) (s : State) : (handOver p s).mgmt = { s.mgmt with
    director := allPorts.find? s.isActive, queue := s.mgmt.queue.filter fun c => decide (c.sender ≠ p) } := by
  cases next : allPorts.find? s.isActive with
  | none =>
    rw [handOver_of_none next, State.withRole, next]
    rfl
  | some n =>
    rw [handOver_of_some next, (offerNotice_effect ..).mgmt, State.withRole, next]
    rfl

theorem handOver_sameRace (p : PortNo) (s : State) : SameRace s (handOver p s) := by
  cases next : allPorts.find? s.isActive with
  | none =>
    rw [handOver_of_none next]
    exact ⟨rfl, rfl, rfl, rfl, rfl, rfl⟩
  | some n =>
    rw [handOver_of_some next]
    have route := offerNotice_effect (s.withRole p) n (.directorMoved (some p) .handOver)
    exact ⟨route.clock, route.params, route.routes, State.offerNotice_race .., route.cars, route.crossings⟩

/-- Class 5 of a busy line only grows by a notice offered to its port. -/
theorem offerNotice_heard (s : State) (n d : PortNo) (x : Notice) (admits : admitsReplies (s.port n).phase = true)
    (busy : (s.port d).wire.isSome = true) : Heard d [] s (s.offerNotice n x) := by
  by_cases is : d = n
  · subst is
    by_cases room : (s.port d).notices.length < 16
    · rw [State.offerNotice_of_busy x admits room busy]
      refine ⟨?_, [s.mkFrame d (.notice x)], ?_, fun _ => List.nil_sublist _⟩
      · rw [State.port_modPort_self]
      · rw [State.port_modPort_self]
    · rw [State.offerNotice_of_full x (Nat.not_lt.mp room)]
      exact .of_port rfl
  · exact .of_port (State.offerNotice_other s x is)

theorem handOver_port (away : (s.port p).phase ≠ .active) : (handOver p s).port p = s.port p := by
  cases next : allPorts.find? s.isActive with
  | none => rw [handOver_of_none next]; rfl
  | some n =>
    have other : p ≠ n := fun is => away (is ▸ active_of_find next)
    rw [handOver_of_some next]
    exact State.offerNotice_other _ _ other

theorem handOver_beside (p : PortNo) (s : State) : Beside p s (handOver p s) := by
  refine ⟨fun d _ busy => ?_⟩
  cases next : allPorts.find? s.isActive with
  | none => rw [handOver_of_none next]; exact .of_port rfl
  | some n =>
    rw [handOver_of_some next]
    have admits : admitsReplies ((s.withRole p).port n).phase = true := by
      show admitsReplies (s.port n).phase = true
      rw [active_of_find next]
      rfl
    have told := offerNotice_heard (s.withRole p) n d (.directorMoved (some p) .handOver) admits busy
    exact (Heard.of_port (s := s) (t := s.withRole p) rfl).trans told

/-- The port that takes the role is told so, where its line is busy and a notice has room (R172). -/
theorem handOver_tells {n : PortNo} (next : allPorts.find? s.isActive = some n) (busy : (s.port n).wire.isSome = true)
    (room : (s.port n).notices.length < 16) :
    ∃ f ∈ ((handOver p s).port n).outbox, f.director = true ∧ f.body = .notice (.directorMoved (some p) .handOver) := by
  have admits : admitsReplies ((s.withRole p).port n).phase = true := by
    show admitsReplies (s.port n).phase = true
    rw [active_of_find next]
    rfl
  have holds : (s.withRole p).holdsRole n = true := holdsRole_iff.mpr ⟨next, active_of_find next⟩
  rw [handOver_of_some next, State.offerNotice_of_busy _ admits room busy, State.port_modPort_self]
  exact ⟨_, List.mem_append_right _ (List.mem_singleton_self _), holds, rfl⟩

end

/-! ### The state in which the cars follow -/

/-- The hub with the port's record and the role as a departure leaves them, before the cars and the ack set follow. -/
def State.passedOn (s : State) (p : PortNo) (new : PortPhase) : State :=
  if s.holdsRole p then handOver p (s.departs p new)
  else if new = .quiet then s.departs p new else (s.departs p new).discardCommands p

theorem leaveActive_eq (p : PortNo) (new : PortPhase) (s : State) : leaveActive p new s = removeAck p
    (((s.passedOn p new).slotsOf p).foldl (leaveCar (decide (new = .quiet))) (s.passedOn p new)) := rfl

section
variable {p : PortNo} {new : PortPhase} {s : State}

theorem passedOn_cases (p : PortNo) (new : PortPhase) (s : State) :
    (s.holdsRole p = true ∧ s.passedOn p new = handOver p (s.departs p new))
    ∨ (s.holdsRole p = false ∧ new = .quiet ∧ s.passedOn p new = s.departs p new)
    ∨ (s.holdsRole p = false ∧ new ≠ .quiet ∧ s.passedOn p new = (s.departs p new).discardCommands p) := by
  unfold State.passedOn
  by_cases held : s.holdsRole p = true
  · exact .inl ⟨held, if_pos held⟩
  · by_cases quiet : new = .quiet
    · exact .inr (.inl ⟨Bool.eq_false_iff.mpr held, quiet, by rw [if_neg held, if_pos quiet]⟩)
    · exact .inr (.inr ⟨Bool.eq_false_iff.mpr held, quiet, by rw [if_neg held, if_neg quiet]⟩)

theorem passedOn_sameRace (p : PortNo) (new : PortPhase) (s : State) : SameRace s (s.passedOn p new) := by
  have departs := s.departs_sameRace p new
  obtain ⟨-, eq⟩ | ⟨-, -, eq⟩ | ⟨-, -, eq⟩ := passedOn_cases p new s
  · rw [eq]
    exact departs.trans (handOver_sameRace ..)
  · rwa [eq]
  · rw [eq]
    exact departs.trans ⟨rfl, rfl, rfl, rfl, rfl, rfl⟩

theorem passedOn_port (away : new ≠ .active) : (s.passedOn p new).port p = (s.port p).left new := by
  have departs := s.departs_port p new
  obtain ⟨-, eq⟩ | ⟨-, -, eq⟩ | ⟨-, -, eq⟩ := passedOn_cases p new s
  · rw [eq, handOver_port, departs]
    rw [departs]
    exact away
  · rwa [eq]
  · rwa [eq]

theorem passedOn_beside (p : PortNo) (new : PortPhase) (s : State) : Beside p s (s.passedOn p new) := by
  have departs : Beside p s (s.departs p new) := .of_ports fun d other => s.departs_port_of_ne new other
  obtain ⟨-, eq⟩ | ⟨-, -, eq⟩ | ⟨-, -, eq⟩ := passedOn_cases p new s
  · rw [eq]
    exact departs.trans (handOver_beside p _)
  · rwa [eq]
  · rw [eq]
    exact departs.trans (.of_ports fun _ _ => rfl)

/-- The ports that may take the role of a port that leaves ACTIVE (R172). -/
theorem departs_isActive (away : new ≠ .active) :
    (s.departs p new).isActive = fun r => decide (r ≠ p ∧ (s.port r).phase = .active) := by
  funext r
  rw [State.isActive]
  by_cases is : r = p
  · subst is
    rw [s.departs_port r new]
    have left : ¬((s.port r).left new).phase = .active := away
    simp [left]
  · rw [s.departs_port_of_ne new is]
    simp [is]

theorem passedOn_role (away : new ≠ .active) : RolePassedOn p s (s.passedOn p new) := by
  have mgmt := s.departs_mgmt p new
  obtain ⟨held, eq⟩ | ⟨held, -, eq⟩ | ⟨held, -, eq⟩ := passedOn_cases p new s
  · rw [eq]
    refine ⟨fun _ => ?_, fun _ n next busy room => ?_, fun not => ?_⟩
    · rw [handOver_mgmt, departs_isActive away]
    · rw [handOver_mgmt] at next
      have active := List.find?_some next
      rw [departs_isActive away] at active
      have other : n ≠ p := (of_decide_eq_true active).1
      have same := s.departs_port_of_ne new other
      exact handOver_tells next (by rwa [same]) (by rwa [same])
    · rw [held] at not
      exact nomatch not
  · rw [eq]
    exact ⟨fun is => absurd (held.symm.trans is) nofun, fun is => absurd (held.symm.trans is) nofun, fun _ => by rw [mgmt]⟩
  · rw [eq]
    exact ⟨fun is => absurd (held.symm.trans is) nofun, fun is => absurd (held.symm.trans is) nofun, fun _ => congrArg (·.director) mgmt⟩

theorem passedOn_queue (p : PortNo) (new : PortPhase) (s : State) : (s.passedOn p new).mgmt.queue =
    if s.holdsRole p = true ∨ new ≠ .quiet then s.mgmt.queue.filter fun c => decide (c.sender ≠ p) else s.mgmt.queue := by
  have mgmt := s.departs_mgmt p new
  obtain ⟨held, eq⟩ | ⟨held, quiet, eq⟩ | ⟨held, quiet, eq⟩ := passedOn_cases p new s
  · rw [eq, if_pos (.inl held), handOver_mgmt, mgmt]
  · rw [eq, if_neg (by rw [held]; simp [quiet]), mgmt]
  · rw [eq, if_pos (.inr quiet)]
    show (s.departs p new).mgmt.queue.filter _ = _
    rw [mgmt]

end

/-! ### The ack set without the port's entry (R121, R119) -/

/-- HOLD_BEGIN, raised now. -/
def State.holdBegins (s : State) : List FrameBody :=
  s.noticesFor [{ kind := .holdBegin, time := s.clock, slots := [], fault := none }]

/-- The ack set without the entry of a port. -/
def State.acksWithout (s : State) (p : PortNo) : List AckEntry := s.race.acks.filter fun a => decide (a.port ≠ p)

/-- The removal of a port's entry leaves every entry acked, with T_h reached (R119, R121). -/
def State.ackCompletes (s : State) (p : PortNo) : Prop :=
  (∃ a ∈ s.race.acks, a.port = p) ∧ s.reached s.race.tH = true ∧ ∀ a ∈ s.acksWithout p, a.acked = true

theorem Informs.after {bs : List FrameBody} {s u t : State} (effect : RaceEffect s u) (ports : u.ports = s.ports)
    (h : Informs bs u t) : Informs bs s t := by
  have same : ∀ d, u.port d = s.port d := fun d => by rw [State.port, State.port, ports]
  have first : Informs [] s u := ⟨effect, fun d _ _ => .of_port (same d)⟩
  exact first.trans h

theorem enterHold_informs (s : State) : Informs s.holdBegins s (enterHold s) := by
  have told := raise_informs { kind := .holdBegin, time := s.clock, slots := [], fault := none }
    { s with race := { s.race with state := .hold, acks := [] } }
  have put : RaceEffect s { s with race := { s.race with state := .hold, acks := [] } } := .withRace s _
  rw [put.noticesFor] at told
  exact told.after put rfl

section
variable {p : PortNo} {s : State}

/-- The ack set without the port's entry, before the hold test. -/
def State.ackGone (s : State) (p : PortNo) : State := { s with race := { s.race with acks := s.acksWithout p } }

theorem removeAck_of_entry (entry : ∃ a ∈ s.race.acks, a.port = p) : removeAck p s = ackTest (s.ackGone p) := by
  refine if_pos (List.any_eq_true.mpr ?_)
  obtain ⟨a, mem, is⟩ := entry
  exact ⟨a, mem, decide_eq_true is⟩

theorem removeAck_of_no_entry (no : ∀ a ∈ s.race.acks, a.port ≠ p) : removeAck p s = s := by
  refine if_neg fun any => ?_
  obtain ⟨a, mem, is⟩ := List.any_eq_true.mp any
  exact no a mem (of_decide_eq_true is)

theorem removeAck_of_complete (pending : s.race.state = .holdPending) (complete : s.ackCompletes p) :
    removeAck p s = enterHold (s.ackGone p) := by
  obtain ⟨entry, due, acked⟩ := complete
  exact (removeAck_of_entry entry).trans (ackTest_of_complete pending due acked)

theorem removeAck_of_incomplete (incomplete : ¬(s.race.state = .holdPending ∧ s.ackCompletes p)) :
    removeAck p s = s.ackGone p := by
  by_cases entry : ∃ a ∈ s.race.acks, a.port = p
  · refine (removeAck_of_entry entry).trans (if_neg fun ⟨pending, complete⟩ => ?_)
    obtain ⟨due, acked⟩ := Bool.and_eq_true_iff.mp complete
    exact incomplete ⟨pending, entry, due, (s.ackGone p).allAcked_iff.mp acked⟩
  · have no : ∀ a ∈ s.race.acks, a.port ≠ p := fun a mem is => entry ⟨a, mem, is⟩
    have all : s.acksWithout p = s.race.acks := List.filter_eq_self.mpr fun a mem => decide_eq_true (no a mem)
    rw [removeAck_of_no_entry no, State.ackGone, all]

theorem mem_acksWithout {a : AckEntry} (mem : a ∈ s.acksWithout p) : a.port ≠ p := of_decide_eq_true (List.mem_filter.mp mem).2

theorem ackGone_effect (p : PortNo) (s : State) : RaceEffect s (s.ackGone p) := .withRace s _

theorem removeAck_acks (a : AckEntry) (mem : a ∈ (removeAck p s).race.acks) : a.port ≠ p := by
  by_cases complete : s.race.state = .holdPending ∧ s.ackCompletes p
  · rw [removeAck_of_complete complete.1 complete.2, enterHold_race] at mem
    exact nomatch mem
  · rw [removeAck_of_incomplete complete] at mem
    exact mem_acksWithout mem

theorem removeAck_cars (p : PortNo) (s : State) (i : Slot) : (removeAck p s).car i = s.car i := (removeAck_effect p s).car i

theorem removeAck_informs (p : PortNo) (s : State) : Informs [] s (removeAck p s) :=
  .of_work (removeAck_effect p s).race (removeAck_work p s)

end

/-! ### What later work keeps of a departure -/

/-- What a port gives up on leaving ACTIVE (R83, R162). -/
structure Port.Withdrawn (q : Port) : Prop where
  calls : q.calls = []
  cues : q.cues = []
  placings : q.placings = []
  viewSet : q.viewSet = none
  paceTimer : q.paceTimer = none

/-- Work that keeps what a departure of port `p` has left. -/
structure Follows (p : PortNo) (s t : State) : Prop where
  steady : Steady s t
  acks : ∀ a ∈ t.race.acks, a ∈ s.race.acks ∨ a.port ≠ p
  mgmt : t.mgmt.director = s.mgmt.director
  role : t.roleHolder = s.roleHolder
  beside : Beside p s t
  withdrawn : (s.port p).Withdrawn → (t.port p).Withdrawn
  abandoned : (t.port p).counters.viewAbandoned = (s.port p).counters.viewAbandoned

theorem Follows.refl (p : PortNo) (s : State) : Follows p s s :=
  ⟨.refl s, fun _ mem => .inl mem, rfl, rfl, .refl p s, id, rfl⟩

theorem Follows.trans {p : PortNo} {s u t : State} (h : Follows p s u) (k : Follows p u t) : Follows p s t where
  steady := h.steady.trans k.steady
  acks a mem := (k.acks a mem).elim (h.acks a) .inr
  mgmt := k.mgmt.trans h.mgmt
  role := k.role.trans h.role
  beside := h.beside.trans k.beside
  withdrawn w := k.withdrawn (h.withdrawn w)
  abandoned := k.abandoned.trans h.abandoned

theorem Work.follows {p : PortNo} {s t : State} (work : Work s t) (effect : RaceEffect s t) (steady : Steady s t)
    (away : (s.port p).phase ≠ .active) : Follows p s t where
  steady := steady
  acks a mem := (work.acks a mem).imp_right fun active is => away (is ▸ active)
  mgmt := congrArg MgmtRecord.director effect.mgmt
  role := effect.roleHolder
  beside := .of_work work
  withdrawn w := by rwa [(work.ports p).still away]
  abandoned := by rw [(work.ports p).still away]

theorem Touching.follows {p : PortNo} {js : List Slot} {s t : State} (h : Touching js s t) (away : (s.port p).phase ≠ .active) :
    Follows p s t := h.work.follows h.effect h.steady away

/-- A departure, seen after later work. -/
theorem RolePassedOn.after {p : PortNo} {s u t : State} (passed : RolePassedOn p s u) (beside : Beside p s u)
    (director : t.mgmt.director = u.mgmt.director) (later : Beside p u t) : RolePassedOn p s t where
  moved held := by rw [director, passed.moved held]
  told held n next busy room := by
    rw [director] at next
    have takes := passed.moved held
    rw [next] at takes
    have taker := List.find?_some takes.symm
    have other : n ≠ p := (of_decide_eq_true taker).1
    obtain ⟨f, mem, marks⟩ := passed.told held n next busy room
    obtain ⟨-, added, outbox, -⟩ := later.heard n other (by rw [(beside.heard n other busy).wire]; exact busy)
    exact ⟨f, by rw [outbox]; exact List.mem_append_left _ mem, marks⟩
  kept not := by rw [director, passed.kept not]

/-! ### Leaving ACTIVE, as a whole -/

theorem Port.left_withdrawn (q : Port) (new : PortPhase) : (q.left new).Withdrawn :=
  ⟨rfl, rfl, rfl, q.abandoned_keeps.1, rfl⟩

section
variable (p : PortNo) (new : PortPhase) (s : State)

/-- The hub with the cars of a departing port changed, before its entry in the ack set goes. -/
def State.carsLeft : State := ((s.passedOn p new).slotsOf p).foldl (leaveCar (decide (new = .quiet))) (s.passedOn p new)

theorem leaveActive_carsLeft : leaveActive p new s = removeAck p (s.carsLeft p new) := rfl

theorem carsLeft_touching : Touching ((s.passedOn p new).slotsOf p) (s.passedOn p new) (s.carsLeft p new) :=
  foldl_touching (leaveCar_touching _) _ _

end

section
variable {p : PortNo} {new : PortPhase} {s t : State} (away : new ≠ .active)
include away

theorem passedOn_away : ((s.passedOn p new).port p).phase ≠ .active := by
  rw [passedOn_port away]
  exact away

theorem carsLeft_port : (s.carsLeft p new).port p = (s.port p).left new := by
  rw [((carsLeft_touching p new s).work.ports p).still (passedOn_away away), passedOn_port away]

theorem leaveActive_port : (leaveActive p new s).port p = (s.port p).left new := by
  have still := (removeAck_work p (s.carsLeft p new)).ports p |>.still
  rw [carsLeft_port away] at still
  exact still away

omit away in
theorem carsLeft_beside : Beside p s (s.carsLeft p new) :=
  (passedOn_beside p new s).trans (.of_work (carsLeft_touching p new s).work)

omit away in
theorem leaveActive_beside : Beside p s (leaveActive p new s) :=
  carsLeft_beside.trans (.of_work (removeAck_work p _))

theorem carsLeft_roleHeard : RoleHeard s (s.carsLeft p new) := carsLeft_beside.roleHeard <|
  roleHolder_ne_of_phase <| by
    rw [carsLeft_port away]
    exact away

theorem leaveActive_away : ((leaveActive p new s).port p).phase ≠ .active := by
  rw [leaveActive_port away]
  exact away

omit away in
theorem leaveActive_roleHolder : (leaveActive p new s).roleHolder = (s.carsLeft p new).roleHolder :=
  (removeAck_effect p (s.carsLeft p new)).race.roleHolder

/-- Later work is heard by the holder of the role as work beside the departed port. -/
theorem Follows.roleHeard (follows : Follows p (leaveActive p new s) t) : RoleHeard (s.carsLeft p new) t := by
  have beside : Beside p (s.carsLeft p new) t := (Beside.of_work (removeAck_work p _)).trans follows.beside
  refine beside.roleHeard ?_
  rw [follows.role]
  exact roleHolder_ne_of_phase (leaveActive_away away)

omit away in
theorem leaveActive_ackCompletes (pending : s.race.state = .holdPending) :
    ((s.carsLeft p new).race.state = .holdPending ∧ (s.carsLeft p new).race.tH = s.race.tH
      ∧ (s.carsLeft p new).acksWithout p = s.acksWithout p) ∧ ((s.carsLeft p new).ackCompletes p ↔ s.ackCompletes p) := by
  have same := passedOn_sameRace p new s
  have steady := (carsLeft_touching p new s).steady
  have holds : (s.passedOn p new).race.state.Holds := by
    rw [same.race, pending]
    exact .inl rfl
  obtain ⟨state, tH, acks⟩ := steady.holding holds
  rw [same.race] at state tH acks
  have clock := steady.clock.trans same.clock
  refine ⟨⟨state.trans pending, tH, by rw [State.acksWithout, State.acksWithout, acks]⟩, ?_⟩
  unfold State.ackCompletes State.acksWithout State.reached
  rw [acks, tH, clock]

/-- What a departure from ACTIVE leaves, and later work keeps (R121, R162, R172). -/
theorem leaveActive_left (follows : Follows p (leaveActive p new s) t) : LeftActive p s t := by
  have port := leaveActive_port (p := p) (s := s) away
  have w := follows.withdrawn (by rw [port]; exact (s.port p).left_withdrawn new)
  refine ⟨⟨w.calls, w.cues, w.placings, w.viewSet⟩, ?_, w.paceTimer, fun a mem => ?_, fun pending => ?_, ?_⟩
  · rw [follows.abandoned, port]
    exact (s.port p).abandoned_keeps.2.1
  · exact (follows.acks a mem).elim (removeAck_acks a) id
  · obtain ⟨⟨state, tH, acks⟩, completes⟩ := leaveActive_ackCompletes (p := p) (new := new) pending
    have told := (enterHold_informs ((s.carsLeft p new).ackGone p)).after (ackGone_effect p _) rfl
    have holding := follows.steady.holding
    have heard := follows.roleHeard away
    by_cases complete : s.ackCompletes p
    · have eq : leaveActive p new s = enterHold ((s.carsLeft p new).ackGone p) :=
        removeAck_of_complete state (completes.mpr complete)
      rw [eq] at follows holding
      rw [enterHold_race] at holding
      obtain ⟨state', tH', acks'⟩ := holding (.inr (.inl rfl))
      refine ⟨tH'.trans tH, fun _ => ⟨state', acks', ?_⟩, fun not => absurd complete not⟩
      have same := (passedOn_sameRace p new s)
      have effect := (carsLeft_touching p new s).effect
      have begins : ((s.carsLeft p new).ackGone p).holdBegins = s.holdBegins := by
        unfold State.holdBegins
        rw [(ackGone_effect p _).noticesFor, effect.noticesFor, same.noticesFor]
        have clock : ((s.carsLeft p new).ackGone p).clock = s.clock := effect.clock.trans same.clock
        rw [clock]
      rw [begins] at told
      have after : RoleHeard (enterHold ((s.carsLeft p new).ackGone p)) t := by
        refine follows.beside.roleHeard ?_
        rw [follows.role, ← eq]
        exact roleHolder_ne_of_phase (leaveActive_away away)
      exact told.noticedWithin (carsLeft_roleHeard away) after follows.role
    · have eq : leaveActive p new s = (s.carsLeft p new).ackGone p :=
        removeAck_of_incomplete fun is => complete (completes.mp is.2)
      rw [eq] at holding
      obtain ⟨state', tH', acks'⟩ := holding (.inl state)
      exact ⟨tH'.trans tH, fun is => absurd is complete, fun _ => ⟨state'.trans state, acks'.trans acks⟩⟩
  · have passed := passedOn_role (p := p) (s := s) away
    have later : Beside p (s.passedOn p new) t := (Beside.of_work (carsLeft_touching p new s).work).trans
      ((Beside.of_work (removeAck_work p _)).trans follows.beside)
    have director : t.mgmt.director = (s.passedOn p new).mgmt.director := by
      rw [follows.mgmt, leaveActive_carsLeft, (removeAck_effect p _).mgmt, (carsLeft_touching p new s).effect.mgmt]
    exact passed.after (passedOn_beside p new s) director later

/-- The cars of a port that leaves ACTIVE for another state than QUIET, seen after later work (R35). -/
theorem leaveActive_coasts (loud : new ≠ .quiet) (follows : Follows p (leaveActive p new s) t)
    (cars : ∀ i, ((leaveActive p new s).owns p i = true → ((leaveActive p new s).car i).state ≠ .parked) →
      t.car i = (leaveActive p new s).car i ∨ FinishedSince i (leaveActive p new s) t) : LiveCoasted p s t := by
  have touching := carsLeft_touching p new s
  have same := passedOn_sameRace p new s
  have coasts : Coasts p (s.passedOn p new) (s.carsLeft p new) := by
    unfold State.carsLeft
    rw [decide_eq_false loud]
    exact leaveCars_coasts p _
  have route := removeAck_effect p (s.carsLeft p new)
  refine coasts.liveCoasted touching same ((passedOn_beside p new s).roleHeard (roleHolder_ne_of_phase (passedOn_away away)))
    (fun i other => ?_) (follows.roleHeard away) (follows.role.trans (leaveActive_roleHolder))
  have car : (leaveActive p new s).car i = (s.carsLeft p new).car i := route.car i
  obtain kept | finished := cars i fun owns => by
    rw [car]
    exact other (by rwa [leaveActive_carsLeft, route.race.owns] at owns)
  · exact .inl (kept.trans car)
  · exact .inr (finished.after (fun x mem _ => by rwa [route.crossings] at mem) route.params)

end

end Sys2Proof.Machine
end

section
/-! PROOFS. Entry into FAULT (R160): from a training round (R157), from a sweep (R13) and from ACTIVE. -/

namespace Sys2Proof.Machine

/-! ### What later work keeps -/

section
variable {p : PortNo} {s t : State}

/-- A change of port `p` that keeps its state and its waiting frames. -/
theorem Follows.modPort {f : Port → Port} (phase : (f (s.port p)).phase = (s.port p).phase)
    (withdrawn : (s.port p).Withdrawn → (f (s.port p)).Withdrawn)
    (abandoned : (f (s.port p)).counters.viewAbandoned = (s.port p).counters.viewAbandoned) : Follows p s (s.modPort p f) where
  steady := .of_race rfl rfl rfl
  acks _ mem := .inl mem
  mgmt := rfl
  role := State.roleHolder_congr rfl (State.phase_modPort phase)
  beside := .of_ports fun _ other => State.port_modPort_of_ne _ _ other
  withdrawn w := by
    rw [State.port_modPort_self]
    exact withdrawn w
  abandoned := by rw [State.port_modPort_self, abandoned]

theorem raise_follows (e : Event) (away : (s.port p).phase ≠ .active) : Follows p s (raise e s) :=
  (raise_work e s).follows (raise_effect e s).race (raise_steady e s) away

theorem unparkCars_follows (away : (s.port p).phase ≠ .active) : Follows p s (unparkCars p s) :=
  (unparkCars_touching p s).follows away

theorem SameRace.modPort (s : State) (p : PortNo) (f : Port → Port) : SameRace s (s.modPort p f) := ⟨rfl, rfl, rfl, rfl, rfl, rfl⟩

theorem Beside.modPort (s : State) (p : PortNo) (f : Port → Port) : Beside p s (s.modPort p f) :=
  .of_ports fun _ other => State.port_modPort_of_ne _ _ other

end

/-! ### FAULT -/

/-- The port's record as FAULT leaves it (R160). -/
def Port.faulted (q : Port) (why : FaultReason) : Port :=
  { q with faultReason := some why, class1 := [], training := .none,
           timing := { q.timing with valid := false, window := none, sweep := none } }

/-- PORT_FAULT, raised now. -/
def State.portFault (s : State) (p : PortNo) (why : FaultReason) : Event :=
  { kind := .portFault, time := s.clock, slots := [], fault := some (p, why) }

/-- The hub with the port in FAULT, before its PARKED cars return. -/
def State.faultEntered (s : State) (p : PortNo) (why : FaultReason) : State :=
  (changePhase p .fault s).modPort p (·.faulted why)

theorem enterFault_eq (p : PortNo) (why : FaultReason) (s : State) : enterFault p why s =
    raise ((s.faultEntered p why).portFault p why) (unparkCars p (s.faultEntered p why)) := rfl

section
variable {p : PortNo} {why : FaultReason} {s : State}

theorem faultEntered_port (p : PortNo) (why : FaultReason) (s : State) :
    (s.faultEntered p why).port p = ((changePhase p .fault s).port p).faulted why := State.port_modPort_self ..

theorem faultEntered_away : ((s.faultEntered p why).port p).phase ≠ .active := by
  rw [faultEntered_port]
  have phase : (((changePhase p .fault s).port p).faulted why).phase = .fault := changePhase_phase p .fault s
  rw [phase]
  exact nofun

theorem enterFault_port (p : PortNo) (why : FaultReason) (s : State) :
    (enterFault p why s).port p = ((changePhase p .fault s).port p).faulted why := by
  have unparked := ((unparkCars_work p (s.faultEntered p why)).ports p).still faultEntered_away
  have raised := ((raise_work ((s.faultEntered p why).portFault p why) (unparkCars p (s.faultEntered p why))).ports p).still
    (by rw [unparked]; exact faultEntered_away)
  rw [enterFault_eq, raised, unparked, faultEntered_port]

theorem enterFault_phase (p : PortNo) (why : FaultReason) (s : State) : ((enterFault p why s).port p).phase = .fault := by
  rw [enterFault_port]
  exact changePhase_phase p .fault s

theorem enterFault_follows (p : PortNo) (why : FaultReason) (s : State) : Follows p (s.faultEntered p why) (enterFault p why s) := by
  have unparked := unparkCars_follows (p := p) (s := s.faultEntered p why) faultEntered_away
  refine unparked.trans (raise_follows _ ?_)
  rw [((unparkCars_work p (s.faultEntered p why)).ports p).still faultEntered_away]
  exact faultEntered_away

theorem NoticedLast.before {bs : List FrameBody} {s u t : State} (heard : ∀ d, t.roleHolder = some d →
    (s.port d).wire.isSome = true → Heard d [] s u) (last : NoticedLast bs u t) : NoticedLast bs s t := by
  intro d role busy room
  obtain ⟨wire, added, outbox, -⟩ := heard d role busy
  obtain ⟨more, outbox'⟩ := last d role (by rw [wire]; exact busy) room
  exact ⟨added ++ more, by rw [outbox', outbox, List.append_assoc (s.port d).outbox]⟩

/-- PORT_FAULT comes last of what the director is sent (R160). -/
theorem enterFault_raised {s0 : State} (same : SameRace s0 s) (beside : Beside p s0 s) :
    (∃ v, enterFault p why s = raise (s0.portFault p why) v ∧ v.routes = s0.routes ∧ (v.port p).phase = .fault)
      ∧ NoticedLast (s0.noticesFor [s0.portFault p why]) s0 (enterFault p why s) := by
  have entered : Beside p s (s.faultEntered p why) := by
    unfold State.faultEntered changePhase
    by_cases active : s.isActive p = true
    · rw [if_pos active]
      exact leaveActive_beside.trans (.modPort ..)
    · rw [if_neg active]
      exact (Beside.modPort ..).trans (.modPort ..)
  have effect := (changePhase_effect p .fault s nofun nofun)
  have unparked := unparkCars_work p (s.faultEntered p why)
  have unparkedEffect := unparkCars_effect p (s.faultEntered p why)
  have event : (s.faultEntered p why).portFault p why = s0.portFault p why := by
    unfold State.portFault
    rw [show (s.faultEntered p why).clock = s0.clock from effect.clock.trans same.clock]
  have routes : (unparkCars p (s.faultEntered p why)).routes = s0.routes :=
    unparkedEffect.routes.trans (effect.routes.trans same.routes)
  have still := (unparked.ports p).still faultEntered_away
  have told := raise_noticedLast (s0.portFault p why) (unparkCars p (s.faultEntered p why))
  rw [enterFault_eq, event]
  refine ⟨⟨_, rfl, routes, ?_⟩, .before (u := unparkCars p (s.faultEntered p why)) (fun d role busy => ?_) ?_⟩
  · rw [still, faultEntered_port]
    exact changePhase_phase p .fault s
  · refine (beside.trans (entered.trans (.of_work unparked))).heard d (fun is => ?_) busy
    rw [(raise_effect _ _).race.roleHolder, is] at role
    refine roleHolder_ne_of_phase ?_ role
    rw [still]
    exact faultEntered_away
  · rwa [State.noticesFor, routes] at told

/-- A port in another state than ACTIVE enters FAULT (R37, R160). -/
theorem enterFault_of_idle {f : Port → Port} (idle : (s.port p).phase ≠ .active) (phase : (f (s.port p)).phase = (s.port p).phase)
    (record : { (f (s.port p)).timing with valid := false, window := none, sweep := none } = { (s.port p).timing with
      valid := false, window := none, sweep := none, echoValues := (f (s.port p)).timing.echoValues }) :
    Faulted p why s (enterFault p why (s.modPort p f)) := by
  have change : changePhase p .fault (s.modPort p f) = (s.modPort p f).modPort p fun q => { q with phase := .fault } :=
    changePhase_of_not_active (by rw [State.port_modPort_self, phase]; exact idle)
  have port : (enterFault p why (s.modPort p f)).port p = ({ f (s.port p) with phase := .fault } : Port).faulted why := by
    rw [enterFault_port, change, State.port_modPort_self, State.port_modPort_self]
  have timing := congrArg Port.timing port
  have raised := enterFault_raised (p := p) (why := why) (.modPort s p f) (.modPort s p f)
  refine ⟨enterFault_phase .., congrArg Port.faultReason port, ?_, congrArg Port.class1 port, raised,
    fun active => absurd active idle, fun _ => ?_⟩
  · rw [State.timing, timing]
    exact record
  · have entered : (s.modPort p f).faultEntered p why = s.modPort p fun q => ({ f q with phase := .fault } : Port).faulted why := by
      rw [State.faultEntered, change, State.modPort_modPort, State.modPort_modPort]
    have away := faultEntered_away (p := p) (why := why) (s := s.modPort p f)
    have unparks := unparkCars_unparks p ((s.modPort p f).faultEntered p why)
    have route := raise_effect (((s.modPort p f).faultEntered p why).portFault p why) (unparkCars p ((s.modPort p f).faultEntered p why))
    have gone : ((unparkCars p ((s.modPort p f).faultEntered p why)).port p).phase ≠ .active := by
      rw [((unparkCars_work p _).ports p).still away]
      exact away
    rw [enterFault_eq]
    refine unparks.parkedReturned (by rw [entered]; exact .modPort ..) ?_ (fun i => route.car i) ?_ route.race.roleHolder
    · exact Beside.roleHeard (by rw [entered]; exact .modPort ..) (roleHolder_ne_of_phase away)
    · refine (raise_follows _ gone).beside.roleHeard ?_
      rw [route.race.roleHolder]
      exact roleHolder_ne_of_phase gone

/-- An ACTIVE port enters FAULT (R35, R160, R162). -/
theorem enterFault_of_active (active : (s.port p).phase = .active) : Faulted p why s (enterFault p why s) := by
  have change : changePhase p .fault s = leaveActive p .fault s := if_pos ((s.isActive_iff p).mpr active)
  have port : (enterFault p why s).port p = ((s.port p).left .fault).faulted why := by
    rw [enterFault_port, change, leaveActive_port (by decide)]
  have timing := congrArg Port.timing port
  have raised := enterFault_raised (p := p) (why := why) (s := s) ⟨rfl, rfl, rfl, rfl, rfl, rfl⟩ (.refl p s)
  have entered : s.faultEntered p why = (leaveActive p .fault s).modPort p (·.faulted why) := by rw [State.faultEntered, change]
  have keeps := (s.port p).abandoned_keeps.2.2
  have follows : Follows p (leaveActive p .fault s) (enterFault p why s) := by
    refine Follows.trans ?_ (enterFault_follows p why s)
    rw [entered]
    exact .modPort rfl (fun w => ⟨w.calls, w.cues, w.placings, w.viewSet, w.paceTimer⟩) rfl
  refine ⟨enterFault_phase .., congrArg Port.faultReason port, ?_, congrArg Port.class1 port, raised,
    fun _ => ⟨leaveActive_left (by decide) follows, leaveActive_coasts (by decide) (by decide) follows fun i other => ?_⟩,
    fun idle => absurd active idle⟩
  · have kept : ((s.port p).left .fault).timing = { (s.port p).timing with window := none } := by
      show { (s.port p).abandoned.timing with window := none } = _
      rw [keeps]
    rw [State.timing, timing]
    show { ((s.port p).left .fault).timing with valid := false, window := none, sweep := none } = { s.timing p with
      valid := false, window := none, sweep := none, echoValues := ((s.port p).left .fault).timing.echoValues }
    rw [kept]
    rfl
  · have same : SameRace (leaveActive p .fault s) (s.faultEntered p why) := by
      rw [entered]
      exact .modPort ..
    have car := (unparkCars_unparks p (s.faultEntered p why)).others i fun owns => by
      rw [same.car]
      exact other (by rwa [same.owns] at owns)
    have raised := (raise_effect ((s.faultEntered p why).portFault p why) (unparkCars p (s.faultEntered p why))).car i
    rw [enterFault_eq, raised]
    rw [same.car] at car
    exact car.imp_right fun finished => same.finishedSince (finished.congr raised)

end

/-! ### A round that fails (R157, R158) -/

section
variable {p : PortNo} {s : State}

theorem State.modPort_id (s : State) (p : PortNo) : (s.modPort p fun q => q) = s := by
  unfold State.modPort State.setPort State.port
  congr 1
  exact Vector.set_getElem_self ..

/-- The port's record as a failed round leaves it. -/
def Port.roundFailed (q : Port) (now : RaceTime) : Port :=
  { q with failedRounds := q.failedRounds + 1, training := .pause (addTime now 5000),
           timing := { q.timing with echoValues := [] } }

theorem failRound_of_few (few : (s.port p).failedRounds + 1 < 8) : failRound p s = s.modPort p (·.roundFailed s.clock) :=
  if_neg (Nat.not_le.mpr few)

theorem failRound_of_many (many : 8 ≤ (s.port p).failedRounds + 1) :
    failRound p s = enterFault p .train (s.modPort p (·.roundFailed s.clock)) := if_pos many

/-- A failed round, seen from before what the frame itself has changed of the port. -/
theorem failRound_fails {f : Port → Port} (train : (s.port p).phase = .train) (phase : (f (s.port p)).phase = (s.port p).phase)
    (timing : (f (s.port p)).timing = (s.port p).timing) (failed : (f (s.port p)).failedRounds = (s.port p).failedRounds) :
    let t := failRound p (s.modPort p f)
    (t.port p).failedRounds = (s.port p).failedRounds + 1 ∧ (t.timing p).echoValues = []
      ∧ ((s.port p).failedRounds + 1 < 8 → (t.port p).phase = .train ∧ (t.port p).training = .pause (addTime s.clock 5000))
      ∧ (8 ≤ (s.port p).failedRounds + 1 → Faulted p .train s t) := by
  intro t
  have count : ((s.modPort p f).port p).failedRounds = (s.port p).failedRounds := by rw [State.port_modPort_self, failed]
  by_cases few : (s.port p).failedRounds + 1 < 8
  · have eq : t = (s.modPort p f).modPort p (·.roundFailed s.clock) := failRound_of_few (by rw [count]; exact few)
    have port : t.port p = (f (s.port p)).roundFailed s.clock := by rw [eq, State.port_modPort_self, State.port_modPort_self]
    rw [State.timing, port]
    exact ⟨congrArg (· + 1) failed, rfl, fun _ => ⟨phase.trans train, rfl⟩, fun many => by omega⟩
  · have eq : t = enterFault p .train ((s.modPort p f).modPort p (·.roundFailed s.clock)) :=
      failRound_of_many (by rw [count]; exact Nat.not_lt.mp few)
    rw [State.modPort_modPort] at eq
    have faulted : Faulted p .train s t := by
      rw [eq]
      refine enterFault_of_idle (by rw [train]; exact nofun) phase ?_
      show { (f (s.port p)).timing with valid := false, window := none, sweep := none, echoValues := [] } = _
      rw [timing]
      rfl
    have port := enterFault_port p .train (s.modPort p fun q => (f q).roundFailed s.clock)
    rw [changePhase_of_not_active (by
      rw [State.port_modPort_self]
      show (f (s.port p)).phase ≠ .active
      rw [phase, train]
      exact nofun), State.port_modPort_self, State.port_modPort_self] at port
    have port' : t.port p = _ := (congrArg (·.port p) eq).trans port
    refine ⟨?_, ?_, fun is => absurd is few, fun _ => faulted⟩
    · rw [port']
      exact congrArg (· + 1) failed
    · rw [State.timing, port']
      rfl

theorem roundEcho_of_bad {f : TrainFrame} {rest : List TrainFrame} {sent : RaceTime} (stamp : RaceTime) {index : Nat}
    {bytes : List Byte} (turnaround : Nat) (training : (s.port p).training = .round (f :: rest) (some sent))
    (bad : ¬(index = f.index.val ∧ bytes = f.bytes)) : roundEcho p stamp index bytes turnaround s = failRound p s := by
  rw [roundEcho, training]
  exact if_neg bad

theorem roundEcho_of_stray (stamp : RaceTime) (index : Nat) (bytes : List Byte) (turnaround : Nat)
    (stray : ∀ f rest sent, (s.port p).training ≠ .round (f :: rest) (some sent)) :
    roundEcho p stamp index bytes turnaround s = s := by
  unfold roundEcho
  split
  · next f rest sent training => exact absurd training (stray f rest sent)
  · rfl

end

/-- Settles O16, by whether the eighth round fails. -/
theorem roundFails : Obligations.RoundFails := by
  refine ⟨fun p stamp payload s train fits stray => ?_, fun p sent f rest s train training => ⟨fun early => ?_, fun c cause => ?_⟩⟩
  · have same : ((countValid p stamp s).port p).training = (s.port p).training := by
      rw [countValid_eq, State.port_modPort_self]
      rfl
    rw [exec_trainEcho_of_train stamp train fits, roundEcho_of_stray _ _ _ _ (by rwa [same])]
    rfl
  · refine congrArg Host.Outcome.next (if_neg fun due => ?_)
    obtain ⟨-, todo, sent', is, passed⟩ := echoDue_iff.mp due
    cases training.symm.trans is
    rw [early] at passed
    exact nomatch passed
  · obtain ⟨stamp, payload, rfl, fits, bad⟩ | ⟨rfl, passed⟩ := cause
    · have same : ((countValid p stamp s).port p).training = (s.port p).training := by
        rw [countValid_eq, State.port_modPort_self]
        rfl
      refine ⟨_, exec_trainEcho_of_train stamp train fits, ?_⟩
      rw [roundEcho_of_bad stamp _ (same.trans training) bad]
      exact failRound_fails (f := (·.heard stamp)) train rfl rfl rfl
    · have due : s.echoDue p = true := echoDue_iff.mpr ⟨train, _, sent, training, passed⟩
      have step : exec (.echoWaitExpiry p) s = .next (failRound p s) := congrArg Host.Outcome.next (if_pos due)
      have fails := failRound_fails (f := fun q => q) train rfl rfl rfl
      rw [State.modPort_id] at fails
      exact ⟨_, step, fails⟩

end Sys2Proof.Machine
end

section
/-! PROOFS. The phase sweep (R10 to R13): when it succeeds, and what its decision does. -/

namespace Sys2Proof.Machine

/-! ### The change of a sweep (R12) -/

theorem frame_succ_ne (n : FrameNum) : n + 1 ≠ n := by
  intro is
  have next := congrArg BitVec.toNat is
  rw [BitVec.toNat_add] at next
  have bound := n.isLt
  have one : (1 : FrameNum).toNat = 1 := rfl
  omega

/-- The answers from the `k`th on change at `c`: all before it are `n0`, and it is the next frame (R12). -/
def ChangesAt (n0 : FrameNum) (k c : Nat) (xs : List (Option FrameNum)) : Prop :=
  k ≤ c ∧ 2 ≤ c ∧ (∀ j, k ≤ j → j < c → xs[j - k]? = some (some n0)) ∧ xs[c - k]? = some (some (n0 + 1))

theorem changeFrom_iff (n0 : FrameNum) (k c : Nat) (xs : List (Option FrameNum)) :
    changeFrom n0 k xs = some c ↔ ChangesAt n0 k c xs := by
  have step : ∀ (x : Option FrameNum) xs (j : Nat), k + 1 ≤ j → (x :: xs)[j - k]? = xs[j - (k + 1)]? := fun x xs j le => by
    rw [show j - k = (j - (k + 1)) + 1 by omega, List.getElem?_cons_succ]
  cases xs with
  | nil => exact ⟨nofun, fun ⟨_, _, _, last⟩ => nomatch last⟩
  | cons x xs =>
    have ih := changeFrom_iff n0 (k + 1) c xs
    cases x with
    | none =>
      refine ⟨nofun, fun ⟨le, _, before, last⟩ => ?_⟩
      obtain rfl | lt := Nat.eq_or_lt_of_le le
      · rw [Nat.sub_self] at last
        exact nomatch last
      · have first := before k (Nat.le_refl k) lt
        rw [Nat.sub_self] at first
        exact nomatch first
    | some n =>
      rw [changeFrom]
      by_cases same : n = n0
      · rw [if_pos same, ih]
        subst same
        refine ⟨fun ⟨le, two, before, last⟩ => ⟨by omega, two, fun j ge lt => ?_, by rw [step _ _ _ le, last]⟩,
          fun ⟨le, two, before, last⟩ => ?_⟩
        · obtain rfl | gt := Nat.eq_or_lt_of_le ge
          · rw [Nat.sub_self, List.getElem?_cons_zero]
          · rw [step _ _ _ gt, before j gt lt]
        · obtain rfl | lt := Nat.eq_or_lt_of_le le
          · rw [Nat.sub_self, List.getElem?_cons_zero] at last
            exact absurd (Option.some.inj (Option.some.inj last)).symm (frame_succ_ne n)
          · exact ⟨lt, two, fun j ge lt' => by rw [← step (some n) _ _ ge, before j (by omega) lt'],
              by rw [← step (some n) _ _ lt, last]⟩
      · rw [if_neg same]
        constructor
        · intro is
          split at is
          · next next_ =>
            cases is
            exact ⟨Nat.le_refl _, next_.2, fun j ge lt => absurd lt (by omega), by rw [Nat.sub_self, next_.1, List.getElem?_cons_zero]⟩
          · exact nomatch is
        · intro ⟨le, two, before, last⟩
          obtain rfl | lt := Nat.eq_or_lt_of_le le
          · rw [Nat.sub_self, List.getElem?_cons_zero] at last
            exact if_pos ⟨Option.some.inj (Option.some.inj last), two⟩
          · have first := before k (Nat.le_refl k) lt
            rw [Nat.sub_self, List.getElem?_cons_zero] at first
            exact absurd (Option.some.inj (Option.some.inj first)) same

theorem sweepChange_iff (w : Sweep) (k : Nat) : sweepChange w = some k ↔
    2 ≤ k ∧ k ≤ 63 ∧ ∃ n0 : FrameNum, (∀ j < k, w.answers.toList[j]? = some (some n0))
      ∧ w.answers.toList[k]? = some (some (n0 + 1)) := by
  have length : w.answers.toList.length = 64 := Vector.length_toList
  unfold sweepChange
  generalize w.answers.toList = xs at length ⊢
  split
  · next n0 rest =>
    rw [changeFrom_iff]
    constructor
    · intro ⟨le, two, before, last⟩
      have bound : k - 1 < rest.length := (List.getElem?_eq_some_iff.mp last).1
      rw [List.length_cons] at length
      refine ⟨two, by omega, n0, fun j lt => ?_, ?_⟩
      · cases j with
        | zero => rfl
        | succ j => exact before (j + 1) (by omega) lt
      · rw [show k = (k - 1) + 1 by omega, List.getElem?_cons_succ, last]
    · intro ⟨two, _, m, before, last⟩
      have first := before 0 (by omega)
      rw [List.getElem?_cons_zero] at first
      cases first
      refine ⟨by omega, two, fun j ge lt => ?_, ?_⟩
      · have is := before j lt
        rwa [show j = (j - 1) + 1 by omega, List.getElem?_cons_succ] at is
      · rwa [show k = (k - 1) + 1 by omega, List.getElem?_cons_succ] at last
  · next other =>
    refine ⟨nofun, fun ⟨two, _, m, before, _⟩ => ?_⟩
    cases xs with
    | nil => exact nomatch before 0 (by omega)
    | cons x rest =>
      have first := before 0 (by omega)
      rw [List.getElem?_cons_zero] at first
      cases first
      exact absurd rfl (other m rest)

/-! ### The decision (R13) -/

section
variable {p : PortNo} {s : State} {w : Sweep}

theorem decideSweep_of_change {k : Nat} (change : sweepChange w = some k) : decideSweep p w s =
    s.modPort p fun q => { q with phase := .rate, timing := q.timing.levelled w k } := by
  rw [decideSweep, change]

theorem decideSweep_of_next (flat : sweepChange w = none) (few : w.number < 3) :
    decideSweep p w s = startSweep p (w.number + 1) s := by
  rw [decideSweep, flat]
  exact if_pos few

theorem decideSweep_of_last (flat : sweepChange w = none) (last : 3 ≤ w.number) : decideSweep p w s = enterFault p .phase s := by
  rw [decideSweep, flat]
  exact if_neg (Nat.not_lt.mpr last)

/-- The record levelled at a change whose answer and send time are known (R13). -/
theorem levelled_of_known {r : TimingRecord} {k : Nat} {n : FrameNum} {τ : RaceTime}
    (answer_ : w.answers.toList[k]? = some (some n)) (sent : w.sent[k - 1]? = some τ) : r.levelled w k = { r with
      valid := true, anchorFrame := n, anchorTime := addTime τ (r.delta + (roundDiv r.pNom 16384).toNat / 2 : Nat),
      period := r.pNom, lag := none, residual := none, window := none, sweep := none } := by
  rw [TimingRecord.levelled, List.getD_eq_getElem?_getD, List.getD_eq_getElem?_getD, answer_, sent]
  rfl

/-- What the decision of a sweep does (R12, R13, R160), seen from before what has just been filed of it. -/
theorem decideSweep_decides {f : Port → Port} (phase : (s.port p).phase = .phase) (same : (f (s.port p)).phase = (s.port p).phase)
    (record : { (f (s.port p)).timing with sweep := none } = { (s.port p).timing with sweep := none })
    (line : (f (s.port p)).wire = (s.port p).wire ∧ (f (s.port p)).class1 = (s.port p).class1
      ∧ (f (s.port p)).entry = (s.port p).entry) :
    (sweepChange w = none → w.number < 3 → ∃ v, ((decideSweep p w (s.modPort p f)).port p).phase = .phase
      ∧ ((decideSweep p w (s.modPort p f)).timing p).sweep = some v ∧ v.number = w.number + 1 ∧ v.queued = 1
      ∧ v.answers = Vector.replicate 64 none ∧ FirstProbeQueued p (64 * w.number) s (decideSweep p w (s.modPort p f)))
    ∧ (sweepChange w = none → 3 ≤ w.number → Faulted p .phase s (decideSweep p w (s.modPort p f))) := by
  refine ⟨fun flat few => ?_, fun flat last => ?_⟩
  · rw [decideSweep_of_next flat few]
    have phase' : ((s.modPort p f).port p).phase = .phase := by rw [State.port_modPort_self, same, phase]
    obtain ⟨v, stays, sweep, number, queued, answers, probe⟩ := startSweep_opens (w.number + 1) phase'
    have sameLine : SameLine p s (s.modPort p f) := .modPort line.1 line.2.1 line.2.2
    exact ⟨v, stays, sweep, number, queued, answers, sameLine.firstProbeQueued probe⟩
  · rw [decideSweep_of_last flat last]
    have echoes := congrArg TimingRecord.echoValues record
    refine enterFault_of_idle (by rw [phase]; exact nofun) same ?_
    have with_ := congrArg (fun r : TimingRecord => { r with valid := false, window := none }) record
    simp only at with_ echoes
    rw [with_, echoes]

end

/-- Settles O18, by R12's condition and the three outcomes. -/
theorem sweepDecided : Obligations.SweepDecided := by
  refine ⟨sweepChange_iff, fun p w t63 s phase sweep last => ⟨fun early => ?_, fun late => ?_⟩⟩
  · have none_ : s.overdueSweep p = none := by
      simp only [State.overdueSweep, phase, sweep, last, early, if_true]
      rfl
    have step : exec (.sweepReplyWaitExpiry p) s = .next (match s.overdueSweep p with
      | some w => decideSweep p w s
      | none => s) := rfl
    rw [step, none_]
  · have due : s.overdueSweep p = some w := by simp only [State.overdueSweep, phase, sweep, last, late, if_true]
    have step : exec (.sweepReplyWaitExpiry p) s = .next (decideSweep p w s) := by
      have step : exec (.sweepReplyWaitExpiry p) s = .next (match s.overdueSweep p with
        | some w => decideSweep p w s
        | none => s) := rfl
      rw [step, due]
    have decides := decideSweep_decides (w := w) (f := fun q => q) phase rfl rfl ⟨rfl, rfl, rfl⟩
    rw [State.modPort_id] at decides
    refine ⟨fun k n τ change answer_ sent => ?_, fun flat few => ?_, fun flat many => ⟨_, step, decides.2 flat many⟩⟩
    · rw [step, decideSweep_of_change change]
      refine congrArg Host.Outcome.next (State.modPort_congr ?_)
      rw [levelled_of_known answer_ sent]
    · obtain ⟨v, rest⟩ := decides.1 flat few
      exact ⟨_, v, step, rest⟩

/-! ### Answers (R11) -/

/-- An answer's place in the open sweep, where its PROBE has been sent and nothing is filed for it (R11). -/
def Sweep.Awaits (w : Sweep) (index : Nat) : Prop := 64 * (w.number - 1) ≤ index ∧ index - 64 * (w.number - 1) < 64
  ∧ index - 64 * (w.number - 1) < w.sent.length ∧ w.answers.toList[index - 64 * (w.number - 1)]? = some none

/-- The sweep with an answer filed (R11). -/
def Sweep.filed (w : Sweep) (index : Nat) (n : FrameNum) : Sweep :=
  { w with answers := w.answers.setIfInBounds (index - 64 * (w.number - 1)) (some n) }

section
variable {p : PortNo} {s : State} {w : Sweep} {index : Nat}

theorem answers_getD_iff {k : Nat} (within : k < 64) :
    w.answers.toList.getD k none = none ↔ w.answers.toList[k]? = some none := by
  have length : k < w.answers.toList.length := by rw [Vector.length_toList]; exact within
  rw [List.getD_eq_getElem?_getD, List.getElem?_eq_getElem length, Option.getD_some, Option.some.injEq]

theorem filed_complete_iff (n : FrameNum) : (w.filed index n).answers.toList.all Option.isSome = true
    ↔ ∀ j < 64, j ≠ index - 64 * (w.number - 1) → w.answers.toList[j]? ≠ some none := by
  have length : w.answers.toList.length = 64 := Vector.length_toList
  have list : (w.filed index n).answers.toList = w.answers.toList.set (index - 64 * (w.number - 1)) (some n) := by
    simp [Sweep.filed]
  rw [list, List.all_eq_true]
  constructor
  · intro all j lt other is
    have mem : (none : Option FrameNum) ∈ w.answers.toList.set (index - 64 * (w.number - 1)) (some n) := by
      refine List.mem_iff_getElem?.mpr ⟨j, ?_⟩
      rw [List.getElem?_set_ne (Ne.symm other), is]
    exact nomatch all none mem
  · intro all x mem
    obtain ⟨j, is⟩ := List.mem_iff_getElem?.mp mem
    cases x with
    | some n => rfl
    | none =>
      by_cases same : j = index - 64 * (w.number - 1)
      · subst same
        rw [List.getElem?_set_self'] at is
        cases h : w.answers.toList[index - 64 * (w.number - 1)]? <;> simp [h] at is
      · rw [List.getElem?_set_ne (Ne.symm same)] at is
        have lt : j < 64 := by
          rw [← length]
          exact (List.getElem?_eq_some_iff.mp is).1
        exact absurd is (all j lt same)

theorem fileAnswer_of_stray (n : FrameNum) (stray : ∀ w, (s.timing p).sweep = some w → ¬w.Awaits index) :
    fileAnswer p index n s = s := by
  unfold fileAnswer
  cases sweep : (s.timing p).sweep with
  | none => rfl
  | some w =>
    refine if_neg fun ⟨from_, within, sent, free⟩ => ?_
    exact stray w sweep ⟨from_, within, sent, (answers_getD_iff within).mp free⟩

theorem fileAnswer_of_awaited (n : FrameNum) (sweep : (s.timing p).sweep = some w) (awaits : w.Awaits index) :
    fileAnswer p index n s = if (w.filed index n).answers.toList.all Option.isSome
      then decideSweep p (w.filed index n) (s.withSweep p (w.filed index n)) else s.withSweep p (w.filed index n) := by
  obtain ⟨from_, within, sent, free⟩ := awaits
  rw [fileAnswer, sweep]
  exact if_pos ⟨from_, within, sent, (answers_getD_iff within).mpr free⟩

theorem exec_probeReply_of_phase (stamp : RaceTime) {payload : List Byte} (phase : (s.port p).phase = .phase)
    (fits : payload.length = 3) : exec (.probeReply p stamp payload) s = .next (fileAnswer p (beNat (field payload 0 1))
      (BitVec.ofNat 16 (beNat (field payload 1 2))) (countValid p stamp s)) := by
  have phase' : ((countValid p stamp s).port p).phase = .phase := (countValid_phase p p stamp s).trans phase
  have step : exec (.probeReply p stamp payload) s = .next (receiveProbeReply p stamp payload s) := rfl
  rw [step, receiveProbeReply, phase']
  simp only [fits, decide_true, if_true]

theorem countValid_timing (stamp : RaceTime) : (countValid p stamp s).timing p = s.timing p := by
  rw [State.timing, countValid_eq, State.port_modPort_self]
  rfl

/-- The state in which an answer completes the open sweep (R11). -/
theorem countValid_withSweep (stamp : RaceTime) (v : Sweep) : (countValid p stamp s).withSweep p v = s.modPort p fun q =>
    { q.heard stamp with timing := { (q.heard stamp).timing with sweep := some v } } := by
  rw [countValid_eq, State.withSweep, State.modPort_modPort]

end

/-- Settles O17, by whether the answer is filed, completes the sweep, and what the sweep then shows. -/
theorem probeReplies : Obligations.ProbeReplies := by
  intro p stamp payload s phase fits
  have timing : (countValid p stamp s).timing p = s.timing p := countValid_timing stamp
  rw [exec_probeReply_of_phase stamp phase fits]
  refine ⟨fun closed => congrArg _ (fileAnswer_of_stray _ fun w is => ?_), fun w sweep _ => ?_⟩
  · rw [timing, closed] at is
    exact nomatch is
  intro index k n filed mine
  have sweep' : ((countValid p stamp s).timing p).sweep = some w := by rw [timing, sweep]
  refine ⟨fun stray => congrArg _ (fileAnswer_of_stray _ fun v is => ?_), fun awaits more => ?_, fun awaits all => ?_⟩
  · cases sweep'.symm.trans is
    exact stray
  · rw [fileAnswer_of_awaited n sweep' awaits, if_neg]
    · rfl
    · rw [filed_complete_iff]
      obtain ⟨j, lt, other, is⟩ := more
      exact fun all => all j lt other is
  · rw [fileAnswer_of_awaited n sweep' awaits, if_pos ((filed_complete_iff n).mpr all), countValid_withSweep]
    have decides := decideSweep_decides (p := p) (s := s) (w := filed)
      (f := fun q => { q.heard stamp with timing := { (q.heard stamp).timing with sweep := some filed } }) phase rfl rfl
      ⟨rfl, rfl, rfl⟩
    refine ⟨fun c m τ change answer_ sent => ?_, fun change => ?_, fun flat few => ?_, fun flat last => ⟨_, rfl, decides.2 flat last⟩⟩
    · refine congrArg Host.Outcome.next ((decideSweep_of_change (w := filed) change).trans ?_)
      rw [State.modPort_modPort, countValid_eq, State.modPort_modPort]
      refine State.modPort_congr ?_
      have record := levelled_of_known (w := filed) (r := { (s.port p).timing with sweep := some filed }) answer_ sent
      exact congrArg (fun r : TimingRecord => { (s.port p).heard stamp with phase := .rate, timing := r }) record
    · obtain ⟨c, change⟩ := Option.ne_none_iff_exists'.mp change
      refine ⟨_, congrArg Host.Outcome.next (decideSweep_of_change (w := filed) change), ?_⟩
      rw [State.modPort_modPort, State.timing, State.port_modPort_self]
      exact ⟨rfl, rfl⟩
    · obtain ⟨v, rest⟩ := decides.1 flat few
      exact ⟨_, v, rfl, rest⟩

end Sys2Proof.Machine
end

section
/-! PROOFS. Port resets (R161, R167): PORT_RESET and link loss. -/

namespace Sys2Proof.Machine

/-! ### The first invitation after a reset (R156) -/

/-- The port's record after an invitation, where class 1 was empty. -/
def Port.invites (q : Port) (now : RaceTime) (x : HubFrame) : Port :=
  { q with nextInvite := some (addTime now 10000), class1 := if q.wire.isSome then [x] else [],
           wire := match q.wire with
             | some w => some w
             | none => some { frame := x, sent := now, rate := q.entry.linkRate } }

section
variable {p : PortNo} {s : State}

/-- The frame that invites an untrained link (R156). -/
def State.invitation (s : State) (p : PortNo) : HubFrame :=
  { portByte := portByte p, director := false,
    body := .train (invitationPattern s.patterns).index (invitationPattern s.patterns).bytes }

theorem mkFrame_of_away (away : (s.port p).phase ≠ .active) (b : FrameBody) :
    s.mkFrame p b = { portByte := portByte p, director := false, body := b } := by
  have not : s.holdsRole p = false := decide_eq_false (roleHolder_ne_of_phase away)
  rw [State.mkFrame, not]

theorem invite_port (down : (s.port p).phase = .down) (empty : (s.port p).class1 = []) (calm : (s.port p).training = .none) :
    (invite p s).port p = (s.port p).invites s.clock (s.invitation p) := by
  have port := State.port_modPort_self s p fun q => { q with nextInvite := some (addTime s.clock 10000) }
  have admits : admitsTraining ((s.modPort p fun q => { q with nextInvite := some (addTime s.clock 10000) }).port p).phase = true :=
    (admitsTraining_iff _).mpr (.inl (by rw [port, down]))
  have frame : ∀ b, (s.modPort p fun q => { q with nextInvite := some (addTime s.clock 10000) }).mkFrame p b
      = { portByte := portByte p, director := false, body := b } := fun b =>
    mkFrame_of_away (by rw [port]; show (s.port p).phase ≠ _; rw [down]; exact nofun) b
  rw [invite_eq]
  cases wire : (s.port p).wire with
  | some w =>
    rw [State.offerTraining_of_busy _ admits (by rw [port, empty]; decide) (by rw [port, wire]; rfl), State.port_modPort_self, port,
      frame]
    simp only [Port.invites, wire, empty, State.invitation, Option.isSome_some, if_true, List.nil_append]
  | none =>
    rw [State.offerTraining_of_idle _ admits (by rw [port]; exact wire) (by rw [port]; exact empty), State.port_setPort_self,
      Port.sending_train _ _ rfl, port, frame]
    simp only [Port.invites, wire, empty, calm, State.invitation, Option.isSome_none, Bool.false_eq_true, if_false]
    rfl

theorem invite_port_of_ne {d : PortNo} (other : d ≠ p) : (invite p s).port d = s.port d := by
  rw [invite_eq]
  unfold State.offerTraining
  by_cases admits : (admitsTraining ((s.modPort p fun q => { q with nextInvite := some (addTime s.clock 10000) }).port p).phase
      && decide (((s.modPort p fun q => { q with nextInvite := some (addTime s.clock 10000) }).port p).class1.length < 64)) = true
  · rw [if_pos admits, arbiterTake_other _ other, State.port_modPort_of_ne _ _ other, State.port_modPort_of_ne _ _ other]
  · rw [if_neg admits, State.port_modPort_of_ne _ _ other]

theorem State.offerTraining_race (s : State) (p : PortNo) (b : FrameBody) : (s.offerTraining p b).race = s.race := by
  unfold State.offerTraining
  split
  · exact (State.arbiterTake_race ..).trans rfl
  · rfl

theorem invite_sameRace (p : PortNo) (s : State) : SameRace s (invite p s) := by
  have route := offerTraining_effect (s.modPort p fun q => { q with nextInvite := some (addTime s.clock 10000) }) p
    (.train (invitationPattern s.patterns).index (invitationPattern s.patterns).bytes)
  exact ⟨route.clock, route.params, route.routes, State.offerTraining_race .., route.cars, route.crossings⟩

theorem invite_mgmt (p : PortNo) (s : State) : (invite p s).mgmt = s.mgmt := (offerTraining_effect ..).mgmt

end

/-! ### What follows a port's own change -/

section
variable {p : PortNo} {s t : State}

/-- A change of port `p` alone that keeps its state and what a departure withdrew. -/
theorem Follows.of_own (same : SameRace s t) (mgmt : t.mgmt = s.mgmt) (others : ∀ d, d ≠ p → t.port d = s.port d)
    (phase : (t.port p).phase = (s.port p).phase) (withdrawn : (s.port p).Withdrawn → (t.port p).Withdrawn)
    (abandoned : (t.port p).counters.viewAbandoned = (s.port p).counters.viewAbandoned) : Follows p s t where
  steady := .of_race same.clock same.params same.race
  acks a mem := .inl (same.race ▸ mem)
  mgmt := congrArg MgmtRecord.director mgmt
  role := State.roleHolder_congr (congrArg MgmtRecord.director mgmt) fun d => by
    by_cases is : d = p
    · rw [is, phase]
    · rw [others d is]
  beside := .of_ports others
  withdrawn := withdrawn
  abandoned := abandoned

theorem invite_follows (down : (s.port p).phase = .down) (empty : (s.port p).class1 = []) (calm : (s.port p).training = .none) :
    Follows p s (invite p s) := by
  have port := invite_port down empty calm
  refine .of_own (invite_sameRace p s) (invite_mgmt p s) (fun d => invite_port_of_ne) ?_ ?_ ?_
  · rw [port]
    rfl
  · rw [port]
    exact fun w => ⟨w.calls, w.cues, w.placings, w.viewSet, w.paceTimer⟩
  · rw [port]
    rfl

end

/-! ### A port that settles in OFF or DOWN (R37, R156) -/

/-- The port's record as a reset leaves it: cleared, and in DOWN with its first invitation. -/
def Port.settled (q : Port) (new : PortPhase) (now : RaceTime) (x : HubFrame) : Port :=
  if new = .down then (q.cleared new).invites now x else q.cleared new

section
variable {p : PortNo} {new : PortPhase} {c : State}

theorem settleDown_eq (p : PortNo) (s : State) : settleDown p s =
    if ((unparkCars p s).port p).phase = .down then invite p (unparkCars p s) else unparkCars p s := rfl

theorem unparkCars_port (away : (c.port p).phase ≠ .active) : (unparkCars p c).port p = c.port p :=
  ((unparkCars_work p c).ports p).still away

variable {q : Port} (away : new ≠ .active) (port : c.port p = q.cleared new)
include away port

theorem cleared_away : (c.port p).phase ≠ .active := by
  rw [port]
  exact away

theorem settleDown_port : (settleDown p c).port p = q.settled new c.clock (c.invitation p) := by
  have still := (unparkCars_port (cleared_away away port)).trans port
  have effect := unparkCars_effect p c
  rw [settleDown_eq, still, Port.settled]
  by_cases down : new = .down
  · rw [if_pos (show (q.cleared new).phase = .down from down), if_pos down,
      invite_port (by rw [still]; exact down) (by rw [still]; rfl) (by rw [still]; rfl), still, effect.clock, State.invitation,
      effect.patterns]
    rfl
  · rw [if_neg (show ¬(q.cleared new).phase = .down from down), if_neg down, still]

theorem settleDown_later : Follows p (unparkCars p c) (settleDown p c) ∧ SameRace (unparkCars p c) (settleDown p c)
    ∧ (settleDown p c).mgmt = c.mgmt := by
  have still := (unparkCars_port (cleared_away away port)).trans port
  have mgmt := (unparkCars_effect p c).mgmt
  rw [settleDown_eq]
  by_cases down : ((unparkCars p c).port p).phase = .down
  · rw [if_pos down]
    exact ⟨invite_follows down (by rw [still]; rfl) (by rw [still]; rfl), invite_sameRace .., (invite_mgmt ..).trans mgmt⟩
  · rw [if_neg down]
    exact ⟨.refl .., ⟨rfl, rfl, rfl, rfl, rfl, rfl⟩, mgmt⟩

theorem settleDown_follows : Follows p c (settleDown p c) :=
  (unparkCars_follows (cleared_away away port)).trans (settleDown_later away port).1

/-- The PARKED cars of a port that settles return (R37), seen from before the port's own change. -/
theorem settleDown_returns {s : State} (same : SameRace s c) (beside : Beside p s c) : ParkedReturned p s (settleDown p c) := by
  obtain ⟨follows, later, -⟩ := settleDown_later away port
  have gone : (unparkCars p c).roleHolder ≠ some p := roleHolder_ne_of_phase <| by
    rw [unparkCars_port (cleared_away away port)]
    exact cleared_away away port
  refine (unparkCars_unparks p c).parkedReturned same (beside.roleHeard (roleHolder_ne_of_phase (cleared_away away port)))
    later.car (follows.beside.roleHeard ?_) follows.role
  rw [follows.role]
  exact gone

end

/-- A PARKED car of a port that returns is PARKED no more (R37). -/
theorem unparkCar_unparked {s : State} {i : Slot} (parked : (s.car i).state = .parked) : ((unparkCar s i).car i).state ≠ .parked := by
  have car : (s.returned i).car i = s.coasting (s.car i) ∨ FinishedSince i s (s.returned i) :=
    reported_car _ (coasting_sameCar s i)
  have first := s.returned_touching i
  rw [unparkCar_of_parked parked]
  have returned : ((s.returned i).car i).state ≠ .parked := by
    obtain car | finished := car
    · rw [car]
      exact nofun
    · rw [finished.2.1]
      exact nofun
  by_cases sleeps : (s.returned i).suspended = true
  · rwa [if_pos sleeps]
  · rw [if_neg sleeps]
    obtain car | finished := car
    · have own : (s.returned i).car i = (s.returned i).coasting ((s.returned i).car i) := by
        have deadline : (s.returned i).loseDeadline = s.loseDeadline := by
          funext x
          rw [State.loseDeadline, State.loseDeadline, first.effect.params]
        rw [car]
        simp only [State.coasting, deadline]
      obtain ⟨-, kept, -⟩ | ⟨-, lost | finished, -⟩ := ageEval_of_returned own (Bool.eq_false_iff.mpr sleeps)
      · rwa [kept]
      · rw [lost.1]
        exact nofun
      · rw [finished.2.1]
        exact nofun
    · rwa [ageEval_of_finished finished.2.1]

theorem unparkCars_unparked {p : PortNo} {s : State} {i : Slot} (owns : s.owns p i = true) :
    ((unparkCars p s).car i).state ≠ .parked := by
  by_cases parked : (s.car i).state = .parked
  · obtain finished | ⟨js, ks, u, after, first, same, second⟩ := foldl_worked (P := (· = .parked)) unparkCar_touching
      (fun _ _ => unparkCar_of_other) nofun (nodup_slotsOf s p) s (mem_slotsOf.mpr owns)
    · show ((((s.slotsOf p).foldl unparkCar s).car i).state ≠ .parked)
      rw [finished.2.1]
      exact nofun
    · show ((((s.slotsOf p).foldl unparkCar s).car i).state ≠ .parked)
      obtain kept | finished := second.cars i after
      · rw [kept]
        exact unparkCar_unparked (by rw [same, parked])
      · rw [finished.2.1]
        exact nofun
  · obtain kept | finished := (unparkCars_unparks p s).others i fun _ => parked
    · rwa [kept]
    · rw [finished.2.1]
      exact nofun

/-! ### The port reset as a whole -/

/-- The state a reset brings the port to (R167). -/
def Port.restState (q : Port) : PortPhase := if q.entry.enabled then .down else .off

theorem Port.restState_away (q : Port) : q.restState ≠ .active := by
  unfold Port.restState
  split <;> exact nofun

theorem Port.restState_loud (q : Port) : q.restState ≠ .quiet := by
  unfold Port.restState
  split <;> exact nofun

section
variable {p : PortNo} {s t : State} {q : Port}

/-- What the port's own record shows of its reset. -/
theorem portWasReset_of_settled (port : t.port p = q.settled (s.port p).restState s.clock (s.invitation p))
    (entry : q.entry = (s.port p).entry) (wire : q.wire = (s.port p).wire) (phase : (s.port p).phase = .quiet → q.phase = .quiet)
    (queue : t.mgmt.queue = if (s.port p).phase = .active ∨ (s.port p).phase = .quiet
      then s.mgmt.queue.filter fun c => decide (c.sender ≠ p) else s.mgmt.queue)
    (fromActive : (s.port p).phase = .active → LeftActive p s t ∧ LiveCoasted p s t)
    (fromOther : (s.port p).phase ≠ .active → t.mgmt.director = s.mgmt.director ∧ ParkedReturned p s t)
    (unparked : ∀ i, s.owns p i = true → (t.car i).state ≠ .parked) (cars : ∀ i, SameCar (s.car i) (t.car i)) :
    PortWasReset p s t := by
  have left := fun active => (fromActive active).1
  have coasted := fun active => (fromActive active).2
  have director := fun other => (fromOther other).1
  have returned := fun other => (fromOther other).2
  have gates : (s.port p).phase = .quiet → (q.cleared (s.port p).restState).gateSample = false
      ∧ (q.cleared (s.port p).restState).gateCar = false := fun quiet => by
    have is := phase quiet
    exact ⟨by simp [Port.cleared, is], by simp [Port.cleared, is]⟩
  cases enabled : (s.port p).entry.enabled with
  | true =>
    have down : (s.port p).restState = .down := by simp [Port.restState, enabled]
    rw [down] at port gates
    have port : t.port p = (q.cleared .down).invites s.clock (s.invitation p) := port.trans (if_pos rfl)
    have wire' : (q.cleared .down).wire = (s.port p).wire := wire
    refine ⟨by rw [port, enabled]; rfl, by rw [port]; rfl, by rw [port]; rfl, by rw [port]; rfl, by rw [port]; rfl,
      by rw [port]; rfl, by rw [port, enabled]; rfl, by rw [port]; exact ⟨rfl, rfl, rfl, rfl, rfl⟩, ⟨fun busy => ?_, fun idle => ?_⟩,
      by rw [port]; exact entry, fun quiet => by rw [port]; exact gates quiet, queue, left, director, unparked, coasted, returned,
      cars⟩
    · obtain ⟨w, is⟩ := Option.isSome_iff_exists.mp busy
      rw [port, enabled]
      simp only [Port.invites, wire', is, Option.isSome_some, if_true, true_and]
      rfl
    · rw [port, enabled]
      simp only [Port.invites, wire', idle, Option.isSome_none, if_true, Bool.false_eq_true, if_false, true_and]
      show some (⟨s.invitation p, s.clock, q.entry.linkRate⟩ : WireFrame) = _
      rw [entry]
      rfl
  | false =>
    have off : (s.port p).restState = .off := by simp [Port.restState, enabled]
    rw [off] at port gates
    have port : t.port p = q.cleared .off := port.trans (if_neg nofun)
    refine ⟨by rw [port, enabled]; rfl, by rw [port]; rfl, by rw [port]; rfl, by rw [port]; rfl, by rw [port]; rfl,
      by rw [port]; rfl, by rw [port, enabled]; rfl, by rw [port]; exact ⟨rfl, rfl, rfl, rfl, rfl⟩, ⟨fun busy => ?_, fun idle => ?_⟩,
      by rw [port]; exact entry, fun quiet => by rw [port]; exact gates quiet, queue, left, director, unparked, coasted, returned,
      cars⟩
    · rw [port, enabled]
      exact ⟨wire, rfl⟩
    · rw [port, enabled]
      exact ⟨rfl, wire.trans idle⟩

end

section
variable (p : PortNo) (s : State)

theorem portReset_of_active (active : (s.port p).phase = .active) : portReset p s =
    settleDown p ((leaveActive p (s.port p).restState s).modPort p (·.cleared (s.port p).restState)) := if_pos active

/-- The commands a port in QUIET has sent are discarded with its reset (R176). -/
def State.unqueued : State := if (s.port p).phase = .quiet then s.discardCommands p else s

theorem unqueued_cases : (s.unqueued p = s.discardCommands p ∧ (s.port p).phase = .quiet)
    ∨ (s.unqueued p = s ∧ (s.port p).phase ≠ .quiet) := by
  unfold State.unqueued
  by_cases quiet : (s.port p).phase = .quiet
  · exact .inl ⟨if_pos quiet, quiet⟩
  · exact .inr ⟨if_neg quiet, quiet⟩

theorem portReset_of_other (other : (s.port p).phase ≠ .active) : portReset p s = settleDown p
    ((s.unqueued p).modPort p (·.cleared (s.port p).restState)) := if_neg other

theorem leaveActive_mgmt_queue (new : PortPhase) : (leaveActive p new s).mgmt.queue =
    if s.holdsRole p = true ∨ new ≠ .quiet then s.mgmt.queue.filter fun c => decide (c.sender ≠ p) else s.mgmt.queue := by
  rw [leaveActive_carsLeft, (removeAck_effect p _).mgmt, (carsLeft_touching p new s).effect.mgmt, passedOn_queue]

theorem settleDown_unparked {c : State} {new : PortPhase} {q : Port} (away : new ≠ .active) (port : c.port p = q.cleared new)
    (cars : ∀ i, SameCar (s.car i) (c.car i)) (i : Slot) (owns : s.owns p i = true) : ((settleDown p c).car i).state ≠ .parked := by
  rw [(settleDown_later away port).2.1.car]
  refine unparkCars_unparked ?_
  rwa [State.owns, (cars i).enabled, (cars i).owner]

theorem portReset_resets : PortWasReset p s (portReset p s) := by
  have away := (s.port p).restState_away
  have loud := (s.port p).restState_loud
  have effect := portReset_effect p s
  by_cases active : (s.port p).phase = .active
  · have eq := portReset_of_active p s active
    have link := leaveActive_effect p (s.port p).restState s (by unfold Port.restState; split <;> exact nofun) away
    have keeps := (s.port p).abandoned_keeps.2.2
    have base : (leaveActive p (s.port p).restState s).port p = (s.port p).left (s.port p).restState := leaveActive_port away
    have cleared : ((leaveActive p (s.port p).restState s).modPort p (·.cleared (s.port p).restState)).port p
        = ((s.port p).left (s.port p).restState).cleared (s.port p).restState := by rw [State.port_modPort_self, base]
    have settles := settleDown_port away cleared
    have leaves : Follows p (leaveActive p (s.port p).restState s) (portReset p s) := by
      rw [eq]
      refine Follows.trans (.modPort ?_ (fun _ => ⟨rfl, rfl, rfl, rfl, rfl⟩) rfl) (settleDown_follows away cleared)
      rw [base]
      rfl
    have port : (portReset p s).port p = ((s.port p).left (s.port p).restState).settled (s.port p).restState s.clock
        (s.invitation p) := by
      rw [eq, settles]
      have clock : ((leaveActive p (s.port p).restState s).modPort p (·.cleared (s.port p).restState)).clock = s.clock := link.clock
      have invitation : ((leaveActive p (s.port p).restState s).modPort p (·.cleared (s.port p).restState)).invitation p
          = s.invitation p := by
        unfold State.invitation
        rw [show ((leaveActive p (s.port p).restState s).modPort p (·.cleared (s.port p).restState)).patterns = s.patterns
          from link.patterns]
      rw [clock, invitation]
    refine portWasReset_of_settled port ?_ ?_ (fun quiet => nomatch active.symm.trans quiet) ?_ (fun _ => ⟨?_, ?_⟩)
      (fun other => absurd active other) ?_ effect.cars
    · show (s.port p).abandoned.entry = _
      rw [keeps]
    · show (s.port p).abandoned.wire = _
      rw [keeps]
    · rw [if_pos (.inl active), eq, (settleDown_later away cleared).2.2]
      show (leaveActive p (s.port p).restState s).mgmt.queue = _
      rw [leaveActive_mgmt_queue, if_pos (.inr loud)]
    · exact leaveActive_left away leaves
    · refine leaveActive_coasts away loud leaves fun i other => ?_
      rw [eq, (settleDown_later away cleared).2.1.car]
      have same := SameRace.modPort (leaveActive p (s.port p).restState s) p (·.cleared (s.port p).restState)
      have car := (unparkCars_unparks p ((leaveActive p (s.port p).restState s).modPort p (·.cleared (s.port p).restState))).others i
        fun owns => by
          rw [same.car]
          exact other (by rwa [same.owns] at owns)
      rw [same.car] at car
      exact car.imp_right fun finished => same.finishedSince (finished.congr ((settleDown_later away cleared).2.1.car i))
    · rw [eq]
      exact settleDown_unparked p s away cleared link.cars
  · have eq := portReset_of_other p s active
    have base : (s.unqueued p).port p = s.port p ∧ SameRace s (s.unqueued p) ∧ Beside p s (s.unqueued p)
        ∧ (s.unqueued p).patterns = s.patterns ∧ (s.unqueued p).mgmt.director = s.mgmt.director := by
      obtain ⟨is, -⟩ | ⟨is, -⟩ := unqueued_cases p s
      · rw [is]
        exact ⟨rfl, ⟨rfl, rfl, rfl, rfl, rfl, rfl⟩, .of_ports fun _ _ => rfl, rfl, rfl⟩
      · rw [is]
        exact ⟨rfl, ⟨rfl, rfl, rfl, rfl, rfl, rfl⟩, .refl p s, rfl, rfl⟩
    obtain ⟨own, same, beside, patterns, director⟩ := base
    have cleared : ((s.unqueued p).modPort p (·.cleared (s.port p).restState)).port p
        = (s.port p).cleared (s.port p).restState := by rw [State.port_modPort_self, own]
    have same' := same.trans (.modPort (s.unqueued p) p (·.cleared (s.port p).restState))
    obtain ⟨-, later, mgmt⟩ := settleDown_later away cleared
    have port : (portReset p s).port p = (s.port p).settled (s.port p).restState s.clock (s.invitation p) := by
      rw [eq, settleDown_port away cleared, same'.clock]
      have invitation : ((s.unqueued p).modPort p (·.cleared (s.port p).restState)).invitation p = s.invitation p := by
        unfold State.invitation
        rw [show ((s.unqueued p).modPort p (·.cleared (s.port p).restState)).patterns = s.patterns from patterns]
      rw [invitation]
    refine portWasReset_of_settled port rfl rfl id ?_ (fun is => absurd is active) (fun _ => ⟨?_, ?_⟩) ?_ effect.cars
    · rw [eq, mgmt]
      show (s.unqueued p).mgmt.queue = _
      obtain ⟨is, quiet⟩ | ⟨is, loud⟩ := unqueued_cases p s
      · rw [is, if_pos (.inr quiet)]
        rfl
      · rw [is, if_neg fun either => either.elim active loud]
    · rw [eq, mgmt]
      exact director
    · rw [eq]
      exact settleDown_returns away cleared same' (beside.trans (.modPort ..))
    · rw [eq]
      exact settleDown_unparked p s away cleared fun i => by
        rw [same'.car]
        exact .refl _

end

/-- Settles O33, by whether the port was ACTIVE. -/
theorem portResets : Obligations.PortResets := by
  refine fun p s => ⟨fun c asks => ?_, fun b base off down quiet late => ?_, fun idle => ?_⟩
  · exact ⟨portReset p s.dropHead, exec_ported_of_eq (act := fun p s => (portReset p s, .ok)) (fun _ => rfl) asks rfl,
      portReset_resets p s.dropHead⟩
  · have due : s.lossDue p = true := by
      rw [State.lossDue, base]
      refine Bool.and_eq_true_iff.mpr ⟨?_, late⟩
      rw [lossTimerRuns]
      cases phase : (s.port p).phase <;> simp_all
    exact ⟨portReset p s, congrArg Host.Outcome.next (if_pos due), portReset_resets p s⟩
  · refine congrArg Host.Outcome.next (if_neg fun due => ?_)
    obtain ⟨runs, reached⟩ := Bool.and_eq_true_iff.mp due
    have running := of_decide_eq_true runs
    obtain is | is | is | ⟨b, base, early⟩ := idle
    · rw [is] at running
      exact absurd running (by decide)
    · rw [is] at running
      exact absurd running (by decide)
    · rw [is] at running
      exact absurd running (by decide)
    · rw [base] at reached
      exact nomatch early.symm.trans reached

end Sys2Proof.Machine
end

section
/-! PROOFS. QUIET (R36, R164, R165): the tests of an entry, and what it takes away. -/

namespace Sys2Proof.Machine

/-! ### The tests (R164) -/

section
variable {s : State} {p : PortNo}

/-- The race runs, and the port owns a car that is LIVE or COASTING (R164). -/
def State.quietBars (s : State) (p : PortNo) : Prop :=
  (s.race.state = .countdown ∨ s.race.state = .running ∨ s.race.state = .finishing)
    ∧ ∃ i, s.owns p i = true ∧ ((s.car i).state = .live ∨ (s.car i).state = .coasting)

theorem quietBars_iff : (racing s.race.state && (s.slotsOf p).any fun i => inContactState (s.car i).state) = true ↔ s.quietBars p := by
  rw [Bool.and_eq_true, racing, decide_eq_true_iff, List.any_eq_true]
  refine and_congr_right fun _ => exists_congr fun i => ?_
  rw [mem_slotsOf, inContactState_iff]

theorem quietRefusal_of_barred (bars : s.quietBars p) : s.quietRefusal p = some .state := if_pos (quietBars_iff.mpr bars)

theorem quietRefusal_of_free (free : ¬s.quietBars p) : s.quietRefusal p = if s.gateOpen p then none else some .tooSoon :=
  if_neg fun bars => free (quietBars_iff.mp bars)

theorem quietRefusal_state_iff : s.quietRefusal p = some .state ↔ s.quietBars p := by
  by_cases bars : s.quietBars p
  · exact iff_of_true (quietRefusal_of_barred bars) bars
  · refine iff_of_false ?_ bars
    rw [quietRefusal_of_free bars]
    split <;> exact nofun

theorem quietRefusal_tooSoon_iff : s.quietRefusal p = some .tooSoon ↔ s.quietRefusal p ≠ some .state ∧ s.gateOpen p = false := by
  by_cases bars : s.quietBars p
  · rw [quietRefusal_of_barred bars]
    exact iff_of_false nofun fun ⟨not, _⟩ => not rfl
  · rw [quietRefusal_of_free bars]
    cases s.gateOpen p <;> simp

theorem quietRefusal_none_iff : s.quietRefusal p = none ↔ s.quietRefusal p ≠ some .state ∧ s.gateOpen p = true := by
  by_cases bars : s.quietBars p
  · rw [quietRefusal_of_barred bars]
    exact iff_of_false nofun fun ⟨not, _⟩ => not rfl
  · rw [quietRefusal_of_free bars]
    cases s.gateOpen p <;> simp

theorem gateOpen_iff : s.gateOpen p = true ↔
    if (∃ i, s.owns p i = true) then (s.port p).gateSample = true else (s.port p).gateCar = true := by
  unfold State.gateOpen
  by_cases owns : ∃ i, s.owns p i = true
  · obtain ⟨i, mine⟩ := owns
    have some_ : (s.slotsOf p).isEmpty = false := by
      rw [List.isEmpty_eq_false_iff]
      exact List.ne_nil_of_mem (mem_slotsOf.mpr mine)
    rw [some_, if_neg Bool.false_ne_true, if_pos ⟨i, mine⟩]
  · have empty : s.slotsOf p = [] := List.eq_nil_iff_forall_not_mem.mpr fun i mem => owns ⟨i, mem_slotsOf.mp mem⟩
    rw [empty, if_pos List.isEmpty_nil, if_neg owns]

end

/-! ### Cars of a port that goes QUIET (R36) -/

/-- The LIVE and COASTING cars of a port are PARKED, and no other car changes but by a fixing (R36). -/
structure Parks (p : PortNo) (s t : State) : Prop where
  parked : ∀ i, s.owns p i = true → inContactState (s.car i).state = true →
    FinishedSince i s t ∨ t.car i = (s.car i).parked
  others : ∀ i, (s.owns p i = true → inContactState (s.car i).state = false) → t.car i = s.car i ∨ FinishedSince i s t

theorem leaveCars_parks (p : PortNo) (s : State) : Parks p s ((s.slotsOf p).foldl (leaveCar true) s) where
  parked i owns contact := by
    obtain finished | ⟨js, ks, u, after, first, same, second⟩ := foldl_worked (P := fun st => inContactState st = true)
      (leaveCar_touching true) (fun s i => leaveCar_of_away s i) nofun (nodup_slotsOf s p) s (mem_slotsOf.mpr owns)
    · exact .inl finished
    have car := reported_car (s := u) (i := i) (new := (u.car i).parked) none ⟨rfl, rfl, rfl, rfl, rfl, rfl, rfl⟩
    have step := leaveCar_touching true u i
    rw [leaveCar_parks u i (by rw [same, contact])] at second step
    obtain kept | finished := second.cars i after
    · obtain car | finished := car
      · exact .inr (by rw [kept, car, same])
      · exact .inl ((finished.congr kept).after first.fresh first.effect.params)
    · exact .inl ((finished.after step.fresh step.effect.params).after first.fresh first.effect.params)
  others i other := foldl_skipped (P := fun st => inContactState st = true) (leaveCar_touching true)
    (fun s i => leaveCar_of_away s i) nofun (nodup_slotsOf s p) fun mem => Bool.eq_false_iff.mp (other (mem_slotsOf.mp mem))

/-! ### A departure, seen from before the port's own change -/

section
variable {p : PortNo} {s t : State} {f : Port → Port}

theorem NoticedWithin.before_modPort {bs : List FrameBody} (wire : (f (s.port p)).wire = (s.port p).wire)
    (outbox : (f (s.port p)).outbox = (s.port p).outbox) (h : NoticedWithin bs (s.modPort p f) t) : NoticedWithin bs s t := by
  intro d role busy room
  have same : ((s.modPort p f).port d).wire = (s.port d).wire ∧ ((s.modPort p f).port d).outbox = (s.port d).outbox := by
    by_cases is : d = p
    · subst is
      rw [State.port_modPort_self]
      exact ⟨wire, outbox⟩
    · rw [State.port_modPort_of_ne _ _ is]
      exact ⟨rfl, rfl⟩
  obtain ⟨added, grows, told⟩ := h d role (by rw [same.1]; exact busy) room
  exact ⟨added, by rw [grows, same.2], told⟩

theorem modPort_holdsRole (phase : (f (s.port p)).phase = (s.port p).phase) (d : PortNo) :
    (s.modPort p f).holdsRole d = s.holdsRole d := by
  rw [State.holdsRole, State.holdsRole, State.roleHolder_congr (s := s) (t := s.modPort p f) rfl (State.phase_modPort phase)]

theorem RolePassedOn.before_modPort (phase : (f (s.port p)).phase = (s.port p).phase)
    (h : RolePassedOn p (s.modPort p f) t) : RolePassedOn p s t := by
  have held := modPort_holdsRole (s := s) phase p
  have taker : (allPorts.find? fun r => decide (r ≠ p ∧ ((s.modPort p f).port r).phase = .active))
      = allPorts.find? fun r => decide (r ≠ p ∧ (s.port r).phase = .active) := by
    congr 1
    funext r
    rw [State.phase_modPort phase]
  refine ⟨fun is => (h.moved (held.trans is)).trans taker, fun is n next busy room => ?_, fun not => h.kept (held.trans not)⟩
  have takes := ((h.moved (held.trans is)).trans taker).symm.trans next
  have active := List.find?_some takes
  have other : n ≠ p := (of_decide_eq_true active).1
  have same : (s.modPort p f).port n = s.port n := State.port_modPort_of_ne _ _ other
  exact h.told (held.trans is) n next (by rw [same]; exact busy) (by rw [same]; exact room)

theorem LeftActive.before_modPort (phase : (f (s.port p)).phase = (s.port p).phase) (wire : (f (s.port p)).wire = (s.port p).wire)
    (outbox : (f (s.port p)).outbox = (s.port p).outbox) (view : (f (s.port p)).viewSet = (s.port p).viewSet)
    (abandoned : (f (s.port p)).counters.viewAbandoned = (s.port p).counters.viewAbandoned)
    (h : LeftActive p (s.modPort p f) t) : LeftActive p s t := by
  refine ⟨h.withdrawn, ?_, h.paceTimer, h.acks, fun pending => ?_, h.role.before_modPort phase⟩
  · rw [h.abandoned, State.port_modPort_self, view, abandoned]
  · obtain ⟨tH, complete, incomplete⟩ := h.ackTest pending
    refine ⟨tH, fun is => ?_, incomplete⟩
    obtain ⟨state, acks, told⟩ := complete is
    exact ⟨state, acks, told.before_modPort wire outbox⟩

end

/-! ### The entry into QUIET (R36, R162, R165) -/

section
variable {p : PortNo} {s : State}

/-- The port takes the link rate it is asked (R165). -/
def State.withRate (s : State) (p : PortNo) (rate : Option LinkRate) : State :=
  s.modPort p fun q => { q with entry := { q.entry with linkRate := rate.getD q.entry.linkRate } }

theorem enterQuiet_eq (p : PortNo) (rate : Option LinkRate) (s : State) : enterQuiet p rate s =
    ((leaveActive p .quiet (s.withRate p rate)).modPort p fun q => { q with linkBase := none }).followRate p := rfl

/-- The line rate of an idle line follows the Port Table (R150). -/
def Port.follows (q : Port) : Port := if q.wire.isNone then { q with lineRate := q.entry.linkRate } else q

theorem Port.follows_keeps (q : Port) : q.follows = { q with lineRate := q.follows.lineRate } := by
  unfold Port.follows
  split <;> rfl

/-- What enters QUIET, seen from the departure alone. -/
theorem enterQuiet_departs (p : PortNo) (rate : Option LinkRate) (s : State) : enterQuiet p rate s =
    (leaveActive p .quiet (s.withRate p rate)).modPort p fun q => ({ q with linkBase := none } : Port).follows := by
  rw [enterQuiet_eq, State.followRate, State.modPort_modPort]
  rfl

theorem enterQuiet_follows (p : PortNo) (rate : Option LinkRate) (s : State) :
    Follows p (leaveActive p .quiet (s.withRate p rate)) (enterQuiet p rate s) := by
  have keeps := fun q : Port => ({ q with linkBase := none } : Port).follows_keeps
  rw [enterQuiet_departs]
  refine .modPort ?_ (fun w => ?_) ?_
  · rw [keeps]
  · rw [keeps]
    exact ⟨w.calls, w.cues, w.placings, w.viewSet, w.paceTimer⟩
  · rw [keeps]

theorem enterQuiet_sameRace (p : PortNo) (rate : Option LinkRate) (s : State) :
    SameRace (leaveActive p .quiet (s.withRate p rate)) (enterQuiet p rate s) := by
  rw [enterQuiet_departs]
  exact .modPort ..

/-- An entry into QUIET, seen from before what the frame itself has changed of the port. -/
theorem enterQuiet_quiets {f : Port → Port} (rate : Option LinkRate)
    (same : ∀ q, (f q).phase = q.phase ∧ (f q).wire = q.wire ∧ (f q).outbox = q.outbox ∧ (f q).viewSet = q.viewSet
      ∧ (f q).counters.viewAbandoned = q.counters.viewAbandoned ∧ (f q).timing = q.timing ∧ (f q).entry = q.entry) :
    Quieted p (rate.getD (s.port p).entry.linkRate) s (enterQuiet p rate (s.modPort p f)) := by
  obtain ⟨phase, wire, outbox, view, abandoned, timing, entry⟩ := same (s.port p)
  have own : (s.modPort p f).withRate p rate
      = s.modPort p fun q => { f q with entry := { (f q).entry with linkRate := rate.getD (f q).entry.linkRate } } := by
    rw [State.withRate, State.modPort_modPort]
  have ends : ((s.modPort p f).withRate p rate).port p
      = { f (s.port p) with entry := { (f (s.port p)).entry with linkRate := rate.getD (f (s.port p)).entry.linkRate } } := by
    rw [own, State.port_modPort_self]
  have left := leaveActive_port (p := p) (new := .quiet) (s := (s.modPort p f).withRate p rate) (by decide)
  have keeps := (((s.modPort p f).withRate p rate).port p).abandoned_keeps.2.2
  have follows := enterQuiet_follows p rate (s.modPort p f)
  have later := enterQuiet_sameRace p rate (s.modPort p f)
  have port : (enterQuiet p rate (s.modPort p f)).port p
      = ({ (((s.modPort p f).withRate p rate).port p).left .quiet with linkBase := none } : Port).follows := by
    rw [enterQuiet_departs, State.port_modPort_self, left]
  have record : (enterQuiet p rate (s.modPort p f)).port p = { (((s.modPort p f).withRate p rate).port p).left .quiet with
      linkBase := none, lineRate := ((enterQuiet p rate (s.modPort p f)).port p).lineRate } := by
    rw [port]
    exact Port.follows_keeps _
  have effect := enterQuiet_effect p rate (s.modPort p f)
  have same := passedOn_sameRace p .quiet ((s.modPort p f).withRate p rate)
  have touching := carsLeft_touching p .quiet ((s.modPort p f).withRate p rate)
  have route := removeAck_effect p (((s.modPort p f).withRate p rate).carsLeft p .quiet)
  have parks := leaveCars_parks p (((s.modPort p f).withRate p rate).passedOn p .quiet)
  have car : ∀ i, (enterQuiet p rate (s.modPort p f)).car i = (((s.modPort p f).withRate p rate).carsLeft p .quiet).car i :=
    fun i => (later.car i).trans (route.car i)
  have since : ∀ i, FinishedSince i (((s.modPort p f).withRate p rate).passedOn p .quiet)
      (((s.modPort p f).withRate p rate).carsLeft p .quiet) → FinishedSince i s (enterQuiet p rate (s.modPort p f)) :=
    fun i finished => ((same.finishedSince finished).congr (car i))
  have held : ((s.modPort p f).withRate p rate).holdsRole p = s.holdsRole p :=
    (modPort_holdsRole (s := s.modPort p f) rfl p).trans (modPort_holdsRole phase p)
  refine ⟨?_, ?_, ?_, ?_, ?_, ?_, ?_, fun i owns contact => ?_, fun i other => ?_, fun i => ?_⟩
  · rw [record]
    rfl
  · rw [record]
    show (((s.modPort p f).withRate p rate).port p).abandoned.entry.linkRate = _
    rw [keeps, ends]
    show rate.getD (f (s.port p)).entry.linkRate = _
    rw [entry]
  · rw [record]
  · have leaves := leaveActive_left (by decide) follows
    exact (LeftActive.before_modPort (s := s.modPort p f) rfl rfl rfl rfl rfl leaves).before_modPort phase wire outbox view abandoned
  · rw [record]
    show (((s.modPort p f).withRate p rate).port p).abandoned.outbox = _
    rw [keeps, ends]
    exact outbox
  · rw [record]
    show { (((s.modPort p f).withRate p rate).port p).abandoned.timing with window := none } = _
    rw [keeps, ends]
    show { (f (s.port p)).timing with window := none } = _
    rw [timing]
  · rw [enterQuiet_departs]
    show (leaveActive p .quiet ((s.modPort p f).withRate p rate)).mgmt.queue = _
    rw [leaveActive_mgmt_queue, held]
    by_cases holds : s.holdsRole p = true
    · rw [if_pos (.inl holds), if_pos holds]
      rfl
    · rw [if_neg fun either => either.elim holds (fun not => not rfl), if_neg holds]
      rfl
  · obtain finished | parked := parks.parked i ((same.owns p i).trans owns) (by rw [same.car]; exact contact)
    · exact .inl (since i finished)
    · right
      rw [car i, State.carsLeft, decide_eq_true rfl, parked]
      exact ⟨rfl, rfl, rfl⟩
  · obtain kept | finished := parks.others i fun owns => by
      rw [same.car]
      exact other (by rwa [same.owns] at owns)
    · right
      rw [car i, State.carsLeft, decide_eq_true rfl, kept, same.car]
      rfl
    · exact .inl (since i finished)
  · exact ⟨(effect.cars i).last, (effect.cars i).prev⟩

/-- PORT_QUIET keeps the link rate as it is. -/
theorem enterQuiet_quiets_plain (rate : Option LinkRate) :
    Quieted p (rate.getD (s.port p).entry.linkRate) s (enterQuiet p rate s) := by
  have quiets := enterQuiet_quiets (s := s) (p := p) (f := fun q => q) rate fun q => ⟨rfl, rfl, rfl, rfl, rfl, rfl, rfl⟩
  rwa [State.modPort_id] at quiets

/-- What a QUIET_ASK frame itself changes has no part in the tests (R164). -/
theorem countValid_quietRefusal (stamp : RaceTime) : (countValid p stamp s).quietRefusal p = s.quietRefusal p := by
  have port : (countValid p stamp s).port p = (s.port p).heard stamp := State.port_modPort_self ..
  unfold State.quietRefusal State.gateOpen
  rw [port]
  rfl

theorem receiveQuietAsk_of_active (stamp : RaceTime) (b : Byte) (active : (s.port p).phase = .active) :
    receiveQuietAsk p stamp [b] s = takeQuietAsk p b.toNat (countValid p stamp s) := by
  have phase : ((countValid p stamp s).port p).phase = .active := (countValid_phase p p stamp s).trans active
  rw [receiveQuietAsk, phase, beNat_cons_nil]
  rfl

theorem rateOf_byte (b : Byte) : (b ≠ 10 → b ≠ 20 → rateOf b.toNat = none)
    ∧ (b = 10 ∨ b = 20 → rateOf b.toNat = some (if b = 10 then .r10 else .r20)) := by
  refine ⟨fun not10 not20 => ?_, fun is => ?_⟩
  · have h10 : b.toNat ≠ 10 := fun is => not10 (BitVec.eq_of_toNat_eq is)
    have h20 : b.toNat ≠ 20 := fun is => not20 (BitVec.eq_of_toNat_eq is)
    rw [rateOf, if_neg h10, if_neg h20]
  · obtain rfl | rfl := is <;> rfl

theorem takeQuietAsk_of_none {n : Nat} (none_ : rateOf n = none) : takeQuietAsk p n s = s.offerNotice p (.quietRefused .range) := by
  rw [takeQuietAsk, none_]

theorem takeQuietAsk_of_refused {n : Nat} {r : LinkRate} {e : Status} (rate : rateOf n = some r)
    (refused : s.quietRefusal p = some e) : takeQuietAsk p n s = s.offerNotice p (.quietRefused e) := by
  rw [takeQuietAsk, rate]
  simp only [refused]

theorem takeQuietAsk_of_free {n : Nat} {r : LinkRate} (rate : rateOf n = some r) (free : s.quietRefusal p = none) :
    takeQuietAsk p n s = enterQuiet p (some r) s := by
  rw [takeQuietAsk, rate]
  simp only [free]

theorem quietPort_of_inactive (inactive : (s.port p).phase ≠ .active) : quietPort p s = (s, .state) :=
  if_neg fun is => inactive ((s.isActive_iff p).mp is)

theorem quietPort_of_refused {e : Status} (active : (s.port p).phase = .active) (refused : s.quietRefusal p = some e) :
    quietPort p s = (s, e) := by
  rw [quietPort, if_pos ((s.isActive_iff p).mpr active), refused]

theorem quietPort_of_free (active : (s.port p).phase = .active) (free : s.quietRefusal p = none) :
    quietPort p s = (enterQuiet p none s, .ok) := by
  rw [quietPort, if_pos ((s.isActive_iff p).mpr active), free]

end

/-- Settles O30, by the test that refuses, or the entry. -/
theorem portsGoQuiet : Obligations.PortsGoQuiet := by
  refine fun p s => ⟨quietRefusal_state_iff, quietRefusal_tooSoon_iff, gateOpen_iff, quietRefusal_none_iff,
    fun stamp b active => ?_, fun c asks => ⟨fun inactive => ?_, fun e active refused => ?_, fun active free => ?_⟩⟩
  · have step : exec (.quietAsk p stamp [b]) s = .next (takeQuietAsk p b.toNat (countValid p stamp s)) :=
      congrArg Host.Outcome.next (receiveQuietAsk_of_active stamp b active)
    have refusal := countValid_quietRefusal (p := p) (s := s) stamp
    rw [step]
    refine ⟨fun not10 not20 => congrArg _ (takeQuietAsk_of_none ((rateOf_byte b).1 not10 not20)), fun e is refused => ?_,
      fun is free => ?_⟩
    · exact congrArg _ (takeQuietAsk_of_refused ((rateOf_byte b).2 is) (refusal.trans refused))
    · refine ⟨_, congrArg _ (takeQuietAsk_of_free ((rateOf_byte b).2 is) (refusal.trans free)), ?_⟩
      exact enterQuiet_quiets (f := (·.heard stamp)) (some (if b = 10 then .r10 else .r20))
        fun q => ⟨rfl, rfl, rfl, rfl, rfl, rfl, rfl⟩
  · exact exec_ported_of_eq (act := quietPort) (fun _ => rfl) asks (quietPort_of_inactive (s := s.dropHead) inactive)
  · exact exec_ported_of_eq (act := quietPort) (fun _ => rfl) asks (quietPort_of_refused (s := s.dropHead) active refused)
  · exact ⟨enterQuiet p none s.dropHead,
      exec_ported_of_eq (act := quietPort) (fun _ => rfl) asks (quietPort_of_free (s := s.dropHead) active free),
      enterQuiet_quiets_plain (s := s.dropHead) none⟩

end Sys2Proof.Machine
end

section
/-! PROOFS. Writes of the Port Table (R67, R155, R167, R182): the gate and the ranges of an entry, and what enabling and disabling a
port leads to. -/

namespace Sys2Proof.Machine

/-! ### The ranges of an entry -/

theorem boolOf_le {n : Nat} {b : Bool} (is : boolOf n = some b) : n ≤ 1 := by
  unfold boolOf at is
  split at is
  · omega
  · split at is
    · omega
    · exact nomatch is

theorem rateOf_mem {n : Nat} {r : LinkRate} (is : rateOf n = some r) : n ∈ [10, 20] := by
  unfold rateOf at is
  split at is
  · next ten => simp [ten]
  · split at is
    · next twenty => simp [twenty]
    · exact nomatch is

theorem inRange_iff {lo hi n : Nat} : inRange lo hi n = true ↔ lo ≤ n ∧ n ≤ hi := decide_eq_true_iff

/-- The ranges of a Port Table entry's fields (R67, R155). -/
def PortFits (bs : List Byte) : Prop :=
  (0 ≤ numAt bs 0 1 ∧ numAt bs 0 1 ≤ 1) ∧ numAt bs 1 1 ∈ [10, 20] ∧ (10000 ≤ numAt bs 2 4 ∧ numAt bs 2 4 ≤ 1000000)
    ∧ (1280000 ≤ numAt bs 6 4 ∧ numAt bs 6 4 ≤ 10240000) ∧ (0 ≤ numAt bs 10 2 ∧ numAt bs 10 2 ≤ 20000)
    ∧ numAt bs 12 1 ∈ [16, 32, 64, 128] ∧ (0 ≤ numAt bs 13 2 ∧ numAt bs 13 2 ≤ 2000)
    ∧ (100 ≤ numAt bs 15 2 ∧ numAt bs 15 2 ≤ 10000) ∧ (0 ≤ numAt bs 17 1 ∧ numAt bs 17 1 ≤ 2)
    ∧ (5000 ≤ numAt bs 18 4 ∧ numAt bs 18 4 ≤ 100000) ∧ (0 ≤ numAt bs 22 1 ∧ numAt bs 22 1 ≤ 8)
    ∧ (0 ≤ numAt bs 23 1 ∧ numAt bs 23 1 ≤ 2) ∧ 0 ≤ numAt bs 24 1 ∧ numAt bs 24 1 ≤ 1

/-- The values of the gated fields as the bytes give them (R182). -/
def GatedFields (bs : List Byte) (e : PortEntry) : Prop :=
  boolOf (numAt bs 0 1) = some e.enabled ∧ rateOf (numAt bs 1 1) = some e.linkRate
    ∧ e.pNom = numAt bs 6 4 ∧ e.tolPpm = numAt bs 10 2 ∧ e.winFrames = numAt bs 12 1

theorem portEntryOf_some {bs : List Byte} {e : PortEntry} (is : portEntryOf bs = some e) : PortFits bs ∧ GatedFields bs e := by
  unfold portEntryOf at is
  simp only at is
  split at is
  · next enabled rate pacing mode own isEnabled isRate isPacing isMode isOwn =>
    split at is
    · next ranges =>
      simp only [Bool.and_eq_true, inRange_iff, decide_eq_true_iff] at ranges
      obtain ⟨⟨⟨⟨⟨⟨⟨timeout, nominal⟩, tolerance⟩, window⟩, slew⟩, phase⟩, period⟩, lead⟩ := ranges
      have pacingLe : numAt bs 17 1 ≤ 2 := by
        split at isPacing
        · omega
        · omega
        · omega
        · exact nomatch isPacing
      have modeLe : numAt bs 23 1 ≤ 2 := by
        split at isMode
        · omega
        · omega
        · omega
        · exact nomatch isMode
      cases is
      exact ⟨⟨⟨Nat.zero_le _, boolOf_le isEnabled⟩, rateOf_mem isRate, timeout, nominal, tolerance, by simp [window], slew, phase,
        ⟨Nat.zero_le _, pacingLe⟩, period, lead, ⟨Nat.zero_le _, modeLe⟩, Nat.zero_le _, boolOf_le isOwn⟩,
        isEnabled, isRate, rfl, rfl, rfl⟩
    · exact nomatch is
  · exact nomatch is

theorem portEntryOf_none {bs : List Byte} (unfit : ¬PortFits bs) : portEntryOf bs = none :=
  Option.eq_none_iff_forall_ne_some.mpr fun _ is => unfit (portEntryOf_some is).1

/-! ### The gate (R182) -/

/-- The gate of a Port Table write, from the bytes held and those written. -/
def PortGateOpen (ph : PortPhase) (held bs : List Byte) : Prop :=
  (field bs 0 2 = field held 0 2 ∨ ph = .off ∨ ph = .down ∨ ph = .quiet)
    ∧ (field bs 6 7 = field held 6 7 ∨ (ph ≠ .phase ∧ ph ≠ .rate ∧ ph ≠ .active))

theorem portGate_iff {ph : PortPhase} {held bs : List Byte} : portGate ph held bs = true ↔ PortGateOpen ph held bs := by
  simp only [portGate, PortGateOpen, Bool.and_eq_true, Bool.or_eq_true, Bool.not_eq_true', decide_eq_true_iff, decide_eq_false_iff_not,
    not_or]
  exact and_congr or_comm or_comm

theorem numAt_of_field {bs cs : List Byte} {off k at_ n : Nat} (same : field bs off k = field cs off k) (within : at_ + n ≤ k) :
    numAt bs (off + at_) n = numAt cs (off + at_) n := by
  have part : ∀ ds : List Byte, field ds (off + at_) n = ((field ds off k).drop at_).take n := fun ds => by
    rw [field, field, List.drop_take, List.take_take, List.drop_drop, Nat.min_eq_left (by omega)]
  rw [numAt, numAt, part, part, same]

section
variable {d e : PortEntry} (written : portEntryOf (portEntryBytes e) = some e) (held : portEntryOf (portEntryBytes d) = some d)
include written held

/-- The gated bytes are equal exactly when the gated fields are (R182). -/
theorem field_enabled_iff : field (portEntryBytes e) 0 2 = field (portEntryBytes d) 0 2 ↔
    e.enabled = d.enabled ∧ e.linkRate = d.linkRate := by
  obtain ⟨-, enabled, rate, -⟩ := portEntryOf_some written
  obtain ⟨-, enabled', rate', -⟩ := portEntryOf_some held
  refine ⟨fun same => ?_, fun ⟨same, same'⟩ => ?_⟩
  · have first := numAt_of_field (at_ := 0) (n := 1) same (by decide)
    have second := numAt_of_field (at_ := 1) (n := 1) same (by decide)
    rw [Nat.zero_add] at first second
    rw [first, enabled'] at enabled
    rw [second, rate'] at rate
    exact ⟨(Option.some.inj enabled).symm, (Option.some.inj rate).symm⟩
  · show [boolByte e.enabled, e.linkRate.code] = [boolByte d.enabled, d.linkRate.code]
    rw [same, same']

theorem field_timing_iff : field (portEntryBytes e) 6 7 = field (portEntryBytes d) 6 7 ↔
    e.pNom = d.pNom ∧ e.tolPpm = d.tolPpm ∧ e.winFrames = d.winFrames := by
  obtain ⟨-, -, -, nominal, tolerance, window⟩ := portEntryOf_some written
  obtain ⟨-, -, -, nominal', tolerance', window'⟩ := portEntryOf_some held
  refine ⟨fun same => ?_, fun ⟨same, same', same''⟩ => ?_⟩
  · have first := numAt_of_field (at_ := 0) (n := 4) same (by decide)
    have second := numAt_of_field (at_ := 4) (n := 2) same (by decide)
    have third := numAt_of_field (at_ := 6) (n := 1) same (by decide)
    exact ⟨nominal.trans (first.trans nominal'.symm), tolerance.trans (second.trans tolerance'.symm),
      window.trans (third.trans window'.symm)⟩
  · show beBytes 4 e.pNom ++ beBytes 2 e.tolPpm ++ beBytes 1 e.winFrames
      = beBytes 4 d.pNom ++ beBytes 2 d.tolPpm ++ beBytes 1 d.winFrames
    rw [same, same', same'']

end

/-! ### The write of one entry -/

section
variable {p : PortNo} {s : State} {bs : List Byte}

theorem writePort_of_closed (closed : ¬PortGateOpen (s.port p).phase (portEntryBytes (s.port p).entry) bs) :
    writePort p bs s = (s, .state) := if_neg fun open_ => closed (portGate_iff.mp open_)

theorem writePort_of_open (gate : PortGateOpen (s.port p).phase (portEntryBytes (s.port p).entry) bs) :
    writePort p bs s = match portEntryOf bs with
      | none => (s, .range)
      | some e => (enableEffect p (s.port p).entry.enabled e.enabled
          ((s.modPort p fun q => { q with entry := e, paceTimer := paceAfterWrite q e s.clock }).followRate p), .ok) :=
  if_pos (portGate_iff.mpr gate)

/-- The hub with the entry stored, before the port is enabled or disabled (R70, R150). -/
def State.entryWritten (s : State) (p : PortNo) (e : PortEntry) : State :=
  (s.modPort p fun q => { q with entry := e, paceTimer := paceAfterWrite q e s.clock }).followRate p

theorem writePort_of_entry {e : PortEntry} (gate : PortGateOpen (s.port p).phase (portEntryBytes (s.port p).entry) bs)
    (entry : portEntryOf bs = some e) :
    writePort p bs s = (enableEffect p (s.port p).entry.enabled e.enabled (s.entryWritten p e), .ok) := by
  rw [writePort_of_open gate, entry]
  rfl

theorem entryWritten_eq (s : State) (p : PortNo) (e : PortEntry) : s.entryWritten p e =
    s.modPort p fun q => ({ q with entry := e, paceTimer := paceAfterWrite q e s.clock } : Port).follows := by
  rw [State.entryWritten, State.followRate, State.modPort_modPort]
  rfl

theorem entryWritten_port (s : State) (p : PortNo) (e : PortEntry) : ∃ rate, (s.entryWritten p e).port p =
    { s.port p with entry := e, paceTimer := paceAfterWrite (s.port p) e s.clock, lineRate := rate } := by
  refine ⟨((s.entryWritten p e).port p).lineRate, ?_⟩
  rw [entryWritten_eq, State.port_modPort_self]
  exact Port.follows_keeps _

end

/-! ### A reset, seen from before the port's own change -/

section
variable {p : PortNo} {s t : State} {f : Port → Port} (wire : (f (s.port p)).wire = (s.port p).wire)
  (outbox : (f (s.port p)).outbox = (s.port p).outbox)
include wire outbox

theorem LiveCoasted.before_modPort (h : LiveCoasted p (s.modPort p f) t) : LiveCoasted p s t :=
  ⟨fun i owns live => (h.live i owns live).imp id fun ⟨coasting, told⟩ => ⟨coasting, told.before_modPort wire outbox⟩,
    fun i other => h.others i other⟩

theorem ParkedReturned.before_modPort (h : ParkedReturned p (s.modPort p f) t) : ParkedReturned p s t := by
  refine ⟨fun lead i owns parked => ?_, fun i other => h.others i other⟩
  obtain finished | ⟨young, coasting, told⟩ | ⟨old, lost, coast, lose, told⟩ := h.parked lead i owns parked
  · exact .inl finished
  · exact .inr (.inl ⟨young, coasting, told.before_modPort wire outbox⟩)
  · exact .inr (.inr ⟨old, lost, coast, lose, told.before_modPort wire outbox⟩)

theorem PortWasReset.before_modPort (phase : (f (s.port p)).phase = (s.port p).phase)
    (view : (f (s.port p)).viewSet = (s.port p).viewSet)
    (abandoned : (f (s.port p)).counters.viewAbandoned = (s.port p).counters.viewAbandoned)
    (entry : (f (s.port p)).entry = (s.port p).entry) (h : PortWasReset p (s.modPort p f) t) : PortWasReset p s t := by
  have port := State.port_modPort_self s p f
  have line := h.line
  have queue := h.queue
  have rests := h.phase
  have invitation := h.invitation
  have gates := h.gates
  have fromActive := h.fromActive
  have fromOther := h.fromOther
  have coasted := h.coasted
  have returned := h.returned
  have entry' := h.entry
  rw [port] at line queue rests invitation gates fromActive fromOther coasted returned entry'
  rw [wire, entry] at line
  rw [phase] at queue gates fromActive fromOther coasted returned
  rw [entry] at rests invitation entry'
  exact ⟨rests, h.timing, h.faultReason, h.training, h.linkBase, h.paceTimer, invitation, h.withdrawn, line, entry', gates, queue,
    fun active => (fromActive active).before_modPort phase wire outbox view abandoned, fromOther, h.unparked,
    fun active => (coasted active).before_modPort wire outbox, fun other => (returned other).before_modPort wire outbox, h.cars⟩

end

/-! ### Enabling and disabling (R156, R167) -/

section
variable {p : PortNo} {s : State} {e : PortEntry}

/-- The hub with the entry alone stored (R182). -/
def State.entryStored (s : State) (p : PortNo) (e : PortEntry) : State := s.modPort p fun q => { q with entry := e }

theorem entryWritten_of_stored (s : State) (p : PortNo) (e : PortEntry) : ∃ rate, s.entryWritten p e =
    (s.entryStored p e).modPort p fun q => { q with paceTimer := paceAfterWrite (s.port p) e s.clock, lineRate := rate } := by
  refine ⟨((s.entryWritten p e).port p).lineRate, ?_⟩
  rw [State.entryStored, State.modPort_modPort, entryWritten_eq, State.port_modPort_self]
  exact State.modPort_congr (Port.follows_keeps _)

theorem portReset_of_written : PortWasReset p (s.entryStored p e) (portReset p (s.entryWritten p e)) := by
  obtain ⟨rate, eq⟩ := entryWritten_of_stored s p e
  have reset := portReset_resets p (s.entryWritten p e)
  rw [eq] at reset ⊢
  exact reset.before_modPort rfl rfl rfl rfl rfl rfl

theorem enablePort_of_off (off : (s.port p).phase = .off) (enabled : e.enabled = true) :
    enablePort p (s.entryWritten p e) = portReset p (s.entryWritten p e) := by
  obtain ⟨rate, port⟩ := entryWritten_port s p e
  have phase : ((s.entryWritten p e).port p).phase = .off := by rw [port, off]
  have rest : ((s.entryWritten p e).port p).restState = .down := by simp only [Port.restState, port, enabled, if_true]
  have base : (s.entryWritten p e).unqueued p = s.entryWritten p e := if_neg (by rw [phase]; exact nofun)
  rw [portReset_of_other p _ (by rw [phase]; exact nofun), rest, base]
  rfl

theorem enableEffect_of_same (was : Bool) (s : State) : enableEffect p was was s = s := if_pos rfl

theorem enableEffect_of_enabled (s : State) : enableEffect p false true s = enablePort p s := rfl

theorem enableEffect_of_disabled (s : State) : enableEffect p true false s = portReset p s := rfl

theorem enablePort_port (s : State) (p : PortNo) : (enablePort p s).port p =
    (s.port p).settled .down s.clock (s.invitation p) :=
  settleDown_port (c := s.modPort p (·.cleared .down)) (q := s.port p) (by decide) (State.port_modPort_self ..)

theorem enablePort_phase (s : State) (p : PortNo) : ((enablePort p s).port p).phase = .down
    ∧ ((enablePort p s).port p).entry = (s.port p).entry := by
  rw [enablePort_port]
  exact ⟨rfl, rfl⟩

end

/-- Settles O57: the gate and the ranges refuse, and an accepted entry is stored before the port is enabled or disabled. -/
theorem portsWritten : Obligations.PortsWritten := by
  refine ⟨fun s c p bs long asks => ?_, fun s c p e => ?_⟩
  · intro q held gate within fits
    have write {u : State} {st : Status} (is : writePort p bs s.dropHead = (u, st)) :=
      writePortTable_row.exec_one (u := u) (st := st) asks long (by rw [portByte_toNat, onPort_val, is])
    exact ⟨fun closed => write (writePort_of_closed (s := s.dropHead) closed),
      fun open_ unfit => write (by rw [writePort_of_open (s := s.dropHead) open_, portEntryOf_none unfit])⟩
  · intro q written held asks gate
    have write {u : State} {st : Status} (is : writePort p (portEntryBytes e) s.dropHead = (u, st)) :=
      writePortTable_row.exec_one (u := u) (st := st) asks (length_portEntryBytes e) (by rw [portByte_toNat, onPort_val, is])
    have gateIff : PortGateOpen q.phase (portEntryBytes q.entry) (portEntryBytes e) ↔ gate := by
      unfold PortGateOpen
      rw [field_enabled_iff written held, field_timing_iff written held]
    refine ⟨fun closed => write (writePort_of_closed (s := s.dropHead) fun open_ => closed (gateIff.mp open_)), fun open_ => ?_⟩
    have accepted := writePort_of_entry (s := s.dropHead) (p := p) (gateIff.mpr open_) written
    have effect := writePort_effect p (portEntryBytes e) s.dropHead
    rw [accepted] at effect
    obtain ⟨rate, port⟩ := entryWritten_port s.dropHead p e
    have was : (s.dropHead.port p).entry.enabled = q.entry.enabled := rfl
    rw [was] at effect accepted
    refine ⟨_, write accepted, ?_, fun r other => (effect.others r other).entry, fun same => ?_, ?_⟩
    · have entry : ((s.dropHead.entryWritten p e).port p).entry = e := by rw [port]
      have reset := (portReset_of_written (s := s.dropHead) (p := p) (e := e)).entry
      cases was' : q.entry.enabled <;> cases now : e.enabled
      · exact entry
      · exact (enablePort_phase ..).2.trans entry
      · exact reset.trans (congrArg Port.entry (State.port_modPort_self ..))
      · exact entry
    · rw [same, enableEffect_of_same]
      refine ⟨by rw [port]; rfl, ?_, ?_, by rw [port]; rfl⟩
      · rw [entryWritten_eq]
        rfl
      · rw [entryWritten_eq]
        rfl
    · intro stored
      refine ⟨fun was' now => ?_, fun was' now => ?_⟩
      · rw [was', now, enableEffect_of_disabled]
        have reset := portReset_of_written (s := s.dropHead) (p := p) (e := e)
        have phase := reset.phase
        rw [State.entryStored, State.port_modPort_self, now] at phase
        exact ⟨phase, reset⟩
      · rw [was', now, enableEffect_of_enabled]
        refine ⟨(enablePort_phase ..).1, fun off => ?_⟩
        rw [enablePort_of_off (s := s.dropHead) off now]
        exact portReset_of_written

end Sys2Proof.Machine
end

section
/-! PROOFS. Rate windows (R18 to R24): what one CAR frame does to a timing record, and what it asks of the Link Port. -/

namespace Sys2Proof.Machine

/-! ### The timing of one frame (R18, R19) -/

/-- The window a frame opens (R19). -/
def RateWindow.opened (f : FrameNum) (stamp : RaceTime) : RateWindow := { startFrame := f, startArrival := stamp, lastCounted := f }

section
variable {r : TimingRecord} {f : FrameNum} {w : RateWindow} (active : Bool) (e : PortEntry) (stamp : RaceTime)

theorem timeFrame_of_first {m : RaceTime} (lag : r.lag = none) (window : r.window = none) (mark : forward r f = some m) :
    timeFrame active e r f stamp =
      { record := { r with lag := some (timeDiff stamp m), window := some (.opened f stamp) }, request := .none, missed := false } := by
  simp only [timeFrame, lag, mark, feedWindow, window, RateWindow.opened]

theorem timeFrame_of_unmarked (lag : r.lag = none) (mark : forward r f = none) :
    timeFrame active e r f stamp = { record := r, request := .none, missed := true } := by
  simp only [timeFrame, lag, mark]

theorem timeFrame_of_unwindowed {l : Int} (lag : r.lag = some l) (window : r.window = none) :
    timeFrame active e r f stamp = { record := { r with window := some (.opened f stamp) }, request := .none, missed := false } := by
  simp only [timeFrame, lag, feedWindow, window, RateWindow.opened]

theorem timeFrame_of_windowed {l : Int} (lag : r.lag = some l) (window : r.window = some w) :
    timeFrame active e r f stamp = countFrame active e r w f stamp := by
  simp only [timeFrame, lag, feedWindow, window]

theorem countFrame_of_restarted (back : frameDiff w.lastCounted f < -(r.winFrames : Int)) : countFrame active e r w f stamp =
    { record := r.closed, request := if active then .reLevel else .rateFault, missed := false } := if_pos back

theorem countFrame_of_late (near : -(r.winFrames : Int) ≤ frameDiff w.lastCounted f) (late : frameDiff w.lastCounted f ≤ 0) :
    countFrame active e r w f stamp = { record := r, request := .none, missed := false } :=
  (if_neg (Int.not_lt.mpr near)).trans (if_pos late)

theorem countFrame_of_counted (later : 0 < frameDiff w.lastCounted f) (short : frameDiff w.startFrame f < r.winFrames) :
    countFrame active e r w f stamp =
      { record := { r with window := some { w with lastCounted := f } }, request := .none, missed := false } :=
  (if_neg (by omega)).trans ((if_neg (by omega)).trans (if_neg (by omega)))

theorem countFrame_of_end (later : 0 < frameDiff w.lastCounted f) (long : (r.winFrames : Int) ≤ frameDiff w.startFrame f) :
    countFrame active e r w f stamp = if active then trackingWindowEnd e r f stamp (measuredPeriod w f stamp)
      else firstWindowEnd r f (measuredPeriod w f stamp) :=
  (if_neg (by omega)).trans ((if_neg (by omega)).trans (if_pos long))

theorem inBand_iff {m : Int} : inBand r m = true ↔ (m - r.pNom).natAbs ≤ r.pNom * r.tolPpm / 1000000 := decide_eq_true_iff

theorem firstWindowEnd_of_inBand {m : Int} (within : (m - r.pNom).natAbs ≤ r.pNom * r.tolPpm / 1000000) :
    firstWindowEnd r f m = { record := r.moved f m, request := .active, missed := false } := if_pos (inBand_iff.mpr within)

theorem firstWindowEnd_of_outOfBand {m : Int} (out : r.pNom * r.tolPpm / 1000000 < (m - r.pNom).natAbs) :
    firstWindowEnd r f m = { record := r.closed, request := .rateFault, missed := false } :=
  if_neg fun within => Nat.not_lt.mpr (inBand_iff.mp within) out

end

/-! ### A frame of a port in RATE -/

section
variable {p : PortNo} {stamp : RaceTime} {payload : List Byte} {s : State}

/-- The port's record after a CAR frame in RATE. -/
def Port.rated (q : Port) (stamp : RaceTime) (o : TimingOutcome) : Port :=
  { q.heard stamp with gateCar := true, timing := o.record, counters := if o.missed then
      { (q.heard stamp).counters with outOfWindow := bump q.counters.outOfWindow } else (q.heard stamp).counters }

theorem takeRequest_of_phase (named : PortPhase) (req : TimingRequest) {u : State} (phase : (u.port p).phase = named) :
    takeRequest p named req u = match req with
      | .none => u
      | .active => enterActive p u
      | .reLevel => enterPhase p u
      | .rateFault => enterFault p .rate u := if_pos phase

theorem receiveCar_of_rate {count : Byte} (rate : (s.port p).phase = .rate) (fits : carFits count payload = true) :
    receiveCar p stamp count payload s = takeRequest p .rate (s.carOutcome p false stamp payload).request
      (s.modPort p (·.rated stamp (s.carOutcome p false stamp payload))) := by
  have port : (s.heardCar p stamp).port p = { (s.port p).heard stamp with gateCar := true } := State.port_modPort_self ..
  have phase : ((s.heardCar p stamp).port p).phase = .rate := by rw [port]; exact rate
  have outcome : timeFrame false ((s.heardCar p stamp).port p).entry ((s.heardCar p stamp).port p).timing (carFrame payload) stamp
      = s.carOutcome p false stamp payload := by rw [port]; rfl
  rw [receiveCar_of_taken (.inl rate) fits, takeCarFrame]
  simp only [phase, reduceCtorEq, decide_false, Bool.false_eq_true, if_false]
  rw [← carFrame, outcome]
  congr 1
  cases missed : (s.carOutcome p false stamp payload).missed with
  | true =>
    rw [if_pos rfl, State.count_eq_modPort, State.heardCar, State.modPort_modPort, State.modPort_modPort]
    refine State.modPort_congr ?_
    simp only [Port.rated, missed, if_true]
    rfl
  | false =>
    rw [if_neg Bool.false_ne_true, State.heardCar, State.modPort_modPort]
    refine State.modPort_congr ?_
    simp only [Port.rated, missed, Bool.false_eq_true, if_false]

end

/-! ### Entry into ACTIVE (R37, R70, R172) -/

section
variable {p : PortNo} {s : State}

/-- The port's record as it becomes ACTIVE (R70). -/
def Port.activated (q : Port) (now : RaceTime) : Port :=
  { q with phase := .active, paceTimer := if q.entry.pacing = .clock then some (addTime now q.entry.pacePeriod) else none }

/-- The hub with the port ACTIVE, before the role. -/
def State.activated (s : State) (p : PortNo) : State := s.modPort p (·.activated s.clock)

/-- The hub with the port ACTIVE and a vacant role taken, before its PARKED cars return (R172). -/
def State.roleTaken (s : State) (p : PortNo) : State := if s.roleHolder.isNone then takeUp p (s.activated p) else s.activated p

theorem enterActive_eq (p : PortNo) (s : State) : enterActive p s = unparkCars p (s.roleTaken p) := rfl

theorem activated_port (p : PortNo) (s : State) : (s.activated p).port p = (s.port p).activated s.clock := State.port_modPort_self ..

theorem takeUp_eq (p : PortNo) (s : State) :
    takeUp p s = (s.withDirector p).offerNotice p (.directorMoved none .takeUp) := rfl

theorem takeUp_route (p : PortNo) (s : State) : RouteEffect (s.withDirector p) (takeUp p s) := offerNotice_effect ..

theorem takeUp_sameRace (p : PortNo) (s : State) : SameRace s (takeUp p s) := by
  have route := takeUp_route p s
  exact ⟨route.clock, route.params, route.routes, State.offerNotice_race .., route.cars, route.crossings⟩

theorem activated_admits : admitsReplies (((s.activated p).withDirector p).port p).phase = true := by
  show admitsReplies ((s.activated p).port p).phase = true
  rw [activated_port]
  rfl

theorem roleTaken_cases (p : PortNo) (s : State) : (s.roleHolder = none ∧ s.roleTaken p = takeUp p (s.activated p))
    ∨ (s.roleHolder.isSome = true ∧ s.roleTaken p = s.activated p) := by
  unfold State.roleTaken
  cases holder : s.roleHolder with
  | none => exact .inl ⟨rfl, if_pos rfl⟩
  | some d => exact .inr ⟨rfl, if_neg nofun⟩

theorem roleTaken_sameRace (p : PortNo) (s : State) : SameRace s (s.roleTaken p) := by
  have first : SameRace s (s.activated p) := .modPort ..
  obtain ⟨-, eq⟩ | ⟨-, eq⟩ := roleTaken_cases p s
  · rw [eq]
    exact first.trans (takeUp_sameRace ..)
  · rwa [eq]

theorem activated_heard (d : PortNo) : Heard d [] s (s.activated p) := by
  by_cases is : d = p
  · subst is
    refine ⟨by rw [activated_port]; rfl, [], ?_, fun _ => List.nil_sublist _⟩
    rw [activated_port, List.append_nil]
    rfl
  · exact .of_port (State.port_modPort_of_ne _ _ is)

theorem roleTaken_heard (d : PortNo) (busy : (s.port d).wire.isSome = true) : Heard d [] s (s.roleTaken p) := by
  have first := activated_heard (s := s) (p := p) d
  obtain ⟨-, eq⟩ | ⟨-, eq⟩ := roleTaken_cases p s
  · rw [eq, takeUp_eq]
    have second : Heard d [] (s.activated p) ((s.activated p).withDirector p) := .of_port rfl
    have busy' : (((s.activated p).withDirector p).port d).wire.isSome = true := by
      rw [second.wire, first.wire]
      exact busy
    exact first.trans (second.trans (offerNotice_heard _ p d _ activated_admits busy'))
  · rwa [eq]

theorem roleTaken_link (p : PortNo) (s : State) : SameLink ((s.port p).activated s.clock) ((s.roleTaken p).port p) := by
  have port := activated_port p s
  obtain ⟨-, eq⟩ | ⟨-, eq⟩ := roleTaken_cases p s
  · rw [eq, ← port]
    exact (takeUp_route p (s.activated p)).link p
  · rw [eq, port]
    exact .refl _

theorem enterActive_link (p : PortNo) (s : State) : SameLink ((s.port p).activated s.clock) ((enterActive p s).port p) :=
  (roleTaken_link p s).trans ((unparkCars_effect p (s.roleTaken p)).link p)

theorem enterActive_cars (p : PortNo) (s : State) (i : Slot) : SameCar (s.car i) ((enterActive p s).car i) := by
  rw [← (roleTaken_sameRace p s).car i]
  exact (unparkCars_effect p (s.roleTaken p)).cars i

/-- The PARKED cars of a port that becomes ACTIVE return (R37), seen from before the port's own change. -/
theorem enterActive_returns {f : Port → Port} (wire : (f (s.port p)).wire = (s.port p).wire)
    (outbox : (f (s.port p)).outbox = (s.port p).outbox) : ParkedReturned p s (enterActive p (s.modPort p f)) := by
  refine ParkedReturned.before_modPort wire outbox ?_
  exact (unparkCars_unparks p ((s.modPort p f).roleTaken p)).parkedReturned (roleTaken_sameRace ..)
    (fun d _ busy => roleTaken_heard d busy) (fun i => rfl) (fun d _ _ => .of_port rfl) rfl

/-- A role that is held stays where it is; a vacant one is taken, and the port is told so on a busy line (R172). -/
theorem enterActive_role (p : PortNo) (s : State) :
    (∀ d, s.roleHolder = some d → (enterActive p s).mgmt = s.mgmt)
    ∧ (s.roleHolder = none → (enterActive p s).mgmt = { s.mgmt with director := some p }
      ∧ ((s.port p).wire.isSome = true → (s.port p).notices.length < 16 →
        ∃ x ∈ ((enterActive p s).port p).outbox, x.director = true ∧ x.body = .notice (.directorMoved none .takeUp))) := by
  have mgmt : (enterActive p s).mgmt = (s.roleTaken p).mgmt := (unparkCars_effect p _).mgmt
  refine ⟨fun d held => ?_, fun vacant => ?_⟩
  · rw [mgmt]
    obtain ⟨none_, -⟩ | ⟨-, eq⟩ := roleTaken_cases p s
    · exact nomatch none_.symm.trans held
    · rw [eq]
      rfl
  · have eq : s.roleTaken p = takeUp p (s.activated p) := by
      unfold State.roleTaken
      rw [vacant]
      rfl
    refine ⟨by rw [mgmt, eq, (takeUp_route ..).mgmt]; rfl, fun busy room => ?_⟩
    have port : ((s.activated p).withDirector p).port p = (s.port p).activated s.clock := activated_port p s
    have admits := activated_admits (s := s) (p := p)
    have holds : ((s.activated p).withDirector p).holdsRole p = true := holdsRole_iff.mpr ⟨rfl, by rw [port]; rfl⟩
    have taken : (s.roleTaken p).port p = { (s.port p).activated s.clock with outbox := (s.port p).outbox
        ++ [((s.activated p).withDirector p).mkFrame p (.notice (.directorMoved none .takeUp))] } := by
      rw [eq, takeUp_eq, State.offerNotice_of_busy _ admits (by rw [port]; exact room) (by rw [port]; exact busy),
        State.port_modPort_self, port]
      rfl
    have work := (unparkCars_work p (s.roleTaken p)).ports p
    obtain ⟨-, -, -, -, -, added, grows⟩ := work.busy (by rw [taken]; exact busy)
    refine ⟨((s.activated p).withDirector p).mkFrame p (.notice (.directorMoved none .takeUp)), ?_, holds, rfl⟩
    rw [enterActive_eq, ← grows, taken]
    exact List.mem_append_left _ (List.mem_append_right _ (List.mem_singleton_self _))

end

/-! ### The outcomes in RATE -/

section
variable {p : PortNo} {stamp : RaceTime} {count : Byte} {payload : List Byte} {s : State}

theorem exec_car (c : Byte) : exec (.car p stamp c payload) s = .next (receiveCar p stamp c payload s) := rfl

theorem exec_car_of_rate (rate : (s.port p).phase = .rate) (fits : carFits count payload = true) {o : TimingOutcome}
    (outcome : s.carOutcome p false stamp payload = o) : exec (.car p stamp count payload) s =
      .next (takeRequest p .rate o.request (s.modPort p (·.rated stamp o))) := by
  rw [exec_car, receiveCar_of_rate rate fits, outcome]

theorem rated_phase (rate : (s.port p).phase = .rate) (o : TimingOutcome) :
    ((s.modPort p (·.rated stamp o)).port p).phase = .rate := by
  rw [State.port_modPort_self]
  exact rate

/-- A window that ends in FAULT from RATE (R19, R21). -/
theorem exec_car_faults (rate : (s.port p).phase = .rate) (fits : carFits count payload = true)
    (outcome : s.carOutcome p false stamp payload = { record := (s.timing p).closed, request := .rateFault, missed := false }) :
    ∃ t, exec (.car p stamp count payload) s = .next t ∧ Faulted p .rate s t ∧ (∀ i, SameCar (s.car i) (t.car i))
      ∧ (t.port p).timing = { s.timing p with valid := false, window := none, sweep := none } := by
  refine ⟨_, (exec_car_of_rate rate fits outcome).trans (congrArg _ (takeRequest_of_phase _ _ (rated_phase rate _))), ?_, ?_, ?_⟩
  · exact enterFault_of_idle (by rw [rate]; exact nofun) rfl rfl
  · exact (enterFault_effect p .rate (s.modPort p (·.rated stamp _))).cars
  · show ((enterFault p .rate (s.modPort p (·.rated stamp _))).port p).timing = _
    rw [enterFault_port, changePhase_of_not_active (by rw [rated_phase rate]; exact nofun), State.port_modPort_self,
      State.port_modPort_self]
    rfl

/-- A CAR frame in RATE that asks nothing. -/
theorem exec_car_counts (rate : (s.port p).phase = .rate) (fits : carFits count payload = true) {r : TimingRecord}
    (outcome : s.carOutcome p false stamp payload = { record := r, request := .none, missed := false }) :
    exec (.car p stamp count payload) s = .next (s.modPort p fun q => { q with
      gateCar := true, linkBase := q.linkBase.map fun _ => stamp, timing := r,
      counters := { q.counters with framesRx := bump q.counters.framesRx } }) :=
  (exec_car_of_rate rate fits outcome).trans (congrArg _ (takeRequest_none ..))

end

/-- Settles O23, by what the frame makes of the lag and of the window. -/
theorem carFramesInRate : Obligations.CarFramesInRate := by
  intro p stamp count payload s f r heard opened faulted rate long
  have fits : carFits count payload = true := decide_eq_true long
  have timing : s.timing p = r := rfl
  refine ⟨fun lag window m mark => ?_, fun lag mark => ?_, fun l lag window => ?_, fun l w lag window =>
    ⟨fun back => ?_, fun near late => ?_, fun later short => ?_, fun later far => ?_⟩⟩
  · exact (exec_car_counts rate fits (timeFrame_of_first false _ stamp lag window mark)).trans rfl
  · refine (exec_car_of_rate rate fits (timeFrame_of_unmarked false _ stamp lag mark)).trans
      (congrArg _ ((takeRequest_none ..).trans (State.modPort_congr ?_)))
    rfl
  · exact (exec_car_counts rate fits (timeFrame_of_unwindowed false _ stamp lag window)).trans rfl
  · exact exec_car_faults rate fits
      ((timeFrame_of_windowed false _ stamp lag window).trans (countFrame_of_restarted false _ stamp back))
  · exact (exec_car_counts rate fits
      ((timeFrame_of_windowed false _ stamp lag window).trans (countFrame_of_late false _ stamp near late))).trans
        (congrArg _ (State.modPort_congr rfl))
  · exact (exec_car_counts rate fits
      ((timeFrame_of_windowed false _ stamp lag window).trans (countFrame_of_counted false _ stamp later short))).trans rfl
  · intro m
    have ends : s.carOutcome p false stamp payload = firstWindowEnd r f m :=
      (timeFrame_of_windowed false _ stamp lag window).trans (countFrame_of_end false _ stamp later far)
    by_cases within : (m - r.pNom).natAbs ≤ r.pNom * r.tolPpm / 1000000
    · have outcome := ends.trans (firstWindowEnd_of_inBand within)
      have step := (exec_car_of_rate rate fits outcome).trans
        (congrArg _ (takeRequest_of_phase _ _ (rated_phase rate { record := r.moved f m, request := .active, missed := false })))
      have role := enterActive_role p (s.modPort p (·.rated stamp { record := r.moved f m, request := .active, missed := false }))
      have link := enterActive_link p (s.modPort p (·.rated stamp { record := r.moved f m, request := .active, missed := false }))
      have holder : (s.modPort p (·.rated stamp { record := r.moved f m, request := .active, missed := false })).roleHolder
          = s.roleHolder := State.roleHolder_congr rfl (State.phase_modPort rfl)
      rw [holder] at role
      rw [State.port_modPort_self] at link role
      refine ⟨_, step, ?_, fun _ => ⟨link.phase, link.record, link.paceTimer, enterActive_returns rfl rfl, role⟩,
        fun out => absurd within (Nat.not_le.mpr out)⟩
      exact enterActive_cars p (s.modPort p (·.rated stamp _))
    · obtain ⟨t, step, faults⟩ := exec_car_faults rate fits (ends.trans (firstWindowEnd_of_outOfBand (Nat.not_le.mp within)))
      exact ⟨t, step, faults.2.1, fun is => absurd is within, fun _ => faults⟩

end Sys2Proof.Machine
end

section
/-! PROOFS. The translations (R15, R16), the tracking windows of an ACTIVE port and what their end leads to (R19, R22 to R26). -/

namespace Sys2Proof.Machine

/-! ### The translations (R15, R16) -/

section
variable {r : TimingRecord}

theorem forward_iff {f : FrameNum} {t : RaceTime} :
    forward r f = some t ↔ r.valid = true ∧ (frameDiff r.anchorFrame f).natAbs ≤ 1024 ∧ t = frameMark r f := by
  unfold forward
  by_cases near : (r.valid && decide ((frameDiff r.anchorFrame f).natAbs ≤ 1024)) = true
  · rw [if_pos near, Option.some.injEq]
    obtain ⟨valid, within⟩ := Bool.and_eq_true_iff.mp near
    exact ⟨fun is => ⟨valid, of_decide_eq_true within, is.symm⟩, fun is => is.2.2.symm⟩
  · rw [if_neg near]
    refine ⟨nofun, fun is => absurd ?_ near⟩
    rw [is.1, decide_eq_true is.2.1]
    rfl

theorem frameDiff_add (g : FrameNum) {k : Int} (lower : -32768 ≤ k) (upper : k ≤ 32767) :
    frameDiff g (g + BitVec.ofInt 16 k) = k := by
  have moved : g + BitVec.ofInt 16 k - g = BitVec.ofInt 16 k := by
    rw [BitVec.add_comm, BitVec.add_sub_cancel]
  rw [frameDiff, moved, BitVec.toInt_ofInt]
  exact Int.bmod_eq_of_le (by omega) (by omega)

/-- A quotient by 256 is not less than a whole number that its dividend reaches, and not far beyond it. -/
theorem roundDiv_near {x d m : Int} (lower : d * 256 ≤ x) (upper : x < d * 256 + m) :
    d ≤ roundDiv x 256 ∧ roundDiv x 256 ≤ d + m / 256 + 1 := by
  unfold roundDiv
  split
  · constructor <;> omega
  · constructor <;> omega

/-- The race time between a time and one a distance after another. -/
theorem timeDiff_of_addTime (t a : RaceTime) {x : Int} (lower : -2 ^ 31 ≤ timeDiff t a - x) (upper : timeDiff t a - x < 2 ^ 31) :
    timeDiff t (addTime a x) = timeDiff t a - x := by
  have moved : t - addTime a x = BitVec.ofInt 32 (timeDiff t a - x) := by
    rw [Int.sub_eq_add_neg, BitVec.ofInt_add, BitVec.ofInt_neg, timeDiff, BitVec.ofInt_toInt, addTime]
    ring
  rw [timeDiff, moved, BitVec.toInt_ofInt]
  exact Int.bmod_eq_of_le (by omega) (by omega)

/-- The mark of a frame that is not before a time lies at or after it (R16). -/
theorem mark_atOrAfter {t : RaceTime} {k : Int} (small : r.period < 2 ^ 32)
    (lower : (k - 1) * r.period < timeDiff t r.anchorTime * 256) (upper : timeDiff t r.anchorTime * 256 ≤ k * r.period)
    (first : -32768 ≤ k) (last : k ≤ 32767) : atOrAfter (frameMark r (r.anchorFrame + BitVec.ofInt 16 k)) t = true := by
  have expand : (k - 1) * (r.period : Int) = k * r.period - r.period := by ring
  obtain ⟨reach, near⟩ := roundDiv_near (m := r.period) upper (by omega)
  rw [frameMark, frameDiff_add _ first last, atOrAfter, timeDiff_of_addTime _ _ (by omega) (by omega)]
  exact decide_eq_true (by omega)

end

/-! ### The end of a tracking window (R22 to R24) -/

section
variable {r : TimingRecord} {f : FrameNum} {m l : Int} (e : PortEntry) (stamp : RaceTime)

theorem trackingWindowEnd_of_outOfBand (out : r.pNom * r.tolPpm / 1000000 < (m - r.pNom).natAbs) :
    trackingWindowEnd e r f stamp m = { record := r.closed, request := .rateFault, missed := false } :=
  if_neg fun within => Nat.not_lt.mpr (inBand_iff.mp within) out

variable (within : (m - r.pNom).natAbs ≤ r.pNom * r.tolPpm / 1000000) (lag : r.lag = some l)
include within lag

theorem trackingWindowEnd_of_near (near : (timeDiff stamp (frameMark r f) - l).natAbs ≤ e.phaseTol) :
    trackingWindowEnd e r f stamp m =
      { record := { r.moved f m with
          residual := some (timeDiff stamp (frameMark r f) - l),
          anchorTime := addTime (frameMark r f) (slewOf e.slewMax (timeDiff stamp (frameMark r f) - l)) },
        request := .none, missed := false } := by
  have given : r.lag.getD 0 = l := by rw [lag]; rfl
  unfold trackingWindowEnd
  rw [if_pos (inBand_iff.mpr within)]
  simp only [TimingRecord.moved, given, near, if_true]

theorem trackingWindowEnd_of_far (far : e.phaseTol < (timeDiff stamp (frameMark r f) - l).natAbs) :
    trackingWindowEnd e r f stamp m =
      { record := { r.moved f m with residual := some (timeDiff stamp (frameMark r f) - l) },
        request := .reLevel, missed := false } := by
  have given : r.lag.getD 0 = l := by rw [lag]; rfl
  unfold trackingWindowEnd
  rw [if_pos (inBand_iff.mpr within)]
  simp only [TimingRecord.moved, given, Nat.not_le.mpr far, if_false]

end

/-! ### Entry into PHASE from ACTIVE (R26, R159) -/

section
variable {p : PortNo} {s : State}

theorem chooseFrame_withdrawn {f : HubFrame} {q : Port} (withdrawn : (s.port p).Withdrawn)
    (choice : s.chooseFrame p = some (f, q)) : q.Withdrawn ∧ q.counters = (s.port p).counters := by
  obtain ⟨calls, cues, placings, viewSet, paceTimer⟩ := withdrawn
  unfold State.chooseFrame at choice
  simp only [calls, cues, placings, viewSet] at choice
  split at choice
  · cases choice
    exact ⟨⟨rfl, rfl, rfl, rfl, paceTimer⟩, rfl⟩
  · split at choice
    · cases choice
      exact ⟨⟨rfl, rfl, rfl, rfl, paceTimer⟩, rfl⟩
    · exact nomatch choice

theorem stampSent_withdrawn (now : RaceTime) (f : HubFrame) {q : Port} (withdrawn : q.Withdrawn) :
    (stampSent now f q).Withdrawn ∧ (stampSent now f q).counters = q.counters := by
  obtain ⟨calls, cues, placings, viewSet, paceTimer⟩ := withdrawn
  unfold stampSent
  repeat' split
  all_goals exact ⟨⟨calls, cues, placings, viewSet, paceTimer⟩, rfl⟩

theorem arbiterTake_withdrawn (withdrawn : (s.port p).Withdrawn) :
    ((s.arbiterTake p).port p).Withdrawn ∧ ((s.arbiterTake p).port p).counters = (s.port p).counters := by
  unfold State.arbiterTake
  split
  · exact ⟨withdrawn, rfl⟩
  · split
    · next f q choice =>
      obtain ⟨rest, counters⟩ := chooseFrame_withdrawn withdrawn choice
      obtain ⟨sent, counters'⟩ := stampSent_withdrawn s.clock f
        (q := { q with wire := some { frame := f, sent := s.clock, rate := q.entry.linkRate } })
        ⟨rest.calls, rest.cues, rest.placings, rest.viewSet, rest.paceTimer⟩
      rw [State.port_setPort_self]
      exact ⟨sent, counters'.trans counters⟩
    · exact ⟨withdrawn, rfl⟩

theorem offerTraining_withdrawn (b : FrameBody) (withdrawn : (s.port p).Withdrawn) :
    ((s.offerTraining p b).port p).Withdrawn ∧ ((s.offerTraining p b).port p).counters = (s.port p).counters := by
  unfold State.offerTraining
  split
  · have port := State.port_modPort_self s p fun q => { q with class1 := q.class1 ++ [s.mkFrame p b] }
    obtain ⟨rest, counters⟩ := arbiterTake_withdrawn (s := s.modPort p fun q => { q with class1 := q.class1 ++ [s.mkFrame p b] })
      (p := p) (by
        rw [port]
        exact ⟨withdrawn.calls, withdrawn.cues, withdrawn.placings, withdrawn.viewSet, withdrawn.paceTimer⟩)
    exact ⟨rest, counters.trans (by rw [port])⟩
  · exact ⟨withdrawn, rfl⟩

theorem offerTraining_other (s : State) {p d : PortNo} (b : FrameBody) (other : d ≠ p) :
    (s.offerTraining p b).port d = s.port d := by
  unfold State.offerTraining
  split
  · exact (arbiterTake_other _ other).trans (State.port_modPort_of_ne _ _ other)
  · rfl

theorem startSweep_sameRace (p : PortNo) (n : Nat) (s : State) : SameRace s (startSweep p n s) := by
  rw [startSweep_eq]
  have route := offerTraining_effect (s.withSweep p { number := n, queued := 1, sent := [], answers := .replicate 64 none }) p
    (.probe (64 * (n - 1)))
  exact ⟨route.clock, route.params, route.routes, State.offerTraining_race .., route.cars, route.crossings⟩

theorem startSweep_link (p : PortNo) (n : Nat) (s : State) : SameLink (s.port p) ((startSweep p n s).port p) := by
  rw [startSweep_eq]
  have link := offerTraining_link p p (.probe (64 * (n - 1)))
    (s.withSweep p { number := n, queued := 1, sent := [], answers := .replicate 64 none })
  refine SameLink.trans ?_ link
  rw [State.withSweep_port]
  exact ⟨rfl, rfl, rfl, rfl, rfl, rfl, rfl, rfl, rfl, rfl, rfl, rfl, id⟩

theorem startSweep_follows (n : Nat) (withdrawn : (s.port p).Withdrawn) : Follows p s (startSweep p n s) := by
  have port := State.withSweep_port (s := s) (p := p) { number := n, queued := 1, sent := [], answers := .replicate 64 none }
  obtain ⟨rest, counters⟩ := offerTraining_withdrawn
    (s := s.withSweep p { number := n, queued := 1, sent := [], answers := .replicate 64 none }) (p := p) (.probe (64 * (n - 1))) (by
      rw [port]
      exact ⟨withdrawn.calls, withdrawn.cues, withdrawn.placings, withdrawn.viewSet, withdrawn.paceTimer⟩)
  refine .of_own (startSweep_sameRace p n s) (offerTraining_effect ..).mgmt (fun d other => ?_) (startSweep_link p n s).phase
    (fun _ => rest) ?_
  · exact (offerTraining_other _ _ other).trans (State.port_modPort_of_ne _ _ other)
  · rw [startSweep_eq, counters, port]

/-- The hub with the port in PHASE, before its sweep opens. -/
def State.levels (s : State) (p : PortNo) : State := (leaveActive p .phase s).modPort p fun q => { q with training := .none }

theorem enterPhase_of_active (active : (s.port p).phase = .active) : enterPhase p s = startSweep p 1 (s.levels p) := by
  rw [enterPhase, changePhase, if_pos ((s.isActive_iff p).mpr active)]
  rfl

theorem levels_port (p : PortNo) (s : State) : (s.levels p).port p = { (s.port p).left .phase with training := .none } := by
  rw [State.levels, State.port_modPort_self, leaveActive_port (by decide)]

/-- An ACTIVE port that must be levelled again enters PHASE with sweep 1 (R26, R35, R159, R162). -/
theorem enterPhase_levels (active : (s.port p).phase = .active) (closed : (s.timing p).window = none) :
    ((enterPhase p s).port p).phase = .phase
      ∧ { ((enterPhase p s).timing p) with sweep := none } = { s.timing p with sweep := none }
      ∧ (∃ v, ((enterPhase p s).timing p).sweep = some v ∧ v.number = 1 ∧ v.queued = 1 ∧ v.answers = Vector.replicate 64 none)
      ∧ FirstProbeQueued p 0 s (enterPhase p s) ∧ LeftActive p s (enterPhase p s) ∧ LiveCoasted p s (enterPhase p s) := by
  have keeps := (s.port p).abandoned_keeps.2.2
  have port := levels_port p s
  have link := startSweep_link p 1 (s.levels p)
  rw [enterPhase_of_active active]
  obtain ⟨v, phase, sweep, number, queued, answers, probe⟩ := startSweep_opens (s := s.levels p) (p := p) 1 (by rw [port]; rfl)
  have first : Follows p (leaveActive p .phase s) (s.levels p) :=
    .modPort rfl (fun w => ⟨w.calls, w.cues, w.placings, w.viewSet, w.paceTimer⟩) rfl
  have withdrawn : ((s.levels p).port p).Withdrawn := by
    rw [port]
    have w := (s.port p).left_withdrawn .phase
    exact ⟨w.calls, w.cues, w.placings, w.viewSet, w.paceTimer⟩
  have follows := first.trans (startSweep_follows 1 withdrawn)
  have clock : (s.levels p).clock = s.clock := (leaveActive_effect p .phase s (by decide) (by decide)).clock
  have line : SameLine p s (s.levels p) := by
    refine ⟨clock, ?_, ?_, ?_⟩
    · rw [port]
      show (s.port p).abandoned.wire = _
      rw [keeps]
    · rw [port]
      show (s.port p).abandoned.class1 = _
      rw [keeps]
    · rw [port]
      show (s.port p).abandoned.entry = _
      rw [keeps]
  refine ⟨phase, ?_, ⟨v, sweep, number, queued, answers⟩, line.firstProbeQueued probe, leaveActive_left (by decide) follows,
    leaveActive_coasts (by decide) (by decide) follows fun i _ => ?_⟩
  · have record := link.record
    rw [port] at record
    have kept : ((s.port p).left .phase).timing = s.timing p := by
      show { (s.port p).abandoned.timing with window := none } = _
      rw [keeps]
      show { s.timing p with window := none } = _
      rw [← closed]
    rw [State.timing, record]
    show { ((s.port p).left .phase).timing with sweep := none } = _
    rw [kept]
  · have same := (SameRace.modPort (leaveActive p .phase s) p fun q => { q with training := .none }).trans
      (startSweep_sameRace p 1 (s.levels p))
    exact .inl (same.car i)

end

/-! ### The frames of an ACTIVE port (R19, R41) -/

section
variable {p : PortNo} {stamp : RaceTime} {count : Byte} {payload : List Byte} {s : State}

/-- The hub with the samples of a CAR frame taken and the timing record given (R41, R47). -/
def State.sampled (s : State) (p : PortNo) (stamp : RaceTime) (payload : List Byte) (x : TimingRecord) : State :=
  (takeSamples p (carFrame payload) (frameSamples payload) (s.heardCar p stamp)).modPort p fun q => { q with timing := x }

theorem sampled_port (x : TimingRecord) : (s.sampled p stamp payload x).timing p = x := by
  rw [State.timing, State.sampled, State.port_modPort_self]

theorem sampled_phase (active : (s.port p).phase = .active) (x : TimingRecord) :
    ((s.sampled p stamp payload x).port p).phase = .active := by
  have taken := (takeSamples_effect p (carFrame payload) (frameSamples payload) (s.heardCar p stamp)).2 p
  rw [State.sampled, State.port_modPort_self]
  refine taken.trans ?_
  rw [State.heardCar, State.port_modPort_self]
  exact active

theorem exec_car_of_active (active : (s.port p).phase = .active) (fits : carFits count payload = true) {o : TimingOutcome}
    (outcome : s.carOutcome p true stamp payload = o) (hit : o.missed = false) : exec (.car p stamp count payload) s =
      .next (takeRequest p .active o.request (s.sampled p stamp payload o.record)) := by
  have port : (s.heardCar p stamp).port p = { (s.port p).heard stamp with gateCar := true } := State.port_modPort_self ..
  have still : ((s.heardCar p stamp).port p).phase = .active := by rw [port]; exact active
  have outcome' : timeFrame true ((s.heardCar p stamp).port p).entry ((s.heardCar p stamp).port p).timing (carFrame payload) stamp
      = o := by rw [port]; exact outcome
  rw [exec_car, receiveCar_of_taken (.inr active) fits, takeCarFrame]
  simp only [still, decide_true, if_true]
  rw [← carFrame, outcome', hit, if_neg Bool.false_ne_true]
  rfl

/-- The three ways a CAR frame of an ACTIVE port ends: it asks nothing, PHASE, or FAULT. -/
theorem exec_car_keeps (active : (s.port p).phase = .active) (fits : carFits count payload = true) {x : TimingRecord}
    (outcome : s.carOutcome p true stamp payload = { record := x, request := .none, missed := false }) :
    exec (.car p stamp count payload) s = .next (s.sampled p stamp payload x)
      ∧ ((s.sampled p stamp payload x).port p).phase = .active :=
  ⟨(exec_car_of_active active fits outcome rfl).trans (congrArg _ (takeRequest_none ..)), sampled_phase active x⟩

theorem exec_car_levels (active : (s.port p).phase = .active) (fits : carFits count payload = true) {x : TimingRecord}
    (closed : x.window = none)
    (outcome : s.carOutcome p true stamp payload = { record := x, request := .reLevel, missed := false }) :
    ∃ t, exec (.car p stamp count payload) s = .next t ∧ (t.port p).phase = .phase
      ∧ { (t.timing p) with sweep := none } = { x with sweep := none }
      ∧ (∃ v, (t.timing p).sweep = some v ∧ v.number = 1 ∧ v.queued = 1 ∧ v.answers = Vector.replicate 64 none)
      ∧ FirstProbeQueued p 0 (s.sampled p stamp payload x) t ∧ LeftActive p (s.sampled p stamp payload x) t
      ∧ LiveCoasted p (s.sampled p stamp payload x) t := by
  have levels := enterPhase_levels (p := p) (s := s.sampled p stamp payload x) (sampled_phase active x) (by rw [sampled_port, closed])
  rw [sampled_port] at levels
  exact ⟨_, (exec_car_of_active active fits outcome rfl).trans (congrArg _ (takeRequest_of_phase _ _ (sampled_phase active x))), levels⟩

theorem exec_car_faults_active (active : (s.port p).phase = .active) (fits : carFits count payload = true)
    (outcome : s.carOutcome p true stamp payload = { record := (s.timing p).closed, request := .rateFault, missed := false }) :
    ∃ t, exec (.car p stamp count payload) s = .next t
      ∧ Faulted p .rate (s.sampled p stamp payload (s.timing p).closed) t
      ∧ t.timing p = { s.timing p with valid := false, window := none, sweep := none } := by
  have phase := sampled_phase (stamp := stamp) (payload := payload) active (s.timing p).closed
  have faulted := enterFault_of_active (why := .rate) phase
  refine ⟨_, (exec_car_of_active active fits outcome rfl).trans (congrArg _ (takeRequest_of_phase _ _ phase)), faulted, ?_⟩
  have keeps := ((s.sampled p stamp payload (s.timing p).closed).port p).abandoned_keeps.2.2
  have own : ((s.sampled p stamp payload (s.timing p).closed).port p).timing = (s.timing p).closed := sampled_port _
  have left : (((s.sampled p stamp payload (s.timing p).closed).port p).left .fault).timing = (s.timing p).closed := by
    show { ((s.sampled p stamp payload (s.timing p).closed).port p).abandoned.timing with window := none } = _
    rw [keeps]
    show { ((s.sampled p stamp payload (s.timing p).closed).port p).timing with window := none } = _
    rw [own]
    rfl
  show ((enterFault p .rate (s.sampled p stamp payload (s.timing p).closed)).port p).timing = _
  rw [enterFault_port, changePhase, if_pos ((State.isActive_iff ..).mpr phase), leaveActive_port (by decide)]
  show { (((s.sampled p stamp payload (s.timing p).closed).port p).left .fault).timing with
    valid := false, window := none, sweep := none } = _
  rw [left]
  rfl

end

/-- Settles O24: the translations, and what a frame makes of the tracking window. -/
theorem trackingWindow : Obligations.TrackingWindow := by
  refine ⟨fun r f => ⟨rfl, fun t => forward_iff⟩, fun r t positive small => ?_, fun p stamp count payload l s => ?_⟩
  · intro d
    obtain ⟨lower, upper⟩ := ceilDiv_bounds positive (d * 256)
    exact ⟨ceilDiv (d * 256) r.period, rfl, lower, upper, mark_atOrAfter small lower upper⟩
  · intro f r heard sampled keeps levels active long lag
    have fits : carFits count payload = true := decide_eq_true long
    refine ⟨fun window => ?_, fun w window => ⟨fun back => ?_, fun near late => ?_, fun later short => ?_, fun later far => ?_⟩⟩
    · exact exec_car_keeps active fits (timeFrame_of_unwindowed true _ stamp lag window)
    · exact exec_car_levels active fits rfl
        ((timeFrame_of_windowed true _ stamp lag window).trans (countFrame_of_restarted true _ stamp back))
    · exact exec_car_keeps active fits
        ((timeFrame_of_windowed true _ stamp lag window).trans (countFrame_of_late true _ stamp near late))
    · exact exec_car_keeps active fits
        ((timeFrame_of_windowed true _ stamp lag window).trans (countFrame_of_counted true _ stamp later short))
    · intro m res slew moved
      have ends : s.carOutcome p true stamp payload = trackingWindowEnd (s.port p).entry r f stamp m :=
        (timeFrame_of_windowed true _ stamp lag window).trans (countFrame_of_end true _ stamp later far)
      refine ⟨fun within => ⟨fun small => ?_, fun large => ?_⟩, fun out => ?_⟩
      · exact exec_car_keeps active fits (ends.trans (trackingWindowEnd_of_near _ stamp within lag small))
      · exact exec_car_levels active fits rfl (ends.trans (trackingWindowEnd_of_far _ stamp within lag large))
      · exact exec_car_faults_active active fits (ends.trans (trackingWindowEnd_of_outOfBand _ stamp out))

end Sys2Proof.Machine
end

section
/-! PROOFS. The end of a hold (R124): the shift of stored times, the age evaluations, and how the race runs on. -/

namespace Sys2Proof.Machine

/-! ### What ripens while the race runs on -/

/-- Records may become FIXED, laps gain fixings, and no hold is entered or left (R100, R104). -/
structure Ripens (s t : State) : Prop where
  effect : RaceEffect s t
  steady : Steady s t
  records : ∀ x ∈ s.crossings, ∃ st, { x with status := st } ∈ t.crossings ∧ (x.isProvisional = false → st = x.status)
  laps : ∀ k, LapGrown (s.lap k) (t.lap k)

theorem Fixing.ripens {s t : State} (h : Fixing s t) : Ripens s t := ⟨h.effect, h.steady, h.records, h.laps⟩

theorem Ripens.trans {s u t : State} (h : Ripens s u) (k : Ripens u t) : Ripens s t where
  effect := h.effect.trans k.effect
  steady := h.steady.trans k.steady
  records x mem := by
    obtain ⟨st, mem', keeps⟩ := h.records x mem
    obtain ⟨st', mem'', keeps'⟩ := k.records _ mem'
    refine ⟨st', mem'', fun fixed => ?_⟩
    have same := keeps fixed
    subst same
    exact keeps' fixed
  laps j := (h.laps j).trans (k.laps j)

theorem ageStep_lapTable (i : Slot) (s : State) : (ageStep i s).lapTable = s.lapTable := by
  obtain ⟨-, step⟩ | ⟨-, -, step⟩ := ageStep_eq s i
  · rw [step]
    rfl
  · rw [step]
    exact (changeCar_route ..).lapTable

theorem ageStep_ripens (i : Slot) (s : State) : Ripens s (ageStep i s) where
  effect := ageStep_effect i s
  steady := (ageStep_touching i s).steady
  records x mem := ⟨x.status, by rw [ageStep_crossings]; exact mem, fun _ => rfl⟩
  laps k := by
    rw [s.lap_congr (ageStep_lapTable i s)]
    exact .refl _

/-- An age evaluation is its step, with or without the report of a change (R40). -/
theorem ageEval_cases (i : Slot) (s : State) : ageEval i s = ageStep i s ∨ ageEval i s = afterChange (ageStep i s) := by
  have eq : ageEval i s = if ((ageStep i s).car i).state = (s.car i).state then ageStep i s else afterChange (ageStep i s) := rfl
  rw [eq]
  split
  · exact .inl rfl
  · exact .inr rfl

theorem ageEval_ripens (i : Slot) (s : State) : Ripens s (ageEval i s) := by
  obtain eq | eq := ageEval_cases i s
  · rw [eq]
    exact ageStep_ripens i s
  · rw [eq]
    exact (ageStep_ripens i s).trans (afterChange_fixing _).ripens

theorem ageAll_ripens (s : State) : Ripens s (ageAll s) :=
  List.foldlRecOn allSlots _ (motive := fun u : State => Ripens s u) (Fixing.refl s).ripens
    fun u h i _ => h.trans (ageEval_ripens i u)

/-! ### A race in which no event calls a hold (R118, R126) -/

/-- No valid route asks AUTO_HOLD (R145). -/
def State.NoHold (s : State) : Prop := ∀ r ∈ s.routes.toList, r.valid = true → r.action ≠ .autoHold

/-- How a race runs on that is in RUNNING, FINISHING or CLOSED and in which no event calls a hold. -/
structure RunsOn (s t : State) : Prop where
  noHold : t.NoHold
  params : t.params = s.params
  counts : ∀ k, (s.lap k).count ≤ (t.lap k).count
  running : s.race.state = .running → t.race = s.race
    ∨ ((t.race.state = .finishing ∨ t.race.state = .closed) ∧ t.race.tH = s.race.tH ∧ t.race.remembered = s.race.remembered
      ∧ (s.params.laps ≤ 99 → (s.lap (s.params.laps + 1)).count < (t.lap (s.params.laps + 1)).count))
  finishing : s.race.state = .finishing → (t.race.state = .finishing ∨ t.race.state = .closed) ∧ t.race.tH = s.race.tH
    ∧ t.race.remembered = s.race.remembered
  closed : s.race.state = .closed → t.race.state = .closed ∧ t.race.tH = s.race.tH ∧ t.race.remembered = s.race.remembered

theorem LapGrown.count_le {r r' : LapRecord} (h : LapGrown r r') : r.count ≤ r'.count :=
  h.elim Nat.le_of_lt fun same => Nat.le_of_eq same.1.symm

theorem RunsOn.of_race {s t : State} (noHold : s.NoHold) (effect : RaceEffect s t) (laps : ∀ k, LapGrown (s.lap k) (t.lap k))
    (race : t.race = s.race) : RunsOn s t where
  noHold := by
    unfold State.NoHold
    rw [effect.routes]
    exact noHold
  params := effect.params
  counts k := (laps k).count_le
  running _ := .inl race
  finishing is := by
    rw [race]
    exact ⟨.inl is, rfl, rfl⟩
  closed is := by
    rw [race]
    exact ⟨is, rfl, rfl⟩

theorem RunsOn.refl {s : State} (noHold : s.NoHold) : RunsOn s s := .of_race noHold (.refl s) (fun _ => .refl _) rfl

theorem RunsOn.after {s t : State} (h : RunsOn s t) (over_ : s.race.state = .finishing ∨ s.race.state = .closed) :
    (t.race.state = .finishing ∨ t.race.state = .closed) ∧ t.race.tH = s.race.tH ∧ t.race.remembered = s.race.remembered :=
  over_.elim h.finishing fun is => (h.closed is).imp_left .inr

theorem RunsOn.trans {s u t : State} (h : RunsOn s u) (k : RunsOn u t) : RunsOn s t where
  noHold := k.noHold
  params := k.params.trans h.params
  counts j := Nat.le_trans (h.counts j) (k.counts j)
  running is := by
    have counts := k.counts (s.params.laps + 1)
    obtain same | ⟨ended, tH, remembered, grown⟩ := h.running is
    · obtain same' | ⟨ended, tH, remembered, grown⟩ := k.running (by rw [same, is])
      · exact .inl (same'.trans same)
      · rw [same] at tH remembered
        rw [h.params] at grown
        exact .inr ⟨ended, tH, remembered, fun few => Nat.lt_of_le_of_lt (h.counts _) (grown few)⟩
    · obtain ⟨ended', tH', remembered'⟩ := k.after ended
      exact .inr ⟨ended', tH'.trans tH, remembered'.trans remembered, fun few => Nat.lt_of_lt_of_le (grown few) counts⟩
  finishing is := by
    obtain ⟨ended, tH, remembered⟩ := h.finishing is
    obtain ⟨ended', tH', remembered'⟩ := k.after ended
    exact ⟨ended', tH'.trans tH, remembered'.trans remembered⟩
  closed is := by
    obtain ⟨ended, tH, remembered⟩ := h.closed is
    obtain ⟨ended', tH', remembered'⟩ := k.closed ended
    exact ⟨ended', tH'.trans tH, remembered'.trans remembered⟩

section
variable {s : State} (noHold : s.NoHold)
include noHold

theorem noHold_calm : s.Calm := .inr noHold

theorem fixRecord_runsOn {x : Crossing} (mem : x ∈ s.crossings) (provisional : x.isProvisional = true) :
    RunsOn s (fixRecord x false s) := by
  have race := fixRecord_race (noHold_calm noHold) x false
  have fixing := fixRecord_fixing mem provisional
  by_cases first : x.lap = s.params.laps + 1 ∧ (s.lap x.lap).count = 0 ∧ s.race.state ≠ .closed
  · rw [if_pos first] at race
    obtain ⟨lap, zero, open_⟩ := first
    refine ⟨?_, fixing.effect.params, fun k => (fixing.laps k).count_le, fun is => .inr ?_, fun is => ?_, fun is => absurd is open_⟩
    · unfold State.NoHold
      rw [fixing.effect.routes]
      exact noHold
    · rw [race, State.firstFinished, firstFinish_of_running is]
      refine ⟨.inl rfl, rfl, rfl, fun few => ?_⟩
      rw [← lap, fixRecord_lap x false s (by omega) (by omega)]
      exact Nat.lt_succ_self _
    · rw [race, State.firstFinished, firstFinish_of_other (by rw [is]; exact nofun) (by unfold RaceState.Holds; simp [is])]
      exact ⟨.inl is, rfl, rfl⟩
  · rw [if_neg first] at race
    exact .of_race noHold fixing.effect fixing.laps race

theorem closeSteps_runsOn (finishing : s.race.state = .finishing) : RunsOn s (closeSteps s) := by
  have fixing := closeSteps_fixing finishing
  have race := closeSteps_race s
  have free : ¬s.race.state = .hold := by rw [finishing]; exact nofun
  refine ⟨?_, fixing.effect.params, fun k => (fixing.laps k).count_le, fun is => absurd (finishing.symm.trans is) nofun, fun _ => ?_,
    fun is => absurd (finishing.symm.trans is) nofun⟩
  · unfold State.NoHold
    rw [fixing.effect.routes]
    exact noHold
  · rw [race]
    exact ⟨.inr rfl, if_neg free, if_neg free⟩

theorem fieldTest_runsOn : RunsOn s (fieldTest s) := by
  by_cases due : s.race.state = .finishing ∧ s.fieldDone = true
  · rw [fieldTest_of_closing due.1 due.2]
    exact closeSteps_runsOn noHold due.1
  · rw [fieldTest, if_neg due]
    exact .refl noHold

theorem closingTests_runsOn : RunsOn s (closingTests s) := by
  unfold closingTests
  split
  · next due => exact closeSteps_runsOn noHold due.1
  · exact .refl noHold

end

/-! ### Fixings, as any relation that follows them step by step -/

section
variable {R : State → State → Prop} (refl : ∀ s, R s s) (trans : ∀ {s u t}, R s u → R u t → R s t)
  (record : ∀ {s : State} {x : Crossing}, x ∈ s.crossings → x.isProvisional = true → R s (fixRecord x false s))
include refl trans record

theorem fixLap_steps (k fuel : Nat) (s : State) : R s (fixLap k fuel s) := by
  induction fuel generalizing s with
  | zero => exact refl s
  | succ n ih =>
    unfold fixLap
    split
    · next x first =>
      obtain ⟨mem, -, provisional⟩ := State.firstProvisional_spec first
      split
      · exact trans (record mem provisional) (ih _)
      · exact refl s
    · exact refl s

theorem fixPass_steps (s : State) : R s (fixPass s) :=
  List.foldlRecOn s.raceLaps _ (motive := fun u : State => R s u) (refl s)
    fun u h k _ => trans h (fixLap_steps refl trans record k _ u)

theorem fixPasses_steps (fuel : Nat) (s : State) : R s (fixPasses fuel s) := by
  induction fuel generalizing s with
  | zero => exact refl s
  | succ n ih =>
    unfold fixPasses
    simp only
    split
    · exact fixPass_steps refl trans record s
    · exact trans (fixPass_steps refl trans record s) (ih _)

end

section
variable {s : State} (noHold : s.NoHold)
include noHold

theorem fixPasses_runsOn (fuel : Nat) : RunsOn s (fixPasses fuel s) :=
  fixPasses_steps (R := fun s t => s.NoHold → RunsOn s t) (fun _ noHold => .refl noHold)
    (fun h k noHold => (h noHold).trans (k (h noHold).noHold))
    (fun mem provisional noHold => fixRecord_runsOn noHold mem provisional) fuel s noHold

theorem evaluate_runsOn : RunsOn s (evaluate s) := by
  have passes := fixPasses_runsOn noHold 13
  unfold evaluate
  split
  · simp only
    split
    · exact passes.trans (closingTests_runsOn passes.noHold)
    · split
      · exact passes.trans (fieldTest_runsOn passes.noHold)
      · exact passes
  · exact .refl noHold

theorem afterChange_runsOn : RunsOn s (afterChange s) :=
  (evaluate_runsOn noHold).trans (fieldTest_runsOn (evaluate_runsOn noHold).noHold)

theorem ageStep_runsOn (i : Slot) : RunsOn s (ageStep i s) :=
  .of_race noHold (ageStep_effect i s) (ageStep_ripens i s).laps (ageStep_race (noHold_calm noHold) i)

theorem ageEval_runsOn (i : Slot) : RunsOn s (ageEval i s) := by
  have step := ageStep_runsOn noHold i
  obtain eq | eq := ageEval_cases i s
  · rwa [eq]
  · rw [eq]
    exact step.trans (afterChange_runsOn step.noHold)

theorem ageAll_runsOn : RunsOn s (ageAll s) :=
  List.foldlRecOn allSlots _ (motive := fun u : State => RunsOn s u) (.refl noHold)
    fun _ h i _ => h.trans (ageEval_runsOn h.noHold i)

end

/-! ### A classification reads only enabled slots (R107) -/

theorem insertByKey_congr {α : Type} {key key' : α → List Int} {x : α} (first : key x = key' x) {xs : List α}
    (same : ∀ y ∈ xs, key y = key' y) : insertByKey key x xs = insertByKey key' x xs := by
  induction xs with
  | nil => rfl
  | cons y ys ih =>
    obtain ⟨here, rest⟩ := List.forall_mem_cons.mp same
    rw [insertByKey, insertByKey, first, here, ih rest]

theorem sortByKey_append {α : Type} (key : α → List Int) (xs : List α) (x : α) :
    sortByKey key (xs ++ [x]) = insertByKey key x (sortByKey key xs) := List.foldl_append ..

theorem sortByKey_congr {α : Type} {key key' : α → List Int} {xs : List α} (same : ∀ y ∈ xs, key y = key' y) :
    sortByKey key xs = sortByKey key' xs := by
  induction xs using List.reverseRecOn with
  | nil => rfl
  | append_singleton xs x ih =>
    have rest : ∀ y ∈ xs, key y = key' y := fun y mem => same y (List.mem_append_left _ mem)
    rw [sortByKey_append, sortByKey_append, ← ih rest]
    exact insertByKey_congr (same x (by simp)) fun y mem => rest y ((mem_sortByKey key).mp mem)

theorem classEntries_congr {s t : State} {is : List Slot} (cars : ∀ i ∈ is, t.car i = s.car i) (crossings : t.crossings = s.crossings)
    (params : t.params = s.params) (n : Nat) : classEntries t n is = classEntries s n is := by
  induction is generalizing n with
  | nil => rfl
  | cons i is ih =>
    obtain ⟨here, rest⟩ := List.forall_mem_cons.mp cars
    unfold classEntries
    rw [ih rest]
    unfold classEntry
    rw [here, crossings, params]

theorem classify_of_enabled {s t : State} (enabled : ∀ i, (t.car i).enabled = (s.car i).enabled)
    (cars : ∀ i, (s.car i).enabled = true → t.car i = s.car i) (crossings : t.crossings = s.crossings)
    (params : t.params = s.params) : classify t = classify s := by
  have slots : (allSlots.filter fun i => (t.car i).enabled) = allSlots.filter fun i => (s.car i).enabled := by
    simp only [enabled]
  have order : sortByKey (fun i => classKey (t.car i) i) (allSlots.filter fun i => (s.car i).enabled)
      = sortByKey (fun i => classKey (s.car i) i) (allSlots.filter fun i => (s.car i).enabled) :=
    sortByKey_congr fun i mem => by rw [cars i (List.mem_filter.mp mem).2]
  unfold classify
  rw [slots, order]
  exact classEntries_congr (fun i mem => cars i (List.mem_filter.mp ((mem_sortByKey _).mp mem)).2) crossings params 1

/-! ### A race that resumes in FINISHING (R124, R127) -/

/-- The race is still in FINISHING with its grace deadline, or the field test has closed it. -/
def Finishes (g : Option RaceTime) (s : State) : Prop :=
  (s.race.state = .finishing ∧ s.race.grace = g) ∨ (RaceClosed s ∧ s.fieldDone = true)

section
variable {g : Option RaceTime} {s : State} (noHold : s.NoHold) (h : Finishes g s)
include noHold h

theorem fixRecord_finishes {x : Crossing} (mem : x ∈ s.crossings) (provisional : x.isProvisional = true) :
    Finishes g (fixRecord x false s) := by
  obtain ⟨finishing, grace⟩ | ⟨closed, -⟩ := h
  · left
    have race := fixRecord_race (noHold_calm noHold) x false
    by_cases first : x.lap = s.params.laps + 1 ∧ (s.lap x.lap).count = 0 ∧ s.race.state ≠ .closed
    · rw [race, if_pos first, State.firstFinished, firstFinish_of_other (by rw [finishing]; exact nofun)
        (by unfold RaceState.Holds; simp [finishing])]
      exact ⟨finishing, grace⟩
    · rw [race, if_neg first]
      exact ⟨finishing, grace⟩
  · exact absurd provisional (Bool.eq_false_iff.mp (closed.allFixed x mem))

omit noHold in
theorem fieldTest_finishes : Finishes g (fieldTest s) := by
  obtain ⟨finishing, grace⟩ | ⟨closed, done⟩ := h
  · by_cases done : s.fieldDone = true
    · rw [fieldTest_of_closing finishing done]
      refine .inr ⟨closeSteps_closed s, ((closeSteps s).fieldDone_iff).mpr fun i enabled => ?_⟩
      rw [((closeSteps_fixing finishing).effect.cars i).enabled] at enabled
      have state := closeSteps_car s i
      rw [if_neg (show ¬s.race.state = .hold by rw [finishing]; exact nofun)] at state
      rw [state]
      split
      · exact .head _
      · exact s.fieldDone_iff.mp done i enabled
    · rw [fieldTest_of_open (.inr done)]
      exact .inl ⟨finishing, grace⟩
  · rw [fieldTest_of_open (.inl (by rw [closed.state]; exact nofun))]
    exact .inr ⟨closed, done⟩

omit h in
theorem fixPasses_finishes (fuel : Nat) (h : Finishes g s) : Finishes g (fixPasses fuel s) := by
  have steps := fixPasses_steps (R := fun s t => s.NoHold ∧ Finishes g s → t.NoHold ∧ Finishes g t) (fun _ => id)
    (fun h k is => k (h is)) (fun mem provisional is =>
      ⟨(fixRecord_runsOn is.1 mem provisional).noHold, fixRecord_finishes is.1 is.2 mem provisional⟩) fuel s ⟨noHold, h⟩
  exact steps.2

theorem evaluate_finishes : Finishes g (evaluate s) := by
  have passes := fixPasses_finishes noHold 13 h
  obtain ⟨finishing, -⟩ | ⟨closed, -⟩ := id h
  · rw [evaluate_eq (by rw [finishing]; rfl), if_neg fun is => is.1 finishing]
    split
    · exact passes
    · exact fieldTest_finishes passes
  · rwa [evaluate_of_idle (by rw [closed.state]; rfl)]

theorem afterChange_finishes : Finishes g (afterChange s) := fieldTest_finishes (evaluate_finishes noHold h)

omit noHold in
/-- In a race the field test has closed only cars of disabled slots age. -/
theorem ageStep_finishes (noHold : s.NoHold) (i : Slot) : Finishes g (ageStep i s) := by
  have race := ageStep_race (noHold_calm noHold) i
  obtain ⟨finishing, grace⟩ | ⟨closed, done⟩ := h
  · left
    rw [race]
    exact ⟨finishing, grace⟩
  · right
    have effect := ageStep_effect i s
    have cars : ∀ j, (s.car j).enabled = true → (ageStep i s).car j = s.car j := fun j enabled => by
      by_cases same : j = i
      · subst same
        have state := s.fieldDone_iff.mp done j enabled
        have ageless : (s.car j).state ≠ .live ∧ (s.car j).state ≠ .coasting := by
          constructor <;> (intro is; rw [is] at state; exact absurd state (by decide))
        rw [(ageStep_of_ageless s j (.inr ageless)).1]
      · rw [ageStep_car, if_neg same]
    have classification : (ageStep i s).classification = s.classification := by
      obtain ⟨-, step⟩ | ⟨-, -, step⟩ := ageStep_eq s i
      · rw [step]
        rfl
      · rw [step]
        exact (changeCar_route ..).classification
    have crossings := ageStep_crossings s i
    refine ⟨⟨by rw [race]; exact closed.state, by rw [race]; exact closed.grace, fun x mem => closed.allFixed x (crossings ▸ mem), ?_⟩,
      (ageStep i s).fieldDone_iff.mpr fun j enabled => ?_⟩
    · rw [classification, closed.classification]
      exact (classify_of_enabled (fun j => (effect.cars j).enabled) cars crossings effect.params).symm
    · rw [(effect.cars j).enabled] at enabled
      rw [cars j enabled]
      exact s.fieldDone_iff.mp done j enabled

theorem ageEval_finishes (i : Slot) : Finishes g (ageEval i s) := by
  have step := ageStep_finishes h noHold i
  obtain eq | eq := ageEval_cases i s
  · rwa [eq]
  · rw [eq]
    exact afterChange_finishes (ageStep_runsOn noHold i).noHold step

theorem ageAll_finishes : Finishes g (ageAll s) := by
  have all := List.foldlRecOn allSlots (fun s i => ageEval i s) (motive := fun u : State => u.NoHold ∧ Finishes g u) ⟨noHold, h⟩
    fun _ h i _ => ⟨(ageEval_runsOn h.1 i).noHold, ageEval_finishes h.1 h.2 i⟩
  exact all.2

end

/-! ### The shift (R34, R104, R124) -/

section
variable {s : State} {h r : RaceTime}

theorem addTime_timeDiff (y r h : RaceTime) : addTime y (timeDiff r h) = y + (r - h) := by
  rw [addTime, timeDiff, BitVec.ofInt_toInt]

/-- The hub as the hold ends, before the age evaluations (R124). -/
def State.holdOver (s : State) : State := (leaveResume (resumeShift s.holdLength s)).setAllDeadlines

theorem endHold_eq (s : State) : endHold s = closingTests (evaluate (ageAll s.holdOver)) := rfl

theorem resumeShift_lap (s : State) (d : Int) (k : Nat) : (resumeShift d s).lap k = (s.lap k).shift d := by
  have list : (resumeShift d s).lapTable.toList = s.lapTable.toList.map (·.shift d) := rfl
  unfold State.lap
  by_cases zero : k = 0
  · rw [if_pos zero, if_pos zero]
    rfl
  · rw [if_neg zero, if_neg zero, list, List.getD_eq_getElem?_getD, List.getD_eq_getElem?_getD, List.getElem?_map]
    cases s.lapTable.toList[k - 1]? <;> rfl

theorem leaveResume_lap (s : State) (k : Nat) : (leaveResume s).lap k = s.lap k := rfl

theorem holdOver_car (s : State) (i : Slot) : s.holdOver.car i = (s.car i).shift s.holdLength := by
  have cars := (setAllDeadlines_keeps (leaveResume (resumeShift s.holdLength s))).2.2.2
  have car : s.holdOver.car i = (resumeShift s.holdLength s).car i := by
    rw [State.holdOver, State.car, cars]
    rfl
  rw [car]
  exact perSlot_get ..

theorem holdOver_crossings (s : State) :
    s.holdOver.crossings = s.crossings.map fun x => { x with time := addTime x.time s.holdLength } :=
  (setAllDeadlines_keeps (leaveResume (resumeShift s.holdLength s))).2.1

theorem holdOver_race (s : State) : s.holdOver.race = { s.race with
    grace := s.race.grace.map (addTime · s.holdLength), state := s.race.remembered.getD .running, tH := none, tR := none,
    remembered := none } := (setAllDeadlines_keeps (leaveResume (resumeShift s.holdLength s))).1

theorem holdOver_lap (s : State) (k : Nat) : LapGrown ((s.lap k).shift s.holdLength) (s.holdOver.lap k) := by
  have grown := (setAllDeadlines_fixing (leaveResume (resumeShift s.holdLength s))).laps k
  rwa [leaveResume_lap, resumeShift_lap] at grown

theorem holdOver_tables (s : State) : s.holdOver.routes = s.routes ∧ s.holdOver.params = s.params := by
  have effect := (setAllDeadlines_fixing (leaveResume (resumeShift s.holdLength s))).effect
  exact ⟨effect.routes, effect.params⟩

end

/-- What follows the shift: samples are kept, records and laps only ripen, and no hold stands. -/
theorem endHold_ripens (s : State) : Ripens s.holdOver (endHold s) := by
  rw [endHold_eq]
  exact (ageAll_ripens _).trans ((evaluate_fixing _).trans (closingTests_fixing _)).ripens

theorem endHold_runsOn {s : State} (noHold : s.NoHold) : RunsOn s.holdOver (endHold s) := by
  have noHold' : s.holdOver.NoHold := by
    unfold State.NoHold
    rw [(holdOver_tables s).1]
    exact noHold
  have aged := ageAll_runsOn noHold'
  have evaluated := aged.trans (evaluate_runsOn aged.noHold)
  rw [endHold_eq]
  exact evaluated.trans (closingTests_runsOn evaluated.noHold)

theorem endHold_finishes {s : State} (noHold : s.NoHold) (finishing : s.holdOver.race.state = .finishing) :
    ((endHold s).race.state = .finishing ∧ (endHold s).race.grace = s.holdOver.race.grace) ∨ RaceClosed (endHold s) := by
  have noHold' : s.holdOver.NoHold := by
    unfold State.NoHold
    rw [(holdOver_tables s).1]
    exact noHold
  have aged := ageAll_runsOn noHold'
  have finishes := evaluate_finishes aged.noHold (ageAll_finishes noHold' (.inl ⟨finishing, rfl⟩))
  rw [endHold_eq]
  obtain ⟨still, grace⟩ | ⟨closed, -⟩ := finishes
  · by_cases due : Reached (evaluate (ageAll s.holdOver)) (evaluate (ageAll s.holdOver)).race.grace
        ∨ (evaluate (ageAll s.holdOver)).fieldDone = true
    · rw [closingTests_of_closing still due]
      exact .inr (closeSteps_closed _)
    · rw [closingTests_of_open (.inr due)]
      exact .inl ⟨still, grace⟩
  · rw [closingTests_of_open (.inl (by rw [closed.state]; exact nofun))]
    exact .inr closed

theorem exec_tRExpiry (s : State) : exec .tRExpiry s = .next (if s.resumeDue then endHold s else s) := rfl

/-- Settles O45, by the shift and by how the race runs on after it. -/
theorem holdEnds : Obligations.HoldEnds := by
  intro s h r pending tH tR remembered shifted held
  have length : s.holdLength = timeDiff r h := by rw [State.holdLength, tR, tH]; rfl
  have due : s.resumeDue = atOrAfter s.clock r := by
    rw [State.resumeDue, decide_eq_true pending, Bool.true_and, tR]
    rfl
  have later : (addTime · s.holdLength) = fun y : RaceTime => y + (r - h) := by
    funext y
    rw [length, addTime_timeDiff]
  have sample : (fun x : Sample => x.shift s.holdLength) = shifted := by
    funext x
    rw [Sample.shift, length, addTime_timeDiff]
  have race := holdOver_race s
  refine ⟨fun early => by rw [exec_tRExpiry, if_neg (by rw [due, early]; decide)], fun late =>
    ⟨endHold s, by rw [exec_tRExpiry, if_pos (due.trans late)], fun i => ?_, fun x mem => ?_, fun k count => ?_, ?_⟩⟩
  · have same := (endHold_ripens s).effect.cars i
    rw [same.last, same.prev, holdOver_car, ← sample]
    exact ⟨rfl, rfl⟩
  · obtain ⟨st, mem', keeps⟩ := (endHold_ripens s).records { x with time := addTime x.time s.holdLength } (by
      rw [holdOver_crossings]
      exact List.mem_map_of_mem mem)
    rw [length, addTime_timeDiff] at mem'
    exact ⟨st, mem', keeps⟩
  · obtain grown | ⟨-, time⟩ := (holdOver_lap s k).trans ((endHold_ripens s).laps k)
    · exact absurd count (Nat.ne_of_gt grown)
    · rw [time]
      rw [← later]
      rfl
  · have steady := (endHold_ripens s).steady
    have free : ¬s.holdOver.race.state.Holds := by
      rw [race]
      unfold RaceState.Holds
      obtain is | is := remembered <;> simp [is]
    obtain ⟨noHold, noResume, -⟩ := steady.free free
    refine ⟨noResume, noHold, by rw [steady.tR, race], fun calls => ⟨fun is => ?_, fun is => ?_⟩⟩
    · have state : s.holdOver.race.state = .finishing := by rw [race, is]; rfl
      obtain ⟨-, tH', remembered'⟩ := (endHold_runsOn calls).finishing state
      rw [race] at tH' remembered'
      refine ⟨⟨tH', remembered'⟩, (endHold_finishes calls state).imp_left fun ⟨finishing, grace⟩ => ⟨finishing, ?_⟩⟩
      rw [grace, race, ← later]
    · have state : s.holdOver.race.state = .running := by rw [race, is]; rfl
      have runs := endHold_runsOn calls
      obtain same | ⟨ended, tH', remembered', grown⟩ := runs.running state
      · refine ⟨?_, .inl (by rw [same, state]), fun _ _ => by rw [same, state]⟩
        rw [show held (endHold s) = ((endHold s).race.tH = none ∧ (endHold s).race.remembered = none) from rfl, same, race]
        exact ⟨rfl, rfl⟩
      · rw [race] at tH' remembered'
        refine ⟨⟨tH', remembered'⟩, .inr ended, fun few count => ?_⟩
        rw [(holdOver_tables s).2] at grown
        have shiftedCount := (holdOver_lap s (s.params.laps + 1)).count_le
        have more := grown few
        have same : ((s.lap (s.params.laps + 1)).shift s.holdLength).count = (s.lap (s.params.laps + 1)).count := rfl
        omega

end Sys2Proof.Machine
end

section
/-! PROOFS. What groups of rows leave unchanged (R125, R138, R162): the effect of each row, taken from the effects of the
operations it is made of. -/

namespace Sys2Proof.Machine

/-- An effect of the one state a row can end in is an effect of the state it does end in. -/
theorem effect_of_run {c : Instr} {s t : State} {E : State → Prop} (ends : ∃ u, exec c s = .next u ∧ E u)
    (run : exec c s = .next t) : E t := by
  obtain ⟨u, eq, effect⟩ := ends
  obtain rfl : u = t := Host.Outcome.next.inj (eq.symm.trans run)
  exact effect

section
variable {R : State → State → Prop} (route : ∀ u v, RouteEffect u v → R u v) (trans : ∀ u v w, R u v → R v w → R u w)
include route

/-- A row that takes the head of the Command Queue acts on the state as it stands or on the state without that command. -/
theorem onHead_effect {mine : Command → Bool} {act : Command → State → State} (h : ∀ c u, R u (act c u)) (s : State) :
    R s (onHead mine act s) ∨ R s.dropHead (onHead mine act s) := by
  unfold onHead
  split
  · split
    · exact .inr (h _ _)
    · exact .inl (route _ _ (.refl s))
  · exact .inl (route _ _ (.refl s))

theorem ite_effect {s t : State} (b : Prop) [Decidable b] (h : R s t) : R s (if b then t else s) := by
  split
  · exact h
  · exact route _ _ (.refl s)

theorem noParams_effect {act : State → State × Status} (c : Command) (h : ∀ u, R u (act u).1) (u : State) :
    R u (noParams c act u).1 := by
  unfold noParams
  split
  · exact h u
  · exact route _ _ (.refl u)

theorem portParam_effect {act : PortNo → State → State × Status} (c : Command) (h : ∀ p u, R u (act p u).1) (u : State) :
    R u (portParam c act u).1 := by
  unfold portParam
  split
  · split
    · exact h _ u
    · exact route _ _ (.refl u)
  · exact route _ _ (.refl u)

theorem slotParam_effect {act : Slot → State → State × Status} (c : Command) (h : ∀ i u, R u (act i u).1) (u : State) :
    R u (slotParam c act u).1 := by
  unfold slotParam
  split
  · split
    · exact h _ u
    · exact route _ _ (.refl u)
  · exact route _ _ (.refl u)

include trans

theorem asDirector_effect {act : State → State × Status} (c : Command) (h : ∀ u, R u (act u).1) (u : State) :
    R u (asDirector act c u) := by
  unfold asDirector
  split
  · exact trans _ _ _ (h u) (route _ _ (answer_effect ..))
  · exact route _ _ (answer_effect ..)

theorem alone_effect {code : Byte} {act : State → State × Status} (h : ∀ u, R u (act u).1) (s : State) :
    let t := onHead (codeIs code) (fun c => asDirector (noParams c act) c) s
    R s t ∨ R s.dropHead t :=
  onHead_effect route (fun c => asDirector_effect route trans c (noParams_effect route c h)) s

theorem ported_effect {code : Byte} {act : PortNo → State → State × Status} (h : ∀ p u, R u (act p u).1) (s : State) :
    let t := onHead (codeIs code) (fun c => asDirector (portParam c act) c) s
    R s t ∨ R s.dropHead t :=
  onHead_effect route (fun c => asDirector_effect route trans c (portParam_effect route c h)) s

theorem slotted_effect {code : Byte} {act : Slot → State → State × Status} (h : ∀ i u, R u (act i u).1) (s : State) :
    let t := onHead (codeIs code) (fun c => asDirector (slotParam c act) c) s
    R s t ∨ R s.dropHead t :=
  onHead_effect route (fun c => asDirector_effect route trans c (slotParam_effect route c h)) s

end

theorem readTable_effect (c : Command) (t : Table) (s : State) : RouteEffect s (readTable c t s) := by
  unfold readTable
  simp only
  split <;> exact answer_effect ..

theorem scanTable_effect (c : Command) (t : Table) (s : State) : RouteEffect s (scanTable c t s) := by
  unfold scanTable
  simp only
  split <;> exact answer_effect ..

theorem readsTable_effect (size : Nat) {act : Command → Table → State → State} (h : ∀ c t s, RouteEffect s (act c t s))
    (c : Command) (s : State) : RouteEffect s (readsTable size act c s) := by
  unfold readsTable
  split
  · split
    · split
      · exact h ..
      · exact answer_effect ..
    · exact answer_effect ..
  · exact answer_effect ..

/-! ### The rows that answer, hand frames to the ports or set the race's state -/

theorem exec_readPort_effect (s : State) :
    ∃ t, exec .readPort s = .next t ∧ (RouteEffect s t ∨ RouteEffect s.dropHead t) := by
  refine ⟨_, rfl, onHead_effect (fun _ _ => id) (fun c u => ?_) s⟩
  split
  · split
    · split <;> exact answer_effect ..
    · exact answer_effect ..
  · exact answer_effect ..

theorem exec_answers_effect {c : Instr} (mem : c ∈ [Instr.unknownCommand, .readStatus, .readPort, .readEntries, .scan,
    .sendView, .openGrid, .start, .abortStart, .hold, .resume]) (s : State) :
    ∃ t, exec c s = .next t ∧ (RouteEffect s t ∨ RouteEffect s.dropHead t) := by
  have route : ∀ u v, RouteEffect u v → RouteEffect u v := fun _ _ => id
  have trans : ∀ u v w, RouteEffect u v → RouteEffect v w → RouteEffect u w := fun _ _ _ => .trans
  simp only [List.mem_cons, List.not_mem_nil, or_false] at mem
  obtain rfl | rfl | rfl | rfl | rfl | rfl | rfl | rfl | rfl | rfl | rfl := mem
  · exact ⟨_, rfl, onHead_effect route (fun c u => answer_effect ..) s⟩
  · refine ⟨_, rfl, onHead_effect route (fun c u => ?_) s⟩
    split <;> exact answer_effect ..
  · exact exec_readPort_effect s
  · exact ⟨_, rfl, onHead_effect route (readsTable_effect 4 readTable_effect) s⟩
  · exact ⟨_, rfl, onHead_effect route (readsTable_effect 11 scanTable_effect) s⟩
  · exact ⟨_, rfl, ported_effect route trans sendView_effect s⟩
  · exact ⟨_, rfl, alone_effect route trans openGrid_effect s⟩
  · exact ⟨_, rfl, alone_effect route trans startRace_effect s⟩
  · exact ⟨_, rfl, alone_effect route trans abortStart_effect s⟩
  · exact ⟨_, rfl, alone_effect route trans holdRace_effect s⟩
  · exact ⟨_, rfl, alone_effect route trans resumeRace_effect s⟩

theorem exec_holdTimers_effect {c : Instr} (mem : c ∈ [Instr.tHExpiry, .holdTimeout]) (s : State) :
    ∃ t, exec c s = .next t ∧ RouteEffect s t := by
  simp only [List.mem_cons, List.not_mem_nil, or_false] at mem
  obtain rfl | rfl := mem
  · exact ⟨_, rfl, ite_effect (fun _ _ => id) _ (ackTest_effect s)⟩
  · exact ⟨_, rfl, ite_effect (fun _ _ => id) _ (holdTimeout_effect s _)⟩

/-! ### The rows of cars, laps and the race's end -/

theorem exec_ends_effect {c : Instr} (mem : c ∈ [Instr.close, .retireCar]) (s : State) :
    ∃ t, exec c s = .next t ∧ (RaceEffect s t ∨ RaceEffect s.dropHead t) := by
  have route : ∀ u v, RouteEffect u v → RaceEffect u v := fun _ _ h => h.race
  have trans : ∀ u v w, RaceEffect u v → RaceEffect v w → RaceEffect u w := fun _ _ _ => .trans
  simp only [List.mem_cons, List.not_mem_nil, or_false] at mem
  obtain rfl | rfl := mem
  · exact ⟨_, rfl, alone_effect route trans closeRace_effect s⟩
  · exact ⟨_, rfl, slotted_effect route trans retireCar_effect s⟩

theorem exec_raceTimers_effect {c : Instr} (mem : c ∈ [Instr.tGreenExpiry, .graceDeadlineExpiry]) (s : State) :
    ∃ t, exec c s = .next t ∧ RaceEffect s t := by
  simp only [List.mem_cons, List.not_mem_nil, or_false] at mem
  obtain rfl | rfl := mem
  · exact ⟨_, rfl, ite_effect (fun _ _ h => h.race) _ (goGreen_effect s)⟩
  · exact ⟨_, rfl, ite_effect (fun _ _ h => h.race) _ (closeSteps_effect s)⟩

theorem exec_carTimers_effect {c : Instr} {i : Slot} {k : Nat}
    (mem : c ∈ [Instr.coastTimerExpiry i, .loseTimerExpiry i, .settleDeadlineExpiry k]) (s : State) :
    ∃ t, exec c s = .next t ∧ RaceEffect s t := by
  simp only [List.mem_cons, List.not_mem_nil, or_false] at mem
  obtain rfl | rfl | rfl := mem
  · exact ⟨_, rfl, ite_effect (fun _ _ h => h.race) _ (ageEval_effect i s)⟩
  · exact ⟨_, rfl, ite_effect (fun _ _ h => h.race) _ (ageEval_effect i s)⟩
  · exact ⟨_, rfl, ite_effect (fun _ _ h => h.race) _ (evaluate_effect s)⟩

/-! ### The rows of one port's link -/

theorem exec_linkFrames_effect {c : Instr} {p : PortNo} {stamp : RaceTime} {payload : List Byte}
    (mem : c ∈ [Instr.trainEcho p stamp payload, .probeReply p stamp payload, .holdAck p stamp payload,
      .quietAsk p stamp payload]) (s : State) : ∃ t, exec c s = .next t ∧ LinkEffect p s t := by
  simp only [List.mem_cons, List.not_mem_nil, or_false] at mem
  obtain rfl | rfl | rfl | rfl := mem
  · exact ⟨_, rfl, receiveTrainEcho_effect ..⟩
  · exact ⟨_, rfl, receiveProbeReply_effect ..⟩
  · exact ⟨_, rfl, receiveHoldAck_effect ..⟩
  · exact ⟨_, rfl, receiveQuietAsk_effect ..⟩

theorem exec_linkTimers_effect {c : Instr} {p : PortNo} (mem : c ∈ [Instr.transmitEnd p, .linkRateChangeOnLine p,
    .trainInvitation p, .trainingPauseEnd p, .echoWaitExpiry p, .probeDue p, .sweepReplyWaitExpiry p, .paceTimerExpiry p,
    .linkLoss p]) (s : State) : ∃ t, exec c s = .next t ∧ LinkEffect p s t := by
  have route : ∀ u v, RouteEffect u v → LinkEffect p u v := fun _ _ h => h.link' p
  simp only [List.mem_cons, List.not_mem_nil, or_false] at mem
  obtain rfl | rfl | rfl | rfl | rfl | rfl | rfl | rfl | rfl := mem
  · exact ⟨_, rfl, ite_effect route _ ((transmitEnd_effect p s).link' p)⟩
  · exact ⟨_, rfl, ite_effect route _ (.modPort_plain (by simp) id)⟩
  · exact ⟨_, rfl, ite_effect route _ (invite_effect p s)⟩
  · exact ⟨_, rfl, ite_effect route _ (startRound_effect p s)⟩
  · exact ⟨_, rfl, ite_effect route _ (failRound_effect p s)⟩
  · refine ⟨_, rfl, ?_⟩
    split
    · exact queueProbe_effect ..
    · exact .refl p s
  · refine ⟨_, rfl, ?_⟩
    split
    · exact decideSweep_effect ..
    · exact .refl p s
  · have rearmed : LinkEffect p s (s.modPort p Port.rearmed) :=
      .modPort_plain (f := Port.rearmed) (fun _ => ⟨rfl, rfl, rfl, rfl, rfl, rfl⟩) id
    exact ⟨_, rfl, ite_effect route _ (rearmed.trans ((paceEvent_effect ..).link' p))⟩
  · exact ⟨_, rfl, ite_effect route _ (portReset_effect p s)⟩

/-- Settles O60: group by group, from the effect of each of its rows. -/
theorem rowsLeaveTheRestAlone : Obligations.RowsLeaveTheRestAlone := by
  intro s t
  refine ⟨fun c mem => effect_of_run (exec_answers_effect mem s), fun c mem => effect_of_run (exec_holdTimers_effect mem s),
    fun c mem => effect_of_run (exec_ends_effect mem s), fun c mem => effect_of_run (exec_raceTimers_effect mem s),
    fun i k c mem => effect_of_run (exec_carTimers_effect mem s), fun p stamp payload c mem => ?_⟩
  obtain frame | timer := List.mem_append.mp (show c ∈ [_, _, _, _] ++ [_, _, _, _, _, _, _, _, _] from mem)
  · exact effect_of_run (exec_linkFrames_effect frame s)
  · exact effect_of_run (exec_linkTimers_effect timer s)

end Sys2Proof.Machine
end

section
/-! PROOFS. Who writes the clock, the waiting commands, the configuration tables and the link rates (R2, R165, R179, R182):
what every operation keeps but the writer of a table and the port whose QUIET_ASK stores its rate. -/

namespace Sys2Proof.Machine

/-- The assignment that two records share (R29). -/
structure SameAssignment (c d : CarRecord) : Prop where
  enabled : d.enabled = c.enabled
  owner : d.owner = c.owner
  seat : d.seat = c.seat
  number : d.number = c.number

/-- What is kept by work that writes at most the table `w` and the link rate of the port `asker` (R165, R182). -/
structure Keeps (w : Option Table) (asker : Option PortNo) (s t : State) : Prop where
  pending : t.pending = s.pending
  clock : t.clock = s.clock
  resetLow : t.resetLow = s.resetLow
  params : w ≠ some .raceParameters → t.params = s.params
  routes : w ≠ some .eventRouteTable → t.routes = s.routes
  patterns : w ≠ some .trainingPatterns → t.patterns = s.patterns
  viewOrder : w ≠ some .viewOrderLists → ∀ p, (t.port p).viewOrder = (s.port p).viewOrder
  rated : w ≠ some .portTable → ∀ p, ∃ r, (t.port p).entry = { (s.port p).entry with linkRate := r }
  entry : w ≠ some .portTable → ∀ p, asker ≠ some p → (t.port p).entry = (s.port p).entry
  cars : w ≠ some .carTable → ∀ i, SameAssignment (s.car i) (t.car i)

section
variable {w : Option Table} {asker : Option PortNo} {s u t : State} {p : PortNo}

theorem Keeps.trans (h : Keeps w asker s u) (k : Keeps w asker u t) : Keeps w asker s t where
  pending := k.pending.trans h.pending
  clock := k.clock.trans h.clock
  resetLow := k.resetLow.trans h.resetLow
  params other := (k.params other).trans (h.params other)
  routes other := (k.routes other).trans (h.routes other)
  patterns other := (k.patterns other).trans (h.patterns other)
  viewOrder other p := (k.viewOrder other p).trans (h.viewOrder other p)
  rated other p := by
    obtain ⟨_, eq⟩ := h.rated other p
    obtain ⟨r, eq'⟩ := k.rated other p
    exact ⟨r, by rw [eq', eq]⟩
  entry other p silent := (k.entry other p silent).trans (h.entry other p silent)
  cars other i := ⟨(k.cars other i).enabled.trans (h.cars other i).enabled, (k.cars other i).owner.trans (h.cars other i).owner,
    (k.cars other i).seat.trans (h.cars other i).seat, (k.cars other i).number.trans (h.cars other i).number⟩

/-- Work that keeps the clock, the waiting commands and every table keeps them whatever it may write. -/
theorem Keeps.of_same (pending : t.pending = s.pending) (clock : t.clock = s.clock) (resetLow : t.resetLow = s.resetLow)
    (params : t.params = s.params) (routes : t.routes = s.routes) (patterns : t.patterns = s.patterns)
    (ports : ∀ p, (t.port p).viewOrder = (s.port p).viewOrder ∧ (t.port p).entry = (s.port p).entry)
    (cars : ∀ i, SameAssignment (s.car i) (t.car i)) : Keeps w asker s t :=
  ⟨pending, clock, resetLow, fun _ => params, fun _ => routes, fun _ => patterns, fun _ p => (ports p).1,
    fun _ p => ⟨(s.port p).entry.linkRate, (ports p).2⟩, fun _ p _ => (ports p).2, fun _ => cars⟩

theorem RaceEffect.keeps (h : RaceEffect s t) : Keeps w asker s t :=
  .of_same h.pending h.clock h.resetLow h.params h.routes h.patterns (fun p => ⟨(h.link p).viewOrder, (h.link p).entry⟩)
    fun i => ⟨(h.cars i).enabled, (h.cars i).owner, (h.cars i).seat, (h.cars i).number⟩

theorem RouteEffect.keeps (h : RouteEffect s t) : Keeps w asker s t := h.race.keeps

theorem Keeps.refl (s : State) : Keeps w asker s s := (RouteEffect.refl s).keeps

theorem Keeps.modPort {f : Port → Port} (viewOrder : (f (s.port p)).viewOrder = (s.port p).viewOrder := by rfl)
    (entry : (f (s.port p)).entry = (s.port p).entry := by rfl) : Keeps w asker s (s.modPort p f) := by
  refine .of_same rfl rfl rfl rfl rfl rfl (fun r => ?_) fun _ => ⟨rfl, rfl, rfl, rfl⟩
  rw [State.port_modPort]
  split
  · next same =>
    subst same
    exact ⟨viewOrder, entry⟩
  · exact ⟨rfl, rfl⟩

theorem Keeps.withMgmt (s : State) (m : MgmtRecord) : Keeps w asker s { s with mgmt := m } :=
  .of_same rfl rfl rfl rfl rfl rfl (fun _ => ⟨rfl, rfl⟩) fun _ => ⟨rfl, rfl, rfl, rfl⟩

theorem Keeps.ite {b : Prop} [Decidable b] (h : Keeps w asker s t) : Keeps w asker s (if b then t else s) := by
  split
  · exact h
  · exact .refl s

/-! ### Leaving ACTIVE, FAULT, PHASE and ACTIVE -/

theorem discardCommands_keepsTables (s : State) (p : PortNo) : Keeps w asker s (s.discardCommands p) := .withMgmt ..

theorem handOver_keepsTables (p : PortNo) (s : State) : Keeps w asker s (handOver p s) := by
  have vacated : Keeps w asker s ({ s with mgmt := { s.mgmt with director := allPorts.find? s.isActive } }.discardCommands p) :=
    .trans (.withMgmt s _) (discardCommands_keepsTables ..)
  unfold handOver
  simp only
  split
  · exact vacated.trans (offerNotice_effect ..).keeps
  · exact vacated

theorem leaveActive_keepsTables (p : PortNo) (new : PortPhase) (s : State) : Keeps w asker s (leaveActive p new s) := by
  have departed : Keeps w asker s ((s.abandonViewSet p).modPort p (·.departed new)) :=
    (abandonViewSet_effect s p).keeps.trans .modPort
  have tail (u : State) : Keeps w asker u (removeAck p ((u.slotsOf p).foldl (leaveCar (decide (new = .quiet))) u)) :=
    (RaceEffect.foldl _ (leaveCar_effect _) _ _).keeps.trans (removeAck_effect ..).keeps
  unfold leaveActive
  simp only
  refine .trans ?_ (tail _)
  split
  · exact departed.trans (handOver_keepsTables ..)
  · split
    · exact departed
    · exact departed.trans (discardCommands_keepsTables ..)

theorem changePhase_keepsTables (p : PortNo) (new : PortPhase) (s : State) : Keeps w asker s (changePhase p new s) := by
  unfold changePhase
  split
  · exact leaveActive_keepsTables ..
  · exact .modPort

theorem enterFault_keepsTables (p : PortNo) (reason : FaultReason) (s : State) : Keeps w asker s (enterFault p reason s) := by
  unfold enterFault
  exact (changePhase_keepsTables p .fault s).trans (.trans .modPort
    (.trans (unparkCars_effect p _).keeps (raise_effect ..).keeps))

theorem startSweep_keepsTables (p : PortNo) (n : Nat) (s : State) : Keeps w asker s (startSweep p n s) := by
  unfold startSweep
  exact .trans .modPort (offerTraining_effect ..).keeps

theorem enterPhase_keepsTables (p : PortNo) (s : State) : Keeps w asker s (enterPhase p s) := by
  unfold enterPhase
  exact (changePhase_keepsTables p .phase s).trans (.trans .modPort (startSweep_keepsTables ..))

theorem decideSweep_keepsTables (p : PortNo) (v : Sweep) (s : State) : Keeps w asker s (decideSweep p v s) := by
  unfold decideSweep
  split
  · exact .modPort
  · split
    · exact startSweep_keepsTables ..
    · exact enterFault_keepsTables ..

theorem fileAnswer_keepsTables (p : PortNo) (index : Nat) (n : FrameNum) (s : State) : Keeps w asker s (fileAnswer p index n s) := by
  unfold fileAnswer
  split
  · exact .refl s
  · simp only
    split
    · split
      · exact .trans .modPort (decideSweep_keepsTables ..)
      · exact .modPort
    · exact .refl s

theorem takeUp_keepsTables (p : PortNo) (s : State) : Keeps w asker s (takeUp p s) :=
  .trans (.withMgmt s _) (offerNotice_effect ..).keeps

theorem enterActive_keepsTables (p : PortNo) (s : State) : Keeps w asker s (enterActive p s) := by
  unfold enterActive
  simp only
  exact .trans (.trans .modPort (.ite (takeUp_keepsTables ..))) (unparkCars_effect p _).keeps

/-! ### TRAIN, DOWN, the port reset and QUIET -/

theorem enterTrain_keepsTables (p : PortNo) (s : State) : Keeps w asker s (enterTrain p s) := by
  unfold enterTrain
  simp only
  split
  · exact (discardCommands_keepsTables s p).trans .modPort
  · exact .modPort

theorem sendTrain_keepsTables (p : PortNo) (todo : List TrainFrame) (s : State) : Keeps w asker s (sendTrain p todo s) := by
  unfold sendTrain
  simp only
  split
  · exact .trans .modPort (offerTraining_effect ..).keeps
  · exact .modPort

theorem failRound_keepsTables (p : PortNo) (s : State) : Keeps w asker s (failRound p s) := by
  unfold failRound
  simp only
  split
  · exact .trans .modPort (enterFault_keepsTables ..)
  · exact .modPort

theorem goodEcho_keepsTables (p : PortNo) (v : Nat) (rest : List TrainFrame) (s : State) : Keeps w asker s (goodEcho p v rest s) := by
  unfold goodEcho
  simp only
  split
  · exact .trans .modPort (enterPhase_keepsTables ..)
  · exact .trans .modPort (sendTrain_keepsTables ..)

theorem roundEcho_keepsTables (p : PortNo) (stamp : RaceTime) (index : Nat) (bytes : List Byte) (turn : Nat) (s : State) :
    Keeps w asker s (roundEcho p stamp index bytes turn s) := by
  unfold roundEcho
  split
  · split
    · exact goodEcho_keepsTables ..
    · exact failRound_keepsTables ..
  · exact .refl s

theorem invite_keepsTables (p : PortNo) (s : State) : Keeps w asker s (invite p s) := by
  unfold invite
  exact .trans .modPort (offerTraining_effect ..).keeps

theorem settleDown_keepsTables (p : PortNo) (s : State) : Keeps w asker s (settleDown p s) := by
  unfold settleDown
  simp only
  split
  · exact (unparkCars_effect p s).keeps.trans (invite_keepsTables ..)
  · exact (unparkCars_effect p s).keeps

theorem clearDown_keepsTables (p : PortNo) (new : PortPhase) (s : State) :
    Keeps w asker s (settleDown p (s.modPort p (·.cleared new))) :=
  .trans .modPort (settleDown_keepsTables ..)

theorem portReset_keepsTables (p : PortNo) (s : State) : Keeps w asker s (portReset p s) := by
  unfold portReset
  simp only
  split
  · exact (leaveActive_keepsTables ..).trans (clearDown_keepsTables ..)
  · split
    · exact (discardCommands_keepsTables s p).trans (clearDown_keepsTables ..)
    · exact clearDown_keepsTables ..

theorem followRate_keepsTables (p : PortNo) (s : State) : Keeps w asker s (s.followRate p) := by
  refine .modPort ?_ ?_ <;> (split <;> rfl)

/-- QUIET stores the rate asked for, and only then (R165). -/
theorem enterQuiet_keepsTables (p : PortNo) (rate : Option LinkRate) (s : State) (may : asker = some p ∨ rate = none) :
    Keeps w asker s (enterQuiet p rate s) := by
  have stored : Keeps w asker s (s.modPort p fun q => { q with entry := { q.entry with linkRate := rate.getD q.entry.linkRate } }) := by
    refine ⟨rfl, rfl, rfl, fun _ => rfl, fun _ => rfl, fun _ => rfl, fun _ r => ?_, fun _ r => ?_, fun _ r silent => ?_,
      fun _ _ => ⟨rfl, rfl, rfl, rfl⟩⟩
    all_goals
      rw [State.port_modPort]
      split
    · next same => rw [same]
    · rfl
    · next same => exact ⟨_, by rw [same]⟩
    · exact ⟨_, rfl⟩
    · next same =>
      obtain asked | none := may
      · exact absurd (asked.trans (congrArg some same.symm)) silent
      · rw [none, same]
        rfl
    · rfl
  unfold enterQuiet
  exact stored.trans (.trans (leaveActive_keepsTables ..) (.trans .modPort (followRate_keepsTables ..)))

/-! ### Received frames -/

theorem setCar_keepsTables {i : Slot} {c : CarRecord} (same : SameAssignment (s.car i) c) : Keeps w asker s (s.setCar i c) := by
  refine .of_same rfl rfl rfl rfl rfl rfl (fun _ => ⟨rfl, rfl⟩) fun j => ?_
  rw [State.car_setCar]
  split
  · next eq => rwa [eq]
  · exact ⟨rfl, rfl, rfl, rfl⟩

theorem acceptSample_keepsTables (p : PortNo) (i : Slot) (time : RaceTime) (raw : RawSample) (s : State) :
    Keeps w asker s (acceptSample p i time raw s) := by
  unfold acceptSample
  simp only
  exact .trans (.trans (.trans (count_effect ..).keeps (setCar_keepsTables (by exact ⟨rfl, rfl, rfl, rfl⟩)))
    (.ite (raiseNow_effect ..).keeps)) (handOn_effect ..).keeps

theorem takeSample_keepsTables (p : PortNo) (time : Option RaceTime) (acc : State × Bool) (x : RawSample) :
    Keeps w asker acc.1 (takeSample p time acc x).1 := by
  unfold takeSample
  split
  · exact acceptSample_keepsTables ..
  · next e _ => exact (count_effect p (fun k => countRefusal k e) acc.1).keeps

theorem takeSampleFold_keepsTables (p : PortNo) (time : Option RaceTime) (xs : List RawSample) (acc : State × Bool) :
    Keeps w asker acc.1 (xs.foldl (takeSample p time) acc).1 := by
  induction xs generalizing acc with
  | nil => exact .refl _
  | cons x xs ih => exact (takeSample_keepsTables p time acc x).trans (ih _)

theorem takeSamples_keepsTables (p : PortNo) (f : FrameNum) (xs : List RawSample) (s : State) :
    Keeps w asker s (takeSamples p f xs s) := by
  have taken := takeSampleFold_keepsTables (w := w) (asker := asker) p (forward (s.timing p) f) xs (s, false)
  unfold takeSamples
  simp only
  refine taken.trans (.trans ?_ (acceptanceReport_effect ..).keeps)
  split
  · exact .modPort
  · exact .refl _

theorem takeRequest_keepsTables (p : PortNo) (ph : PortPhase) (req : TimingRequest) (s : State) :
    Keeps w asker s (takeRequest p ph req s) := by
  unfold takeRequest
  split
  · split
    · exact .refl s
    · exact enterActive_keepsTables ..
    · exact enterPhase_keepsTables ..
    · exact enterFault_keepsTables ..
  · exact .refl s

theorem takeCarFrame_keepsTables (p : PortNo) (stamp : RaceTime) (payload : List Byte) (s : State) :
    Keeps w asker s (takeCarFrame p stamp payload s) := by
  unfold takeCarFrame
  simp only
  exact .trans (.trans (.ite (count_effect ..).keeps) (.ite (takeSamples_keepsTables ..)))
    (.trans .modPort (takeRequest_keepsTables ..))

theorem countValid_keepsTables (p : PortNo) (stamp : RaceTime) (s : State) : Keeps w asker s (countValid p stamp s) := by
  unfold countValid
  exact .modPort

theorem outOfState_keepsTables (p : PortNo) (s : State) : Keeps w asker s (outOfState p s) := (outOfState_effect ..).keeps

theorem receiveTrainEcho_keepsTables (p : PortNo) (stamp : RaceTime) (bs : List Byte) (s : State) :
    Keeps w asker s (receiveTrainEcho p stamp bs s) := by
  unfold receiveTrainEcho
  simp only
  refine (countValid_keepsTables p stamp s).trans ?_
  split
  · split
    · exact enterTrain_keepsTables ..
    · exact outOfState_keepsTables ..
  · split
    · exact enterTrain_keepsTables ..
    · exact outOfState_keepsTables ..
  · split
    · exact roundEcho_keepsTables ..
    · exact outOfState_keepsTables ..
  · exact outOfState_keepsTables ..

theorem receiveProbeReply_keepsTables (p : PortNo) (stamp : RaceTime) (bs : List Byte) (s : State) :
    Keeps w asker s (receiveProbeReply p stamp bs s) := by
  unfold receiveProbeReply
  simp only
  refine (countValid_keepsTables p stamp s).trans ?_
  split
  · split
    · exact fileAnswer_keepsTables ..
    · exact outOfState_keepsTables ..
  · split
    · exact .refl _
    · exact outOfState_keepsTables ..
  · split
    · exact .refl _
    · exact outOfState_keepsTables ..
  · exact outOfState_keepsTables ..

theorem receiveCar_keepsTables (p : PortNo) (stamp : RaceTime) (count : Byte) (bs : List Byte) (s : State) :
    Keeps w asker s (receiveCar p stamp count bs s) := by
  have opened : Keeps w asker s ((countValid p stamp s).modPort p fun q => { q with gateCar := true }) :=
    (countValid_keepsTables p stamp s).trans .modPort
  unfold receiveCar
  simp only
  refine opened.trans ?_
  split
  · split
    · exact takeCarFrame_keepsTables ..
    · exact outOfState_keepsTables ..
  · split
    · exact takeCarFrame_keepsTables ..
    · exact outOfState_keepsTables ..
  · exact outOfState_keepsTables ..

theorem receiveHoldAck_keepsTables (p : PortNo) (stamp : RaceTime) (bs : List Byte) (s : State) :
    Keeps w asker s (receiveHoldAck p stamp bs s) := by
  unfold receiveHoldAck
  simp only
  refine (countValid_keepsTables p stamp s).trans ?_
  split
  · exact (takeHoldAck_effect ..).keeps
  · exact outOfState_keepsTables ..

theorem receiveQuietAsk_keepsTables (p : PortNo) (stamp : RaceTime) (bs : List Byte) (s : State) :
    Keeps w (some p) s (receiveQuietAsk p stamp bs s) := by
  unfold receiveQuietAsk takeQuietAsk
  simp only
  refine (countValid_keepsTables p stamp s).trans ?_
  split
  · split
    · split
      · exact (offerNotice_effect ..).keeps
      · split
        · exact (offerNotice_effect ..).keeps
        · exact enterQuiet_keepsTables _ _ _ (.inl rfl)
    · exact outOfState_keepsTables ..
  · exact .refl _
  · exact outOfState_keepsTables ..

theorem useFree_keepsTables (s : State) : Keeps w asker s s.useFree :=
  .of_same rfl rfl rfl rfl rfl rfl (fun _ => ⟨rfl, rfl⟩) fun _ => ⟨rfl, rfl, rfl, rfl⟩

theorem commandByte_keepsTables (payload : List Byte) (n : Nat) (s : State) : Keeps w asker s (commandByte payload n s).2 := by
  unfold commandByte
  split
  · exact .refl s
  · exact useFree_keepsTables s

theorem writeData_keepsTables (payload : List Byte) (n : Nat) (s : State) : Keeps w asker s (writeData payload n s).2 :=
  (commandByte_keepsTables payload 1 s).trans (commandByte_keepsTables payload 2 _)

theorem offerCommand_keepsTables (p : PortNo) (tag : Byte) (payload : List Byte) (s : State) :
    Keeps w asker s (offerCommand p tag payload s) := by
  unfold offerCommand
  split
  · exact .withMgmt ..
  · simp only
    refine .trans (.withMgmt s { s.mgmt with cmdBusy := bump s.mgmt.cmdBusy }) ?_
    split
    · exact (writeData_keepsTables ..).trans (offerReply_effect ..).keeps
    · exact (offerReply_effect ..).keeps

theorem receiveMgmt_keepsTables (p : PortNo) (stamp : RaceTime) (tag : Byte) (bs : List Byte) (s : State) :
    Keeps w asker s (receiveMgmt p stamp tag bs s) := by
  unfold receiveMgmt
  simp only
  refine (countValid_keepsTables p stamp s).trans ?_
  split
  · split
    · exact offerCommand_keepsTables ..
    · exact outOfState_keepsTables ..
  · split
    · exact offerCommand_keepsTables ..
    · exact outOfState_keepsTables ..
  · exact outOfState_keepsTables ..

theorem receiveFrame_keepsTables (p : PortNo) (stamp : RaceTime) (kind port flags : Byte) (bs : List Byte) (s : State)
    (may : kind = 0x05 → asker = some p) : Keeps w asker s (receiveFrame p stamp kind port flags bs s) := by
  unfold receiveFrame
  split
  · exact receiveTrainEcho_keepsTables ..
  split
  · exact receiveProbeReply_keepsTables ..
  split
  · exact receiveCar_keepsTables ..
  split
  · exact receiveHoldAck_keepsTables ..
  split
  · next quiet =>
    rw [may quiet]
    exact receiveQuietAsk_keepsTables ..
  split
  · exact receiveMgmt_keepsTables ..
  · exact (countValid_keepsTables p stamp s).trans (outOfState_keepsTables ..)

/-! ### Table writes -/

theorem writeCar_keepsTables (i : Slot) (bs : List Byte) (s : State) : Keeps (some .carTable) asker s (writeCar i bs s).1 := by
  have putCar (c : CarRecord) : Keeps (some .carTable) asker s (s.putCar i c) :=
    ⟨rfl, rfl, rfl, fun _ => rfl, fun _ => rfl, fun _ => rfl, fun _ _ => rfl, fun _ _ => ⟨_, rfl⟩, fun _ _ _ => rfl,
      fun other => absurd rfl other⟩
  have changed (c : CarRecord) : Keeps (some .carTable) asker s (changeCar i c none s) := by
    unfold changeCar
    exact (putCar c).trans (RaceEffect.foldl _ (fun s d => (raiseNow_effect ..).race) _ _).keeps
  unfold writeCar
  split
  · split
    · exact .refl s
    · split
      · exact .refl s
      · exact (changed _).trans (afterChange_effect _).keeps
  · exact .refl s

theorem writeParam_keepsTables (k : Nat) (bs : List Byte) (s : State) :
    Keeps (some .raceParameters) asker s (writeParam k bs s).1 := by
  have stored (pr : RaceParams) : Keeps (some .raceParameters) asker s { s with params := pr } :=
    ⟨rfl, rfl, rfl, fun other => absurd rfl other, fun _ => rfl, fun _ => rfl, fun _ _ => rfl, fun _ _ => ⟨_, rfl⟩,
      fun _ _ _ => rfl, fun _ _ => ⟨rfl, rfl, rfl, rfl⟩⟩
  unfold writeParam
  simp only
  split
  · split
    · exact (stored _).trans (paramEffect_effect ..).keeps
    · exact .refl s
  · exact .refl s

theorem enableEffect_keepsTables (p : PortNo) (was now : Bool) (s : State) : Keeps w asker s (enableEffect p was now s) := by
  unfold enableEffect
  split
  · exact .refl s
  split
  · exact clearDown_keepsTables ..
  · exact portReset_keepsTables ..

theorem writePort_keepsTables (p : PortNo) (bs : List Byte) (s : State) : Keeps (some .portTable) asker s (writePort p bs s).1 := by
  have stored (e : PortEntry) (timer : Port → Option RaceTime) :
      Keeps (some .portTable) asker s (s.modPort p fun q => { q with entry := e, paceTimer := timer q }) := by
    refine ⟨rfl, rfl, rfl, fun _ => rfl, fun _ => rfl, fun _ => rfl, fun _ r => ?_, fun other => absurd rfl other,
      fun other => absurd rfl other, fun _ _ => ⟨rfl, rfl, rfl, rfl⟩⟩
    rw [State.port_modPort]
    split
    · next same => rw [same]
    · rfl
  unfold writePort
  simp only
  split
  · split
    · exact .refl s
    · exact .trans (.trans (stored _ _) (followRate_keepsTables ..)) (enableEffect_keepsTables ..)
  · exact .refl s

theorem writeViewOrder_keepsTables (p : PortNo) (bs : List Byte) (s : State) :
    Keeps (some .viewOrderLists) asker s (writeViewOrder p bs s).1 := by
  have stored (is : List Slot) : Keeps (some .viewOrderLists) asker s (s.modPort p fun q => { q with viewOrder := is }) := by
    have same (r : PortNo) : ((s.modPort p fun q => { q with viewOrder := is }).port r).entry = (s.port r).entry := by
      rw [State.port_modPort]
      split
      · next eq => rw [eq]
      · rfl
    exact ⟨rfl, rfl, rfl, fun _ => rfl, fun _ => rfl, fun _ => rfl, fun other => absurd rfl other, fun _ r => ⟨_, same r⟩,
      fun _ r _ => same r, fun _ _ => ⟨rfl, rfl, rfl, rfl⟩⟩
  unfold writeViewOrder
  split
  · exact stored _
  · exact .refl s

theorem writeRoute_keepsTables (n : Nat) (bs : List Byte) (s : State) : Keeps (some .eventRouteTable) asker s (writeRoute n bs s).1 := by
  unfold writeRoute
  split
  · exact ⟨rfl, rfl, rfl, fun _ => rfl, fun other => absurd rfl other, fun _ => rfl, fun _ _ => rfl, fun _ _ => ⟨_, rfl⟩,
      fun _ _ _ => rfl, fun _ _ => ⟨rfl, rfl, rfl, rfl⟩⟩
  · exact .refl s

theorem writePattern_keepsTables (n : Nat) (bs : List Byte) (s : State) :
    Keeps (some .trainingPatterns) asker s (writePattern n bs s).1 := by
  unfold writePattern
  split
  · exact ⟨rfl, rfl, rfl, fun _ => rfl, fun _ => rfl, fun other => absurd rfl other, fun _ _ => rfl, fun _ _ => ⟨_, rfl⟩,
      fun _ _ _ => rfl, fun _ _ => ⟨rfl, rfl, rfl, rfl⟩⟩
  · exact .refl s

theorem onSlot_keepsTables {write : Slot → List Byte → State → State × Status} (h : ∀ i bs s, Keeps w asker s (write i bs s).1)
    (n : Nat) (bs : List Byte) (s : State) : Keeps w asker s (onSlot write n bs s).1 := by
  unfold onSlot
  split
  · exact h ..
  · exact .refl s

theorem onPort_keepsTables {write : PortNo → List Byte → State → State × Status} (h : ∀ i bs s, Keeps w asker s (write i bs s).1)
    (n : Nat) (bs : List Byte) (s : State) : Keeps w asker s (onPort write n bs s).1 := by
  unfold onPort
  split
  · exact h ..
  · exact .refl s

theorem onNumber_keepsTables {size : Nat} {write : Nat → List Byte → State → State × Status}
    (h : ∀ i bs s, Keeps w asker s (write i bs s).1) (n : Nat) (bs : List Byte) (s : State) :
    Keeps w asker s (onNumber size write n bs s).1 := by
  unfold onNumber
  split
  · exact h ..
  · exact .refl s

theorem answerWrite_keepsTables (c : Command) (st : Status) (n : Nat) (s : State) : Keeps w asker s (answerWrite c st n s) :=
  (writeData_keepsTables ..).trans (answer_effect ..).keeps

section
variable {size : Nat} {write : Nat → List Byte → State → State × Status} (h : ∀ n bs s, Keeps w asker s (write n bs s).1)
include h

theorem writeLoop_keepsTables (k n : Nat) (bs : List Byte) (s : State) : Keeps w asker s (writeLoop size write k n bs s).1 := by
  induction k generalizing n bs s with
  | zero => exact .refl s
  | succ k ih =>
    unfold writeLoop
    simp only
    split
    · exact (h ..).trans (ih ..)
    · exact h ..

theorem writeTable_keepsTables (c : Command) (s : State) : Keeps w asker s (writeTable size write c s) := by
  unfold writeTable
  split
  · split
    · exact (writeLoop_keepsTables h ..).trans (answerWrite_keepsTables ..)
    · exact answerWrite_keepsTables ..
  · exact answerWrite_keepsTables ..

end

/-! ### The rows of commands -/

theorem onHead_keepsTables {mine : Command → Bool} {act : Command → State → State} (h : ∀ c u, Keeps w asker u (act c u)) (s : State) :
    Keeps w asker s (onHead mine act s) := by
  obtain same | dropped := onHead_effect (R := Keeps w asker) (fun _ _ => RouteEffect.keeps) h (mine := mine) s
  · exact same
  · exact .trans (.withMgmt s _) dropped

theorem asDirector_keepsTables {act : Command → State → State × Status} (h : ∀ c u, Keeps w asker u (act c u).1) (c : Command)
    (u : State) : Keeps w asker u (asDirector (act c) c u) :=
  asDirector_effect (fun _ _ => RouteEffect.keeps) (fun _ _ _ => Keeps.trans) c (h c) u

theorem alone_keepsTables {code : Byte} {act : State → State × Status} (h : ∀ u, Keeps w asker u (act u).1) (s : State) :
    Keeps w asker s (onHead (codeIs code) (fun c => asDirector (noParams c act) c) s) :=
  onHead_keepsTables (asDirector_keepsTables fun c => noParams_effect (fun _ _ => RouteEffect.keeps) c h) s

theorem alone_ok_keepsTables {code : Byte} {f : State → State} (h : ∀ u, Keeps w asker u (f u)) (s : State) :
    Keeps w asker s (onHead (codeIs code) (fun c => asDirector (noParams c fun s => (f s, .ok)) c) s) := alone_keepsTables h s

theorem ported_keepsTables {code : Byte} {act : PortNo → State → State × Status} (h : ∀ p u, Keeps w asker u (act p u).1) (s : State) :
    Keeps w asker s (onHead (codeIs code) (fun c => asDirector (portParam c act) c) s) :=
  onHead_keepsTables (asDirector_keepsTables fun c => portParam_effect (fun _ _ => RouteEffect.keeps) c h) s

theorem clearCounters_keepsTables (n : Nat) (s : State) : Keeps w asker s (clearCounters n s).1 := by
  unfold clearCounters
  split
  · exact .of_same rfl rfl rfl rfl rfl rfl (fun _ => ⟨rfl, rfl⟩) fun _ => ⟨rfl, rfl, rfl, rfl⟩
  split
  · next p _ => exact .modPort (p := p) (f := fun q => { q with counters := zeroCounters })
  · exact .refl s

theorem quietPort_keepsTables (p : PortNo) (s : State) : Keeps w asker s (quietPort p s).1 := by
  unfold quietPort
  split
  · split
    · exact .refl s
    · exact enterQuiet_keepsTables _ _ _ (.inr rfl)
  · exact .refl s

theorem wakePort_keepsTables (p : PortNo) (s : State) : Keeps w asker s (wakePort p s).1 := by
  unfold wakePort
  split
  · exact enterTrain_keepsTables ..
  · exact .refl s

theorem moveRole_keepsTables (c : Command) (p : PortNo) (s : State) : Keeps w asker s (moveRole c p s) :=
  .trans (.withMgmt s _) (.trans (answer_effect ..).keeps (.trans (offerNotice_effect ..).keeps (discardCommands_keepsTables ..)))

theorem fixedCue_keepsTables (b : Byte) (s : State) : Keeps w asker s (fixedCue b s) := (fixedCue_effect ..).keeps

theorem resetRace_keepsTables (s : State) : Keeps w asker s (resetRace s) := by
  refine .trans ?_ (fixedCue_keepsTables 0xFF _)
  refine .of_same rfl rfl rfl rfl rfl rfl (fun p => ?_) fun i => ?_
  · simp only [State.port, perPort_get]
    exact ⟨rfl, rfl⟩
  · simp only [State.car, perSlot_get]
    exact ⟨rfl, rfl, rfl, rfl⟩

theorem resumeShift_keepsTables (d : Int) (s : State) : Keeps w asker s (resumeShift d s) := by
  refine .of_same rfl rfl rfl rfl rfl rfl (fun _ => ⟨rfl, rfl⟩) fun i => ?_
  simp only [State.car, resumeShift, perSlot_get]
  exact ⟨rfl, rfl, rfl, rfl⟩

theorem endHold_keepsTables (s : State) : Keeps w asker s (endHold s) := by
  have shifted : Keeps w asker s (leaveResume (resumeShift s.holdLength s)) :=
    (resumeShift_keepsTables ..).trans (RaceEffect.withRace _ _).keeps
  exact shifted.trans ((setAllDeadlines_effect _).trans ((ageAll_effect _).trans
    ((evaluate_effect _).trans (closingTests_effect _)))).keeps

end

/-- The table a row writes (R179). -/
def Instr.writes : Instr → Option Table
  | .writeCarAssignment => some .carTable
  | .writeRaceParameters => some .raceParameters
  | .writePortTable => some .portTable
  | .writeViewOrderLists => some .viewOrderLists
  | .writeEventRouteTable => some .eventRouteTable
  | .writeTrainingPatterns => some .trainingPatterns
  | _ => none

/-- The port whose QUIET_ASK frame a row may receive (R165). -/
def Instr.asker : Instr → Option PortNo
  | .quietAsk p _ _ => some p
  | .unknownKindFrame p _ kind _ => if kind = 0x05 then some p else none
  | .damagedFrame p _ run => match judgeRun run with
    | .valid kind _ _ _ => if kind = 0x05 then some p else none
    | _ => none
  | _ => none

theorem exec_command_keepsTables {c : Instr} (taken : Instr.isCommand c = true) (s : State) :
    ∃ t, exec c s = .next t ∧ Keeps (Instr.writes c) none s t := by
  cases c with
  | unknownCommand => exact ⟨_, rfl, onHead_keepsTables (fun c s => (answer_effect ..).keeps) s⟩
  | readStatus =>
    refine ⟨_, rfl, onHead_keepsTables (fun c s => ?_) s⟩
    split <;> exact (answer_effect ..).keeps
  | readPort =>
    obtain ⟨t, eq, same | dropped⟩ := exec_readPort_effect s
    · exact ⟨t, eq, same.keeps⟩
    · exact ⟨t, eq, .trans (.withMgmt s _) dropped.keeps⟩
  | clearCounters =>
    refine ⟨_, rfl, onHead_keepsTables (asDirector_keepsTables (act := fun c s => if c.payload.length = 2 then
      clearCounters (numAt c.payload 1 1) s else (s, .range)) fun c s => ?_) s⟩
    split
    · exact clearCounters_keepsTables ..
    · exact .refl s
  | readEntries => exact ⟨_, rfl, onHead_keepsTables (fun c s => (readsTable_effect 4 readTable_effect c s).keeps) s⟩
  | writeCarAssignment => exact ⟨_, rfl, onHead_keepsTables (writeTable_keepsTables (onSlot_keepsTables writeCar_keepsTables)) s⟩
  | writeRaceParameters => exact ⟨_, rfl, onHead_keepsTables (writeTable_keepsTables (onNumber_keepsTables writeParam_keepsTables)) s⟩
  | writePortTable => exact ⟨_, rfl, onHead_keepsTables (writeTable_keepsTables (onPort_keepsTables writePort_keepsTables)) s⟩
  | writeViewOrderLists => exact ⟨_, rfl, onHead_keepsTables (writeTable_keepsTables (onPort_keepsTables writeViewOrder_keepsTables)) s⟩
  | writeEventRouteTable => exact ⟨_, rfl, onHead_keepsTables (writeTable_keepsTables (onNumber_keepsTables writeRoute_keepsTables)) s⟩
  | writeTrainingPatterns => exact ⟨_, rfl, onHead_keepsTables (writeTable_keepsTables (onNumber_keepsTables writePattern_keepsTables)) s⟩
  | writeNoAccessTable =>
    refine ⟨_, rfl, onHead_keepsTables (fun c s => ?_) s⟩
    split <;> exact answerWrite_keepsTables ..
  | scan => exact ⟨_, rfl, onHead_keepsTables (fun c s => (readsTable_effect 11 scanTable_effect c s).keeps) s⟩
  | portReset => exact ⟨_, rfl, ported_keepsTables portReset_keepsTables s⟩
  | portQuiet => exact ⟨_, rfl, ported_keepsTables quietPort_keepsTables s⟩
  | portWake => exact ⟨_, rfl, ported_keepsTables wakePort_keepsTables s⟩
  | sendView => exact ⟨_, rfl, ported_keepsTables (fun p s => (sendView_effect p s).keeps) s⟩
  | openGrid => exact ⟨_, rfl, alone_keepsTables (fun s => (openGrid_effect s).keeps) s⟩
  | start => exact ⟨_, rfl, alone_keepsTables (fun s => (startRace_effect s).keeps) s⟩
  | abortStart => exact ⟨_, rfl, alone_keepsTables (fun s => (abortStart_effect s).keeps) s⟩
  | hold => exact ⟨_, rfl, alone_keepsTables (fun s => (holdRace_effect s).keeps) s⟩
  | resume => exact ⟨_, rfl, alone_keepsTables (fun s => (resumeRace_effect s).keeps) s⟩
  | close => exact ⟨_, rfl, alone_keepsTables (fun s => (closeRace_effect s).keeps) s⟩
  | resetRace => exact ⟨_, rfl, alone_ok_keepsTables resetRace_keepsTables s⟩
  | retireCar =>
    exact ⟨_, rfl, onHead_keepsTables (asDirector_keepsTables fun c => slotParam_effect (fun _ _ => RouteEffect.keeps) c
      fun i s => (retireCar_effect i s).keeps) s⟩
  | moveDirector =>
    refine ⟨_, rfl, onHead_keepsTables (fun c s => ?_) s⟩
    split
    · split
      · split
        · exact (answer_effect ..).keeps
        · split
          · split
            · exact (answer_effect ..).keeps
            · exact moveRole_keepsTables ..
          · exact (answer_effect ..).keeps
      · exact (answer_effect ..).keeps
    · exact (answer_effect ..).keeps
  | resetHub => exact ⟨_, rfl, alone_ok_keepsTables (fun s => .withMgmt s _) s⟩
  | _ => cases taken

theorem exec_keepsTables {c : Instr} (plain : Instr.resets c = false) (s : State) :
    ∃ t, exec c s = .next t ∧ Keeps (Instr.writes c) (Instr.asker c) s t := by
  cases c with
  | resetNLow | resetNRelease | hubResetTakesEffect => exact absurd plain (by decide)
  | damagedFrame p stamp run =>
    refine ⟨_, rfl, ?_⟩
    split
    · exact .refl s
    · rw [Instr.asker]
      cases judgeRun run with
      | framing => exact (count_effect ..).keeps
      | crcError => exact (count_effect ..).keeps
      | valid kind port flags payload => exact receiveFrame_keepsTables _ _ _ _ _ _ _ fun quiet => if_pos quiet
  | unknownKindFrame p stamp kind payload => exact ⟨_, rfl, receiveFrame_keepsTables _ _ _ _ _ _ _ fun quiet => if_pos quiet⟩
  | trainEcho p stamp payload => exact ⟨_, rfl, receiveTrainEcho_keepsTables ..⟩
  | probeReply p stamp payload => exact ⟨_, rfl, receiveProbeReply_keepsTables ..⟩
  | car p stamp count payload => exact ⟨_, rfl, receiveCar_keepsTables ..⟩
  | holdAck p stamp payload => exact ⟨_, rfl, receiveHoldAck_keepsTables ..⟩
  | quietAsk p stamp payload => exact ⟨_, rfl, receiveQuietAsk_keepsTables ..⟩
  | mgmt p stamp tag payload => exact ⟨_, rfl, receiveMgmt_keepsTables ..⟩
  | transmitEnd p => exact ⟨_, rfl, .ite (transmitEnd_effect p s).keeps⟩
  | linkRateChangeOnLine p => exact ⟨_, rfl, .ite .modPort⟩
  | trainInvitation p => exact ⟨_, rfl, .ite (invite_keepsTables ..)⟩
  | trainingPauseEnd p => exact ⟨_, rfl, .ite (.trans .modPort (sendTrain_keepsTables ..))⟩
  | echoWaitExpiry p => exact ⟨_, rfl, .ite (failRound_keepsTables ..)⟩
  | probeDue p =>
    refine ⟨_, rfl, ?_⟩
    split
    · exact .trans .modPort (offerTraining_effect ..).keeps
    · exact .refl s
  | sweepReplyWaitExpiry p =>
    refine ⟨_, rfl, ?_⟩
    split
    · exact decideSweep_keepsTables ..
    · exact .refl s
  | coastTimerExpiry i => exact ⟨_, rfl, .ite (ageEval_effect i s).keeps⟩
  | loseTimerExpiry i => exact ⟨_, rfl, .ite (ageEval_effect i s).keeps⟩
  | settleDeadlineExpiry k => exact ⟨_, rfl, .ite (evaluate_effect s).keeps⟩
  | paceTimerExpiry p =>
    have rearmed : Keeps none none s (s.modPort p Port.rearmed) := .modPort
    exact ⟨_, rfl, .ite (rearmed.trans (paceEvent_effect ..).keeps)⟩
  | linkLoss p => exact ⟨_, rfl, .ite (portReset_keepsTables ..)⟩
  | tGreenExpiry => exact ⟨_, rfl, .ite (goGreen_effect s).keeps⟩
  | tHExpiry => exact ⟨_, rfl, .ite (ackTest_effect s).keeps⟩
  | holdTimeout => exact ⟨_, rfl, .ite (holdTimeout_effect s _).keeps⟩
  | tRExpiry => exact ⟨_, rfl, .ite (endHold_keepsTables s)⟩
  | graceDeadlineExpiry => exact ⟨_, rfl, .ite (closeSteps_effect s).keeps⟩
  | _ => exact exec_command_keepsTables rfl s

/-- A row that is none of the three QUIET_ASK forms for port `p` asks no rate of it. -/
theorem asker_ne {c : Instr} {p : PortNo} (asks : ∀ stamp payload, c ≠ .quietAsk p stamp payload)
    (damaged : ∀ stamp run port flags payload, c = .damagedFrame p stamp run → judgeRun run ≠ .valid 0x05 port flags payload)
    (unknown : ∀ stamp payload, c ≠ .unknownKindFrame p stamp 0x05 payload) : Instr.asker c ≠ some p := by
  cases c with
  | quietAsk q stamp payload => exact fun eq => asks stamp payload (by rw [Option.some.inj eq])
  | unknownKindFrame q stamp kind payload =>
    rw [Instr.asker]
    split
    · next quiet => exact fun eq => unknown stamp payload (by rw [Option.some.inj eq, quiet])
    · exact nofun
  | damagedFrame q stamp run =>
    rw [Instr.asker]
    split
    · next kind port flags payload verdict =>
      split
      · next quiet =>
        exact fun eq => damaged stamp run port flags payload (by rw [Option.some.inj eq]) (by rw [verdict, quiet])
      · exact nofun
    · exact nofun
  | _ => exact nofun

theorem writes_eq_some {c : Instr} {w : Table} (writes : Instr.writes c = some w) :
    c = match w with
      | .carTable => .writeCarAssignment
      | .raceParameters => .writeRaceParameters
      | .portTable => .writePortTable
      | .viewOrderLists => .writeViewOrderLists
      | .eventRouteTable => .writeEventRouteTable
      | .trainingPatterns => .writeTrainingPatterns
      | _ => c := by
  cases c with
  | writeCarAssignment | writeRaceParameters | writePortTable | writeViewOrderLists | writeEventRouteTable
  | writeTrainingPatterns => cases writes; rfl
  | _ => cases writes

/-- What a row that is no reset may write, in the terms of O7. -/
theorem Keeps.tables {c : Instr} {s t : State} (h : Keeps (Instr.writes c) (Instr.asker c) s t) :
    (c ≠ .writeRaceParameters → t.params = s.params)
    ∧ (c ≠ .writeEventRouteTable → t.routes = s.routes)
    ∧ (c ≠ .writeTrainingPatterns → t.patterns = s.patterns)
    ∧ (c ≠ .writeViewOrderLists → ∀ p, (t.port p).viewOrder = (s.port p).viewOrder)
    ∧ (c ≠ .writePortTable → ∀ p,
        { (t.port p).entry with linkRate := (s.port p).entry.linkRate } = (s.port p).entry
        ∧ (Instr.asker c ≠ some p → (t.port p).entry = (s.port p).entry))
    ∧ (c ≠ .writeCarAssignment → ∀ i, SameAssignment (s.car i) (t.car i)) := by
  refine ⟨fun other => h.params fun own => other (writes_eq_some own),
    fun other => h.routes fun own => other (writes_eq_some own),
    fun other => h.patterns fun own => other (writes_eq_some own),
    fun other => h.viewOrder fun own => other (writes_eq_some own), fun other p => ⟨?_, ?_⟩,
    fun other => h.cars fun own => other (writes_eq_some own)⟩
  · obtain ⟨r, eq⟩ := h.rated (fun own => other (writes_eq_some own)) p
    rw [eq]
  · exact h.entry (fun own => other (writes_eq_some own)) p

/-- Settles O7: the three resets by what they write out, every other row by what its operations keep. -/
theorem clockAndTablesHaveOneWriter : Obligations.ClockAndTablesHaveOneWriter := by
  intro c s t run
  cases plain : Instr.resets c with
  | false =>
    have keeps := effect_of_run (E := Keeps (Instr.writes c) (Instr.asker c) s) (exec_keepsTables plain s) run
    obtain ⟨params, routes, patterns, viewOrder, entry, cars⟩ := keeps.tables
    refine ⟨keeps.pending, fun _ _ _ => ⟨keeps.clock, keeps.resetLow⟩, fun _ _ => ⟨params, routes, patterns, viewOrder,
      fun other p => ⟨(entry other p).1, fun asks damaged unknown => (entry other p).2 (asker_ne asks damaged unknown)⟩,
      fun other i => ?_⟩⟩
    exact ⟨(cars other i).enabled, (cars other i).owner, (cars other i).seat, (cars other i).number⟩
  | true =>
    cases c with
    | resetNLow =>
      obtain rfl : { hubReset s with resetLow := true } = t := Host.Outcome.next.inj run
      exact ⟨rfl, fun other => absurd rfl other, fun other => absurd rfl other⟩
    | resetNRelease =>
      obtain rfl : (if s.resetLow then { s with resetLow := false, clock := 0 } else s) = t := Host.Outcome.next.inj run
      refine ⟨?_, fun _ other => absurd rfl other, fun _ _ => ?_⟩
      · split <;> rfl
      · split <;> simp [State.port, State.car]
    | hubResetTakesEffect =>
      obtain rfl : (if s.resetDue then hubReset s else s) = t := Host.Outcome.next.inj run
      refine ⟨?_, fun _ _ other => absurd rfl other, fun _ other => absurd rfl other⟩
      split <;> rfl
    | _ => cases plain

end Sys2Proof.Machine
end

section
/-! PROOFS. Writes of car assignments (R29, R30): their ranges, the clash with other enabled slots, and the car they leave. -/

namespace Sys2Proof.Machine

theorem List.Nodup.two_le_length_iff {α : Type} {l : List α} (nodup : l.Nodup) :
    2 ≤ l.length ↔ ∃ x y, x ≠ y ∧ x ∈ l ∧ y ∈ l := by
  match l, nodup with
  | [], _ => simp
  | [x], _ =>
    refine ⟨fun le => absurd le (by simp), fun ⟨a, b, ne, mem, mem'⟩ => absurd ?_ ne⟩
    rw [List.mem_singleton.mp mem, List.mem_singleton.mp mem']
  | x :: y :: l, nodup =>
    have ne : x ≠ y := fun eq => (List.nodup_cons.mp nodup).1 (eq ▸ List.mem_cons_self)
    exact ⟨fun _ => ⟨x, y, ne, List.mem_cons_self, List.mem_cons_of_mem _ List.mem_cons_self⟩, fun _ => by simp⟩

section
variable {s : State} {i : Slot} {a : Assignment} {bs : List Byte}

/-- Another enabled slot with the owner of the written entry (R29). -/
theorem mem_othersOf_iff {j : Slot} {o : PortNo} : j ∈ s.othersOf i o ↔ j ≠ i ∧ s.owns o j = true := by
  rw [mem_othersOf, State.owns, Bool.and_eq_true, decide_eq_true_iff]
  tauto

theorem clashes_iff : s.clashes i a = true ↔ a.enabled = true
    ∧ ((∃ j, (j ≠ i ∧ s.owns a.owner j = true) ∧ (s.car j).seat = a.seat)
      ∨ ∃ j k, j ≠ k ∧ (j ≠ i ∧ s.owns a.owner j = true) ∧ (k ≠ i ∧ s.owns a.owner k = true)) := by
  have nodup : (s.othersOf i a.owner).Nodup := (nodup_slotsOf s a.owner).filter _
  simp only [State.clashes, Bool.and_eq_true, Bool.or_eq_true, List.any_eq_true, decide_eq_true_iff,
    List.Nodup.two_le_length_iff nodup, mem_othersOf_iff]

/-! ### The ranges -/

theorem slotByte_toNat (i : Slot) : (slotByte i).toNat = i.val := index_toNat i

theorem assignmentOf_some (is : assignmentOf bs = some a) : numAt bs 0 1 ≤ 1 ∧ numAt bs 1 1 ≤ 7 ∧ numAt bs 2 1 ≤ 1
    ∧ 1 ≤ numAt bs 3 1 ∧ numAt bs 3 1 ≤ 99 := by
  unfold assignmentOf at is
  split at is
  · next isEnabled isOwner =>
    split at is
    · next seat =>
      split at is
      · next number =>
        obtain ⟨low, high⟩ := inRange_iff.mp number
        have owner : numAt bs 1 1 < 8 := by
          unfold portOf at isOwner
          split at isOwner
          · assumption
          · exact nomatch isOwner
        exact ⟨boolOf_le isEnabled, by omega, by omega, low, high⟩
      · exact nomatch is
    · exact nomatch is
  · exact nomatch is

/-! ### One entry written -/

theorem settingUp_iff : settingUp s.race.state = true ↔ s.race.state = .idle ∨ s.race.state = .grid := decide_eq_true_iff

theorem writeCar_of_closed (closed : ¬(s.race.state = .idle ∨ s.race.state = .grid)) : writeCar i bs s = (s, .state) :=
  if_neg fun setup => closed (settingUp_iff.mp setup)

section
variable (setup : s.race.state = .idle ∨ s.race.state = .grid)
include setup

theorem writeCar_of_unread (unread : assignmentOf bs = none) : writeCar i bs s = (s, .range) := by
  rw [writeCar, if_pos (settingUp_iff.mpr setup), unread]

theorem writeCar_of_clash (is : assignmentOf bs = some a) (clash : s.clashes i a = true) : writeCar i bs s = (s, .range) := by
  rw [writeCar, if_pos (settingUp_iff.mpr setup), is]
  exact if_pos clash

/-- No fixing follows an assignment: the race has not begun (R30, R98). -/
theorem writeCar_of_free (is : assignmentOf bs = some a) (free : ¬s.clashes i a = true) :
    writeCar i bs s = (changeCar i ((s.car i).assigned a) none s, .ok) := by
  have calm : s.Calm := .inl (by obtain is | is := setup <;> rw [is] <;> rfl)
  have idle : fixingState (changeCar i ((s.car i).assigned a) none s).race.state = false := by
    rw [changeCar_race calm]
    obtain is | is := setup <;> rw [is] <;> rfl
  rw [writeCar, if_pos (settingUp_iff.mpr setup), is]
  refine (if_neg free).trans ?_
  rw [afterChange_of_idle idle]

end

theorem assigned_number (c : CarRecord) (a : Assignment) : (c.assigned a).number = a.number := by
  unfold CarRecord.assigned CarRecord.wiped
  simp only
  split
  · rfl
  · split <;> rfl

theorem assigned_of_disabled {c : CarRecord} (disabled : a.enabled = false) :
    (c.assigned a).state = .free ∧ (c.assigned a).last = none ∧ (c.assigned a).prev = none := by
  rw [CarRecord.assigned, disabled]
  exact ⟨rfl, rfl, rfl⟩

theorem assigned_of_kept {c : CarRecord} (enabled : a.enabled = true) (was : c.enabled = true) (owner : c.owner = a.owner)
    (seat : c.seat = a.seat) : c.assigned a = { c with number := a.number } := by
  have is : c.assigned a = { c with enabled := true, owner := a.owner, seat := a.seat, number := a.number } := by
    have same : c.enabled = true ∧ c.owner = a.owner ∧ c.seat = a.seat := ⟨was, owner, seat⟩
    rw [CarRecord.assigned, enabled]
    exact if_pos same
  rw [is, ← owner, ← seat, ← was]

theorem assigned_of_new {c : CarRecord} (enabled : a.enabled = true)
    (other : c.enabled = false ∨ c.owner ≠ a.owner ∨ c.seat ≠ a.seat) :
    (c.assigned a).state = .assigned ∧ (c.assigned a).last = none ∧ (c.assigned a).prev = none := by
  have new : ¬(c.enabled = true ∧ c.owner = a.owner ∧ c.seat = a.seat) := fun ⟨was, owner, seat⟩ => by
    obtain off | moved | moved := other
    · rw [off] at was
      exact nomatch was
    · exact moved owner
    · exact moved seat
  have is : c.assigned a = CarRecord.wiped { c with
      enabled := true, owner := a.owner, seat := a.seat, number := a.number } .assigned := by
    rw [CarRecord.assigned, enabled]
    exact if_neg new
  rw [is]
  exact ⟨rfl, rfl, rfl⟩

end

/-- Settles O56: by the gate, what the bytes read as and the clash; what is stored is `CarRecord.assigned`. -/
theorem assignmentsWritten : Obligations.AssignmentsWritten := by
  refine ⟨fun s c i enabled owner seat number x y z asks unfit => ?refused,
    fun s c i a x y z low high asks => ⟨?closed, ?clash, ?written⟩⟩
  case refused =>
    have write {u : State} {st : Status} (is : writeCar i [enabled, owner, seat, number, x, y, z] s.dropHead = (u, st)) :=
      writeCarAssignment_row.exec_one (u := u) (st := st) asks rfl (by rw [slotByte_toNat, onSlot_val, is])
    have unread : assignmentOf [enabled, owner, seat, number, x, y, z] = none :=
      Option.eq_none_iff_forall_ne_some.mpr fun a is => by
        have ranges := assignmentOf_some is
        rw [numAt_code (b := enabled) rfl, numAt_code (b := owner) rfl, numAt_code (b := seat) rfl,
          numAt_code (b := number) rfl] at ranges
        omega
    exact ⟨fun setup => write (writeCar_of_unread (s := s.dropHead) setup unread),
      fun closed => write (writeCar_of_closed (s := s.dropHead) closed)⟩
  all_goals
    have is : assignmentOf [boolByte a.enabled, portByte a.owner, BitVec.ofNat 8 a.seat.val, BitVec.ofNat 8 a.number, x, y, z]
      = some a := assignmentOf_fields rfl rfl rfl rfl low high
    have write {u : State} {st : Status} (eq : writeCar i [boolByte a.enabled, portByte a.owner, BitVec.ofNat 8 a.seat.val,
        BitVec.ofNat 8 a.number, x, y, z] s.dropHead = (u, st)) :=
      writeCarAssignment_row.exec_one (u := u) (st := st) asks rfl (by rw [slotByte_toNat, onSlot_val, eq])
  case closed => exact fun closed => write (writeCar_of_closed (s := s.dropHead) closed)
  case clash => exact fun setup clash => write (writeCar_of_clash (s := s.dropHead) setup is (clashes_iff.mpr clash))
  case written =>
    intro setup free
    have kept (j : Slot) : (changeCar i ((s.car i).assigned a) none s.dropHead).car j
        = if j = i then (s.car i).assigned a else s.car j := changeCar_car ..
    refine ⟨_, write (writeCar_of_free (s := s.dropHead) setup is fun clash => free (clashes_iff.mp clash)),
      fun j other => (kept j).trans (if_neg other), ?_⟩
    rw [show (changeCar i ((s.dropHead.car i).assigned a) none s.dropHead).car i = (s.car i).assigned a from
      (kept i).trans (if_pos rfl)]
    obtain ⟨enabled, owner, seat⟩ := assigned_fields (s.car i) a
    exact ⟨enabled, owner, seat, assigned_number _ a, assigned_of_disabled, assigned_of_kept, assigned_of_new⟩

end Sys2Proof.Machine
end

section
/-! PROOFS. Writes of the Race Parameter Record (R110, R111, R182): the gate and the range of each field, the age evaluations that
coast_after and lose_after bring (R33), and the settle deadlines that settle sets anew (R103). -/

namespace Sys2Proof.Machine

/-! ### Age evaluations before the race (R33) -/

/-- The events of age evaluations of these cars (R32). -/
def State.ageEvents (s : State) (is : List Slot) : List Event :=
  (is.filter fun i => decide (s.agedState i ≠ (s.car i).state)).map fun i =>
    s.carEvent (if s.agedState i = .lost then .carLost else .carCoasting) i

theorem State.agedState_congr {s t : State} {i : Slot} (car : t.car i = s.car i) (clock : t.clock = s.clock)
    (params : t.params = s.params) : t.agedState i = s.agedState i := by
  unfold State.agedState
  rw [car, clock, params]

theorem State.ageEvents_congr {s t : State} {is : List Slot} (cars : ∀ i ∈ is, t.car i = s.car i) (effect : RaceEffect s t) :
    t.ageEvents is = s.ageEvents is := by
  have aged (i : Slot) (mem : i ∈ is) : t.agedState i = s.agedState i :=
    State.agedState_congr (cars i mem) effect.clock effect.params
  have changed : (is.filter fun i => decide (t.agedState i ≠ (t.car i).state))
      = is.filter fun i => decide (s.agedState i ≠ (s.car i).state) :=
    List.filter_congr fun i mem => by rw [aged i mem, cars i mem]
  unfold State.ageEvents
  rw [changed]
  refine List.map_congr_left fun i mem => ?_
  rw [aged i (List.mem_filter.mp mem).1, effect.carEvent]

theorem State.noticesFor_append (s : State) (es fs : List Event) :
    s.noticesFor (es ++ fs) = s.noticesFor es ++ s.noticesFor fs := List.flatMap_append

theorem ageStep_informs (i : Slot) (s : State) : Informs (s.noticesFor (s.ageEvents [i])) s (ageStep i s) := by
  obtain ⟨still, -⟩ | ⟨changes, -, step⟩ := ageStep_eq s i
  · have silent : s.ageEvents [i] = [] := by simp [State.ageEvents, still]
    rw [silent]
    exact .of_work (ageStep_touching i s).effect (ageStep_touching i s).work
  · have told : s.ageEvents [i] = [s.carEvent (if s.agedState i = .lost then .carLost else .carCoasting) i] := by
      simp [State.ageEvents, changes]
    have aged := ageStep_car s i i
    rw [if_pos rfl] at aged
    have same := (ageStep_effect i s).cars i
    rw [aged] at same
    rw [told, step]
    exact changeCar_informs _ same

theorem foldl_ageStep_informs {is : List Slot} (nodup : is.Nodup) (s : State) :
    Informs (s.noticesFor (s.ageEvents is)) s (is.foldl (fun u i => ageStep i u) s) := by
  induction is generalizing s with
  | nil => exact .of_work (.refl s) (.refl s)
  | cons i is ih =>
    obtain ⟨fresh, nodup⟩ := List.nodup_cons.mp nodup
    have step := ageStep_informs i s
    have rest := ih nodup (ageStep i s)
    have untouched (j : Slot) (mem : j ∈ is) : (ageStep i s).car j = s.car j :=
      (ageStep_car s i j).trans (if_neg fun same => fresh (by rwa [← same]))
    rw [State.ageEvents_congr untouched step.effect, State.noticesFor, step.effect.routes] at rest
    have split : s.ageEvents (i :: is) = s.ageEvents [i] ++ s.ageEvents is := by
      unfold State.ageEvents
      rw [← List.map_append, ← List.filter_append]
      rfl
    rw [split, State.noticesFor_append]
    exact step.trans rest

section
variable {s : State} (setup : s.race.state = .idle ∨ s.race.state = .grid)
include setup

theorem calm_of_setup : s.Calm := .inl (by obtain is | is := setup <;> rw [is] <;> rfl)

theorem unfixing_of_setup : fixingState s.race.state = false := by obtain is | is := setup <;> rw [is] <;> rfl

/-- Before the race no fixing follows an age evaluation (R98). -/
theorem ageEval_of_setup (i : Slot) : ageEval i s = ageStep i s := by
  have idle : fixingState (ageStep i s).race.state = false := by
    rw [ageStep_race (calm_of_setup setup)]
    exact unfixing_of_setup setup
  have eq : ageEval i s = if ((ageStep i s).car i).state = (s.car i).state then ageStep i s else afterChange (ageStep i s) := rfl
  rw [eq, afterChange_of_idle idle, ite_self]

theorem foldl_ageEval_of_setup (is : List Slot) :
    is.foldl (fun u i => ageEval i u) s = is.foldl (fun u i => ageStep i u) s := by
  induction is generalizing s with
  | nil => rfl
  | cons i is ih =>
    rw [List.foldl_cons, List.foldl_cons, ageEval_of_setup setup]
    exact ih (by rwa [ageStep_race (calm_of_setup setup)])

theorem ageAll_of_setup : AllAged s (ageAll s) := by
  have eq : ageAll s = allSlots.foldl (fun u i => ageStep i u) s := foldl_ageEval_of_setup setup allSlots
  refine ⟨fun i => ?_, ?_⟩
  · rw [eq, foldl_ageStep_car nodup_allSlots, if_pos (mem_allSlots i)]
  · rw [eq]
    exact (foldl_ageStep_informs nodup_allSlots s).noticedWithin (fun _ _ _ => .of_port rfl) (fun _ _ _ => .of_port rfl) rfl

end

/-! ### Settle deadlines set anew (R103) -/

theorem setDeadline_lap (u : State) (k : Nat) {j : Nat} (low : 1 ≤ j) (high : j ≤ 100) : (u.setDeadline k).lap j =
    if j = k then { u.lap j with deadline := (u.firstProvisional j).map fun x => addTime x.time u.params.settle } else u.lap j := by
  unfold State.setDeadline
  split
  · next same =>
    subst same
    exact State.lap_setLap_self _ _ low high
  · next other => exact State.lap_setLap_of_ne _ _ other low

theorem foldl_setDeadline_lap (ks : List Nat) (u : State) {j : Nat} (low : 1 ≤ j) (high : j ≤ 100) :
    (ks.foldl (fun u k => u.setDeadline k) u).lap j =
      { u.lap j with
        deadline := if j ∈ ks then (u.firstProvisional j).map fun x => addTime x.time u.params.settle
          else (u.lap j).deadline } := by
  induction ks generalizing u with
  | nil => simp
  | cons k ks ih =>
    have first : (u.setDeadline k).firstProvisional j = u.firstProvisional j := by
      rw [State.firstProvisional, State.setDeadline, State.setLap_crossings]
      rfl
    have settle : (u.setDeadline k).params = u.params := State.setLap_params ..
    rw [List.foldl_cons, ih, first, settle, setDeadline_lap u k low high]
    by_cases same : j = k
    · simp [same]
    · simp only [List.mem_cons, same, false_or, if_false]

theorem setAllDeadlines_lap (u : State) {j : Nat} (low : 1 ≤ j) (high : j ≤ 100) :
    u.setAllDeadlines.lap j =
      { u.lap j with
        deadline := if j ≤ u.params.laps + 1 then (u.firstProvisional j).map fun x => addTime x.time u.params.settle
          else (u.lap j).deadline } := by
  have mem : j ∈ u.raceLaps ↔ j ≤ u.params.laps + 1 := by
    rw [State.raceLaps, List.mem_range'_1]
    omega
  unfold State.setAllDeadlines
  rw [foldl_setDeadline_lap _ _ low high]
  simp only [mem]

theorem setAllDeadlines_lapTable (u : State) : u.setAllDeadlines = { u with lapTable := u.setAllDeadlines.lapTable } := by
  refine List.foldlRecOn u.raceLaps _ (motive := fun v : State => v = { u with lapTable := v.lapTable }) rfl
    fun v same k _ => ?_
  unfold State.setDeadline State.setLap
  split
  · exact same
  · rw [same]

/-! ### The gate and the ranges (R110, R111) -/

/-- When a field may be written (R182). -/
def ParamGateOpen (k : Nat) (r : RaceState) : Prop :=
  (k < 2 → r = .idle) ∧ (k ∈ [2, 3, 4, 5, 8, 9, 10, 15, 16, 17] → r = .idle ∨ r = .grid)

theorem paramGate_iff {k : Nat} (field : k < 18) (r : RaceState) : paramGate k r = true ↔ ParamGateOpen k r := by
  have setup : settingUp r = true ↔ r = .idle ∨ r = .grid := decide_eq_true_iff
  unfold paramGate ParamGateOpen
  by_cases low : k < 2
  · have notLate : k ∉ [2, 3, 4, 5, 8, 9, 10, 15, 16, 17] := by simp; omega
    simp [low, notLate]
  · by_cases open_ : k = 6 ∨ k = 7 ∨ k = 11 ∨ k = 12 ∨ k = 13 ∨ k = 14
    · have notLate : k ∉ [2, 3, 4, 5, 8, 9, 10, 15, 16, 17] := by simp; omega
      simp [low, open_, notLate]
    · have late : k ∈ [2, 3, 4, 5, 8, 9, 10, 15, 16, 17] := by simp; omega
      simp only [low, open_, late, if_false, setup, false_implies, true_implies, true_and]

/-- The ranges of R110, lose_after from the coast_after that the write leaves. -/
def paramRanges (coastAfter : Nat) : List (Nat × Nat) :=
  [(10000, 1000000), (1, 99), (3, 5), (200000, 2000000), (0, 20000), (0, 5000), (0, 262143), (0, 65535), (100, 3200),
   (10000, 1000000), (coastAfter, 16000000), (0, 2000000), (50, 2000), (50, 1000), (0, 500), (20000, 1000000),
   (100000, 5000000), (0, 120000000)]

/-- The value that a write stores passes its range and the relations (R110, R111). -/
def ParamFits (s : State) (k v : Nat) : Prop :=
  let new := setParam s.params k v
  let range := (paramRanges new.coastAfter).getD k (1, 0)
  range.1 ≤ v ∧ v ≤ range.2 ∧ (k = 9 ∨ k = 10 → new.coastAfter ≤ new.loseAfter)
    ∧ (k = 5 ∨ k = 12 ∨ k = 14 → s.race.state = .idle ∨ 2 * max new.jumpDist (new.proxLong + new.hyst) < new.lapLength)

/-- The range of a field but lose_after does not turn on coast_after, and that of lose_after follows from the relation. -/
theorem paramRange_eq {k : Nat} (coastAfter : Nat) (other : k ≠ 10) : (paramRanges coastAfter).getD k (1, 0) = paramRange k := by
  have stored : paramRanges coastAfter = (paramRanges 0).set 10 (coastAfter, 16000000) := rfl
  have held : paramRange k = (paramRanges 0).getD k (1, 0) := rfl
  rw [stored, held, List.getD_eq_getElem?_getD, List.getElem?_set_ne (Ne.symm other), List.getD_eq_getElem?_getD]

theorem paramFits_iff (s : State) (k v : Nat) : paramFits s.params s.race.state k v = true ↔ ParamFits s k v := by
  have relation (pr : RaceParams) : lapRelation pr = true ↔ 2 * max pr.jumpDist (pr.proxLong + pr.hyst) < pr.lapLength :=
    decide_eq_true_iff
  have range : inRange (paramRange k).1 (paramRange k).2 v = true ∧ (k = 9 ∨ k = 10 →
        (setParam s.params k v).coastAfter ≤ (setParam s.params k v).loseAfter)
      ↔ ((paramRanges (setParam s.params k v).coastAfter).getD k (1, 0)).1 ≤ v
        ∧ v ≤ ((paramRanges (setParam s.params k v).coastAfter).getD k (1, 0)).2 ∧ (k = 9 ∨ k = 10 →
        (setParam s.params k v).coastAfter ≤ (setParam s.params k v).loseAfter) := by
    by_cases lose : k = 10
    · subst lose
      show inRange 0 16000000 v = true ∧ (_ → (setParam s.params 10 v).coastAfter ≤ v) ↔
        (setParam s.params 10 v).coastAfter ≤ v ∧ v ≤ 16000000 ∧ (_ → (setParam s.params 10 v).coastAfter ≤ v)
      rw [inRange_iff]
      omega
    · rw [paramRange_eq _ lose, inRange_iff, and_assoc]
  unfold ParamFits
  simp only
  rw [← and_assoc, ← and_assoc, and_assoc (b := v ≤ _), ← range]
  simp only [paramFits, Bool.and_eq_true, Bool.or_eq_true, Bool.not_eq_true', decide_eq_false_iff_not, decide_eq_true_iff,
    inLapRelation, relation]
  tauto

/-- The fields of the record in their order (R110). -/
def paramValues (pr : RaceParams) : List Nat :=
  [pr.lapLength, pr.laps, pr.lightCount, pr.lightStep, pr.jumpSpeed, pr.jumpDist, pr.hF, pr.hB, pr.dMax, pr.coastAfter,
   pr.loseAfter, pr.settle, pr.proxLong, pr.proxLat, pr.hyst, pr.holdLead, pr.holdTimeout, pr.grace]

theorem paramValues_setParam (pr : RaceParams) {k : Nat} (v : Nat) (field : k < 18) :
    paramValues (setParam pr k v) = (paramValues pr).set k v := by
  interval_cases k <;> rfl

theorem paramValue_setParam (pr : RaceParams) {k j : Nat} (v : Nat) (field : k < 18) (field' : j < 18) :
    paramValue (setParam pr k v) j = if j = k then v else paramValue pr j := by
  have value (pr : RaceParams) : paramValue pr j = (paramValues pr).getD j 0 := rfl
  have long : j < (paramValues pr).length := field'
  rw [value, value, paramValues_setParam pr v field, List.getD_eq_getElem?_getD, List.getElem?_set, List.getD_eq_getElem?_getD]
  by_cases same : j = k
  · rw [if_pos same.symm, if_pos (by rw [← same]; exact long), if_pos same]
    rfl
  · rw [if_neg (Ne.symm same), if_neg same]

/-! ### One field written -/

/-- The hub with a parameter field stored (R110). -/
def State.withParam (s : State) (k v : Nat) : State := { s with params := setParam s.params k v }

section
variable {s : State} {k : Nat} {bs : List Byte}

theorem writeParam_of_closed (closed : ¬paramGate k s.race.state = true) : writeParam k bs s = (s, .state) := if_neg closed

theorem writeParam_of_unfit (opened : paramGate k s.race.state = true)
    (unfit : ¬paramFits s.params s.race.state k (numAt bs 0 4) = true) : writeParam k bs s = (s, .range) :=
  (if_pos opened).trans (if_neg unfit)

theorem writeParam_of_fits (opened : paramGate k s.race.state = true)
    (fits : paramFits s.params s.race.state k (numAt bs 0 4) = true) :
    writeParam k bs s = (paramEffect k (s.withParam k (numAt bs 0 4)), .ok) :=
  (if_pos opened).trans (if_pos fits)

theorem paramEffect_of_ages (ages : k = 9 ∨ k = 10) (setup : s.race.state = .idle ∨ s.race.state = .grid) :
    paramEffect k s = ageAll s := by
  have awake : s.suspended = false := State.suspended_of_free fun holds => by
    unfold RaceState.Holds at holds
    obtain is | is := setup <;> rw [is] at holds <;> simp at holds
  rw [paramEffect, if_pos ages, awake]
  exact if_neg Bool.false_ne_true

theorem paramEffect_of_settle : paramEffect 11 s = evaluate s.setAllDeadlines := rfl

theorem paramEffect_of_plain (coast : k ≠ 9) (lose : k ≠ 10) (settle : k ≠ 11) : paramEffect k s = s := by
  rw [paramEffect, if_neg (by omega), if_neg settle]

end

/-- Settles O55: the gate, the ranges and what each field's write leads to. -/
theorem parametersWritten : Obligations.ParametersWritten := by
  intro s c k v byte word asks idle gate new ranges fits
  have index : (BitVec.ofNat 8 k).toNat = k := by rw [BitVec.toNat_ofNat, Nat.mod_eq_of_lt byte]
  have value : numAt (beBytes 4 v) 0 4 = v := numAt_number (field_beBytes 4 v) word
  have write {u : State} {st : Status} (is : onNumber 18 writeParam k (beBytes 4 v) s.dropHead = (u, st)) :=
    writeRaceParameters_row.exec_one (u := u) (st := st) asks (length_beBytes 4 v) (by rw [index, is])
  have gate_iff (field : k < 18) : paramGate k s.dropHead.race.state = true ↔ gate := paramGate_iff field _
  have fits_iff : paramFits s.dropHead.params s.dropHead.race.state k (numAt (beBytes 4 v) 0 4) = true ↔ fits := by
    rw [value]
    exact paramFits_iff s k v
  refine ⟨fun beyond => write (onNumber_of_beyond _ _ _ _ beyond), fun field closed => ?closed, fun field opened unfit => ?unfit,
    fun field opened fit => ?stored⟩
  case closed =>
    refine write ((onNumber_of_lt _ _ _ field).trans (writeParam_of_closed ?_))
    rwa [gate_iff field]
  case unfit =>
    refine write ((onNumber_of_lt _ _ _ field).trans (writeParam_of_unfit ((gate_iff field).mpr opened) ?_))
    rwa [fits_iff]
  case stored =>
    have written := writeParam_of_fits (bs := beBytes 4 v) ((gate_iff field).mpr opened) (fits_iff.mpr fit)
    rw [value] at written
    have effect := paramEffect_effect k (s.dropHead.withParam k v)
    have stored : { s.dropHead with params := (paramEffect k (s.dropHead.withParam k v)).params } = s.dropHead.withParam k v := by
      rw [effect.params]
      rfl
    refine ⟨_, write ((onNumber_of_lt _ _ _ field).trans written), ?_, fun j field' => ?_, ?_⟩
    · rw [stored]
      exact effect
    · rw [effect.params]
      exact paramValue_setParam s.params v field field'
    · dsimp only
      rw [stored]
      refine ⟨fun ages => ?_, fun settle => ?_, fun coast lose settle => paramEffect_of_plain coast lose settle⟩
      · have setup : s.race.state = .idle ∨ s.race.state = .grid := opened.2 (by obtain is | is := ages <;> simp [is])
        rw [paramEffect_of_ages (s := s.dropHead.withParam k v) ages setup]
        exact ageAll_of_setup (s := s.dropHead.withParam k v) setup
      · subst settle
        exact ⟨(s.dropHead.withParam 11 v).setAllDeadlines, paramEffect_of_settle,
          (setAllDeadlines_lapTable _).trans (by rw [effect.params]; rfl),
          fun j low high => setAllDeadlines_lap _ low high⟩

end Sys2Proof.Machine
end

section
/-! PROOFS. View sets (R69 to R72, R79 to R83): the set that is built and sent, the pace timer, SEND_VIEW, and the report of a CAR
frame. -/

namespace Sys2Proof.Machine

/-! ### A set built (R79 to R83) -/

/-- The frames of the set for a target (R79, R80). -/
def State.setFrames (s : State) (p : PortNo) (target : FrameNum) (mark : RaceTime) : List HubFrame :=
  (setBodies target ((s.viewList p mark).map s.viewEntry)).map (s.mkFrame p)

theorem viewBodies_cons (target : FrameNum) (es : List ViewEntry) :
    ∃ part parts first rest, viewBodies target es = .view target part parts first :: rest := by
  unfold viewBodies
  split
  · exact ⟨_, _, _, _, rfl⟩
  · exact ⟨_, _, _, _, rfl⟩

section
variable {s : State} {p : PortNo}

theorem abandonViewSet_mkFrame (s : State) (p : PortNo) (b : FrameBody) : (s.abandonViewSet p).mkFrame p b = s.mkFrame p b :=
  (abandonViewSet_effect s p).race.mkFrame p b

/-- The port with a set in flight in place of the one before. -/
def State.viewOpened (s : State) (p : PortNo) (target : FrameNum) (fs : List HubFrame) : State :=
  (s.abandonViewSet p).modPort p fun q => { q with viewSet := some { target := target, size := fs.length, unsent := fs } }

theorem viewOpened_port (s : State) (p : PortNo) (target : FrameNum) (fs : List HubFrame) :
    (s.viewOpened p target fs).port p =
      { (s.port p).abandoned with viewSet := some { target := target, size := fs.length, unsent := fs } } := by
  rw [State.viewOpened, State.port_modPort_self, abandonViewSet_port]

theorem buildViewSet_of_untranslated {target : FrameNum} (untranslated : forward (s.timing p) target = none) :
    buildViewSet p target s = s := by
  rw [buildViewSet, untranslated]

theorem buildViewSet_of_translated {target : FrameNum} {mark : RaceTime} (translated : forward (s.timing p) target = some mark) :
    buildViewSet p target s = (s.viewOpened p target (s.setFrames p target mark)).arbiterTake p := by
  have frames : (viewBodies target ((s.viewList p mark).map s.viewEntry)).map ((s.abandonViewSet p).mkFrame p)
      = s.setFrames p target mark := congrArg (List.map · _) (funext (abandonViewSet_mkFrame s p))
  rw [buildViewSet, translated]
  simp only [State.offerViewSet]
  rw [frames, State.viewOpened, State.setFrames, List.length_map]
  rfl

theorem buildViewSet_builds {target : FrameNum} {mark : RaceTime} (translated : forward (s.timing p) target = some mark) :
    ViewBuilt p target mark s (buildViewSet p target s) := by
  obtain ⟨-, count, kept⟩ := (s.port p).abandoned_keeps
  have port := viewOpened_port s p target (s.setFrames p target mark)
  rw [kept] at port
  rw [buildViewSet_of_translated translated]
  refine ⟨⟨fun busy => ?_, fun idle h1 h2 h3 h4 h5 => ?_⟩, ?_⟩
  · rw [arbiterTake_busy (by rw [port]; exact busy), port]
    exact ⟨rfl, rfl⟩
  · obtain ⟨part, parts, first, rest, bodies⟩ := viewBodies_cons target ((s.viewList p mark).map s.viewEntry)
    have frames : s.setFrames p target mark = s.mkFrame p (.view target part parts first) :: rest.map (s.mkFrame p) := by
      rw [State.setFrames, show setBodies = viewBodies from rfl, bodies, List.map_cons]
    have choice := State.chooseFrame_viewSet (s := s.viewOpened p target (s.setFrames p target mark)) (p := p)
      (by rw [port]; exact h1) (by rw [port]; exact h2) (by rw [port]; exact h3) (by rw [port]; exact h4)
      (by rw [port]; exact h5) (by rw [port]) frames
    have sent := State.arbiterTake_of_idle (by rw [port]; exact idle) choice
    have clock : (s.viewOpened p target (s.setFrames p target mark)).clock = s.clock := (abandonViewSet_effect s p).clock
    refine ⟨_, _, frames, ?_⟩
    rw [sent, clock, State.port_setPort_self, Port.sending_of_plain _ _ rfl, port]
    refine ⟨rfl, ?_⟩
    simp only [List.isEmpty_iff]
    rfl
  · rw [arbiterTake_counters, port]
    exact count

theorem viewList_rearmed (s : State) (p : PortNo) (mark : RaceTime) :
    (s.modPort p Port.rearmed).viewList p mark = s.viewList p mark := by
  have viewable : (s.modPort p Port.rearmed).viewable p = s.viewable p := by
    funext i
    unfold State.viewable
    rw [State.port_modPort_self]
    rfl
  unfold State.viewList
  rw [viewable, State.port_modPort_self]
  rfl

/-- The set does not turn on the pace timer, which is re-armed before (R70). -/
theorem ViewBuilt.before_rearmed {target : FrameNum} {mark : RaceTime} {t : State}
    (h : ViewBuilt p target mark (s.modPort p Port.rearmed) t) : ViewBuilt p target mark s t := by
  have frames : (s.modPort p Port.rearmed).mkFrame p = s.mkFrame p := funext (State.mkFrame_modPort rfl p)
  obtain ⟨set, abandoned⟩ := h
  rw [viewList_rearmed, frames, State.port_modPort_self] at set
  rw [State.port_modPort_self] at abandoned
  exact ⟨set, abandoned⟩

theorem paceEvent_of_active {target : FrameNum} (active : (s.port p).phase = .active) :
    paceEvent p target s = buildViewSet p target s := if_pos ((s.isActive_iff p).mpr active)

theorem paceEvent_of_untranslated {target : FrameNum} (untranslated : forward (s.timing p) target = none) :
    paceEvent p target s = s := by
  rw [paceEvent, buildViewSet_of_untranslated untranslated, ite_self]

end

/-! ### The pace timer and SEND_VIEW (R70, R71) -/

section
variable {s : State} {p : PortNo}

theorem exec_paceTimerExpiry (s : State) (p : PortNo) : exec (.paceTimerExpiry p) s
    = .next (if s.paceDue p then paceEvent p (s.targetNow p) (s.modPort p Port.rearmed) else s) := rfl

theorem rearmed_timing (s : State) (p : PortNo) : (s.modPort p Port.rearmed).timing p = s.timing p := by
  rw [State.timing, State.port_modPort_self]
  rfl

theorem exec_paceTimerExpiry_of_due (due : s.paceDue p = true) :
    exec (.paceTimerExpiry p) s = .next (buildViewSet p (s.targetNow p) (s.modPort p Port.rearmed)) := by
  obtain ⟨active, -, -⟩ := paceDue_iff.mp due
  have active' : ((s.modPort p Port.rearmed).port p).phase = .active := by
    rw [State.port_modPort_self]
    exact active
  rw [exec_paceTimerExpiry, if_pos due, paceEvent_of_active active']

theorem sendView_of_inactive (inactive : (s.port p).phase ≠ .active) : sendView p s = (s, .state) :=
  if_neg fun active => inactive ((s.isActive_iff p).mp active)

theorem sendView_of_active (active : (s.port p).phase = .active) : sendView p s = (buildViewSet p (s.targetNow p) s, .ok) := by
  rw [sendView, if_pos ((s.isActive_iff p).mpr active), paceEvent_of_active active]

end

/-! ### The report of a CAR frame (R41, R47, R71) -/

section
variable {s : State} {p : PortNo} {f : FrameNum}

theorem acceptanceReport_of_cabinet (cabinet : (s.port p).entry.pacing = .cabinet) :
    acceptanceReport p f true s = paceEvent p (s.leadFrom p f) s := by
  rw [acceptanceReport, decide_eq_true cabinet]
  rfl

theorem acceptanceReport_of_other (other : (s.port p).entry.pacing ≠ .cabinet) : acceptanceReport p f true s = s := by
  rw [acceptanceReport, decide_eq_false other]
  rfl

theorem acceptanceReport_of_none : acceptanceReport p f false s = s := rfl

theorem acceptanceReport_of_untranslated (accepted : Bool) (untranslated : forward (s.timing p) (s.leadFrom p f) = none) :
    acceptanceReport p f accepted s = s := by
  rw [acceptanceReport, paceEvent_of_untranslated untranslated, ite_self]

theorem frameSamples_of_one {payload : List Byte} (long : payload.length = 16) :
    frameSamples payload = [rawSample (field payload 2 14)] := if_pos (by omega)

/-- Two samples are taken in seat order (R41). -/
theorem frameSamples_of_two {payload : List Byte} (long : payload.length = 30) : frameSamples payload =
    if (rawSample (field payload 16 14)).seat < (rawSample (field payload 2 14)).seat
      then [rawSample (field payload 16 14), rawSample (field payload 2 14)]
      else [rawSample (field payload 2 14), rawSample (field payload 16 14)] := by
  have two : frameSamples payload = sortByKey (fun x => [(x.seat : Int)]) [rawSample (field payload 2 14),
    rawSample (field payload 16 14)] := if_neg (by omega)
  have sorted : frameSamples payload = if lexLt [((rawSample (field payload 16 14)).seat : Int)]
      [((rawSample (field payload 2 14)).seat : Int)] then [rawSample (field payload 16 14), rawSample (field payload 2 14)]
      else [rawSample (field payload 2 14), rawSample (field payload 16 14)] := two
  rw [sorted]
  simp only [lexLt, Bool.and_false, Bool.or_false, decide_eq_true_iff, Int.ofNat_lt]

/-- The hub once the samples of a CAR frame have been taken and the frame reported (R41, R47). -/
def reportTaken (p : PortNo) (f : FrameNum) (a : State × Bool) : State :=
  acceptanceReport p f a.2 (if a.2 = true then a.1.modPort p fun q => { q with gateSample := true } else a.1)

theorem exec_car_of_silent {stamp : RaceTime} {count : Byte} {payload : List Byte} (active : (s.port p).phase = .active)
    (fits : carFits count payload = true) (hit : (s.carOutcome p true stamp payload).missed = false)
    (asks : (s.carOutcome p true stamp payload).request = .none) : exec (.car p stamp count payload) s =
      .next ((reportTaken p (carFrame payload) ((frameSamples payload).foldl (takeSample p (forward (s.timing p) (carFrame payload)))
        (s.heardCar p stamp, false))).modPort p fun q => { q with timing := (s.carOutcome p true stamp payload).record }) := by
  have timing : (s.heardCar p stamp).timing p = s.timing p := by
    rw [State.timing, State.heardCar, State.port_modPort_self]
    rfl
  rw [exec_car_of_active active fits rfl hit, asks, takeRequest_none, State.sampled, takeSamples, timing]
  rfl

end

/-- Settles O34: a due pace timer and SEND_VIEW build the set for the present frame, the report of a CAR frame for its own. -/
theorem viewsBuilt : Obligations.ViewsBuilt := by
  intro p s target
  refine ⟨fun d active clock timer late => ?timer, fun idle => ?idle, fun c asks => ⟨fun inactive => ?inactive,
    fun active untranslated => ?untranslated, fun mark active translated => ?sent⟩, fun f => ?report⟩
  case timer =>
    intro next
    have exec_eq := exec_paceTimerExpiry_of_due (paceDue_iff.mpr ⟨active, clock, d, timer, late⟩)
    have rearmed : ((s.modPort p Port.rearmed).port p).paceTimer = some next := by
      rw [State.port_modPort_self, Port.rearmed, timer]
      rfl
    refine ⟨fun untranslated => ?_, fun mark translated => ⟨_, exec_eq, ?_, ?_⟩⟩
    · rw [exec_eq, buildViewSet_of_untranslated (by rw [rearmed_timing]; exact untranslated)]
      refine congrArg _ (State.modPort_congr ?_)
      rw [Port.rearmed, timer]
      rfl
    · exact ((buildViewSet_effect ..).link p).paceTimer.trans rearmed
    · exact (buildViewSet_builds (by rw [rearmed_timing]; exact translated)).before_rearmed
  case idle =>
    rw [exec_paceTimerExpiry, if_neg]
    intro due
    obtain ⟨active, clock, d, timer, late⟩ := paceDue_iff.mp due
    obtain other | other | none | ⟨d', timer', early⟩ := idle
    · exact other active
    · exact other clock
    · rw [none] at timer
      exact nomatch timer
    · rw [timer] at timer'
      obtain rfl := Option.some.inj timer'
      rw [late] at early
      exact nomatch early
  case inactive => exact exec_ported_of_eq (act := sendView) (fun _ => rfl) asks (sendView_of_inactive (s := s.dropHead) inactive)
  case untranslated =>
    refine exec_ported_of_eq (act := sendView) (fun _ => rfl) asks ((sendView_of_active (s := s.dropHead) active).trans ?_)
    exact congrArg (·, Status.ok) (buildViewSet_of_untranslated (s := s.dropHead) untranslated)
  case sent =>
    exact ⟨_, exec_ported_of_eq (act := sendView) (fun _ => rfl) asks (sendView_of_active (s := s.dropHead) active),
      buildViewSet_effect .., buildViewSet_builds (s := s.dropHead) translated⟩
  case report =>
    intro ahead
    refine ⟨fun mark active cabinet translated => ?_, fun silent => ?_, acceptanceReport_of_none,
      fun stamp payload active frame hit asks => ?_⟩
    · rw [acceptanceReport_of_cabinet cabinet, paceEvent_of_active active]
      exact buildViewSet_builds translated
    · exact silent.elim acceptanceReport_of_other (acceptanceReport_of_untranslated true)
    · subst frame
      have ends {count : Byte} (fits : carFits count payload = true) := exec_car_of_silent (s := s) (stamp := stamp) active fits hit asks
      have two (long : payload.length = 30) : carFits 2 payload = true := decide_eq_true (.inr ⟨long, rfl⟩)
      refine ⟨fun long => ?_, fun long order => ?_, fun long order => ?_⟩
      · rw [ends (count := 1) (decide_eq_true (.inl ⟨long, rfl⟩)), frameSamples_of_one long]
        rfl
      · rw [ends (two long), frameSamples_of_two long, if_neg (Nat.not_lt.mpr order)]
        rfl
      · rw [ends (two long), frameSamples_of_two long, if_pos order]
        rfl

end Sys2Proof.Machine
end

section
/-! PROOFS. Accepted samples (R31, R41, R46, R47, R117): what acceptance stores, what the Line Unit, the Contact Monitor and the jump
check leave of it, and the CAR frames of one seat and of two. -/

namespace Sys2Proof.Machine

/-! ### A car that runs on or is FINISHED -/

/-- The car has been FINISHED, or has its state and its timers as before. -/
def FinishedOrSame (i : Slot) (s t : State) : Prop := (t.car i).state = .finished
  ∨ ((t.car i).state = (s.car i).state ∧ (t.car i).coastTimer = (s.car i).coastTimer ∧ (t.car i).loseTimer = (s.car i).loseTimer)

section
variable {i : Slot} {s u t : State}

theorem FinishedOrSame.of_car (car : t.car i = s.car i) : FinishedOrSame i s t := .inr (by rw [car]; exact ⟨rfl, rfl, rfl⟩)

theorem FinishedOrSame.trans (h : FinishedOrSame i s u) (k : FinishedOrSame i u t) : FinishedOrSame i s t := by
  obtain finished | ⟨state, coast, lose⟩ := k
  · exact .inl finished
  · obtain finished | ⟨state', coast', lose'⟩ := h
    · exact .inl (state.trans finished)
    · exact .inr ⟨state.trans state', coast.trans coast', lose.trans lose'⟩

theorem FinishedOrSame.of_route (h : RouteEffect s t) : FinishedOrSame i s t := .of_car (h.car i)

theorem FinishedOrSame.of_fixing (h : Fixing s t) : FinishedOrSame i s t :=
  (h.cars i).elim .of_car fun ⟨⟨_, state, _⟩, _⟩ => .inl state

theorem FinishedOrSame.modCar {f : CarRecord → CarRecord} (j : Slot) (state : ∀ c, (f c).state = c.state)
    (coast : ∀ c, (f c).coastTimer = c.coastTimer) (lose : ∀ c, (f c).loseTimer = c.loseTimer) :
    FinishedOrSame i s (s.modCar j f) := by
  right
  rw [State.car_modCar]
  split
  · next same =>
    rw [same]
    exact ⟨state _, coast _, lose _⟩
  · exact ⟨rfl, rfl, rfl⟩

theorem fixRecord_finishedOrSame (x : Crossing) (late : Bool) (s : State) : FinishedOrSame i s (fixRecord x late s) := by
  have car := fixRecord_car x late s i
  split at car
  · exact .inl (by rw [car]; rfl)
  · exact .of_car car

theorem enterCrossing_finishedOrSame (s : State) (x : Crossing) : FinishedOrSame i s (enterCrossing s x) := by
  cases room : s.makeRoom with
  | none =>
    rw [enterCrossing_of_full room]
    exact FinishedOrSame.modCar (s := s) (f := fun c => { c with unplaced := true }) x.slot
      (fun _ => rfl) (fun _ => rfl) fun _ => rfl
  | some xs =>
    rw [enterCrossing_of_room room]
    split
    · exact fixRecord_finishedOrSame x true { s with crossings := xs }
    · refine .of_car ?_
      rw [State.car, State.setDeadline, State.setLap_cars]
      rfl

theorem enterCrossings_finishedOrSame (j : Slot) (prev : Option Sample) (x : Sample) (s : State) :
    FinishedOrSame i s (enterCrossings j prev x s) := by
  have unplaced : FinishedOrSame i s (s.modCar j fun c => { c with unplaced := true }) :=
    .modCar j (fun _ => rfl) (fun _ => rfl) fun _ => rfl
  unfold enterCrossings
  split
  · exact .of_car rfl
  split
  · split
    · exact .of_car rfl
    · exact unplaced
  · split
    · exact .of_car rfl
    split
    · exact List.foldlRecOn _ enterCrossing (motive := fun u : State => FinishedOrSame i s u) (.of_car rfl)
        fun u h x _ => h.trans (enterCrossing_finishedOrSame u x)
    · exact unplaced

theorem lineSample_finishedOrSame (j : Slot) (prev : Option Sample) (x : Sample) (s : State) :
    FinishedOrSame i s (lineSample j prev x s) := by
  have evaluated := (enterCrossings_finishedOrSame (i := i) j prev x s).trans (.of_fixing (evaluate_fixing _))
  unfold lineSample
  simp only
  split
  · exact evaluated
  · exact evaluated.trans (.of_fixing (fieldTest_fixing _))

theorem contactSample_car (s0 : State) (c : Slot) (x : Sample) (s : State) : (contactSample s0 c x s).car i = s.car i := by
  unfold contactSample
  split
  · exact List.foldlRecOn _ (contactOne s0 c x) (motive := fun u : State => u.car i = s.car i) rfl
      fun u same o _ => (contactOne_car ..).trans same
  · rfl

theorem jumpCheck_finishedOrSame (j : Slot) (x : Sample) (s : State) : FinishedOrSame i s (jumpCheck j x s) := by
  have flagged : FinishedOrSame i s (s.modCar j fun c => { c with jump := true }) :=
    .modCar j (fun _ => rfl) (fun _ => rfl) fun _ => rfl
  unfold jumpCheck
  split
  · split
    · exact flagged.trans (.of_route (raiseNow_effect ..))
    · exact .of_car rfl
  · exact .of_car rfl

theorem handOn_finishedOrSame (s0 : State) (j : Slot) (prev : Option Sample) (x : Sample) (s : State) :
    FinishedOrSame i s (handOn s0 j prev x s) := by
  unfold handOn
  simp only
  refine .trans (.trans ?_ (.of_car (contactSample_car ..))) (jumpCheck_finishedOrSame ..)
  split
  · exact lineSample_finishedOrSame ..
  · exact .of_car rfl

end

/-! ### What acceptance stores (R46) -/

/-- The sample with its motion fields clamped (R46). -/
def clampedSample (dMax : Nat) (u : RaceTime) (x : RawSample) : Sample :=
  { time := u, s := x.s, lap := x.lap, d := clamp (-dMax) dMax x.d, v := min 20000 x.v, w := clamp (-2000) 2000 x.w,
    a := clamp (-8000) 8000 x.a, offTrack := x.offTrack, spun := x.spun }

theorem clampSample_eq (dMax : Nat) (u : RaceTime) (x : RawSample) : clampSample dMax u x = clampedSample dMax u x := by
  have v : (clamp 0 20000 x.v).toNat = min 20000 x.v := by
    unfold clamp
    split
    · omega
    · split <;> omega
  rw [clampSample, v, clampedSample]

/-- The car's record with a sample stored (R31, R46). -/
def storedCar (s : State) (i : Slot) (u : RaceTime) (x : RawSample) : CarRecord :=
  s.stored (s.car i) (clampedSample s.params.dMax u x)

theorem afterSample_eq (st : CarState) :
    afterSample st = if st ∈ [CarState.assigned, .coasting, .parked, .lost] then CarState.live else st := by
  cases st <;> rfl

theorem wasClamped_iff (x : RawSample) (y : Sample) :
    wasClamped x y = true ↔ ¬(y.d = x.d ∧ (y.v : Int) = x.v ∧ y.w = x.w ∧ y.a = x.a) := by
  rw [wasClamped, decide_eq_true_iff, Int.natCast_inj]
  tauto

/-- The port's counters for an accepted sample (R48). -/
def countAccepted (x : RawSample) (y : Sample) (k : PortCounters) : PortCounters :=
  { k with accepted := bump k.accepted, clamped := if wasClamped x y then bump k.clamped else k.clamped }

/-- The hub with the sample counted and stored, before it is handed on. -/
def State.stores (s : State) (p : PortNo) (i : Slot) (u : RaceTime) (x : RawSample) : State :=
  (s.count p (countAccepted x (clampedSample s.params.dMax u x))).setCar i (storedCar s i u x)

theorem acceptSample_eq (p : PortNo) (i : Slot) (u : RaceTime) (x : RawSample) (s : State) : acceptSample p i u x s =
    handOn (s.stores p i u x) i (s.car i).last (clampedSample s.params.dMax u x)
      (if (s.car i).state = .lost then raiseNow .carFound [i] (s.stores p i u x) else s.stores p i u x) := by
  unfold acceptSample State.stores storedCar countAccepted
  simp only [clampSample_eq]

/-- What acceptance leaves in the cars' records (R41, R46). -/
def Stored (i : Slot) (u : RaceTime) (x : RawSample) (s t : State) : Prop :=
  (t.car i).last = some (clampedSample s.params.dMax u x) ∧ (t.car i).prev = (s.car i).last
  ∧ (∀ j, j ≠ i → SameCar (s.car j) (t.car j))
  ∧ (t.car i).gridS = if s.race.state = .countdown ∧ (s.car i).gridS = none then some x.s else (s.car i).gridS

section
variable {p : PortNo} {i : Slot} {u : RaceTime} {x : RawSample} {s t v : State}

theorem Stored.keeps (h : Stored i u x s t) (same : ∀ j, SameCar (t.car j) (v.car j)) : Stored i u x s v := by
  obtain ⟨last, prev, others, gridS⟩ := h
  exact ⟨(same i).last.trans last, (same i).prev.trans prev, fun j ne => (others j ne).trans (same j),
    (same i).gridS.trans gridS⟩

theorem stores_car (j : Slot) : (s.stores p i u x).car j = if j = i then storedCar s i u x else s.car j := State.car_setCar ..

theorem found_route (s : State) (i : Slot) (found : Prop) [Decidable found] :
    RouteEffect s (if found then raiseNow .carFound [i] s else s) := ite_effect (fun _ _ => id) _ (raiseNow_effect ..)

theorem acceptSample_stored : Stored i u x s (acceptSample p i u x s) := by
  have stored : Stored i u x s (s.stores p i u x) := by
    have own : (s.stores p i u x).car i = storedCar s i u x := (stores_car i).trans (if_pos rfl)
    refine ⟨by rw [own]; rfl, by rw [own]; rfl, fun j ne => ?_, by rw [own]; rfl⟩
    rw [stores_car, if_neg ne]
    exact .refl _
  rw [acceptSample_eq]
  exact stored.keeps ((found_route _ i _).race.trans (handOn_effect ..)).cars

/-- An accepted sample makes its car LIVE with its coast timer set, unless it is or becomes FINISHED (R31). -/
theorem acceptSample_finishedOrSame : FinishedOrSame i (s.stores p i u x) (acceptSample p i u x s) := by
  rw [acceptSample_eq]
  exact (FinishedOrSame.of_route (found_route _ i _)).trans (handOn_finishedOrSame ..)

theorem acceptSample_live (state : (s.car i).state ∈ [CarState.assigned, .live, .coasting, .parked, .lost]) :
    ((acceptSample p i u x s).car i).state = .finished ∨ (((acceptSample p i u x s).car i).state = .live
      ∧ ((acceptSample p i u x s).car i).coastTimer = some (addTime u s.params.coastAfter)
      ∧ ((acceptSample p i u x s).car i).loseTimer = none) := by
  have own : (s.stores p i u x).car i = storedCar s i u x := (stores_car i).trans (if_pos rfl)
  have live : afterSample (s.car i).state = .live := by
    simp only [List.mem_cons, List.not_mem_nil, or_false] at state
    obtain is | is | is | is | is := state <;> rw [is] <;> rfl
  have coast : (storedCar s i u x).coastTimer = some (addTime u s.params.coastAfter) := if_pos live
  obtain finished | ⟨state', coast', lose'⟩ := acceptSample_finishedOrSame (p := p) (i := i) (u := u) (x := x) (s := s)
  · exact .inl finished
  · rw [own] at state' coast' lose'
    exact .inr ⟨state'.trans live, coast'.trans coast, lose'⟩

theorem acceptSample_finished (finished : (s.car i).state = .finished) :
    ((acceptSample p i u x s).car i).state = .finished := by
  have own : (s.stores p i u x).car i = storedCar s i u x := (stores_car i).trans (if_pos rfl)
  obtain now | ⟨state, -, -⟩ := acceptSample_finishedOrSame (p := p) (i := i) (u := u) (x := x) (s := s)
  · exact now
  · rw [own] at state
    refine state.trans ?_
    show afterSample (s.car i).state = .finished
    rw [finished]
    rfl

/-! ### The samples of a frame -/

theorem takeSample_of_ok {time : Option RaceTime} {acc : State × Bool} (ok : acc.1.checkSample p time x = .ok (i, u)) :
    takeSample p time acc x = (acceptSample p i u x acc.1, true) := by
  rw [takeSample, ok]

theorem takeSample_of_error {time : Option RaceTime} {acc : State × Bool} {e : SampleRefusal}
    (error : acc.1.checkSample p time x = .error e) :
    takeSample p time acc x = (acc.1.count p fun k => countRefusal k e, acc.2) := by
  rw [takeSample, error]

theorem checkSample_translated {time : Option RaceTime} (ok : s.checkSample p time x = .ok (i, u)) : time = some u := by
  unfold State.checkSample at ok
  split at ok
  · exact nomatch ok
  split at ok
  · exact nomatch ok
  split at ok
  · exact nomatch ok
  split at ok
  · exact nomatch ok
  · split at ok
    · exact nomatch ok
    · rw [(Prod.mk.inj (Except.ok.inj ok)).2]

end

/-! ### The timing of the frame -/

theorem feedWindow_hit (e : PortEntry) (r : TimingRecord) (f : FrameNum) (stamp : RaceTime) :
    (feedWindow true e r f stamp).missed = false := by
  have ended (m : Int) : (trackingWindowEnd e r f stamp m).missed = false := by
    unfold trackingWindowEnd
    simp only
    split
    · split <;> rfl
    · rfl
  unfold feedWindow countFrame
  split
  · rfl
  · simp only [if_true]
    split
    · rfl
    split
    · rfl
    split
    · exact ended _
    · rfl

theorem timeFrame_hit (e : PortEntry) {r : TimingRecord} {f : FrameNum} (stamp : RaceTime) {mark : RaceTime}
    (translated : forward r f = some mark) : (timeFrame true e r f stamp).missed = false := by
  unfold timeFrame
  split
  · exact feedWindow_hit ..
  · rw [translated]
    exact feedWindow_hit ..

/-! ### What the frame may ask of the Link Port -/

section
variable {p : PortNo} {s : State}

theorem changePhase_gateSample (p : PortNo) (new : PortPhase) (s : State) :
    ((changePhase p new s).port p).gateSample = (s.port p).gateSample := by
  unfold changePhase
  split
  · rw [(leaveActive_link p p new s).gateSample, State.port_modPort_self]
    exact ((abandonViewSet_effect s p).link p).gateSample
  · rw [State.port_modPort_self]

theorem enterPhase_gateSample (p : PortNo) (s : State) : ((enterPhase p s).port p).gateSample = (s.port p).gateSample := by
  unfold enterPhase
  rw [(startSweep_link p 1 _).gateSample, State.port_modPort_self]
  exact changePhase_gateSample p .phase s

theorem enterFault_gateSample (p : PortNo) (why : FaultReason) (s : State) :
    ((enterFault p why s).port p).gateSample = (s.port p).gateSample := by
  rw [enterFault_port]
  exact changePhase_gateSample p .fault s

/-- What a frame asks of the Link Port leaves the samples as they are and the quiet gate open. -/
theorem takeRequest_keepsSamples (p : PortNo) (named : PortPhase) (asks : TimingRequest) (s : State) :
    (∀ j, SameCar (s.car j) ((takeRequest p named asks s).car j))
      ∧ ((takeRequest p named asks s).port p).gateSample = (s.port p).gateSample := by
  unfold takeRequest
  split
  · cases asks with
    | none => exact ⟨fun _ => .refl _, rfl⟩
    | active => exact ⟨enterActive_cars p s, (enterActive_link p s).gateSample⟩
    | reLevel => exact ⟨(enterPhase_effect p s).cars, enterPhase_gateSample p s⟩
    | rateFault => exact ⟨(enterFault_effect p .rate s).cars, enterFault_gateSample p .rate s⟩
  · exact ⟨fun _ => .refl _, rfl⟩

/-- The hub once the samples have been taken. -/
def State.tookSamples (s : State) (p : PortNo) (stamp : RaceTime) (payload : List Byte) : State × Bool :=
  (frameSamples payload).foldl (takeSample p (forward (s.timing p) (carFrame payload))) (s.heardCar p stamp, false)

theorem sampled_eq (s : State) (p : PortNo) (stamp : RaceTime) (payload : List Byte) (x : TimingRecord) :
    s.sampled p stamp payload x =
      (reportTaken p (carFrame payload) (s.tookSamples p stamp payload)).modPort p fun q => { q with timing := x } := by
  have timing : (s.heardCar p stamp).timing p = s.timing p := by
    rw [State.timing, State.heardCar, State.port_modPort_self]
    rfl
  rw [State.sampled, takeSamples, timing]
  rfl

theorem sampled_car (s : State) (p : PortNo) (stamp : RaceTime) (payload : List Byte) (x : TimingRecord) (j : Slot) :
    (s.sampled p stamp payload x).car j = (s.tookSamples p stamp payload).1.car j := by
  rw [sampled_eq]
  refine ((acceptanceReport_effect ..).car j).trans ?_
  split <;> rfl

theorem sampled_gateSample {stamp : RaceTime} {payload : List Byte} (accepted : (s.tookSamples p stamp payload).2 = true)
    (x : TimingRecord) : ((s.sampled p stamp payload x).port p).gateSample = true := by
  rw [sampled_eq, State.port_modPort_self]
  refine ((acceptanceReport_effect ..).link p).gateSample.trans ?_
  rw [if_pos accepted, State.port_modPort_self]

theorem tookSamples_of_one {stamp : RaceTime} {payload : List Byte} (long : payload.length = 16) : s.tookSamples p stamp payload =
    takeSample p (forward (s.timing p) (carFrame payload)) (s.heardCar p stamp, false) (rawSample (field payload 2 14)) := by
  rw [State.tookSamples, frameSamples_of_one long]
  rfl

/-- The samples of a frame of two seats are taken in seat order (R41). -/
theorem tookSamples_of_two {stamp : RaceTime} {payload : List Byte} (long : payload.length = 30) :
    let first := rawSample (field payload 2 14)
    let second := rawSample (field payload 16 14)
    let take := takeSample p (forward (s.timing p) (carFrame payload))
    s.tookSamples p stamp payload = take (take (s.heardCar p stamp, false) (if second.seat < first.seat then second else first))
      (if second.seat < first.seat then first else second) := by
  intro first second take
  rw [State.tookSamples, frameSamples_of_two long]
  split <;> rfl

/-- A CAR frame of an ACTIVE port ends with the records its samples have left, whatever it asks of the Link Port. -/
theorem exec_car_takes {stamp : RaceTime} {count : Byte} {payload : List Byte} (active : (s.port p).phase = .active)
    (fits : carFits count payload = true) (hit : (s.carOutcome p true stamp payload).missed = false) :
    ∃ t, exec (.car p stamp count payload) s = .next t
      ∧ (∀ j, SameCar ((s.tookSamples p stamp payload).1.car j) (t.car j))
      ∧ ((s.tookSamples p stamp payload).2 = true → (t.port p).gateSample = true)
      ∧ ((s.carOutcome p true stamp payload).request = .none → ∀ j, t.car j = (s.tookSamples p stamp payload).1.car j) := by
  obtain ⟨cars, gate⟩ := takeRequest_keepsSamples p .active (s.carOutcome p true stamp payload).request
    (s.sampled p stamp payload (s.carOutcome p true stamp payload).record)
  refine ⟨_, exec_car_of_active active fits rfl hit, fun j => ?_, fun accepted => ?_, fun asks j => ?_⟩
  · have same := cars j
    rwa [sampled_car] at same
  · exact gate.trans (sampled_gateSample accepted _)
  · rw [asks, takeRequest_none, sampled_car]

end

/-! ### Handing on (R47, R99, R117) -/

section
variable {i : Slot} {x : Sample} {s : State}

/-- The jump check finds a jump start (R117). -/
def State.JumpsNow (s : State) (i : Slot) (x : Sample) : Prop :=
  (∃ g, s.race.tGreen = some g ∧ earlier x.time g = true) ∧ (s.car i).jump = false
    ∧ (s.params.jumpSpeed < x.v
      ∨ ∃ g, (s.car i).gridS = some g ∧ s.params.jumpDist < (gap x.s g s.params.lapLength).natAbs)

theorem jumped_iff (pr : RaceParams) (c : CarRecord) (x : Sample) : jumped pr c x = true ↔
    pr.jumpSpeed < x.v ∨ ∃ g, c.gridS = some g ∧ pr.jumpDist < (gap x.s g pr.lapLength).natAbs := by
  unfold jumped
  cases c.gridS <;> simp

theorem jumpTest_iff {g : RaceTime} (green : s.race.tGreen = some g) :
    (earlier x.time g && !(s.car i).jump && jumped s.params (s.car i) x) = true ↔ s.JumpsNow i x := by
  have before : (∃ g, s.race.tGreen = some g ∧ earlier x.time g = true) ↔ earlier x.time g = true := by
    rw [green]
    exact ⟨fun ⟨_, is, early⟩ => Option.some.inj is ▸ early, fun early => ⟨g, rfl, early⟩⟩
  rw [State.JumpsNow, before, Bool.and_eq_true, Bool.and_eq_true, Bool.not_eq_true', jumped_iff, and_assoc]

theorem jumpCheck_of_jump (jumps : s.JumpsNow i x) :
    jumpCheck i x s = raiseNow .jumpStart [i] (s.setCar i { s.car i with jump := true }) := by
  obtain ⟨g, green, -⟩ := jumps.1
  rw [jumpCheck, green]
  exact if_pos ((jumpTest_iff green).mpr jumps)

theorem jumpCheck_of_none (none : ¬s.JumpsNow i x) : jumpCheck i x s = s := by
  unfold jumpCheck
  split
  · next g green => exact if_neg fun test => none ((jumpTest_iff green).mp test)
  · rfl

theorem lineState_iff (r : RaceState) : lineState r = true ↔ r ∈ [RaceState.countdown, .running, .finishing, .holdPending] := by
  rw [lineState, decide_eq_true_iff]
  simp

theorem finishes_iff (prev : Option Sample) : (enterCrossings i prev x s).finishes = s.finishes
    ↔ (s.lap (s.params.laps + 1)).count = ((enterCrossings i prev x s).lap (s.params.laps + 1)).count := by
  rw [State.finishes, State.finishes, (enterCrossings_effect i prev x s).params]
  exact eq_comm

variable (prev : Option Sample) (stored : State)

theorem handOn_of_off (off : ¬lineState s.race.state = true) :
    handOn stored i prev x s = jumpCheck i x (contactSample stored i x s) := by
  unfold handOn
  simp only [off]
  rfl

theorem handOn_of_line (line : lineState s.race.state = true) :
    handOn stored i prev x s = jumpCheck i x (contactSample stored i x (lineSample i prev x s)) := by
  unfold handOn
  simp only [line, if_true]

theorem lineSample_of_unfinished (same : (enterCrossings i prev x s).finishes = s.finishes) :
    lineSample i prev x s = evaluate (enterCrossings i prev x s) := if_pos same

theorem lineSample_of_finished (grown : ¬(enterCrossings i prev x s).finishes = s.finishes) :
    lineSample i prev x s = fieldTest (evaluate (enterCrossings i prev x s)) := if_neg grown

end

theorem acceptSample_written (p : PortNo) (i : Slot) (u : RaceTime) (x : RawSample) (s : State) :
    let c := s.car i
    let y := clampedSample s.params.dMax u x
    let st := if c.state ∈ [CarState.assigned, .coasting, .parked, .lost] then CarState.live else c.state
    let kept := y.d = x.d ∧ (y.v : Int) = x.v ∧ y.w = x.w ∧ y.a = x.a
    s.stores p i u x = (s.modPort p fun q => { q with counters := { q.counters with
        accepted := bump q.counters.accepted,
        clamped := if kept then q.counters.clamped else bump q.counters.clamped } }).setCar i
      { c with
        prev := c.last, last := some y, state := st,
        gridS := if s.race.state = .countdown ∧ c.gridS = none then some x.s else c.gridS,
        coastTimer := if st = .live then some (addTime u s.params.coastAfter) else none, loseTimer := none } := by
  intro c y st kept
  have counters (k : PortCounters) : countAccepted x y k =
      { k with accepted := bump k.accepted, clamped := if kept then k.clamped else bump k.clamped } := by
    unfold countAccepted
    by_cases same : kept
    · rw [if_neg fun was => (wasClamped_iff x y).mp was same, if_pos same]
    · rw [if_pos ((wasClamped_iff x y).mpr same), if_neg same]
  have record : storedCar s i u x = { c with
      prev := c.last, last := some y, state := st,
      gridS := if s.race.state = .countdown ∧ c.gridS = none then some x.s else c.gridS,
      coastTimer := if st = .live then some (addTime u s.params.coastAfter) else none, loseTimer := none } := by
    rw [storedCar, State.stored, afterSample_eq]
    rfl
  rw [State.stores, record, State.count_eq_modPort]
  simp only [counters, y]

theorem checkSample_count (s : State) (p : PortNo) (f : PortCounters → PortCounters) (mark : Option RaceTime) (x : RawSample) :
    (s.count p f).checkSample p mark x = s.checkSample p mark x := rfl

theorem Stored.of_count {i : Slot} {u : RaceTime} {x : RawSample} {s t : State} {p : PortNo} {f : PortCounters → PortCounters}
    (h : Stored i u x (s.count p f) t) : Stored i u x s t := h

/-- Each of a frame's samples is taken against what the one before has left (R41). -/
theorem samples_stored {p : PortNo} {s t : State} {mark : Option RaceTime} {x y : RawSample}
    (cars : ∀ j, SameCar ((takeSample p mark (takeSample p mark (s, false) x) y).1.car j) (t.car j)) :
    (∀ e, s.checkSample p mark x = .error e →
        (∀ e', s.checkSample p mark y = .error e' → ∀ j, SameCar (s.car j) (t.car j))
        ∧ (∀ j u, s.checkSample p mark y = .ok (j, u) → Stored j u y s t))
    ∧ (∀ i u, s.checkSample p mark x = .ok (i, u) →
        let v := acceptSample p i u x s
        Stored i u x s v
        ∧ (∀ e', v.checkSample p mark y = .error e' → ∀ j, SameCar (v.car j) (t.car j))
        ∧ (∀ j u', v.checkSample p mark y = .ok (j, u') → Stored j u' y v t)) := by
  refine ⟨fun e error => ?_, fun i u ok => ?_⟩
  · rw [takeSample_of_error (acc := (s, false)) error] at cars
    refine ⟨fun e' error' => ?_, fun j u ok' => ?_⟩
    · rw [← checkSample_count s p (countRefusal · e)] at error'
      rwa [takeSample_of_error (acc := (s.count p (countRefusal · e), false)) error'] at cars
    · rw [← checkSample_count s p (countRefusal · e)] at ok'
      rw [takeSample_of_ok (acc := (s.count p (countRefusal · e), false)) ok'] at cars
      exact (Stored.keeps (acceptSample_stored (p := p) (i := j) (s := s.count p (countRefusal · e))) cars).of_count
  · rw [takeSample_of_ok (acc := (s, false)) ok] at cars
    refine ⟨acceptSample_stored, fun e' error' => ?_, fun j u' ok' => ?_⟩
    · rwa [takeSample_of_error (acc := (acceptSample p i u x s, true)) error'] at cars
    · rw [takeSample_of_ok (acc := (acceptSample p i u x s, true)) ok'] at cars
      dsimp only at cars
      exact Stored.keeps acceptSample_stored cars

/-- A frame of one seat whose sample is accepted (R31, R41, R164). -/
theorem exec_car_accepts {p : PortNo} {stamp : RaceTime} {payload : List Byte} {i : Slot} {u : RaceTime} {s : State}
    (active : (s.port p).phase = .active) (long : payload.length = 16)
    (ok : s.checkSample p (forward (s.timing p) (carFrame payload)) (rawSample (field payload 2 14)) = .ok (i, u)) :
    ∃ t, exec (.car p stamp 1 payload) s = .next t ∧ Stored i u (rawSample (field payload 2 14)) s t
      ∧ (t.port p).gateSample = true
      ∧ ((s.carOutcome p true stamp payload).request = .none → (s.car i).state ∈ [CarState.assigned, .live, .coasting, .parked, .lost] →
        (t.car i).state = .finished
        ∨ ((t.car i).state = .live ∧ (t.car i).coastTimer = some (addTime u s.params.coastAfter)
          ∧ (t.car i).loseTimer = none))
      ∧ ((s.carOutcome p true stamp payload).request = .none → (s.car i).state = .finished → (t.car i).state = .finished) := by
  have hit : (s.carOutcome p true stamp payload).missed = false := timeFrame_hit _ stamp (checkSample_translated ok)
  have took : s.tookSamples p stamp payload = (acceptSample p i u (rawSample (field payload 2 14)) (s.heardCar p stamp), true) :=
    (tookSamples_of_one long).trans (takeSample_of_ok (acc := (s.heardCar p stamp, false)) ok)
  obtain ⟨t, exec_eq, cars, gate, silent⟩ := exec_car_takes active (decide_eq_true (.inl ⟨long, rfl⟩)) hit
  rw [took] at cars gate silent
  refine ⟨t, exec_eq, Stored.keeps (acceptSample_stored (s := s.heardCar p stamp)) cars, gate rfl, fun asks state => ?_,
    fun asks finished => ?_⟩
  · rw [silent asks i]
    exact acceptSample_live (s := s.heardCar p stamp) state
  · rw [silent asks i]
    exact acceptSample_finished (s := s.heardCar p stamp) finished

/-- A stored sample goes to the Line Unit in the states that race, then to the Contact Monitor and the jump check (R47, R99). -/
theorem handOn_eq (i : Slot) (x : Sample) (s stored : State) (prev : Option Sample) :
    (lineState s.race.state = true →
      (¬(s.lap (s.params.laps + 1)).count ≠ ((enterCrossings i prev x s).lap (s.params.laps + 1)).count →
        handOn stored i prev x s = jumpCheck i x (contactSample stored i x (evaluate (enterCrossings i prev x s))))
      ∧ ((s.lap (s.params.laps + 1)).count ≠ ((enterCrossings i prev x s).lap (s.params.laps + 1)).count →
        handOn stored i prev x s = jumpCheck i x (contactSample stored i x (fieldTest (evaluate (enterCrossings i prev x s))))))
    ∧ (¬lineState s.race.state = true → handOn stored i prev x s = jumpCheck i x (contactSample stored i x s)) := by
  refine ⟨fun line => ⟨fun same => ?_, fun grown => ?_⟩, handOn_of_off prev stored⟩
  · rw [handOn_of_line prev stored line, lineSample_of_unfinished prev ((finishes_iff prev).mpr (not_not.mp same))]
  · rw [handOn_of_line prev stored line, lineSample_of_finished prev fun same => grown ((finishes_iff prev).mp same)]

/-- Settles O21. -/
theorem sampleAccepted : Obligations.SampleAccepted := by
  unfold Obligations.SampleAccepted
  intro stores
  refine ⟨fun p stamp payload i u s => ?one, fun p stamp payload s => ?two, fun p i u x s => ?accepted, fun i x s => ?handed⟩
  case one => exact fun active long ok => exec_car_accepts active long ok
  case two =>
    intro first second x y f mark heard active long hit
    obtain ⟨t, exec_eq, cars, -, -⟩ := exec_car_takes active (decide_eq_true (.inr ⟨long, rfl⟩)) hit
    rw [tookSamples_of_two long] at cars
    exact ⟨t, exec_eq, samples_stored (s := s.heardCar p stamp) cars⟩
  case accepted =>
    have written := acceptSample_written p i u x s
    intro c y st kept stored
    rw [acceptSample_eq]
    exact congrArg (fun w => handOn w i c.last y (if c.state = .lost then raiseNow .carFound [i] w else w)) written
  case handed =>
    refine ⟨jumpCheck_of_jump, jumpCheck_of_none, fun stored prev => ?_⟩
    obtain ⟨line, off⟩ := handOn_eq i x s stored prev
    exact ⟨fun racing => line ((lineState_iff _).mpr racing), fun other => off fun racing => other ((lineState_iff _).mp racing)⟩

end Sys2Proof.Machine
end
